-- ==== Sys2Proof/Word.lean ====
section
/-! DEFINITION. The machine's words: plain bit vectors, and the eight payload bytes of a frame. -/

namespace Sys2Proof

/-- A byte: a handle, a peripheral selector, an opcode, a payload byte (00_scope.md R13). -/
abbrev Byte := BitVec 8

/-- A 32-bit word: command, event and operand words, `tx_id`, timestamps, counters (00_scope.md R13). -/
abbrev Word := BitVec 32

/-- A 29-bit CAN identifier (10_state.md R36). -/
abbrev CanId := BitVec 29

/-- The eight payload bytes `data[0]` to `data[7]` of a Message, carried whole whatever its length
is (10_state.md R36, 20_memory.md R83). -/
structure Payload where
  b0 : Byte
  b1 : Byte
  b2 : Byte
  b3 : Byte
  b4 : Byte
  b5 : Byte
  b6 : Byte
  b7 : Byte
deriving DecidableEq, Repr, Inhabited

end Sys2Proof
end

