-- ==== Sys2Proof/Syntax.lean ====
section
/-! DEFINITION. The commands and events of the block (30_encoding.md R118, R120), and the words that
carry them on the command port and the event port (R110, R112, R113). -/

namespace Sys2Proof

/-- The four callback slots of a Module, in the order of their codes 0 to 3 (10_state.md R50,
30_encoding.md R141). -/
inductive CbKind where
  | rx
  | txc
  | err
  | bus
deriving DecidableEq, Repr, Inhabited

/-- A command as the command port presents it: the command word and the operand fields beside it
(30_encoding.md R112, R113). A command ignores the fields it does not use. -/
structure CmdRecord where
  cmd   : Word
  txid  : Word
  mid   : Word
  mctl  : Word
  data  : BitVec 64
  ts    : Word
  fid   : Word
  fmask : Word
  cfg   : Word
deriving DecidableEq, Repr, Inhabited

/-- What the environment can present: a command on the command port or an event word on the event
port (30_encoding.md R110). -/
inductive PortInput where
  | command (c : CmdRecord)
  | event (w : Word)
deriving DecidableEq, Repr, Inhabited

/-- The instructions: one constructor per row of the opcode table, 13 commands and 3 events. -/
inductive Instr where
  /-- ALLOCATE with the fields of CFG (30_encoding.md R117). -/
  | allocate (periph : Byte) (loopback silent autoRetx rxLedEn : Bool)
  /-- FREE of the handle. -/
  | free (h : Byte)
  /-- ADD_FILTER with the receive FIFO and the fields of FID and FMASK (30_encoding.md R116). -/
  | addFilter (h : Byte) (fifo : BitVec 1) (id : CanId) (ide : Bool) (mask : CanId)
  /-- START of the handle. -/
  | start (h : Byte)
  /-- STOP of the handle. -/
  | stop (h : Byte)
  /-- REGISTER_CB of a callback slot with its enable bit. -/
  | registerCb (h : Byte) (kind : CbKind) (en : Bool)
  /-- TRANSMIT with the fields of MID and MCTL (30_encoding.md R114, R115), DATA, TS and TXID. -/
  | transmit (h : Byte) (prio : BitVec 3) (txid : Word) (id : CanId) (ide rtr : Bool)
      (len : BitVec 4) (data : BitVec 64) (ts : Word)
  /-- ABORT_TX of a `tx_id`. -/
  | abortTx (h : Byte) (txid : Word)
  /-- GET_OCCUPANCY of the handle. -/
  | getOccupancy (h : Byte)
  /-- RX_READ of the handle. -/
  | rxRead (h : Byte)
  /-- GET_BUS_STATE of the handle. -/
  | getBusState (h : Byte)
  /-- GET_ERROR_COUNTERS of the handle. -/
  | getErrorCounters (h : Byte)
  /-- GET_STATS of the handle. -/
  | getStats (h : Byte)
  /-- EVT_RX_PENDING: a frame waits in a receive FIFO of a peripheral. -/
  | evtRxPending (periph : Byte) (fifo : BitVec 1)
  /-- EVT_TX_COMPLETE: a hardware mailbox of a peripheral has completed. -/
  | evtTxComplete (periph : Byte) (mb : Byte)
  /-- EVT_ERROR of a peripheral. -/
  | evtError (periph : Byte)
deriving DecidableEq, Repr

end Sys2Proof
end

