-- ==== Sys2Proof/Config.lean ====
section
/-! DEFINITION. What an instance of the block fixes (its build parameters, 00_scope.md R5 to R12) and
the one free value: what the driver answers when nothing has fixed the answer. -/

namespace Sys2Proof

/-- How received frames are delivered (00_scope.md R11). -/
inductive RxMode where
  | buffered
  | passthrough
deriving DecidableEq, Repr, Inhabited

/-- The legal values of the parameter table, in its order (00_scope.md R5 to R9). -/
def legalValues (nInst poolCap numPrio rxDepth maxFilters numMb : Nat) : Bool :=
  decide (1 ≤ nInst) && decide (nInst ≤ 254)
  && (numPrio == 2 || numPrio == 4 || numPrio == 8)
  && decide (2 ≤ poolCap) && decide (poolCap ≤ 256)
  && poolCap % numPrio == 0 && decide (1 ≤ poolCap / numPrio)
  && [1, 2, 4, 8, 16, 32, 64, 128].contains rxDepth
  && decide (maxFilters ≤ 255)
  && decide (1 ≤ numMb) && decide (numMb ≤ 255)

/-- The build parameters of the table of 00_scope.md section 3. They are fixed before reset
(70_reset_and_hazards.md R453); State holds them and no step writes them. A value of this type carries
the proof that its parameters are legal, so a set that is not, such as a `POOL_CAP` that `NUM_PRIO` does
not divide or a `QCAP` of 0, is rejected when it is elaborated and no state of the block has it (R6). -/
structure Params where
  /-- `N_INST` (R5). -/
  nInst      : Nat
  /-- `POOL_CAP` (R6). -/
  poolCap    : Nat
  /-- `NUM_PRIO` (R6). -/
  numPrio    : Nat
  /-- `RX_DEPTH` (R7). -/
  rxDepth    : Nat
  /-- `MAX_FILTERS` (R8). -/
  maxFilters : Nat
  /-- `NUM_MB` (R9). -/
  numMb      : Nat
  /-- `STATS_EN` (R10). -/
  statsEn    : Bool
  /-- `RX_MODE` (R11). -/
  rxMode     : RxMode
  /-- The set is an instance of the block (R5 to R9, 70_reset_and_hazards.md R453). -/
  legal      : legalValues nInst poolCap numPrio rxDepth maxFilters numMb = true := by decide
deriving DecidableEq, Repr

/-- `QCAP = POOL_CAP / NUM_PRIO` (00_scope.md R6). -/
def Params.qcap (p : Params) : Nat := p.poolCap / p.numPrio

/-- The width of an Entry index, `ceil(log2(POOL_CAP))` bits and at least 1 (00_scope.md R13): for
`n >= 2`, `ceil(log2 n)` is `floor(log2 (n - 1)) + 1`. -/
def Params.entryBits (p : Params) : Nat := Nat.log2 (p.poolCap - 1) + 1

/-- The reference configuration of 92_eei_decisions.md D2 (log 1: DESIGN CHOICE). -/
def Params.reference : Params where
  nInst      := 2
  poolCap    := 16
  numPrio    := 4
  rxDepth    := 8
  maxFilters := 4
  numMb      := 3
  statsEn    := true
  rxMode     := .buffered

/-- The TX wire header `drv.add_tx` takes (30_encoding.md R146). -/
structure TxHeader where
  id  : CanId
  ide : Bool
  rtr : Bool
  len : BitVec 4
deriving DecidableEq, Repr, Inhabited

/-- The RX header `drv.get_rx` answers with (30_encoding.md R146). -/
structure RxHeader where
  id  : CanId
  ide : Bool
  rtr : Bool
  len : BitVec 4
  ts  : Word
deriving DecidableEq, Repr, Inhabited

/-- One answer of the driver layer. Each request reads the components that 30_encoding.md R145 gives
its answer and no other; `ok = false` is the answer `fail`. -/
structure DrvAnswer where
  /-- `ok` or `fail`. -/
  ok    : Bool
  /-- The mailbox index `m` of `drv.add_tx`. -/
  mb    : Nat
  /-- The count of `drv.free_mb`. -/
  count : Nat
  /-- The header of `drv.get_rx`. -/
  hdr   : RxHeader
  /-- The data of `drv.get_rx`. -/
  data  : Payload
  /-- The code of `drv.error_code`. -/
  code  : Word
  /-- The TX error counter `tec` of `drv.bus_regs`. -/
  txErr : Byte
  /-- The RX error counter `rec` of `drv.bus_regs`. -/
  rxErr : Byte
  /-- The bus-off flag of `drv.bus_regs`. -/
  boff  : Bool
  /-- The error-passive flag of `drv.bus_regs`. -/
  epv   : Bool
deriving DecidableEq, Repr, Inhabited

/-- The free value: the `n`-th answer of a driver that nothing else describes (93_implementation_defined.md U9; log 2).
Nothing in Lean knows what it is. -/
opaque Config.freeAnswer : Nat → DrvAnswer

end Sys2Proof
end

