-- ==== Sys2Proof/Machine/State.lean ====
section
/-! DEFINITION. The state of the block (10_state.md), the records its ports carry (30_encoding.md), the
reasons a step can stop, and the state after power-on reset (70_reset_and_hazards.md R450). -/

namespace Sys2Proof.Machine

/-! ## Reasons a step can stop -/

/-- The fault reasons of 60_exceptions.md R430. The faulting step records one in `State.fault`; every
step from a state with a recorded fault stops with it (00_scope.md R20; log 4). -/
inductive Fault where
  /-- An internal check failed: raised by the queue, pool, ring and filter operations on an index of
  the block's own state that fails its check (20_memory.md R81, 40_priority_queue.md R162) and by the
  assertions at a step boundary (10_state.md R40, R41, R45). Safe: the spec says it is stuck here. -/
  | invariantBroken
  /-- The environment broke the driver contract in a way the block sees: raised by event decode
  (30_encoding.md R121), by the mailbox index and free count of the driver (42_mailbox_tracker.md R233,
  60_exceptions.md R425) and by an RX header (44_interrupt_dispatch.md R321). Safe: the spec says it is
  stuck here. -/
  | driverContract
deriving DecidableEq, Repr

/-- Reasons an instruction has no meaning. No arm of this model answers with one. -/
inductive Refusal where
  /-- Raised by exec's arm of an instruction that has no meaning yet. Safe: nothing is claimed of it. -/
  | notModelled (mnemonic : String)
deriving DecidableEq, Repr

/-! ## What the Module slots hold -/

/-- A Message (10_state.md R36). -/
structure Message where
  id   : CanId
  ide  : Bool
  rtr  : Bool
  len  : BitVec 4
  data : Payload
  ts   : Word
deriving DecidableEq, Repr, Inhabited

/-- An Entry of the Entry Pool (10_state.md R34). -/
structure Entry where
  inUse : Bool
  msg   : Message
  txId  : Word
  prio  : BitVec 3
deriving DecidableEq, Repr, Inhabited

/-- One priority level's circular queue of Entry indices (10_state.md R37). An Entry index is a natural
number of `Params.entryBits` bits, which the invariant `CanModule.rangesOk` says of every slot, the stale
ones too (00_scope.md R13; log 9). -/
structure PrioQueue where
  slot  : List Nat
  head  : Nat
  tail  : Nat
  count : Nat
deriving DecidableEq, Repr, Inhabited

/-- The RX ring: Messages, two free-running cursors modulo `2*RX_DEPTH`, the overrun counter
(10_state.md R42 to R44). -/
structure RxRing where
  slot    : List Message
  widx    : Nat
  ridx    : Nat
  overrun : Word
deriving DecidableEq, Repr, Inhabited

/-- A Mailbox Tracker slot (10_state.md R46). -/
structure Mailbox where
  active : Bool
  txId   : Word
deriving DecidableEq, Repr, Inhabited

/-- A staged filter (10_state.md R48). -/
structure RxFilter where
  id   : CanId
  mask : CanId
  ide  : Bool
  fifo : BitVec 1
deriving DecidableEq, Repr, Inhabited

/-- A Module's configuration (10_state.md R33). -/
structure ModuleCfg where
  periph   : Byte
  loopback : Bool
  silent   : Bool
  autoRetx : Bool
  rxLedEn  : Bool
deriving DecidableEq, Repr, Inhabited

/-- The four callback enables (10_state.md R50). -/
structure CbEnables where
  rx  : Bool
  txc : Bool
  err : Bool
  bus : Bool
deriving DecidableEq, Repr, Inhabited

/-- The statistics counters (10_state.md R52). -/
structure Stats where
  tx  : Word
  rx  : Word
  err : Word
deriving DecidableEq, Repr, Inhabited

/-- One Module slot `M[h]` (10_state.md R31 to R52). -/
structure CanModule where
  allocated : Bool
  started   : Bool
  cfg       : ModuleCfg
  pool      : List Entry
  used      : Nat
  pq        : List PrioQueue
  bitmap    : BitVec 8
  rx        : RxRing
  mb        : List Mailbox
  flt       : List RxFilter
  fltCount  : Nat
  cbEn      : CbEnables
  stat      : Stats
deriving DecidableEq, Repr, Inhabited

/-! ## The normal context -/

/-- Result codes (30_encoding.md R130). -/
inductive ResultCode where
  | ok
  | invalidParam
  | invalidHandle
  | notStarted
  | alreadyStarted
  | txQueueFull
  | filterFull
  | noResource
  | driverError
  | busOff
  | busPassive
  | rxOverrun
deriving DecidableEq, Repr, Inhabited

/-- The step a multi-step command executes next (10_state.md R55). -/
inductive Phase where
  | idle
  | subQuery
  | subDeq
  | subAdd
  | subFree
deriving DecidableEq, Repr, Inhabited

/-- The normal-context phase register `nctx` (10_state.md R55). `held = none` is `NONE`; an Entry index
held has `Params.entryBits` bits (00_scope.md R13), which the invariant `State.nctxOk` says (log 9). -/
structure Nctx where
  phase : Phase
  op    : Byte
  h     : Byte
  held  : Option Nat
  drain : Bool
  pend  : ResultCode
deriving DecidableEq, Repr, Inhabited

/-! ## What the ports carry -/

/-- Bus states (30_encoding.md R135). -/
inductive BusState where
  | active
  | passive
  | busOff
deriving DecidableEq, Repr, Inhabited

/-- The kinds of an ERR notification; no other is ever emitted (30_encoding.md R136). -/
inductive ErrKind where
  | driverError
  | busOff
  | busPassive
  | rxOverrun
deriving DecidableEq, Repr, Inhabited

/-- A response of the command port: the fields of RSP and the response data fields
(30_encoding.md R131, R132). -/
structure Response where
  result  : ResultCode
  rhandle : Byte
  flag    : Bool
  bus     : BitVec 2
  rd0     : Word
  rd1     : Word
  rd2     : Word
  rd3     : Word
  rmid    : Word
  rmctl   : Word
  rdata   : BitVec 64
  rts     : Word
deriving DecidableEq, Repr, Inhabited

/-- What a notification record says, with the payload of its kind (30_encoding.md R141, R142). -/
inductive NtfBody where
  /-- RX: the received Message. -/
  | rx (rmid rmctl : Word) (rdata : BitVec 64) (rts : Word)
  /-- TXC: the `tx_id` of the completed transmission. -/
  | txc (txid : Word)
  /-- ERR: the classified kind, and AUX. -/
  | err (kind : ErrKind) (aux : Word)
  /-- BUS: the new bus state. -/
  | bus (state : BusState)
  /-- ACT: the activity indicator (R143). -/
  | act
deriving DecidableEq, Repr, Inhabited

/-- A notification record: the emitting Module's handle and what it says (30_encoding.md R140). -/
structure Notification where
  handle : Byte
  body   : NtfBody
deriving DecidableEq, Repr, Inhabited

/-- A driver request for one peripheral, with its arguments (30_encoding.md R145). -/
inductive DrvRequest where
  | start (p : Byte) (loopback silent autoRetx : Bool)
  | stop (p : Byte)
  | configFilter (p : Byte) (bank : Nat) (f : RxFilter)
  | activate (p : Byte)
  | deactivate (p : Byte)
  | addTx (p : Byte) (hdr : TxHeader) (data : Payload)
  | getRx (p : Byte) (fifo : BitVec 1)
  | freeMb (p : Byte)
  | errorCode (p : Byte)
  | busRegs (p : Byte)
deriving DecidableEq, Repr, Inhabited

/-- What passes between the block and the driver layer: a request with its answer on the
driver-request port, or an event word the block has taken from the event port (30_encoding.md R110). -/
inductive DrvRecord where
  | request (r : DrvRequest) (a : DrvAnswer)
  | event (w : Word)
deriving DecidableEq, Repr, Inhabited

/-- What the environment does at a step boundary: it presents a command or an event, or it lets the
normal context make its next step (60_exceptions.md R410, R414; log 3). -/
inductive Turn where
  | present (x : PortInput)
  | normal
deriving DecidableEq, Repr, Inhabited

/-! ## The state -/

/-- The block's state: the Module table, `nctx` and the fault record are the architectural state of
10_state.md R30; `params` is the build (00_scope.md R5 to R12); `rsp`, `ntf` and `drvLog` are what the
ports have carried out; `turns`, `drvAns` and `drawn` are the environment's coming choices
(log 2, log 3); `submitted` is the model's own record (log 22). -/
structure State where
  /-- The build parameters; no step writes them. -/
  params  : Params
  /-- The Module table `M[0 .. N_INST-1]` (10_state.md R31). -/
  modules : List CanModule
  /-- The normal-context phase register (10_state.md R55). -/
  nctx    : Nctx
  /-- The fault record (10_state.md R57). -/
  fault   : Option Fault
  /-- The responses answered on the command port, in order. -/
  rsp     : List Response
  /-- The notification port's records, in emission order (00_scope.md R17). -/
  ntf     : List Notification
  /-- The driver requests with their answers, and the events taken, in order. -/
  drvLog  : List DrvRecord
  /-- What the environment does at the coming step boundaries. -/
  turns   : List Turn
  /-- The answers the environment has fixed for the coming driver requests. -/
  drvAns  : List DrvAnswer
  /-- How many driver answers have been drawn. -/
  drawn   : Nat
  /-- The `tx_id` of each submission the driver accepted, in the order of the accepted add requests of
  `drvLog`, which do not carry it. No meaning reads it (10_state.md R47; log 22). -/
  submitted : List Word
deriving DecidableEq, Repr

/-! ## Reset -/

/-- A Message of zeros. -/
def Message.zero : Message where
  id := 0
  ide := false
  rtr := false
  len := 0
  data := ⟨0, 0, 0, 0, 0, 0, 0, 0⟩
  ts := 0

/-- An Entry of zeros. -/
def Entry.zero : Entry where
  inUse := false
  msg := .zero
  txId := 0
  prio := 0

/-- A filter of zeros. -/
def RxFilter.zero : RxFilter where
  id := 0
  mask := 0
  ide := false
  fifo := 0

/-- A Module slot with every field 0: after power-on reset, after FREE, and the start of ALLOCATE
(10_state.md section 12, R53). -/
def CanModule.zero (p : Params) : CanModule where
  allocated := false
  started := false
  cfg := ⟨0, false, false, false, false⟩
  pool := List.replicate p.poolCap .zero
  used := 0
  pq := List.replicate p.numPrio ⟨List.replicate p.qcap 0, 0, 0, 0⟩
  bitmap := 0
  rx := ⟨List.replicate p.rxDepth .zero, 0, 0, 0⟩
  mb := List.replicate p.numMb ⟨false, 0⟩
  flt := List.replicate p.maxFilters .zero
  fltCount := 0
  cbEn := ⟨false, false, false, false⟩
  stat := ⟨0, 0, 0⟩

/-- `nctx` after reset (70_reset_and_hazards.md R450). -/
def Nctx.reset : Nctx where
  phase := .idle
  op := 0
  h := 0
  held := none
  drain := false
  pend := .ok

/-- Power-on reset of an instance of the block (70_reset_and_hazards.md R450). No other set of parameters
is a `Params` (00_scope.md R6). -/
def State.resetWith (p : Params) : State where
  params := p
  modules := List.replicate p.nInst (.zero p)
  nctx := .reset
  fault := none
  rsp := []
  ntf := []
  drvLog := []
  turns := []
  drvAns := []
  drawn := 0
  submitted := []

/-- Power-on reset of the reference configuration (log 1). -/
def State.reset : State := State.resetWith Params.reference

end Sys2Proof.Machine
end

