-- ==== Sys2Proof/Machine/Flags.lean ====
section
/-! DEFINITION. The status bits the block computes: the priority bitmap's bits (10_state.md R39), the
bus state (43_module.md R296) and the error classification (44_interrupt_dispatch.md R342). The block has
no condition flags (00_scope.md R22). -/

namespace Sys2Proof.Machine

/-- `ffs(b)`: the index of the least significant set bit, `none` when there is none
(00_scope.md R14, 40_priority_queue.md R160). -/
def ffs (b : BitVec 8) : Option Nat := (List.range 8).find? fun i => b.getLsbD i

/-- `bitmap[L] <- 1`. -/
def setBit (b : BitVec 8) (l : Nat) : BitVec 8 := b ||| (1#8 <<< l)

/-- `bitmap[L] <- 0`. -/
def clearBit (b : BitVec 8) (l : Nat) : BitVec 8 := b &&& ~~~(1#8 <<< l)

/-- The bus state of the driver's flags: bus-off before error-passive (43_module.md R296, R297). -/
def busState (boff epv : Bool) : BusState :=
  if boff then .busOff else if epv then .passive else .active

/-- The bus state an error code reports as a transition, `none` for a generic code: bit 0 (`BOF`)
before bit 1 (`EPV`) (30_encoding.md R147, 44_interrupt_dispatch.md R342). -/
def errorTransition (c : Word) : Option BusState :=
  if c.getLsbD 0 then some .busOff else if c.getLsbD 1 then some .passive else none

/-- The error kind of an error code (44_interrupt_dispatch.md R342). -/
def errorKind (c : Word) : ErrKind :=
  if c.getLsbD 0 then .busOff else if c.getLsbD 1 then .busPassive else .driverError

/-- The callback slot's enable bit (10_state.md R50). -/
def CbEnables.get (e : CbEnables) : CbKind → Bool
  | .rx => e.rx
  | .txc => e.txc
  | .err => e.err
  | .bus => e.bus

/-- `cb_en[kind] <- en` (43_module.md R294). -/
def CbEnables.set (e : CbEnables) (k : CbKind) (en : Bool) : CbEnables :=
  match k with
  | .rx => { e with rx := en }
  | .txc => { e with txc := en }
  | .err => { e with err := en }
  | .bus => { e with bus := en }

end Sys2Proof.Machine
end

