-- ==== Sys2Proof/WellFormed.lean ====
section
/-! DEFINITION. Which instructions exist in a configuration: the checks of 30_encoding.md R119 and
R121 that depend on a build parameter. The checks on the bits of a word are the decoder's. -/

namespace Sys2Proof

/-- GET_STATS exists only when `STATS_EN = 1` (30_encoding.md R118, R119). A mailbox index of
EVT_TX_COMPLETE must be below `NUM_MB` (R121). Every other operand is legal at every value its field
admits; what a command answers for it is its own rule's matter. -/
def Instr.wellFormed (p : Params) : Instr → Bool
  | .allocate _ _ _ _ _ => true
  | .free _ => true
  | .addFilter _ _ _ _ _ => true
  | .start _ => true
  | .stop _ => true
  | .registerCb _ _ _ => true
  | .transmit _ _ _ _ _ _ _ _ _ => true
  | .abortTx _ _ => true
  | .getOccupancy _ => true
  | .rxRead _ => true
  | .getBusState _ => true
  | .getErrorCounters _ => true
  | .getStats _ => p.statsEn
  | .evtRxPending _ _ => true
  | .evtTxComplete _ m => decide (m.toNat < p.numMb)
  | .evtError _ => true

end Sys2Proof
end

