-- ==== Sys2Proof/Decode.lean ====
section
/-! DEFINITION. The decoder and the encoder, both written from the formats of 30_encoding.md R112 to
R122. The decoder is total: a word that is no instruction is rejected by name. -/

namespace Sys2Proof

/-- Why a presented word is no instruction. A rejected command answers InvalidParam
(30_encoding.md R119); a rejected event is the fault DriverContract (R121). -/
inductive Reject where
  /-- `OP` is none of the 13 command opcodes (R119). -/
  | unassignedOpcode
  /-- A reserved or must-be-zero bit of `CMD` is 1 (R112, R119). -/
  | commandBits
  /-- A reserved bit of an operand field the opcode uses is 1 (R114 to R117, R119). -/
  | operandBits
  /-- `EOP` is none of the 3 event opcodes (R121). -/
  | unassignedEvent
  /-- A reserved bit of `EVT` is 1 (R120, R121). -/
  | eventBits
  /-- `SUB` is above 1 for EVT_RX_PENDING, or not 0 for EVT_ERROR (R121). -/
  | subRange
deriving DecidableEq, Repr

/-! ## Bit fields and byte order -/

/-- `CMD[7:0]` is `OP`, and `EVT[7:0]` is `EOP` (R112, R120). -/
def opField (w : Word) : Byte := w.extractLsb' 0 8

/-- `CMD[15:8]` is `H`, and `EVT[15:8]` is `PERIPH` (R112, R120). -/
def unitField (w : Word) : Byte := w.extractLsb' 8 8

/-- `CMD[18:16]` is `A` (R112). -/
def argField (w : Word) : BitVec 3 := w.extractLsb' 16 3

/-- `CMD[19]` is `E` (R112). -/
def enableField (w : Word) : Bool := w.getLsbD 19

/-- `CMD[31:20]` is reserved (R112). -/
def cmdReserved (w : Word) : BitVec 12 := w.extractLsb' 20 12

/-- `EVT[23:16]` is `SUB` (R120). -/
def subField (w : Word) : Byte := w.extractLsb' 16 8

/-- `EVT[31:24]` is reserved (R120). -/
def evtReserved (w : Word) : Byte := w.extractLsb' 24 8

/-- Bits 28:0 of MID, FID and FMASK (R114, R116). -/
def idField (w : Word) : CanId := w.extractLsb' 0 29

/-- Bit 29 of MID and FID is `IDE` (R114, R116). -/
def ideField (w : Word) : Bool := w.getLsbD 29

/-- Bit 30 of MID is `RTR` (R114). -/
def rtrField (w : Word) : Bool := w.getLsbD 30

/-- `MCTL[3:0]` is `LEN` (R115). -/
def lenField (w : Word) : BitVec 4 := w.extractLsb' 0 4

/-- A field's value at bit `lo` of a word, `v << lo`. -/
def place {n : Nat} (v : BitVec n) (lo : Nat) : Word := v.setWidth 32 <<< lo

/-- A one-bit field at bit `lo` of a word. -/
def flagBit (b : Bool) (lo : Nat) : Word := place (BitVec.ofBool b) lo

/-- The word `{0, rtr, ide, id}`: MID, and RMID in responses and notifications (R114). -/
def midWord (id : CanId) (ide rtr : Bool) : Word := place id 0 ||| flagBit ide 29 ||| flagBit rtr 30

/-- The word `zext_32(len)`: MCTL, and RMCTL (R115). -/
def mctlWord (len : BitVec 4) : Word := place len 0

/-- `DATA[8i+7 : 8i]` is payload byte `i` (20_memory.md R83). -/
def Payload.ofData (d : BitVec 64) : Payload where
  b0 := d.extractLsb' 0 8
  b1 := d.extractLsb' 8 8
  b2 := d.extractLsb' 16 8
  b3 := d.extractLsb' 24 8
  b4 := d.extractLsb' 32 8
  b5 := d.extractLsb' 40 8
  b6 := d.extractLsb' 48 8
  b7 := d.extractLsb' 56 8

/-- The 64-bit field that carries a payload: byte `i` at bits `8i+7 : 8i` (20_memory.md R83). -/
def Payload.toData (p : Payload) : BitVec 64 :=
  p.b0.setWidth 64 ||| p.b1.setWidth 64 <<< 8 ||| p.b2.setWidth 64 <<< 16
  ||| p.b3.setWidth 64 <<< 24 ||| p.b4.setWidth 64 <<< 32 ||| p.b5.setWidth 64 <<< 40
  ||| p.b6.setWidth 64 <<< 48 ||| p.b7.setWidth 64 <<< 56

/-- The code of a callback kind (30_encoding.md R141). -/
def CbKind.code : CbKind → BitVec 2
  | .rx => 0
  | .txc => 1
  | .err => 2
  | .bus => 3

/-- The callback kind of a code; all four codes are assigned (30_encoding.md R141). -/
def CbKind.ofCode (c : BitVec 2) : CbKind :=
  if c = 0 then .rx else if c = 1 then .txc else if c = 2 then .err else .bus

/-! ## The decoder -/

/-- The must-be-zero fields of a command word that is neither ADD_FILTER, REGISTER_CB nor TRANSMIT:
`A` and `E` (R112). -/
def plainArgs (c : CmdRecord) : Bool := argField c.cmd == 0 && !enableField c.cmd

/-- A command with a handle and no other operand (R118). -/
def decodeHandleOnly (c : CmdRecord) (mk : Byte → Instr) : Except Reject Instr :=
  if plainArgs c then .ok (mk (unitField c.cmd)) else .error .commandBits

/-- ALLOCATE: `H`, `A` and `E` are 0; CFG as R117 lays it out. -/
def decodeAllocate (c : CmdRecord) : Except Reject Instr :=
  if !(plainArgs c && unitField c.cmd == 0) then .error .commandBits
  else if c.cfg.extractLsb' 12 20 != 0 then .error .operandBits
  else .ok (.allocate (c.cfg.extractLsb' 0 8) (c.cfg.getLsbD 8) (c.cfg.getLsbD 9)
    (c.cfg.getLsbD 10) (c.cfg.getLsbD 11))

/-- ADD_FILTER: `FIFO` is bit 16, bits 18:17 and `E` are 0; FID and FMASK as R116 lays them out. -/
def decodeAddFilter (c : CmdRecord) : Except Reject Instr :=
  if (argField c.cmd).extractLsb' 1 2 != 0 || enableField c.cmd then .error .commandBits
  else if c.fid.extractLsb' 30 2 != 0 || c.fmask.extractLsb' 29 3 != 0 then .error .operandBits
  else .ok (.addFilter (unitField c.cmd) ((argField c.cmd).extractLsb' 0 1) (idField c.fid)
    (ideField c.fid) (idField c.fmask))

/-- REGISTER_CB: `KIND` is bits 17:16, bit 18 is 0, `E` is the enable bit (R112). -/
def decodeRegisterCb (c : CmdRecord) : Except Reject Instr :=
  if (argField c.cmd).getLsbD 2 then .error .commandBits
  else .ok (.registerCb (unitField c.cmd) (CbKind.ofCode ((argField c.cmd).extractLsb' 0 2))
    (enableField c.cmd))

/-- TRANSMIT: `PRIO` is `A`, `E` is 0; MID, MCTL, DATA, TS and TXID as R113 to R115 lay them out. -/
def decodeTransmit (c : CmdRecord) : Except Reject Instr :=
  if enableField c.cmd then .error .commandBits
  else if c.mid.getLsbD 31 || c.mctl.extractLsb' 4 28 != 0 then .error .operandBits
  else .ok (.transmit (unitField c.cmd) (argField c.cmd) c.txid (idField c.mid) (ideField c.mid)
    (rtrField c.mid) (lenField c.mctl) c.data c.ts)

/-- ABORT_TX: a handle and TXID (R118). -/
def decodeAbortTx (c : CmdRecord) : Except Reject Instr :=
  if plainArgs c then .ok (.abortTx (unitField c.cmd) c.txid) else .error .commandBits

/-- The command decoder: the opcode map of R118 and the checks of R119 on bits. -/
def decodeCommand (c : CmdRecord) : Except Reject Instr :=
  if cmdReserved c.cmd != 0 then .error .commandBits
  else if opField c.cmd = 0x01 then decodeAllocate c
  else if opField c.cmd = 0x02 then decodeHandleOnly c .free
  else if opField c.cmd = 0x03 then decodeAddFilter c
  else if opField c.cmd = 0x04 then decodeHandleOnly c .start
  else if opField c.cmd = 0x05 then decodeHandleOnly c .stop
  else if opField c.cmd = 0x06 then decodeRegisterCb c
  else if opField c.cmd = 0x10 then decodeTransmit c
  else if opField c.cmd = 0x11 then decodeAbortTx c
  else if opField c.cmd = 0x12 then decodeHandleOnly c .getOccupancy
  else if opField c.cmd = 0x20 then decodeHandleOnly c .rxRead
  else if opField c.cmd = 0x30 then decodeHandleOnly c .getBusState
  else if opField c.cmd = 0x31 then decodeHandleOnly c .getErrorCounters
  else if opField c.cmd = 0x32 then decodeHandleOnly c .getStats
  else .error .unassignedOpcode

/-- The event decoder: R120 and the checks of R121 on bits. -/
def decodeEvent (w : Word) : Except Reject Instr :=
  if evtReserved w != 0 then .error .eventBits
  else if opField w = 0x81 then
    if (subField w).extractLsb' 1 7 != 0 then .error .subRange
    else .ok (.evtRxPending (unitField w) ((subField w).extractLsb' 0 1))
  else if opField w = 0x82 then .ok (.evtTxComplete (unitField w) (subField w))
  else if opField w = 0x83 then
    if subField w != 0 then .error .subRange else .ok (.evtError (unitField w))
  else .error .unassignedEvent

/-- The decoder: `OP` or `EOP` alone selects the operation (R122). -/
def decode : PortInput → Except Reject Instr
  | .command c => decodeCommand c
  | .event w => decodeEvent w

/-! ## The encoder -/

/-- A command word from its fields (R112). -/
def cmdWord (op h : Byte) (a : BitVec 3) (e : Bool) : Word :=
  place op 0 ||| place h 8 ||| place a 16 ||| flagBit e 19

/-- An event word from its fields (R120). -/
def evtWord (eop periph sub : Byte) : Word := place eop 0 ||| place periph 8 ||| place sub 16

/-- A command word whose operand fields are all zero. -/
def CmdRecord.ofWord (w : Word) : CmdRecord where
  cmd := w
  txid := 0
  mid := 0
  mctl := 0
  data := 0
  ts := 0
  fid := 0
  fmask := 0
  cfg := 0

/-- A command word with a handle, `A` and `E` zero, and no operand. -/
def handleCmd (op h : Byte) : CmdRecord := .ofWord (cmdWord op h 0 false)

/-- The words of an instruction, the operand fields its opcode does not use at zero. -/
def encode : Instr → PortInput
  | .allocate p lb sil artx led =>
    .command { CmdRecord.ofWord (cmdWord 0x01 0 0 false) with
      cfg := place p 0 ||| flagBit lb 8 ||| flagBit sil 9 ||| flagBit artx 10 ||| flagBit led 11 }
  | .free h => .command (handleCmd 0x02 h)
  | .addFilter h fifo id ide mask =>
    .command { CmdRecord.ofWord (cmdWord 0x03 h (fifo.setWidth 3) false) with
      fid := place id 0 ||| flagBit ide 29
      fmask := place mask 0 }
  | .start h => .command (handleCmd 0x04 h)
  | .stop h => .command (handleCmd 0x05 h)
  | .registerCb h kind en => .command (.ofWord (cmdWord 0x06 h (kind.code.setWidth 3) en))
  | .transmit h prio txid id ide rtr len data ts =>
    .command { CmdRecord.ofWord (cmdWord 0x10 h prio false) with
      txid := txid
      mid := midWord id ide rtr
      mctl := mctlWord len
      data := data
      ts := ts }
  | .abortTx h txid => .command { handleCmd 0x11 h with txid := txid }
  | .getOccupancy h => .command (handleCmd 0x12 h)
  | .rxRead h => .command (handleCmd 0x20 h)
  | .getBusState h => .command (handleCmd 0x30 h)
  | .getErrorCounters h => .command (handleCmd 0x31 h)
  | .getStats h => .command (handleCmd 0x32 h)
  | .evtRxPending p fifo => .event (evtWord 0x81 p (fifo.setWidth 8))
  | .evtTxComplete p m => .event (evtWord 0x82 p m)
  | .evtError p => .event (evtWord 0x83 p 0)

/-! ## The opcode table's numbering -/

/-- The port a table row's word is for: the event opcodes 0x81 to 0x83 are on the event port, every
other word on the command port (R118, R120). -/
def isEventWord (w : Word) : Bool := opField w == 0x81 || opField w == 0x82 || opField w == 0x83

/-- An instruction given as one number, as spec/opcode_table.json numbers its bits: the 32-bit word
first; for a command the operand fields follow in the order of R113 (log 6). Bits at `nbits` and above
are zero. -/
def PortInput.ofTableBits (nbits w : Nat) : PortInput :=
  let v := w % 2 ^ nbits
  let word := BitVec.ofNat 32 v
  if isEventWord word then .event word
  else .command
    { cmd := word
      txid := BitVec.ofNat 32 (v / 2 ^ 32)
      mid := BitVec.ofNat 32 (v / 2 ^ 64)
      mctl := BitVec.ofNat 32 (v / 2 ^ 96)
      data := BitVec.ofNat 64 (v / 2 ^ 128)
      ts := BitVec.ofNat 32 (v / 2 ^ 192)
      fid := BitVec.ofNat 32 (v / 2 ^ 224)
      fmask := BitVec.ofNat 32 (v / 2 ^ 256)
      cfg := BitVec.ofNat 32 (v / 2 ^ 288) }

/-- What the decoder reads from an instruction whose bits are `w`. -/
def decodeTableWord (nbits w : Nat) : Option Instr :=
  match decode (PortInput.ofTableBits nbits w) with
  | .ok i => some i
  | .error _ => none

end Sys2Proof
end

