-- ==== Sys2Proof/Machine/Operands.lean ====
section
/-! DEFINITION. The operand forms: the checks on message and filter operands, the Message a command or a
received frame gives, and the words that responses and notifications carry (30_encoding.md). -/

namespace Sys2Proof.Machine

/-- A standard identifier (or mask) above 0x7FF: `ide = 0` and bits 28:11 not zero
(30_encoding.md R114, R116). -/
def stdOverflow (ide : Bool) (v : CanId) : Bool := !ide && v.extractLsb' 11 18 != 0

/-- `check_message`: true when the message operands are legal (40_priority_queue.md R181). -/
def messageOk (p : Params) (prio : BitVec 3) (id : CanId) (ide : Bool) (len : BitVec 4) : Bool :=
  decide (prio.toNat < p.numPrio) && decide (len.toNat ≤ 8) && !stdOverflow ide id

/-- `check_filter`: true when the filter operands are legal (43_module.md R276). -/
def filterOk (id : CanId) (ide : Bool) (mask : CanId) : Bool :=
  !stdOverflow ide id && !stdOverflow ide mask

/-- The Message of TRANSMIT's operands (40_priority_queue.md R180). -/
def txMessage (id : CanId) (ide rtr : Bool) (len : BitVec 4) (data : BitVec 64) (ts : Word) :
    Message where
  id := id
  ide := ide
  rtr := rtr
  len := len
  data := .ofData data
  ts := ts

/-- `header(msg)`: the TX wire header; the timestamp is not part of it (42_mailbox_tracker.md R232). -/
def txHeader (m : Message) : TxHeader where
  id := m.id
  ide := m.ide
  rtr := m.rtr
  len := m.len

/-- What the driver contract requires of an RX header (60_exceptions.md R424). -/
def rxHeaderOk (h : RxHeader) : Bool := decide (h.len.toNat ≤ 8) && !stdOverflow h.ide h.id

/-- `parse(hdr, data)`: the Message of a received frame (44_interrupt_dispatch.md R321). -/
def parseFrame (h : RxHeader) (d : Payload) : Message where
  id := h.id
  ide := h.ide
  rtr := h.rtr
  len := h.len
  data := d
  ts := h.ts

/-! ## Codes and words of the ports -/

/-- Result-code numbers (30_encoding.md R130). -/
def ResultCode.code : ResultCode → Byte
  | .ok => 0x00
  | .invalidParam => 0x01
  | .invalidHandle => 0x02
  | .notStarted => 0x03
  | .alreadyStarted => 0x04
  | .txQueueFull => 0x05
  | .filterFull => 0x06
  | .noResource => 0x07
  | .driverError => 0x08
  | .busOff => 0x09
  | .busPassive => 0x0A
  | .rxOverrun => 0x0B

/-- Bus-state codes (30_encoding.md R135). -/
def BusState.code : BusState → BitVec 2
  | .active => 0
  | .passive => 1
  | .busOff => 2

/-- `ECODE` of an error kind (30_encoding.md R136). -/
def ErrKind.code : ErrKind → Byte
  | .driverError => 0x08
  | .busOff => 0x09
  | .busPassive => 0x0A
  | .rxOverrun => 0x0B

/-- The response word `RSP[31:0]` (30_encoding.md R131). -/
def Response.word (r : Response) : Word :=
  place r.result.code 0 ||| place r.rhandle 8 ||| flagBit r.flag 16 ||| place r.bus 17

/-- A response with its result and every other field 0 (30_encoding.md R131). -/
def Response.ofResult (c : ResultCode) : Response where
  result := c
  rhandle := 0
  flag := false
  bus := 0
  rd0 := 0
  rd1 := 0
  rd2 := 0
  rd3 := 0
  rmid := 0
  rmctl := 0
  rdata := 0
  rts := 0

/-- The invalid handle, `RHANDLE` of a failed ALLOCATE (30_encoding.md R133). -/
def invalidHandle : Byte := 0xFF

/-- The response of a failed ALLOCATE (30_encoding.md R131, R133). -/
def Response.noHandle (c : ResultCode) : Response :=
  { Response.ofResult c with rhandle := invalidHandle }

/-- The code of a notification's kind, `NTF[2:0]` (30_encoding.md R141). -/
def NtfBody.kindCode : NtfBody → BitVec 3
  | .rx _ _ _ _ => 0
  | .txc _ => 1
  | .err _ _ => 2
  | .bus _ => 3
  | .act => 4

/-- The callback slot that gates a notification; the activity indicator has none
(30_encoding.md R141). -/
def NtfBody.slot : NtfBody → Option CbKind
  | .rx _ _ _ _ => some .rx
  | .txc _ => some .txc
  | .err _ _ => some .err
  | .bus _ => some .bus
  | .act => none

/-- The notification word `NTF[31:0]` (30_encoding.md R140). -/
def Notification.word (n : Notification) : Word := place n.body.kindCode 0 ||| place n.handle 8

/-- RMID of a Message (30_encoding.md R114). -/
def rmidOf (m : Message) : Word := midWord m.id m.ide m.rtr

/-- RMCTL of a Message (30_encoding.md R115). -/
def rmctlOf (m : Message) : Word := mctlWord m.len

/-- The RX notification of a Message (30_encoding.md R142). -/
def rxNotification (m : Message) : NtfBody := .rx (rmidOf m) (rmctlOf m) m.data.toData m.ts

/-- The opcode in a command word is ALLOCATE's (30_encoding.md R118). -/
def isAllocateOp (c : CmdRecord) : Bool := opField c.cmd == 0x01

/-- The answer to an illegal command: InvalidParam, with `RHANDLE = 0xFF` when its opcode is
ALLOCATE's (30_encoding.md R119, R131). -/
def illegalResponse (c : CmdRecord) : Response :=
  if isAllocateOp c then Response.noHandle .invalidParam else Response.ofResult .invalidParam

end Sys2Proof.Machine
end

