-- ==== Sys2Proof/Machine/Ops.lean ====
section
/-! DEFINITION. The named operations over State: checked array access (20_memory.md R81), raising a
fault (60_exceptions.md R430), answering, emitting and requesting on the ports (00_scope.md R16 to
R18). -/

namespace Sys2Proof.Machine

/-! ## Computations that can fault -/

/-- What part of a step gives: a value and the state it leaves, or a fault and the state in which the
check failed (the writes before it stand; log 4). -/
inductive Run (σ α : Type) where
  | ok (a : α) (s : σ)
  | fault (r : Fault) (s : σ)
deriving DecidableEq, Repr

/-- One part of a step after another; a fault ends the step. -/
def Run.andThen {σ α β : Type} (x : Run σ α) (f : α → σ → Run σ β) : Run σ β :=
  match x with
  | .ok a s => f a s
  | .fault r s => .fault r s

/-- RAISING A FAULT, the one operation that does it: the fault record takes the reason
(60_exceptions.md R430, 10_state.md R57). -/
def State.raise (s : State) (r : Fault) : State := { s with fault := some r }

/-- The end of a step: the state it leaves, with the fault recorded when it met one (00_scope.md R20). -/
def Run.finish {α : Type} (x : Run State α) : Host.Outcome State Fault Refusal :=
  match x with
  | .ok _ s => .next s
  | .fault r s => .next (s.raise r)

/-! ## Checked array access -/

/-- `A[i]` with the bounds check of 20_memory.md R81: `none` when `i` is not below `bound` (or not in
the array). -/
def readAt {α : Type} (a : List α) (bound i : Nat) : Option α :=
  if i < bound then a[i]? else none

/-- `M[i]`, for an index below `N_INST`. -/
def State.slot? (s : State) (i : Nat) : Option CanModule := readAt s.modules s.params.nInst i

/-- `M[i] <- m`. -/
def State.setSlot (s : State) (i : Nat) (m : CanModule) : State :=
  { s with modules := s.modules.set i m }

/-- The handle check of 60_exceptions.md R402: `M[h]` when `h < N_INST` and it is allocated. -/
def State.claimed? (s : State) (h : Byte) : Option CanModule :=
  match s.slot? h.toNat with
  | some m => if m.allocated then some m else none
  | none => none

/-- Run a Module operation on `M[i]`, an index of the block's own: a missing slot is the fault
InvariantBroken (20_memory.md R81). -/
def State.onSlot {α : Type} (s : State) (i : Nat) (f : CanModule → Run CanModule α) : Run State α :=
  match s.slot? i with
  | none => .fault .invariantBroken s
  | some m =>
    match f m with
    | .ok a m' => .ok a (s.setSlot i m')
    | .fault r m' => .fault r (s.setSlot i m')

/-! ## Ports -/

/-- Answer the command port (00_scope.md R16). -/
def State.answer (s : State) (r : Response) : State := { s with rsp := s.rsp ++ [r] }

/-- End a command with its answer and no other change (`raise Result`, 00_scope.md R16). -/
def State.reply (s : State) (r : Response) : Host.Outcome State Fault Refusal := .next (s.answer r)

/-- Append a record to the notification port. -/
def State.append (s : State) (i : Nat) (b : NtfBody) : State :=
  { s with ntf := s.ntf ++ [⟨BitVec.ofNat 8 i, b⟩] }

/-- `emit NTF`: append the record when Module `i`'s callback slot of its kind is enabled, do nothing
otherwise (00_scope.md R17, 10_state.md R50). -/
def State.emit (s : State) (i : Nat) (b : NtfBody) : State :=
  match s.slot? i, b.slot with
  | some m, some k => if m.cbEn.get k then s.append i b else s
  | _, _ => s

/-- `emit ACT`: append the activity-indicator record; it is not gated by `cb_en`
(30_encoding.md R141, R143). -/
def State.emitAct (s : State) (i : Nat) : State := s.append i .act

/-- An RX header kept within what the driver contract requires of one (60_exceptions.md R424). -/
def confineHeader (h : RxHeader) : RxHeader :=
  { h with
    id := if stdOverflow h.ide h.id then h.id &&& 0x7FF else h.id
    len := if h.len.toNat ≤ 8 then h.len else 8 }

/-- An answer kept within the bounds of the driver contract (60_exceptions.md R424, R425): the
environment's free choices are restricted to it (R430; log 2). -/
def confineAnswer (p : Params) (a : DrvAnswer) : DrvAnswer :=
  { a with
    mb := a.mb % p.numMb
    count := min a.count p.numMb
    hdr := confineHeader a.hdr }

/-- The answer the driver gives next: the one the environment has fixed, else a free value within the
driver contract (00_scope.md R18, 60_exceptions.md R420; log 2). -/
def State.nextAnswer (s : State) : DrvAnswer :=
  match s.drvAns with
  | a :: _ => a
  | [] => confineAnswer s.params (Config.freeAnswer s.drawn)

/-- The state after a driver request: its record on the driver-request port, its answer drawn
(00_scope.md R18). -/
def State.request (s : State) (r : DrvRequest) : State :=
  { s with
    drvLog := s.drvLog ++ [.request r s.nextAnswer]
    drvAns := s.drvAns.tail
    drawn := s.drawn + 1 }

/-- The model's own record of an accepted submission: the `tx_id` that the add request just made does not
carry (log 22). -/
def State.noteSubmitted (s : State) (t : Word) : State := { s with submitted := s.submitted ++ [t] }

/-- A command on the handle of its operand: InvalidHandle when the handle check fails
(60_exceptions.md R402). -/
def State.withHandle (s : State) (h : Byte)
    (k : CanModule → Host.Outcome State Fault Refusal) : Host.Outcome State Fault Refusal :=
  match s.claimed? h with
  | none => s.reply (.ofResult .invalidHandle)
  | some m => k m

end Sys2Proof.Machine
end

