-- ==== Sys2Proof/Machine/Queue.lean ====
section
/-! DEFINITION. The Entry Pool and the Priority Queue Manager: the primitives of
40_priority_queue.md R160 to R166, over one Module slot. -/

namespace Sys2Proof.Machine

/-- An Entry that is in range and in use: the check on every Entry index taken from a queue
(20_memory.md R81). -/
def liveEntry? (p : Params) (m : CanModule) (e : Nat) : Option Entry :=
  match readAt m.pool p.poolCap e with
  | some en => if en.inUse then some en else none
  | none => none

/-- `alloc_entry`: the lowest Entry with `in_use = 0` is taken (40_priority_queue.md R161). -/
def allocEntry (p : Params) (m : CanModule) : Option (Nat × CanModule) :=
  match (m.pool.take p.poolCap).findIdx? (fun en => !en.inUse) with
  | none => none
  | some i =>
    some (i, { m with
      pool := m.pool.modify i fun en => { en with inUse := true }
      used := m.used + 1 })

/-- `free_entry`: release Entry `e`; its `msg`, `tx_id` and `prio` stay as they are
(40_priority_queue.md R162). -/
def freeEntry (p : Params) (e : Nat) (m : CanModule) : Run CanModule Unit :=
  match liveEntry? p m e with
  | none => .fault .invariantBroken m
  | some en =>
    .ok () { m with pool := m.pool.set e { en with inUse := false }, used := m.used - 1 }

/-- `pq_push`: append Entry index `e` to queue `l` (40_priority_queue.md R163). -/
def pqPush (p : Params) (l e : Nat) (m : CanModule) : Run CanModule Unit :=
  match readAt m.pq p.numPrio l with
  | none => .fault .invariantBroken m
  | some q =>
    if q.tail < p.qcap then
      .ok () { m with
        pq := m.pq.set l { q with
          slot := q.slot.set q.tail e
          tail := (q.tail + 1) % p.qcap
          count := q.count + 1 }
        bitmap := setBit m.bitmap l }
    else .fault .invariantBroken m

/-- Copy the message operands into Entry `e` (40_priority_queue.md R164, 20_memory.md R98). -/
def fillEntry (e : Nat) (msg : Message) (t : Word) (l : BitVec 3) (m : CanModule) : CanModule :=
  { m with pool := m.pool.modify e fun en => { en with msg := msg, txId := t, prio := l } }

/-- `enqueue`: OK or TxQueueFull (40_priority_queue.md R164). On a full level the Entry taken is
released again and keeps the copied fields. -/
def enqueue (p : Params) (msg : Message) (t : Word) (l : BitVec 3) (m : CanModule) :
    Run CanModule ResultCode :=
  match allocEntry p m with
  | none => .ok .txQueueFull m
  | some (e, m₁) =>
    let m₂ := fillEntry e msg t l m₁
    match readAt m₂.pq p.numPrio l.toNat with
    | none => .fault .invariantBroken m₂
    | some q =>
      if q.count = p.qcap then (freeEntry p e m₂).andThen fun _ m₃ => .ok .txQueueFull m₃
      else (pqPush p l.toNat e m₂).andThen fun _ m₃ => .ok .ok m₃

/-- Take the oldest element out of queue `q` of level `l`, clearing the bitmap bit when the level
empties (40_priority_queue.md R165). -/
def popLevel (p : Params) (l : Nat) (q : PrioQueue) (m : CanModule) : CanModule :=
  { m with
    pq := m.pq.set l { q with head := (q.head + 1) % p.qcap, count := q.count - 1 }
    bitmap := if q.count - 1 = 0 then clearBit m.bitmap l else m.bitmap }

/-- `dequeue_highest`: the oldest Entry of the lowest non-empty level, `none` for NONE. The Entry is
not released (40_priority_queue.md R165). -/
def dequeueHighest (p : Params) (m : CanModule) : Run CanModule (Option Nat) :=
  match ffs m.bitmap with
  | none => .ok none m
  | some l =>
    match readAt m.pq p.numPrio l with
    | none => .fault .invariantBroken m
    | some q =>
      match readAt q.slot p.qcap q.head with
      | none => .fault .invariantBroken m
      | some e =>
        match liveEntry? p (popLevel p l q m) e with
        | none => .fault .invariantBroken (popLevel p l q m)
        | some _ => .ok (some e) (popLevel p l q m)

/-- What a scan of the queues for a `tx_id` finds: nothing, position `k` of level `l` holding Entry
`e`, or a queued index that fails its check. -/
inductive Scan where
  | absent
  | found (l k e : Nat)
  | broken
deriving DecidableEq, Repr

/-- The scan of one level from position `k`, oldest first, `n` positions (40_priority_queue.md R166);
every queued index is checked (20_memory.md R81). -/
def scanQueue (p : Params) (m : CanModule) (t : Word) (l : Nat) (q : PrioQueue) : Nat → Nat → Scan
  | 0, _ => .absent
  | n + 1, k =>
    match readAt q.slot p.qcap ((q.head + k) % p.qcap) with
    | none => .broken
    | some e =>
      match liveEntry? p m e with
      | none => .broken
      | some en => if en.txId = t then .found l k e else scanQueue p m t l q n (k + 1)

/-- The scan of the levels from level `l` upward, `n` levels (40_priority_queue.md R166). -/
def scanLevels (p : Params) (m : CanModule) (t : Word) : Nat → Nat → Scan
  | 0, _ => .absent
  | n + 1, l =>
    match readAt m.pq p.numPrio l with
    | none => .broken
    | some q =>
      match scanQueue p m t l q q.count 0 with
      | .absent => scanLevels p m t n (l + 1)
      | r => r

/-- Move the `n` elements after position `j` up by one position (40_priority_queue.md R166). -/
def closeGap (qcap head : Nat) : Nat → Nat → List Nat → List Nat
  | 0, _, slot => slot
  | n + 1, j, slot =>
    closeGap qcap head n (j + 1)
      (slot.set ((head + j) % qcap) (slot.getD ((head + j + 1) % qcap) 0))

/-- Take position `k` out of queue `q` of level `l` (40_priority_queue.md R166); `head` is
unchanged. -/
def removeAt (p : Params) (l k : Nat) (q : PrioQueue) (m : CanModule) : CanModule :=
  { m with
    pq := m.pq.set l { q with
      slot := closeGap p.qcap q.head (q.count - 1 - k) k q.slot
      tail := (q.tail + p.qcap - 1) % p.qcap
      count := q.count - 1 }
    bitmap := if q.count - 1 = 0 then clearBit m.bitmap l else m.bitmap }

/-- `remove_by_tx_id`: true when an Entry was found; only the first match is removed
(40_priority_queue.md R166). -/
def removeByTxId (p : Params) (t : Word) (m : CanModule) : Run CanModule Bool :=
  match scanLevels p m t p.numPrio 0 with
  | .absent => .ok false m
  | .broken => .fault .invariantBroken m
  | .found l k e =>
    match readAt m.pq p.numPrio l with
    | none => .fault .invariantBroken m
    | some q => (freeEntry p e (removeAt p l k q m)).andThen fun _ m' => .ok true m'

end Sys2Proof.Machine
end

