-- ==== Sys2Proof/Machine/Ring.lean ====
section
/-! DEFINITION. The RX ring (41_rx_ring.md), over one Module slot. -/

namespace Sys2Proof.Machine

/-- The occupancy `(widx - ridx) mod (2*RX_DEPTH)` (10_state.md R43). -/
def RxRing.occupancy (p : Params) (r : RxRing) : Nat :=
  (r.widx + (2 * p.rxDepth - r.ridx % (2 * p.rxDepth))) % (2 * p.rxDepth)

/-- What `rx_push` answers (41_rx_ring.md R210). -/
inductive PushResult where
  | pushed
  | dropped
deriving DecidableEq, Repr

/-- `rx_push`: the producer side; drop newest (41_rx_ring.md R210, R211). -/
def rxPush (p : Params) (msg : Message) (m : CanModule) : Run CanModule PushResult :=
  if m.rx.occupancy p = p.rxDepth then
    .ok .dropped { m with rx := { m.rx with overrun := m.rx.overrun + 1 } }
  else
    match readAt m.rx.slot p.rxDepth (m.rx.widx % p.rxDepth) with
    | none => .fault .invariantBroken m
    | some _ =>
      .ok .pushed { m with
        rx := { m.rx with
          slot := m.rx.slot.set (m.rx.widx % p.rxDepth) msg
          widx := (m.rx.widx + 1) % (2 * p.rxDepth) } }

/-- `rx_pop`: the consumer side, `none` for NONE; it writes only `ridx` (41_rx_ring.md R213). -/
def rxPop (p : Params) (m : CanModule) : Run CanModule (Option Message) :=
  if m.rx.occupancy p = 0 then .ok none m
  else
    match readAt m.rx.slot p.rxDepth (m.rx.ridx % p.rxDepth) with
    | none => .fault .invariantBroken m
    | some msg =>
      .ok (some msg) { m with rx := { m.rx with ridx := (m.rx.ridx + 1) % (2 * p.rxDepth) } }

end Sys2Proof.Machine
end

