-- ==== Sys2Proof/Machine/Boundary.lean ====
section
/-! DEFINITION. The assertions at a step boundary: the queue invariants of 10_state.md R40, the Entry
ownership invariant of R41 and the RX invariant of R45. One found false is the fault InvariantBroken
(60_exceptions.md R430). -/

namespace Sys2Proof.Machine

/-- The Entry indices in the occupied slots of a queue, oldest first (10_state.md R38). -/
def PrioQueue.occupied (p : Params) (q : PrioQueue) : List Nat :=
  (List.range q.count).map fun k => q.slot.getD ((q.head + k) % p.qcap) 0

/-- The Entry indices queued in a Module, level by level, oldest first. -/
def CanModule.queued (p : Params) (m : CanModule) : List Nat :=
  m.pq.flatMap fun q => q.occupied p

/-- `popcount` of the in-use flags of the pool (10_state.md R40 (f)). -/
def inUseCount (pool : List Entry) : Nat := (pool.filter fun en => en.inUse).length

/-- Entry `e` is in range, in use, and of level `l` (10_state.md R40 (d)). -/
def ownedByLevel (p : Params) (m : CanModule) (l e : Nat) : Bool :=
  match liveEntry? p m e with
  | some en => en.prio.toNat == l
  | none => false

/-- Clauses (a) to (d) of 10_state.md R40 for level `l`. -/
def levelOk (p : Params) (m : CanModule) (l : Nat) (q : PrioQueue) : Bool :=
  decide (q.count ≤ p.qcap)
  && q.tail == (q.head + q.count) % p.qcap
  && m.bitmap.getLsbD l == decide (0 < q.count)
  && (q.occupied p).all (ownedByLevel p m l)

/-- The queue invariants (10_state.md R40). -/
def queuesOk (p : Params) (m : CanModule) : Bool :=
  ((List.range p.numPrio).all fun l =>
    match readAt m.pq p.numPrio l with
    | some q => levelOk p m l q
    | none => false)
  && decide (m.queued p).Nodup
  && m.used == inUseCount m.pool

/-- The Entry ownership invariant (10_state.md R41) of one Module: the Entries in use are those that
exactly one occupied queue slot names and the one held, if any, which is in range and in no queue. -/
def ownershipOk (p : Params) (held : Option Nat) (m : CanModule) : Bool :=
  ((List.range p.poolCap).all fun e =>
    (liveEntry? p m e).isSome == ((m.queued p).count e == 1 || held == some e))
  && (match held with
    | some e => decide (e < p.poolCap) && !(m.queued p).contains e
    | none => true)

/-- The RX invariant (10_state.md R45). -/
def ringOk (p : Params) (m : CanModule) : Bool := decide (m.rx.occupancy p ≤ p.rxDepth)

/-- The Entry that the normal context holds of Module `i`: `nctx.held` between the dequeue and the
release of a submission of that Module, none otherwise (10_state.md R41; log 17). -/
def heldOf (n : Nctx) (i : Nat) : Option Nat :=
  match n.phase with
  | .subAdd => if n.h.toNat = i then n.held else none
  | .subFree => if n.h.toNat = i then n.held else none
  | .idle => none
  | .subQuery => none
  | .subDeq => none

/-- What 10_state.md R41 asks of `nctx` between the dequeue and the release of a submission: there is an
Entry in `nctx.held`, and `nctx.h` names a slot of the table. That this Entry is in use in that slot and
in no queue is `ownershipOk`'s part. -/
def State.heldNamed (s : State) : Bool :=
  match s.nctx.phase with
  | .subAdd => s.nctx.held.isSome && (s.slot? s.nctx.h.toNat).isSome
  | .subFree => s.nctx.held.isSome && (s.slot? s.nctx.h.toNat).isSome
  | .idle => true
  | .subQuery => true
  | .subDeq => true

/-- The assertions on Module slot `i`: the queue invariants are of allocated Modules (10_state.md R40),
the other two of every slot (R41, R45). -/
def slotOk (p : Params) (n : Nctx) (i : Nat) (m : CanModule) : Bool :=
  (!m.allocated || queuesOk p m) && ownershipOk p (heldOf n i) m && ringOk p m

/-- The assertions of a step boundary, over `nctx` and every Module slot. -/
def State.boundaryOk (s : State) : Bool :=
  s.heldNamed
  && (List.range s.params.nInst).all fun i =>
    match s.slot? i with
    | some m => slotOk s.params s.nctx i m
    | none => false

/-- The check at a step boundary: an assertion found false is the fault InvariantBroken; a fault
already recorded stays (60_exceptions.md R430, 10_state.md R57). -/
def State.checkBoundary (s : State) : State :=
  match s.fault with
  | some _ => s
  | none => if s.boundaryOk then s else s.raise .invariantBroken

end Sys2Proof.Machine
end

