-- ==== Sys2Proof/Machine/Tracker.lean ====
section
/-! DEFINITION. The Mailbox Tracker and submission in both contexts (42_mailbox_tracker.md). -/

namespace Sys2Proof.Machine

/-! ## The tracker -/

/-- `record_mb`: an index at or above `NUM_MB` is the fault DriverContract; an active slot is
overwritten (42_mailbox_tracker.md R233, R237). -/
def recordMb (p : Params) (k : Nat) (t : Word) (m : CanModule) : Run CanModule Unit :=
  if k < p.numMb then .ok () { m with mb := m.mb.set k ⟨true, t⟩ } else .fault .driverContract m

/-- `complete_mb`: read and clear tracker slot `k`; the answer is the slot as it was
(42_mailbox_tracker.md R236). -/
def completeMb (p : Params) (k : Nat) (m : CanModule) : Run CanModule Mailbox :=
  match readAt m.mb p.numMb k with
  | none => .fault .invariantBroken m
  | some was => .ok was { m with mb := m.mb.set k ⟨false, 0⟩ }

/-! ## The parts of a submission -/

/-- What a submission answers (42_mailbox_tracker.md R230). -/
inductive Submission where
  | attempted
  | nothing
deriving DecidableEq, Repr

/-- `drv.free_mb(p)`: a count above `NUM_MB` is the fault DriverContract (60_exceptions.md R425). -/
def drvFreeMb (p : Byte) (s : State) : Run State Nat :=
  if s.params.numMb < s.nextAnswer.count then .fault .driverContract (s.request (.freeMb p))
  else .ok s.nextAnswer.count (s.request (.freeMb p))

/-- The add request of Entry `en` on Module `i`, and what the block does with its answer: it records
the mailbox, or it reports the rejected submission (42_mailbox_tracker.md R230, R233, R235). -/
def submitEntry (i : Nat) (m : CanModule) (en : Entry) (s : State) : Run State Unit :=
  let s' := s.request (.addTx m.cfg.periph (txHeader en.msg) en.msg.data)
  if s.nextAnswer.ok then
    (s'.noteSubmitted en.txId).onSlot i (recordMb s.params s.nextAnswer.mb en.txId)
  else .ok () (s'.emit i (.err .driverError en.txId))

/-- The add request of Entry `e` of Module `i`, an index the block took from a queue. -/
def addTx (i e : Nat) (s : State) : Run State Unit :=
  match s.slot? i with
  | none => .fault .invariantBroken s
  | some m =>
    match liveEntry? s.params m e with
    | none => .fault .invariantBroken s
    | some en => submitEntry i m en s

/-! ## Submission in the interrupt context -/

/-- `submit_next_isr`: one submission inside a handler's step (42_mailbox_tracker.md R230). It takes an
Entry out of the queues and makes driver requests in one step, as R230 and 44_interrupt_dispatch.md R330
and R351 write it, where 20_memory.md R89 says that no step does both: the model's choice, log 11. -/
def submitNextIsr (i : Nat) (s : State) : Run State Submission :=
  match s.slot? i with
  | none => .fault .invariantBroken s
  | some m =>
    (drvFreeMb m.cfg.periph s).andThen fun n s =>
    if n = 0 then .ok .nothing s
    else
      (s.onSlot i (dequeueHighest s.params)).andThen fun e s =>
      match e with
      | none => .ok .nothing s
      | some e =>
        (addTx i e s).andThen fun _ s =>
        (s.onSlot i (freeEntry s.params e)).andThen fun _ s => .ok .attempted s

/-! ## Submission in the normal context: one step per phase (42_mailbox_tracker.md R231) -/

/-- `nctx` at the start of a submission: TRANSMIT's single attempt or an iteration of START's drain
loop (40_priority_queue.md R180, 43_module.md R280). -/
def Nctx.submission (op h : Byte) (drain : Bool) : Nctx where
  phase := .subQuery
  op := op
  h := h
  held := none
  drain := drain
  pend := .ok

/-- The opcode of TRANSMIT (30_encoding.md R118). -/
def opTransmit : Byte := 0x10

/-- The opcode of START (30_encoding.md R118). -/
def opStart : Byte := 0x04

/-- `nctx.phase <- ph`. -/
def State.setPhase (s : State) (ph : Phase) : State := { s with nctx := { s.nctx with phase := ph } }

/-- `nctx.held <- e`. -/
def State.setHeld (s : State) (e : Option Nat) : State := { s with nctx := { s.nctx with held := e } }

/-- A multi-step command answers the result it has pending and the normal context goes idle
(10_state.md R55; 40_priority_queue.md R180, 43_module.md R280). -/
def State.complete (s : State) : State :=
  (s.setPhase .idle).answer (.ofResult s.nctx.pend)

/-- A submission ends with NOTHING: TRANSMIT's attempt and START's loop both end here. -/
def submissionNothing (s : State) : State := s.complete

/-- A submission ends with ATTEMPTED: TRANSMIT answers, START's drain loop begins its next iteration
(43_module.md R280). -/
def submissionAttempted (s : State) : State :=
  if s.nctx.drain then { s with nctx := Nctx.submission opStart s.nctx.h true } else s.complete

/-- Phase SUB_QUERY: ask for the free-mailbox count. -/
def phaseQuery (s : State) : Run State Unit :=
  match s.slot? s.nctx.h.toNat with
  | none => .fault .invariantBroken s
  | some m =>
    (drvFreeMb m.cfg.periph s).andThen fun n s =>
    if n = 0 then .ok () (submissionNothing s) else .ok () (s.setPhase .subDeq)

/-- Phase SUB_DEQ: dequeue the highest-priority Entry and hold it. -/
def phaseDeq (s : State) : Run State Unit :=
  (s.onSlot s.nctx.h.toNat (dequeueHighest s.params)).andThen fun e s =>
  match e with
  | none => .ok () (submissionNothing s)
  | some e => .ok () ((s.setHeld (some e)).setPhase .subAdd)

/-- Phase SUB_ADD: the add request and the tracker record, in one step (20_memory.md R90). -/
def phaseAdd (s : State) : Run State Unit :=
  match s.nctx.held with
  | none => .fault .invariantBroken s
  | some e => (addTx s.nctx.h.toNat e s).andThen fun _ s => .ok () (s.setPhase .subFree)

/-- Phase SUB_FREE: release the held Entry. -/
def phaseFree (s : State) : Run State Unit :=
  match s.nctx.held with
  | none => .fault .invariantBroken s
  | some e =>
    (s.onSlot s.nctx.h.toNat (freeEntry s.params e)).andThen fun _ s =>
    .ok () (submissionAttempted (s.setHeld none))

/-- The next step of the command in progress, as `nctx.phase` names it; when none is in progress the
block waits and keeps all its state (70_reset_and_hazards.md R451, R482). -/
def normalStep (s : State) : Host.Outcome State Fault Refusal :=
  match s.nctx.phase with
  | .idle => .next s
  | .subQuery => (phaseQuery s).finish
  | .subDeq => (phaseDeq s).finish
  | .subAdd => (phaseAdd s).finish
  | .subFree => (phaseFree s).finish

end Sys2Proof.Machine
end

