-- ==== Sys2Proof/Machine/Events.lean ====
section
/-! DEFINITION. The event handlers of the Interrupt Dispatch Layer (44_interrupt_dispatch.md): each is
one step, has no result, and reports through notifications. -/

namespace Sys2Proof.Machine

/-- `resolve(p)`: the started Module on peripheral `p`, `none` for NONE
(44_interrupt_dispatch.md R350). -/
def State.resolve (s : State) (p : Byte) : Option Nat :=
  (s.modules.take s.params.nInst).findIdx? fun m => m.allocated && m.started && m.cfg.periph == p

/-- A handler on the event's peripheral: an event that resolves to no Module is ignored
(44_interrupt_dispatch.md R350). -/
def State.withEvent (s : State) (p : Byte) (k : Nat → Run State Unit) :
    Host.Outcome State Fault Refusal :=
  match s.resolve p with
  | none => .next s
  | some i => (k i).finish

/-- Count one in a statistics counter, when the build has them (10_state.md R52). -/
def countStat (p : Params) (f : Stats → Stats) (m : CanModule) : Run CanModule Unit :=
  .ok () (if p.statsEn then { m with stat := f m.stat } else m)

/-- `stat.tx + 1` (44_interrupt_dispatch.md R331). -/
def Stats.bumpTx (s : Stats) : Stats := { s with tx := s.tx + 1 }

/-- `stat.rx + 1` (44_interrupt_dispatch.md R322). -/
def Stats.bumpRx (s : Stats) : Stats := { s with rx := s.rx + 1 }

/-- `stat.err + 1` (44_interrupt_dispatch.md R341). -/
def Stats.bumpErr (s : Stats) : Stats := { s with err := s.err + 1 }

/-! ## EVT_RX_PENDING -/

/-- The delivery of a received Message: the RX notification in PASSTHROUGH mode, the ring push in
BUFFERED mode with an ERR notification when the ring drops it (44_interrupt_dispatch.md R320). -/
def deliver (i : Nat) (msg : Message) (s : State) : Run State Unit :=
  match s.params.rxMode with
  | .passthrough => .ok () (s.emit i (rxNotification msg))
  | .buffered =>
    (s.onSlot i (rxPush s.params msg)).andThen fun r s =>
      match r with
      | .pushed => .ok () s
      | .dropped => .ok () (s.emit i (.err .rxOverrun 0))

/-- The activity indicator of a successful pull (44_interrupt_dispatch.md R323). -/
def indicate (i : Nat) (s : State) : Run State Unit :=
  match s.slot? i with
  | none => .fault .invariantBroken s
  | some m => .ok () (if m.cfg.rxLedEn then s.emitAct i else s)

/-- What the handler does with a frame pulled: parse, count, indicate, deliver
(44_interrupt_dispatch.md R320 to R323). -/
def receive (i : Nat) (a : DrvAnswer) (s : State) : Run State Unit :=
  if rxHeaderOk a.hdr then
    (s.onSlot i (countStat s.params Stats.bumpRx)).andThen fun _ s =>
    (indicate i s).andThen fun _ s => deliver i (parseFrame a.hdr a.data) s
  else .fault .driverContract s

/-- EVT_RX_PENDING (44_interrupt_dispatch.md R320). -/
def execEvtRxPending (periph : Byte) (fifo : BitVec 1) (s : State) :
    Host.Outcome State Fault Refusal :=
  s.withEvent periph fun i =>
    if s.nextAnswer.ok then receive i s.nextAnswer (s.request (.getRx periph fifo))
    else .ok () ((s.request (.getRx periph fifo)).emit i (.err .driverError 0))

/-! ## EVT_TX_COMPLETE -/

/-- The report of a completion: counted and notified when its tracker slot was active, nothing for a
spurious one (44_interrupt_dispatch.md R330 to R332). -/
def reportCompletion (i : Nat) (was : Mailbox) (s : State) : Run State Unit :=
  if was.active then
    (s.onSlot i (countStat s.params Stats.bumpTx)).andThen fun _ s =>
      .ok () (s.emit i (.txc was.txId))
  else .ok () s

/-- EVT_TX_COMPLETE: clear, notify, submit (44_interrupt_dispatch.md R330). -/
def execEvtTxComplete (periph : Byte) (mb : Byte) (s : State) :
    Host.Outcome State Fault Refusal :=
  s.withEvent periph fun i =>
    (s.onSlot i (completeMb s.params mb.toNat)).andThen fun was s =>
    (reportCompletion i was s).andThen fun _ s =>
    (submitNextIsr i s).andThen fun _ s => .ok () s

/-! ## EVT_ERROR -/

/-- The notifications of an error code: BUS on a transition, then always ERR
(44_interrupt_dispatch.md R340, R342, R343). -/
def reportError (i : Nat) (c : Word) (s : State) : State :=
  match errorTransition c with
  | some b => (s.emit i (.bus b)).emit i (.err (errorKind c) 0)
  | none => s.emit i (.err (errorKind c) 0)

/-- EVT_ERROR (44_interrupt_dispatch.md R340). -/
def execEvtError (periph : Byte) (s : State) : Host.Outcome State Fault Refusal :=
  s.withEvent periph fun i =>
    ((s.request (.errorCode periph)).onSlot i (countStat s.params Stats.bumpErr)).andThen
      fun _ s' => .ok () (reportError i s.nextAnswer.code s')

end Sys2Proof.Machine
end

