-- ==== Sys2Proof/Machine/Lifecycle.lean ====
section
/-! DEFINITION. The commands of a Module's lifecycle: ALLOCATE, FREE, ADD_FILTER, START, STOP and
REGISTER_CB (43_module.md sections 2 to 5). -/

namespace Sys2Proof.Machine

/-! ## ALLOCATE -/

/-- Some allocated Module has claimed peripheral selector `p` (43_module.md R260). -/
def State.periphClaimed (s : State) (p : Byte) : Bool :=
  (s.modules.take s.params.nInst).any fun m => m.allocated && m.cfg.periph == p

/-- The lowest unallocated slot (43_module.md R260). -/
def State.lowestFree? (s : State) : Option Nat :=
  (s.modules.take s.params.nInst).findIdx? fun m => !m.allocated

/-- A newly claimed slot: every field 0 but `allocated` and `cfg` (43_module.md R260, R261). -/
def claimedModule (p : Params) (cfg : ModuleCfg) : CanModule :=
  { CanModule.zero p with allocated := true, cfg := cfg }

/-- ALLOCATE (43_module.md R260). -/
def execAllocate (periph : Byte) (loopback silent autoRetx rxLedEn : Bool) (s : State) :
    Host.Outcome State Fault Refusal :=
  if s.params.nInst ≤ periph.toNat then s.reply (.noHandle .invalidParam)
  else if s.periphClaimed periph then s.reply (.noHandle .noResource)
  else
    match s.lowestFree? with
    | none => s.reply (.noHandle .noResource)
    | some i =>
      (s.setSlot i (claimedModule s.params ⟨periph, loopback, silent, autoRetx, rxLedEn⟩)).reply
        { Response.ofResult .ok with rhandle := BitVec.ofNat 8 i }

/-! ## STOP and FREE -/

/-- The result of `stop_sequence(h)` from state `s`: DriverError when either request fails
(43_module.md R290). -/
def stopResult (m : CanModule) (s : State) : ResultCode :=
  if s.nextAnswer.ok && (s.request (.deactivate m.cfg.periph)).nextAnswer.ok then .ok
  else .driverError

/-- `stop_sequence(h)`: both requests are always issued and `started` is cleared whatever they answer
(43_module.md R290). -/
def stopSequence (i : Nat) (m : CanModule) (s : State) : State :=
  ((s.request (.deactivate m.cfg.periph)).request (.stop m.cfg.periph)).setSlot i
    { m with started := false }

/-- STOP (43_module.md R290). -/
def execStop (h : Byte) (s : State) : Host.Outcome State Fault Refusal :=
  s.withHandle h fun m =>
    if m.started then (stopSequence h.toNat m s).reply (.ofResult (stopResult m s))
    else s.reply (.ofResult .notStarted)

/-- FREE: a started Module is stopped first; the slot is released whatever the stop answers
(43_module.md R270). On a started Module the one step both zeroes the queues and makes the driver requests
of the stop, as R270 writes it, where 20_memory.md R89 says that no step does both: the model's choice,
log 11. -/
def execFree (h : Byte) (s : State) : Host.Outcome State Fault Refusal :=
  s.withHandle h fun m =>
    if m.started then
      ((stopSequence h.toNat m s).setSlot h.toNat (.zero s.params)).reply
        (.ofResult (stopResult m s))
    else (s.setSlot h.toNat (.zero s.params)).reply (.ofResult .ok)

/-! ## ADD_FILTER -/

/-- Stage a filter after the ones already staged, or FilterFull (43_module.md R275, 10_state.md R48). -/
def stageFilter (p : Params) (f : RxFilter) (m : CanModule) : Run CanModule ResultCode :=
  if m.fltCount = p.maxFilters then .ok .filterFull m
  else
    match readAt m.flt p.maxFilters m.fltCount with
    | none => .fault .invariantBroken m
    | some _ => .ok .ok { m with flt := m.flt.set m.fltCount f, fltCount := m.fltCount + 1 }

/-- ADD_FILTER (43_module.md R275). -/
def execAddFilter (h : Byte) (fifo : BitVec 1) (id : CanId) (ide : Bool) (mask : CanId)
    (s : State) : Host.Outcome State Fault Refusal :=
  s.withHandle h fun m =>
    if !filterOk id ide mask then s.reply (.ofResult .invalidParam)
    else if m.started then s.reply (.ofResult .alreadyStarted)
    else
      ((s.onSlot h.toNat (stageFilter s.params ⟨id, mask, ide, fifo⟩)).andThen fun r s =>
        .ok () (s.answer (.ofResult r))).finish

/-! ## START -/

/-- Program staged filters `k`, `k+1`, … (`n` of them) into the driver banks of the same numbers,
stopping at the first that fails; true when all are programmed (43_module.md R280, R281). -/
def programFilters (m : CanModule) : Nat → Nat → State → Run State Bool
  | 0, _, s => .ok true s
  | n + 1, k, s =>
    match readAt m.flt s.params.maxFilters k with
    | none => .fault .invariantBroken s
    | some f =>
      if s.nextAnswer.ok then
        programFilters m n (k + 1) (s.request (.configFilter m.cfg.periph k f))
      else .ok false (s.request (.configFilter m.cfg.periph k f))

/-- START's requests after the filters: start and activate, with the compensating stop when activate
fails; true when both succeed (43_module.md R280, R282). -/
def startPeripheral (m : CanModule) (s : State) : Run State Bool :=
  let s₁ := s.request (.start m.cfg.periph m.cfg.loopback m.cfg.silent m.cfg.autoRetx)
  let s₂ := s₁.request (.activate m.cfg.periph)
  if !s.nextAnswer.ok then .ok false s₁
  else if !s₁.nextAnswer.ok then .ok false (s₂.request (.stop m.cfg.periph))
  else .ok true s₂

/-- START's driver sequence; true when every request succeeds (43_module.md R280 to R282). -/
def startSequence (m : CanModule) (s : State) : Run State Bool :=
  (programFilters m m.fltCount 0 s).andThen fun ok s =>
    if ok then startPeripheral m s else .ok false s

/-- START, step 1: on success the Module is started and the drain loop begins; the answer comes when
the loop ends (43_module.md R280, R283; Tracker's `normalStep`). -/
def execStart (h : Byte) (s : State) : Host.Outcome State Fault Refusal :=
  s.withHandle h fun m =>
    if m.started then s.reply (.ofResult .alreadyStarted)
    else
      ((startSequence m s).andThen fun ok s =>
        if ok then
          .ok () { s.setSlot h.toNat { m with started := true } with
            nctx := Nctx.submission opStart h true }
        else .ok () (s.answer (.ofResult .driverError))).finish

/-! ## REGISTER_CB -/

/-- REGISTER_CB (43_module.md R294). -/
def execRegisterCb (h : Byte) (kind : CbKind) (en : Bool) (s : State) :
    Host.Outcome State Fault Refusal :=
  s.withHandle h fun m =>
    (s.setSlot h.toNat { m with cbEn := m.cbEn.set kind en }).reply (.ofResult .ok)

end Sys2Proof.Machine
end

