-- ==== Sys2Proof/Machine/Status.lean ====
section
/-! DEFINITION. The reading commands: RX_READ (41_rx_ring.md R215), GET_BUS_STATE, GET_ERROR_COUNTERS
and GET_STATS (43_module.md section 6). -/

namespace Sys2Proof.Machine

/-- The answer of RX_READ to a Message read, with the occupancy before the read
(41_rx_ring.md R215). -/
def rxReadResponse (occ : Nat) (msg : Message) : Response :=
  { Response.ofResult .ok with
    flag := true
    rd0 := BitVec.ofNat 32 occ
    rmid := rmidOf msg
    rmctl := rmctlOf msg
    rdata := msg.data.toData
    rts := msg.ts }

/-- RX_READ (41_rx_ring.md R215). -/
def execRxRead (h : Byte) (s : State) : Host.Outcome State Fault Refusal :=
  s.withHandle h fun m =>
    ((s.onSlot h.toNat (rxPop s.params)).andThen fun msg s' =>
      match msg with
      | none => .ok () (s'.answer (.ofResult .ok))
      | some msg => .ok () (s'.answer (rxReadResponse (m.rx.occupancy s.params) msg))).finish

/-- The answer of GET_BUS_STATE to the driver's answer (43_module.md R296). -/
def busStateResponse (a : DrvAnswer) : Response :=
  if a.ok then { Response.ofResult .ok with bus := (busState a.boff a.epv).code }
  else .ofResult .driverError

/-- GET_BUS_STATE (43_module.md R296, R297). -/
def execGetBusState (h : Byte) (s : State) : Host.Outcome State Fault Refusal :=
  s.withHandle h fun m =>
    (s.request (.busRegs m.cfg.periph)).reply (busStateResponse s.nextAnswer)

/-- The answer of GET_ERROR_COUNTERS to the driver's answer: `{rec, tec}` (43_module.md R298). -/
def errorCountersResponse (a : DrvAnswer) : Response :=
  if a.ok then { Response.ofResult .ok with rd0 := place a.txErr 0 ||| place a.rxErr 8 }
  else .ofResult .driverError

/-- GET_ERROR_COUNTERS (43_module.md R298). -/
def execGetErrorCounters (h : Byte) (s : State) : Host.Outcome State Fault Refusal :=
  s.withHandle h fun m =>
    (s.request (.busRegs m.cfg.periph)).reply (errorCountersResponse s.nextAnswer)

/-- GET_STATS; decode has refused it already when `STATS_EN = 0` (43_module.md R300). -/
def execGetStats (h : Byte) (s : State) : Host.Outcome State Fault Refusal :=
  s.withHandle h fun m =>
    s.reply { Response.ofResult .ok with
      rd0 := m.stat.tx
      rd1 := m.stat.rx
      rd2 := m.stat.err
      rd3 := m.rx.overrun }

end Sys2Proof.Machine
end

