-- ==== Sys2Proof/Machine/Transmit.lean ====
section
/-! DEFINITION. The transmit commands: TRANSMIT, ABORT_TX and GET_OCCUPANCY (40_priority_queue.md
section 2). -/

namespace Sys2Proof.Machine

/-- TRANSMIT after its checks: `enqueue`, then OK on a Module that is not started, or the start of one
submission on one that is (40_priority_queue.md R180). -/
def transmitQueued (h : Byte) (m : CanModule) (msg : Message) (t : Word) (prio : BitVec 3)
    (s : State) : Run State Unit :=
  (s.onSlot h.toNat (enqueue s.params msg t prio)).andThen fun r s =>
    if r = .txQueueFull then .ok () (s.answer (.ofResult .txQueueFull))
    else if m.started then .ok () { s with nctx := Nctx.submission opTransmit h false }
    else .ok () (s.answer (.ofResult .ok))

/-- TRANSMIT, step 1 (40_priority_queue.md R180, R181). -/
def execTransmit (h : Byte) (prio : BitVec 3) (txid : Word) (id : CanId) (ide rtr : Bool)
    (len : BitVec 4) (data : BitVec 64) (ts : Word) (s : State) :
    Host.Outcome State Fault Refusal :=
  s.withHandle h fun m =>
    if messageOk s.params prio id ide len then
      (transmitQueued h m (txMessage id ide rtr len data ts) txid prio s).finish
    else s.reply (.ofResult .invalidParam)

/-- ABORT_TX: `FLAG` says whether a queued Entry was removed (40_priority_queue.md R184). -/
def execAbortTx (h : Byte) (txid : Word) (s : State) : Host.Outcome State Fault Refusal :=
  s.withHandle h fun _ =>
    ((s.onSlot h.toNat (removeByTxId s.params txid)).andThen fun found s =>
      .ok () (s.answer { Response.ofResult .ok with flag := found })).finish

/-- GET_OCCUPANCY (40_priority_queue.md R186). -/
def execGetOccupancy (h : Byte) (s : State) : Host.Outcome State Fault Refusal :=
  s.withHandle h fun m =>
    s.reply { Response.ofResult .ok with
      rd0 := BitVec.ofNat 32 m.used
      rd1 := BitVec.ofNat 32 (s.params.poolCap - m.used) }

end Sys2Proof.Machine
end

