-- ==== Sys2Proof/Machine/Dispatch.lean ====
section
/-! DEFINITION. One arm per instruction, each a call of its meaning. -/

namespace Sys2Proof.Machine

/-- The meaning of an instruction: the step a command makes when the command port accepts it, or the
step of an event's handler. -/
def exec (i : Instr) (s : State) : Host.Outcome State Fault Refusal :=
  match i with
  | .allocate p lb sil artx led => Sys2Proof.Machine.execAllocate p lb sil artx led s
  | .free h => Sys2Proof.Machine.execFree h s
  | .addFilter h fifo id ide mask => Sys2Proof.Machine.execAddFilter h fifo id ide mask s
  | .start h => Sys2Proof.Machine.execStart h s
  | .stop h => Sys2Proof.Machine.execStop h s
  | .registerCb h kind en => Sys2Proof.Machine.execRegisterCb h kind en s
  | .transmit h prio txid id ide rtr len data ts => Sys2Proof.Machine.execTransmit h prio txid id ide rtr len data ts s
  | .abortTx h txid => Sys2Proof.Machine.execAbortTx h txid s
  | .getOccupancy h => Sys2Proof.Machine.execGetOccupancy h s
  | .rxRead h => Sys2Proof.Machine.execRxRead h s
  | .getBusState h => Sys2Proof.Machine.execGetBusState h s
  | .getErrorCounters h => Sys2Proof.Machine.execGetErrorCounters h s
  | .getStats h => Sys2Proof.Machine.execGetStats h s
  | .evtRxPending p fifo => Sys2Proof.Machine.execEvtRxPending p fifo s
  | .evtTxComplete p mb => Sys2Proof.Machine.execEvtTxComplete p mb s
  | .evtError p => Sys2Proof.Machine.execEvtError p s

end Sys2Proof.Machine
end

