-- ==== Sys2Proof/Machine/Fetch.lean ====
section
/-! DEFINITION. Taking what the environment presents (60_exceptions.md R410, R411, R414;
30_encoding.md R111): which context moves at a step boundary, and the decode of what is presented. -/

namespace Sys2Proof.Machine

/-- The instruction that a presented word is in the configuration: it decodes, and it exists
(30_encoding.md R119, R121). -/
def instrOf (p : Params) (x : PortInput) : Option Instr :=
  match decode x with
  | .ok i => if i.wellFormed p then some i else none
  | .error _ => none

/-- Accept a command: an illegal one answers InvalidParam and changes no state
(30_encoding.md R119). -/
def acceptCommand (c : CmdRecord) (s : State) : Host.Outcome State Fault Refusal :=
  match instrOf s.params (.command c) with
  | some i => exec i s
  | none => s.reply (illegalResponse c)

/-- Take an event word from the event port: it is on the port's record. -/
def State.takeEvent (s : State) (w : Word) : State := { s with drvLog := s.drvLog ++ [.event w] }

/-- Handle an event: a malformed word is the fault DriverContract (30_encoding.md R121). -/
def handleEvent (w : Word) (s : State) : Host.Outcome State Fault Refusal :=
  match instrOf s.params (.event w) with
  | some i => exec i (s.takeEvent w)
  | none => .next ((s.takeEvent w).raise .driverContract)

/-- The first of the environment's turns is used up. -/
def State.popTurn (s : State) : State := { s with turns := s.turns.tail }

/-- One step of the block: the environment's next turn is taken. An event is handled at any step
boundary (60_exceptions.md R410). A command is accepted when `nctx.phase = IDLE` and waits at the port
while the command in progress makes its next step (30_encoding.md R111). With no turn left the normal
context moves on. -/
def takeTurn (s : State) : Host.Outcome State Fault Refusal :=
  match s.turns with
  | [] => normalStep s
  | .normal :: _ => normalStep s.popTurn
  | .present (.event w) :: _ => handleEvent w s.popTurn
  | .present (.command c) :: _ =>
    if s.nctx.phase = .idle then acceptCommand c s.popTurn else normalStep s

/-- The assertions at the step boundary a step reaches (60_exceptions.md R430). -/
def atBoundary (o : Host.Outcome State Fault Refusal) : Host.Outcome State Fault Refusal :=
  match o with
  | .next s => .next s.checkBoundary
  | .fault r => .fault r
  | .refused r => .refused r

/-- A step of the block: a block with a recorded fault is stuck (00_scope.md R20,
60_exceptions.md R430). -/
def runStep (s : State) : Host.Outcome State Fault Refusal :=
  match s.fault with
  | some r => .fault r
  | none => atBoundary (takeTurn s)

/-- A state that presents `x` next: the environment's first turn presents it, no fault is recorded, and
for a command the command port is free (`nctx` as after reset when it was not idle). -/
def presentNext (x : PortInput) (s : State) : State :=
  match x with
  | .event _ => { s with fault := none, turns := .present x :: s.turns }
  | .command _ =>
    { s with
      fault := none
      nctx := if s.nctx.phase = .idle then s.nctx else .reset
      turns := .present x :: s.turns }

end Sys2Proof.Machine
end

