-- ==== Sys2Proof/Machine/Step.lean ====
section
/-! DEFINITION. One step of the block, and the state that presents a given instruction next. -/

namespace Sys2Proof.Machine

/-- One step of the block (00_scope.md R19). -/
def step (s : State) : Host.Outcome State Fault Refusal := runStep s

/-- `s` with the instruction of a row of the opcode table presented next, on the port its word is for
(log 19). -/
def State.withFetchWord (s : State) (nbits w : Nat) : State :=
  presentNext (PortInput.ofTableBits nbits w) s

end Sys2Proof.Machine
end

