-- ==== Sys2Proof/Safety.lean ====
section
/-! DEFINITION. What claims about the block are stated in: the invariant of a block that has kept its
contract (10_state.md), the frames of a step, and the driver contract (60_exceptions.md section 4). -/

namespace Sys2Proof.Machine

/-! ## The invariant -/

/-- A stored Message is legal: length 0 to 8, a standard identifier of 11 bits (10_state.md R36,
20_memory.md R84). -/
def Message.legal (msg : Message) : Bool :=
  decide (msg.len.toNat ≤ 8) && !stdOverflow msg.ide msg.id

/-- A staged filter is legal (43_module.md R276, 20_memory.md R84). -/
def RxFilter.legal (f : RxFilter) : Bool := filterOk f.id f.ide f.mask

/-- Every array of a Module slot has the length its parameter gives (10_state.md R34, R37, R42, R46,
R48). -/
def CanModule.shapeOk (p : Params) (m : CanModule) : Bool :=
  m.pool.length == p.poolCap
  && m.pq.length == p.numPrio
  && m.pq.all (fun q => q.slot.length == p.qcap)
  && m.rx.slot.length == p.rxDepth
  && m.mb.length == p.numMb
  && m.flt.length == p.maxFilters

/-- A number that fits the width of an Entry index (00_scope.md R13). -/
def entryFits (p : Params) (e : Nat) : Bool := decide (e < 2 ^ p.entryBits)

/-- Every count, index and cursor of a Module slot is in its range, every queue slot holds an Entry index
of its width, the bitmap has `NUM_PRIO` bits, and without statistics their counters stay 0 (00_scope.md
R13; 10_state.md R35, R37, R39, R43, R48, R52). -/
def CanModule.rangesOk (p : Params) (m : CanModule) : Bool :=
  decide (m.used ≤ p.poolCap)
  && m.pq.all (fun q => decide (q.head < p.qcap) && decide (q.tail < p.qcap)
      && q.slot.all (entryFits p))
  && decide (m.bitmap.toNat < 2 ^ p.numPrio)
  && decide (m.rx.widx < 2 * p.rxDepth)
  && decide (m.rx.ridx < 2 * p.rxDepth)
  && decide (m.fltCount ≤ p.maxFilters)
  && (p.statsEn || m.stat == ⟨0, 0, 0⟩)

/-- Every stored Message and filter of a Module slot is legal (20_memory.md R84). -/
def CanModule.contentsOk (m : CanModule) : Bool :=
  m.pool.all (fun en => en.msg.legal)
  && m.rx.slot.all Message.legal
  && m.flt.all RxFilter.legal

/-- An unallocated slot is all zero, so it is not started (10_state.md R32, R53); an allocated one has
claimed an existing peripheral (10_state.md R33). -/
def CanModule.lifecycleOk (p : Params) (m : CanModule) : Bool :=
  if m.allocated then decide (m.cfg.periph.toNat < p.nInst) else m == CanModule.zero p

/-- A Module slot that keeps its shape, its ranges, legal contents and a legal lifecycle state. -/
def CanModule.ok (p : Params) (m : CanModule) : Bool :=
  m.shapeOk p && m.rangesOk p && m.contentsOk && m.lifecycleOk p

/-- The peripheral selectors that the allocated Modules have claimed. -/
def State.claimedPeriphs (s : State) : List Byte :=
  (s.modules.filter fun m => m.allocated).map fun m => m.cfg.periph

/-- `nctx` while a TRANSMIT or a START is in progress: its Module is allocated and started, the pending
result is OK, the drain bit is START's (10_state.md R55; 40_priority_queue.md R180, 43_module.md
R280). -/
def State.busyOk (s : State) : Bool :=
  (match s.claimed? s.nctx.h with
    | some m => m.started
    | none => false)
  && s.nctx.pend == .ok
  && s.nctx.op == (if s.nctx.drain then opStart else opTransmit)

/-- An Entry is held, its index of the width of one (00_scope.md R13). -/
def State.holdsEntry (s : State) : Bool :=
  match s.nctx.held with
  | some e => entryFits s.params e
  | none => false

/-- `nctx` names a legal point of the normal context; an Entry is held between the dequeue and the
release of a submission and at no other point (10_state.md R41, R55). -/
def State.nctxOk (s : State) : Bool :=
  match s.nctx.phase with
  | .idle => s.nctx.held.isNone
  | .subQuery => s.busyOk && s.nctx.held.isNone
  | .subDeq => s.busyOk && s.nctx.held.isNone
  | .subAdd => s.busyOk && s.holdsEntry
  | .subFree => s.busyOk && s.holdsEntry

/-- A state of a block that has kept its contract: the invariants of 10_state.md. That its build
parameters are legal is part of their type (00_scope.md R6). -/
structure State.Good (s : State) : Prop where
  /-- The Module table has `N_INST` slots (10_state.md R31). -/
  table    : s.modules.length = s.params.nInst
  /-- Every slot is in order. -/
  slots    : ∀ m ∈ s.modules, m.ok s.params = true
  /-- No two allocated Modules have the same peripheral (10_state.md R54). -/
  periphs  : s.claimedPeriphs.Nodup
  /-- `nctx` is at a legal point. -/
  nctx     : s.nctxOk = true
  /-- The assertions of a step boundary hold (10_state.md R40, R41, R45). -/
  boundary : s.boundaryOk = true

/-- THE INVARIANT: the block is in a good state, or it is stuck because its environment broke the
driver contract. It is never stuck because an invariant of its own is broken (60_exceptions.md R430). -/
def State.Inv (s : State) : Prop :=
  match s.fault with
  | none => s.Good
  | some r => r = .driverContract

/-! ## The environment a claim may assume -/

/-- A driver answer within the bounds of 60_exceptions.md R424 and R425. -/
def answerOk (p : Params) (a : DrvAnswer) : Bool :=
  decide (a.mb < p.numMb) && decide (a.count ≤ p.numMb) && rxHeaderOk a.hdr

/-- A turn that presents no malformed event word (30_encoding.md R121). -/
def turnOk (p : Params) (t : Turn) : Bool :=
  match t with
  | .present (.event w) => (instrOf p (.event w)).isSome
  | .present (.command _) => true
  | .normal => true

/-- The environment's coming choices break none of the clauses of the driver contract that the block
checks (60_exceptions.md R430). -/
def State.lawful (s : State) : Bool :=
  s.drvAns.all (answerOk s.params) && s.turns.all (turnOk s.params)

/-! ## The driver contract over a history (60_exceptions.md R421, R422, R424, R425; log 12) -/

/-- What the contract knows of a peripheral after a history: whether its notifications are activated,
the mailboxes that hold a transmission accepted since the last deactivation and not yet reported complete,
each with the `tx_id` it was submitted with, those accepted before it (either outcome is allowed,
70_reset_and_hazards.md R466), the mailboxes that may still hold a frame from before power-on reset
(log 12), and whether a completion has just been presented, so that the next free count is at least 1. -/
structure PeriphView where
  activated : Bool
  live      : List (Nat × Word)
  carried   : List (Nat × Word)
  inherited : List Nat
  owed      : Bool
deriving DecidableEq, Repr

/-- A peripheral before any history: not activated, its mailboxes in any state
(70_reset_and_hazards.md R454). A frame left in one from before reset may still be reported complete,
once: the spec does not say whether it counts as accepted under 60_exceptions.md R422, and the model
allows both outcomes (DESIGN CHOICE, log 12). -/
def PeriphView.initial (ps : Params) : PeriphView where
  activated := false
  live := []
  carried := []
  inherited := List.range ps.numMb
  owed := false

/-- Mailbox `k` is in a list of mailboxes with their `tx_id`s. -/
def holds (l : List (Nat × Word)) (k : Nat) : Bool := l.any fun x => x.1 == k

/-- A list of mailboxes with their `tx_id`s, without mailbox `k`. -/
def without (l : List (Nat × Word)) (k : Nat) : List (Nat × Word) := l.filter fun x => x.1 != k

/-- One request of peripheral `p` with its answer; `t` is the `tx_id` of the submission when it is an
accepted add request. `none` when the answer breaks the contract.

An accepted add request may name a mailbox that is still live, with no deactivation in between: its earlier
transmission has then ended with no TX-complete event and is never reported after, so that the mailbox
holds the new transmission alone. 42_mailbox_tracker.md R237 counts that as a case under the contract and
60_exceptions.md R427 says 'reported, if at all', while R425 gives `(ok, m)` only for a mailbox that holds
no transmission not yet reported complete; the model takes 'holds' of what the hardware still holds and
allows the history (DESIGN CHOICE, log 12). -/
def PeriphView.onRequest (ps : Params) (p : Byte) (v : PeriphView) (r : DrvRequest) (a : DrvAnswer)
    (t : Word) : Option PeriphView :=
  match r with
  | .activate q => if q = p && a.ok then some { v with activated := true } else some v
  | .deactivate q =>
    if q = p then
      some { v with activated := false, live := [], carried := v.live ++ v.carried }
    else some v
  | .addTx q _ _ =>
    if q = p && a.ok then
      if a.mb < ps.numMb then
        some { v with
          live := (a.mb, t) :: without v.live a.mb
          carried := without v.carried a.mb
          inherited := v.inherited.filter (· != a.mb) }
      else none
    else some v
  | .freeMb q =>
    if q = p then
      if a.count ≤ ps.numMb && (!v.owed || 0 < a.count) then some { v with owed := false } else none
    else some v
  | .getRx q _ => if q = p && a.ok && !rxHeaderOk a.hdr then none else some v
  | .start _ _ _ _ => some v
  | .stop _ => some v
  | .configFilter _ _ _ => some v
  | .errorCode _ => some v
  | .busRegs _ => some v

/-- One event word taken; `none` when presenting it breaks the contract for peripheral `p`. -/
def PeriphView.onEvent (ps : Params) (p : Byte) (v : PeriphView) (w : Word) : Option PeriphView :=
  match instrOf ps (.event w) with
  | none => none
  | some (.evtRxPending q _) => if q = p && !v.activated then none else some v
  | some (.evtError q) => if q = p && !v.activated then none else some v
  | some (.evtTxComplete q m) =>
    if q = p then
      if v.activated &&
          (holds v.live m.toNat || holds v.carried m.toNat || v.inherited.contains m.toNat) then
        some { v with
          live := without v.live m.toNat
          carried := without v.carried m.toNat
          inherited := v.inherited.filter (· != m.toNat)
          owed := true }
      else none
    else some v
  | some _ => none

/-- An add request that the driver accepted. -/
def DrvRecord.acceptedAdd : DrvRecord → Bool
  | .request (.addTx _ _ _) a => a.ok
  | .request (.start _ _ _ _) _ => false
  | .request (.stop _) _ => false
  | .request (.configFilter _ _ _) _ => false
  | .request (.activate _) _ => false
  | .request (.deactivate _) _ => false
  | .request (.getRx _ _) _ => false
  | .request (.freeMb _) _ => false
  | .request (.errorCode _) _ => false
  | .request (.busRegs _) _ => false
  | .event _ => false

/-- One record of the driver ports; `t` as for `PeriphView.onRequest`. -/
def PeriphView.onRecord (ps : Params) (p : Byte) (v : PeriphView) (d : DrvRecord) (t : Word) :
    Option PeriphView :=
  match d with
  | .request r a => v.onRequest ps p r a t
  | .event w => v.onEvent ps p w

/-- What the contract knows of peripheral `p` after a history, whose accepted add requests submitted the
`tx_id`s `ts` in order; `none` when the history broke it. -/
def contractView (ps : Params) (p : Byte) : List DrvRecord → List Word → PeriphView → Option PeriphView
  | [], _, v => some v
  | d :: rest, ts, v =>
    match v.onRecord ps p d (ts.headD 0) with
    | some v' => contractView ps p rest (if d.acceptedAdd then ts.tail else ts) v'
    | none => none

/-- What the driver contract knows of peripheral `p` in state `s`, from the block's record of its
driver ports and of the `tx_id`s submitted. -/
def State.contractView (s : State) (p : Byte) : Option PeriphView :=
  Machine.contractView s.params p s.drvLog s.submitted (.initial s.params)

/-- The tracker invariant of one Module under the contract (10_state.md R47): its peripheral's
notifications are activated exactly while it is started (60_exceptions.md R421), and every active
tracker slot is a mailbox with an accepted transmission, submitted with the `tx_id` of the slot, whose
completion the block has not handled. -/
def trackerOk (m : CanModule) (v : PeriphView) : Prop :=
  v.activated = m.started ∧
  ∀ k slot, m.mb[k]? = some slot → slot.active = true →
    (k, slot.txId) ∈ v.live ∨ (k, slot.txId) ∈ v.carried

/-- The tracker invariant (10_state.md R47): every accepted add request has its `tx_id` on record, and for
a history that has kept the driver contract every Module is in order with it. -/
structure State.TrackerInv (s : State) : Prop where
  recorded : (s.drvLog.filter DrvRecord.acceptedAdd).length = s.submitted.length
  tracked  : ∀ p v, s.contractView p = some v →
    (∀ m ∈ s.modules, m.allocated = true → m.cfg.periph = p → trackerOk m v) ∧
    ((∀ m ∈ s.modules, m.allocated = true → m.cfg.periph ≠ p) → v.activated = false)

/-! ## What decode refuses, as 30_encoding.md lists it -/

/-- The opcode is one of the 13 of 30_encoding.md R118. -/
def opAssigned (op : Byte) : Bool :=
  [0x01, 0x02, 0x03, 0x04, 0x05, 0x06, 0x10, 0x11, 0x12, 0x20, 0x30, 0x31, 0x32].contains op

/-- The bits of `CMD` above its opcode that are reserved or must be zero for an opcode
(30_encoding.md R112), as a mask. -/
def cmdMustBeZero (op : Byte) : Word :=
  if op = 0x01 then 0xFFFFFF00
  else if op = 0x03 then 0xFFFE0000
  else if op = 0x06 then 0xFFF40000
  else if op = 0x10 then 0xFFF80000
  else 0xFFFF0000

/-- A reserved bit of an operand field that the opcode uses is 1 (30_encoding.md R114 to R117). -/
def operandReserved (c : CmdRecord) : Bool :=
  if opField c.cmd = 0x01 then c.cfg &&& 0xFFFFF000 != 0
  else if opField c.cmd = 0x03 then c.fid &&& 0xC0000000 != 0 || c.fmask &&& 0xE0000000 != 0
  else if opField c.cmd = 0x10 then c.mid &&& 0x80000000 != 0 || c.mctl &&& 0xFFFFFFF0 != 0
  else false

/-- A command word is illegal: the four cases of 30_encoding.md R119, in its order. -/
def illegalCommand (p : Params) (c : CmdRecord) : Bool :=
  !opAssigned (opField c.cmd)
  || (opField c.cmd == 0x32 && !p.statsEn)
  || c.cmd &&& cmdMustBeZero (opField c.cmd) != 0
  || operandReserved c

/-- An event word is malformed: the five cases of 30_encoding.md R121, in its order. -/
def malformedEvent (p : Params) (w : Word) : Bool :=
  !([0x81, 0x82, 0x83].contains (opField w))
  || w &&& 0xFF000000 != 0
  || (opField w == 0x81 && decide (1 < (subField w).toNat))
  || (opField w == 0x82 && decide (p.numMb ≤ (subField w).toNat))
  || (opField w == 0x83 && subField w != 0)

/-- The command record with the operand fields its opcode does not use at zero
(30_encoding.md R113). -/
def usedFields (c : CmdRecord) : CmdRecord where
  cmd := c.cmd
  txid := if opField c.cmd = 0x10 ∨ opField c.cmd = 0x11 then c.txid else 0
  mid := if opField c.cmd = 0x10 then c.mid else 0
  mctl := if opField c.cmd = 0x10 then c.mctl else 0
  data := if opField c.cmd = 0x10 then c.data else 0
  ts := if opField c.cmd = 0x10 then c.ts else 0
  fid := if opField c.cmd = 0x03 then c.fid else 0
  fmask := if opField c.cmd = 0x03 then c.fmask else 0
  cfg := if opField c.cmd = 0x01 then c.cfg else 0

/-! ## Classes of instructions -/

/-- The handle operand of a command, `none` for ALLOCATE and the events. -/
def handleOf : Instr → Option Byte
  | .allocate _ _ _ _ _ => none
  | .free h => some h
  | .addFilter h _ _ _ _ => some h
  | .start h => some h
  | .stop h => some h
  | .registerCb h _ _ => some h
  | .transmit h _ _ _ _ _ _ _ _ => some h
  | .abortTx h _ => some h
  | .getOccupancy h => some h
  | .rxRead h => some h
  | .getBusState h => some h
  | .getErrorCounters h => some h
  | .getStats h => some h
  | .evtRxPending _ _ => none
  | .evtTxComplete _ _ => none
  | .evtError _ => none

/-- The peripheral of an event, `none` for a command. -/
def eventPeriph : Instr → Option Byte
  | .allocate _ _ _ _ _ => none
  | .free _ => none
  | .addFilter _ _ _ _ _ => none
  | .start _ => none
  | .stop _ => none
  | .registerCb _ _ _ => none
  | .transmit _ _ _ _ _ _ _ _ _ => none
  | .abortTx _ _ => none
  | .getOccupancy _ => none
  | .rxRead _ => none
  | .getBusState _ => none
  | .getErrorCounters _ => none
  | .getStats _ => none
  | .evtRxPending p _ => some p
  | .evtTxComplete p _ => some p
  | .evtError p => some p

/-- The result codes that a command's own rule answers, after decode (60_exceptions.md R401); an event
has no result. -/
def resultsOf : Instr → List ResultCode
  | .allocate _ _ _ _ _ => [.ok, .invalidParam, .noResource]
  | .free _ => [.ok, .invalidHandle, .driverError]
  | .addFilter _ _ _ _ _ => [.ok, .invalidParam, .invalidHandle, .alreadyStarted, .filterFull]
  | .start _ => [.ok, .invalidHandle, .alreadyStarted, .driverError]
  | .stop _ => [.ok, .invalidHandle, .notStarted, .driverError]
  | .registerCb _ _ _ => [.ok, .invalidHandle]
  | .transmit _ _ _ _ _ _ _ _ _ => [.ok, .invalidParam, .invalidHandle, .txQueueFull]
  | .abortTx _ _ => [.ok, .invalidHandle]
  | .getOccupancy _ => [.ok, .invalidHandle]
  | .rxRead _ => [.ok, .invalidHandle]
  | .getBusState _ => [.ok, .invalidHandle, .driverError]
  | .getErrorCounters _ => [.ok, .invalidHandle, .driverError]
  | .getStats _ => [.ok, .invalidHandle]
  | .evtRxPending _ _ => []
  | .evtTxComplete _ _ => []
  | .evtError _ => []

/-- ALLOCATE, whose failures answer the invalid handle (30_encoding.md R133). -/
def isAllocate : Instr → Bool
  | .allocate _ _ _ _ _ => true
  | .free _ => false
  | .addFilter _ _ _ _ _ => false
  | .start _ => false
  | .stop _ => false
  | .registerCb _ _ _ => false
  | .transmit _ _ _ _ _ _ _ _ _ => false
  | .abortTx _ _ => false
  | .getOccupancy _ => false
  | .rxRead _ => false
  | .getBusState _ => false
  | .getErrorCounters _ => false
  | .getStats _ => false
  | .evtRxPending _ _ => false
  | .evtTxComplete _ _ => false
  | .evtError _ => false

/-- The commands that can leave the normal context busy (10_state.md R56). -/
def isMultiStep : Instr → Bool
  | .allocate _ _ _ _ _ => false
  | .free _ => false
  | .addFilter _ _ _ _ _ => false
  | .start _ => true
  | .stop _ => false
  | .registerCb _ _ _ => false
  | .transmit _ _ _ _ _ _ _ _ _ => true
  | .abortTx _ _ => false
  | .getOccupancy _ => false
  | .rxRead _ => false
  | .getBusState _ => false
  | .getErrorCounters _ => false
  | .getStats _ => false
  | .evtRxPending _ _ => false
  | .evtTxComplete _ _ => false
  | .evtError _ => false

/-! ## Frames -/

/-- Nothing but Module slot `i` and the ports' records differs: the parameters, `nctx`, the fault
record, the environment's turns and every other slot are as before (20_memory.md R94). -/
structure OnlySlot (i : Nat) (s t : State) : Prop where
  params : t.params = s.params
  nctx   : t.nctx = s.nctx
  fault  : t.fault = s.fault
  turns  : t.turns = s.turns
  length : t.modules.length = s.modules.length
  others : ∀ j, j ≠ i → t.slot? j = s.slot? j

/-- No architectural state differs: the Module table, `nctx` and the fault record are as before. -/
structure SameBlock (s t : State) : Prop where
  params  : t.params = s.params
  modules : t.modules = s.modules
  nctx    : t.nctx = s.nctx
  fault   : t.fault = s.fault
  turns   : t.turns = s.turns

/-- No driver request is made, no answer drawn and nothing submitted. -/
structure NoRequest (s t : State) : Prop where
  log       : t.drvLog = s.drvLog
  ans       : t.drvAns = s.drvAns
  drawn     : t.drawn = s.drawn
  submitted : t.submitted = s.submitted

/-- The answer the driver gives to the `n`-th of the coming requests (`n` from 0). -/
def State.answerAt (s : State) (n : Nat) : DrvAnswer :=
  match s.drvAns[n]? with
  | some a => a
  | none => confineAnswer s.params (Config.freeAnswer (s.drawn + n))

/-- The driver requests made are those of `rs`, in order, each with the driver's next answer. -/
structure Requested (rs : List DrvRequest) (s t : State) : Prop where
  log   : t.drvLog = s.drvLog ++ rs.mapIdx fun k r => DrvRecord.request r (s.answerAt k)
  ans   : t.drvAns = s.drvAns.drop rs.length
  drawn : t.drawn = s.drawn + rs.length

/-- START's driver requests when none fails: every staged filter in list order, filter `k` into bank
`k`, then start, then activate (43_module.md R281). -/
def startRequests (m : CanModule) : List DrvRequest :=
  ((m.flt.take m.fltCount).mapIdx fun k f => DrvRequest.configFilter m.cfg.periph k f)
  ++ [.start m.cfg.periph m.cfg.loopback m.cfg.silent m.cfg.autoRetx, .activate m.cfg.periph]

/-- Module slot `i` is started on peripheral `p` and holds `m` (44_interrupt_dispatch.md R350). -/
structure StartedOn (p : Byte) (i : Nat) (m : CanModule) (s : State) : Prop where
  slot      : s.slot? i = some m
  allocated : m.allocated = true
  started   : m.started = true
  periph    : m.cfg.periph = p

/-- Module slot `h` is allocated and holds `m` (60_exceptions.md R402, check 2). -/
structure Claimed (h : Byte) (m : CanModule) (s : State) : Prop where
  slot      : s.slot? h.toNat = some m
  allocated : m.allocated = true

/-- The message operands are legal (40_priority_queue.md R181). -/
structure LegalMessage (p : Params) (prio : BitVec 3) (id : CanId) (ide : Bool) (len : BitVec 4) :
    Prop where
  prio : prio.toNat < p.numPrio
  len  : len.toNat ≤ 8
  id   : ide = false → id.toNat ≤ 0x7FF

/-- A received header keeps the driver contract (60_exceptions.md R424). -/
structure LegalHeader (h : RxHeader) : Prop where
  len : h.len.toNat ≤ 8
  id  : h.ide = false → h.id.toNat ≤ 0x7FF

/-- A notification record, when its condition holds. -/
def noteIf (c : Bool) (i : Nat) (b : NtfBody) : List Notification :=
  if c then [⟨BitVec.ofNat 8 i, b⟩] else []

/-! ## Abstract views of a Module -/

/-- The unread Messages of the RX ring, oldest first (10_state.md R45). -/
def RxRing.unread (p : Params) (r : RxRing) : List Message :=
  (List.range (r.occupancy p)).map fun k => r.slot.getD ((r.ridx + k) % p.rxDepth) .zero

/-- The Entry indices queued at level `l` of a Module, oldest first. -/
def CanModule.level (p : Params) (m : CanModule) (l : Nat) : List Nat :=
  match m.pq[l]? with
  | some q => q.occupied p
  | none => []

/-- A Module whose queues and pool keep their shape, ranges and invariants (10_state.md R40, R41), with
Entry `held` taken out of its queues and not yet released. -/
def CanModule.queuesGood (p : Params) (held : Option Nat) (m : CanModule) : Bool :=
  m.shapeOk p && m.rangesOk p && queuesOk p m && ownershipOk p held m

/-- A Module whose RX ring keeps its shape, its ranges and its invariant (10_state.md R42, R43, R45). -/
def CanModule.ringGood (p : Params) (m : CanModule) : Bool :=
  m.rx.slot.length == p.rxDepth && decide (m.rx.widx < 2 * p.rxDepth)
  && decide (m.rx.ridx < 2 * p.rxDepth) && ringOk p m

/-- The `tx_id` of a pool Entry is `t`. -/
def CanModule.carries (m : CanModule) (t : Word) (e : Nat) : Prop :=
  ∃ en, m.pool[e]? = some en ∧ en.txId = t

/-- `m'` is `m` with a message queued last at its level, in the lowest free Entry `e`
(40_priority_queue.md R164). -/
structure Enqueued (p : Params) (m : CanModule) (msg : Message) (t : Word) (l : BitVec 3) (e : Nat)
    (m' : CanModule) : Prop where
  free   : ∃ en, m.pool[e]? = some en ∧ en.inUse = false
  lowest : ∀ j < e, ∃ en : Entry, m.pool[j]? = some en ∧ en.inUse = true
  entry  : m'.pool[e]? = some ⟨true, msg, t, l⟩
  pool   : ∀ j, j ≠ e → m'.pool[j]? = m.pool[j]?
  used   : m'.used = m.used + 1
  level  : m'.level p l.toNat = m.level p l.toNat ++ [e]
  levels : ∀ k, k ≠ l.toNat → m'.level p k = m.level p k
  bit    : m'.bitmap.getLsbD l.toNat = true
  bits   : ∀ k, k ≠ l.toNat → m'.bitmap.getLsbD k = m.bitmap.getLsbD k
  rest   : { m' with pool := m.pool, used := m.used, pq := m.pq, bitmap := m.bitmap } = m

/-- `m'` is `m` after an enqueue that a full level refused: the count of Entries in use, the queues and
the bitmap are as before. With every Entry in use the pool is as before too; otherwise the lowest free
Entry, the one tentatively allocated, keeps the copied fields with `in_use = 0`, and every other Entry is
as before (40_priority_queue.md R164, 60_exceptions.md R403). -/
structure EnqueueRefused (m : CanModule) (msg : Message) (t : Word) (l : BitVec 3) (m' : CanModule) :
    Prop where
  pool : ((∀ en ∈ m.pool, en.inUse = true) ∧ m'.pool = m.pool) ∨
    ∃ e, (∃ en, m.pool[e]? = some en ∧ en.inUse = false) ∧
      (∀ j < e, ∃ en : Entry, m.pool[j]? = some en ∧ en.inUse = true) ∧
      m'.pool = m.pool.set e ⟨false, msg, t, l⟩
  rest : { m' with pool := m.pool } = m

/-- `m'` is `m` with its oldest Entry of its lowest non-empty level, `e`, taken out of the queue and not
yet released (40_priority_queue.md R165). -/
structure Dequeued (p : Params) (m : CanModule) (e : Nat) (m' : CanModule) : Prop where
  live   : ∃ en, m.pool[e]? = some en ∧ en.inUse = true
  queued : m.queued p = e :: m'.queued p
  level  : ∃ l, (∀ k < l, m.level p k = []) ∧ m.level p l = e :: m'.level p l ∧
    ∀ k, k ≠ l → m'.level p k = m.level p k
  bits   : ∀ k < p.numPrio, m'.bitmap.getLsbD k = !(m'.level p k).isEmpty
  rest   : { m' with pq := m.pq, bitmap := m.bitmap } = m

/-- `m'` is `m` with the first queued Entry that carries `t`, `e`, taken out of its queue and released
(40_priority_queue.md R166). -/
structure Removed (p : Params) (m : CanModule) (t : Word) (e : Nat) (m' : CanModule) : Prop where
  first  : ∃ a b, m.queued p = a ++ e :: b ∧ (∀ x ∈ a, ¬ m.carries t x) ∧ m.carries t e ∧
    m'.queued p = a ++ b
  level  : ∃ l a b, m.level p l = a ++ e :: b ∧ m'.level p l = a ++ b ∧
    ∀ k, k ≠ l → m'.level p k = m.level p k
  entry  : ∃ en, m.pool[e]? = some en ∧ en.inUse = true ∧
    m'.pool = m.pool.set e { en with inUse := false }
  used   : m'.used + 1 = m.used
  bits   : ∀ k < p.numPrio, m'.bitmap.getLsbD k = !(m'.level p k).isEmpty
  rest   : { m' with pool := m.pool, used := m.used, pq := m.pq, bitmap := m.bitmap } = m

/-- One operation after another, one for each element of a list; a fault ends them. -/
def Run.each {σ α β : Type} (f : α → σ → Run σ β) : List α → σ → Run σ (List β)
  | [], s => .ok [] s
  | x :: xs, s =>
    (f x s).andThen fun b s => (Run.each f xs s).andThen fun bs s => .ok (b :: bs) s

/-- The order in which queued messages leave the queues: by level, and within a level in arrival order
(40_priority_queue.md R167). -/
def drainOrder (numPrio : Nat) (xs : List (Message × Word × BitVec 3)) :
    List (Message × Word × BitVec 3) :=
  (List.range numPrio).flatMap fun l => xs.filter fun x => x.2.2.toNat == l

end Sys2Proof.Machine
end

