-- ==== Sys2Proof/Certificates/Slice0/Obligations.lean ====
section
/-! DEFINITION. The statements for the provers. -/

open Sys2Proof Sys2Proof.Machine

/-! ## Encoding -/

/-- Decoding the words of any instruction gives the instruction back, and the block admits it in every
configuration in which it exists (30_encoding.md R112 to R122). -/
def Obligations.EncodeThenDecode : Prop :=
  ∀ i : Instr, decode (encode i) = .ok i ∧
    ∀ p : Params, i.wellFormed p = true → instrOf p (encode i) = some i

/-- A word that decodes is the only word of its instruction: encoding what was decoded gives back the
event word, or the command record with the operand fields its opcode ignores at zero (30_encoding.md
R113, R122). -/
def Obligations.DecodeThenEncode : Prop :=
  (∀ (c : CmdRecord) (i : Instr), decode (.command c) = .ok i → encode i = .command (usedFields c)) ∧
  (∀ (w : Word) (i : Instr), decode (.event w) = .ok i → encode i = .event w)

/-- Words that the spec writes out decode to the instructions they stand for (95_test_vectors.md
section 2.1; the examples of 43_module.md R275, R295 and 44_interrupt_dispatch.md R324, R333). -/
def Obligations.SpecWordsDecode : Prop :=
  decode (.command (.ofWord 0x00000001)) = .ok (.allocate 0 false false false false) ∧
  decode (.command { CmdRecord.ofWord 0x00010003 with fid := 0x00000100, fmask := 0x00000700 })
    = .ok (.addFilter 0 1 0x100 false 0x700) ∧
  decode (.command (.ofWord 0x00090006)) = .ok (.registerCb 0 .txc true) ∧
  decode (.command { CmdRecord.ofWord 0x00020010 with
      txid := 0x0000000A, mid := 0x00000123, mctl := 0x00000001, data := 0x55 })
    = .ok (.transmit 0 2 0xA 0x123 false false 1 0x55 0) ∧
  decode (.command { CmdRecord.ofWord 0x00000011 with txid := 7 }) = .ok (.abortTx 0 7) ∧
  decode (.command (.ofWord 0x0000FF04)) = .ok (.start 0xFF) ∧
  decode (.event 0x00010081) = .ok (.evtRxPending 0 1) ∧
  decode (.event 0x00000082) = .ok (.evtTxComplete 0 0) ∧
  decode (.event 0x00000083) = .ok (.evtError 0)

/-- 30_encoding.md R119: the four ways a command word is illegal are exactly the words no instruction
is read from, and accepting one answers one response, InvalidParam, and changes no state, whatever the
handle or the other operands are. (Which RHANDLE that response has is in StepMeetsIllegalInput.) -/
def Obligations.IllegalCommandIsInvalidParam : Prop :=
  (∀ (p : Params) (c : CmdRecord), illegalCommand p c = true ↔ instrOf p (.command c) = none) ∧
  ∀ (s : State) (c : CmdRecord), illegalCommand s.params c = true →
    ∃ r : Response, r.result = .invalidParam ∧ acceptCommand c s = .next { s with rsp := s.rsp ++ [r] }

/-- 30_encoding.md R121: the five ways an event word is malformed are exactly the words no instruction is
read from, and taking one is the fault DriverContract, with no slot, `nctx`, response or notification
changed. (That the faulting step is a next state with the reason recorded is log 4's reading.) -/
def Obligations.MalformedEventFaults : Prop :=
  (∀ (p : Params) (w : Word), malformedEvent p w = true ↔ instrOf p (.event w) = none) ∧
  ∀ (s : State) (w : Word), malformedEvent s.params w = true →
    ∃ t, handleEvent w s = .next t ∧ t.fault = some .driverContract ∧ t.modules = s.modules ∧
      t.nctx = s.nctx ∧ t.rsp = s.rsp ∧ t.ntf = s.ntf

/-! ## Steps -/

/-- A step at which the command port is free runs the command presented: step is exec of the decoded
instruction, on the state with that turn used up, and then the check at the step boundary. (That the
first of `turns` says what is presented is log 3's choice, the place of the check log 5's.) -/
def Obligations.StepRunsTheCommand : Prop :=
  ∀ (s : State) (c : CmdRecord) (rest : List Turn) (i : Instr),
    s.fault = none → s.turns = .present (.command c) :: rest → s.nctx.phase = .idle →
    decode (.command c) = .ok i → i.wellFormed s.params = true →
    step s = atBoundary (exec i { s with turns := rest }) ∧
    ∀ t, exec i { s with turns := rest } = .next t →
      step s = .next t.checkBoundary ∧ (t.boundaryOk = true → step s = .next t)

/-- A step runs the event presented, whatever the normal context is doing: step is exec of the decoded
instruction, on the state with that turn used up and the event on the port's record, and then the check
at the step boundary (log 3, log 5, log 7). -/
def Obligations.StepRunsTheEvent : Prop :=
  ∀ (s : State) (w : Word) (rest : List Turn) (i : Instr),
    s.fault = none → s.turns = .present (.event w) :: rest →
    decode (.event w) = .ok i → i.wellFormed s.params = true →
    step s = atBoundary (exec i { s with turns := rest, drvLog := s.drvLog ++ [.event w] }) ∧
    ∀ t, exec i { s with turns := rest, drvLog := s.drvLog ++ [.event w] } = .next t →
      step s = .next t.checkBoundary ∧ (t.boundaryOk = true → step s = .next t)

/-- A step at which an illegal command word is accepted answers InvalidParam and leaves the block as it
is; a step that takes a malformed event word records DriverContract, whatever the normal context is
doing (30_encoding.md R119, R121; log 3 for the turns, log 4 for the faulting step). The RHANDLE of an
illegal word with ALLOCATE's opcode is 0xFF by log 20's reading of R131 and R133. -/
def Obligations.StepMeetsIllegalInput : Prop :=
  (∀ (s : State) (c : CmdRecord) (rest : List Turn),
    s.fault = none → s.boundaryOk = true → s.turns = .present (.command c) :: rest →
    s.nctx.phase = .idle → illegalCommand s.params c = true →
    step s = .next { s with
      turns := rest
      rsp := s.rsp ++ [if opField c.cmd = 0x01 then Response.noHandle .invalidParam
        else Response.ofResult .invalidParam] }) ∧
  (∀ (s : State) (w : Word) (rest : List Turn),
    s.fault = none → s.turns = .present (.event w) :: rest → malformedEvent s.params w = true →
    step s = .next { s with
      turns := rest
      drvLog := s.drvLog ++ [.event w]
      fault := some .driverContract })

/-- A command presented while another is in progress waits at the port: the step is the next step of
the command in progress, and the command is still presented after it (30_encoding.md R111; log 3). -/
def Obligations.CommandWaitsWhileBusy : Prop :=
  ∀ (s : State) (c : CmdRecord) (rest : List Turn),
    s.fault = none → s.turns = .present (.command c) :: rest → s.nctx.phase ≠ .idle →
    ∃ t, normalStep s = .next t ∧ step s = .next t.checkBoundary ∧
      t.checkBoundary.turns = .present (.command c) :: rest

/-- With nothing presented an idle block waits and keeps all its state (70_reset_and_hazards.md R451,
R482). That a step with no turn left leaves every field as it is, is log 16's choice. -/
def Obligations.IdleBlockWaits : Prop :=
  ∀ s : State, s.fault = none → s.turns = [] → s.nctx.phase = .idle → s.boundaryOk = true →
    ∀ n, Host.Core.run Sys2Proof.core n s = .next s

/-- A block with a recorded fault is stuck: no number of steps, whatever is presented, leaves the fault
(00_scope.md R20, 10_state.md R57, 60_exceptions.md R430). That the stuck step answers the recorded fault
is log 4's reading. -/
def Obligations.FaultIsFinal : Prop :=
  ∀ (s : State) (r : Fault), s.fault = some r →
    ∀ n, Host.Core.run Sys2Proof.core (n + 1) s = .fault r

/-! ## Reset -/

/-- 70_reset_and_hazards.md R450: power-on reset leaves every field of every slot 0, the normal context
idle, no fault, no notification and no response, in every configuration. -/
def Obligations.ResetLeavesZero : Prop :=
  ∀ p : Params,
    (∀ h, (∃ m, (State.resetWith p).slot? h = some m) ↔ h < p.nInst) ∧
    (∀ h m, (State.resetWith p).slot? h = some m →
      m.allocated = false ∧ m.started = false ∧ m.cfg = ⟨0, false, false, false, false⟩ ∧
      m.pool = List.replicate p.poolCap ⟨false, ⟨0, false, false, 0, ⟨0, 0, 0, 0, 0, 0, 0, 0⟩, 0⟩, 0, 0⟩ ∧
      m.used = 0 ∧ m.pq = List.replicate p.numPrio ⟨List.replicate p.qcap 0, 0, 0, 0⟩ ∧
      m.bitmap = 0 ∧
      m.rx = ⟨List.replicate p.rxDepth ⟨0, false, false, 0, ⟨0, 0, 0, 0, 0, 0, 0, 0⟩, 0⟩, 0, 0, 0⟩ ∧
      m.mb = List.replicate p.numMb ⟨false, 0⟩ ∧
      m.flt = List.replicate p.maxFilters ⟨0, 0, false, 0⟩ ∧ m.fltCount = 0 ∧
      m.cbEn = ⟨false, false, false, false⟩ ∧ m.stat = ⟨0, 0, 0⟩) ∧
    (State.resetWith p).nctx = ⟨.idle, 0, 0, none, false, .ok⟩ ∧
    (State.resetWith p).fault = none ∧ (State.resetWith p).ntf = [] ∧ (State.resetWith p).rsp = []

/-- The invariant holds after power-on reset of every legal configuration, the model's State.reset
among them (log 1: its configuration is a choice); and so does the tracker invariant. -/
def Obligations.ResetMeetsInvariants : Prop :=
  (∀ p : Params, (State.resetWith p).Inv ∧ (State.resetWith p).TrackerInv) ∧
  State.reset.Inv

/-! ## Invariants -/

/-- Every step keeps the invariant: the parameters, the shape of the arrays, the ranges of counts and
cursors, the width of an Entry index in every queue slot and in `nctx` (00_scope.md R13), the zero content
of unallocated slots, the distinct peripherals, the legal point of `nctx`, and
the assertions of a step boundary (10_state.md R32, R40, R41, R45, R53, R54, R55; log 17 for the phases
R41 does not name). A step that records a fault records DriverContract. -/
def Obligations.EveryStepKeepsInvariant : Prop :=
  ∀ s t : State, s.Inv → step s = .next t → t.Inv

/-- Under a lawful environment no run from a good state reaches a fault (60_exceptions.md R430): neither
InvariantBroken nor DriverContract, for any number of steps, whatever the driver answers where no
answer is fixed (log 2). -/
def Obligations.LawfulRunsNeverFault : Prop :=
  ∀ s : State, s.Good → s.fault = none → s.lawful = true →
    ∀ n, ∃ t, Host.Core.run Sys2Proof.core n s = .next t ∧ t.fault = none ∧ t.Good

/-- The tracker invariant is kept by every step whose history keeps the driver contract: an active
tracker slot is a mailbox with an accepted transmission that was submitted with the slot's `tx_id` and has
no completion handled yet (10_state.md R47; log 12 for the history, log 22 for the record of the `tx_id`s,
which the add requests do not carry). -/
def Obligations.EveryStepKeepsTracker : Prop :=
  ∀ s t : State, s.Good → s.fault = none → s.TrackerInv → step s = .next t → t.TrackerInv

/-! ## The queues -/

/-- `enqueue` on a Module in order, no Entry held: a full level refuses (40_priority_queue.md R168), any
other level takes the message last, in the lowest free Entry (R161, R164, R169). A refusal leaves all but the
lowest free Entry as it was (R164). -/
def Obligations.EnqueueAppendsOrRefuses : Prop :=
  ∀ (p : Params) (m : CanModule) (msg : Message) (t : Word) (l : BitVec 3),
    m.queuesGood p none = true → l.toNat < p.numPrio →
    ((m.level p l.toNat).length = p.qcap →
      ∃ m', enqueue p msg t l m = .ok .txQueueFull m' ∧ EnqueueRefused m msg t l m') ∧
    ((m.level p l.toNat).length ≠ p.qcap →
      ∃ e m', enqueue p msg t l m = .ok .ok m' ∧ Enqueued p m msg t l e m')

/-- `dequeue_highest` on a Module in order takes the oldest Entry of the lowest non-empty level, and
answers NONE exactly when every level is empty (40_priority_queue.md R160, R165). -/
def Obligations.DequeueTakesHighest : Prop :=
  ∀ (p : Params) (m : CanModule) (held : Option Nat),
    m.queuesGood p held = true →
    (m.queued p = [] → dequeueHighest p m = .ok none m) ∧
    (m.queued p ≠ [] → ∃ e m', dequeueHighest p m = .ok (some e) m' ∧ Dequeued p m e m')

/-- `remove_by_tx_id` on a Module in order removes the first queued Entry with the `tx_id`, by level and
within a level oldest first, closing the gap, and answers 0 with no change when there is none
(40_priority_queue.md R166). -/
def Obligations.RemoveTakesFirstMatch : Prop :=
  ∀ (p : Params) (m : CanModule) (held : Option Nat) (t : Word),
    m.queuesGood p held = true →
    ((∀ e ∈ m.queued p, ¬ m.carries t e) → removeByTxId p t m = .ok false m) ∧
    ((∃ e ∈ m.queued p, m.carries t e) →
      ∃ e m', removeByTxId p t m = .ok true m' ∧ Removed p m t e m')

/-- Messages enqueued on any levels of an empty Module and then dequeued come out by level, and within a
level in the order they were enqueued; after them the queues are empty (40_priority_queue.md R167). -/
def Obligations.PriorityThenFifoOrder : Prop :=
  ∀ (p : Params) (m m' : CanModule) (xs : List (Message × Word × BitVec 3)),
    m.queuesGood p none = true → m.queued p = [] →
    Run.each (fun x => enqueue p x.1 x.2.1 x.2.2) xs m = .ok (xs.map fun _ => .ok) m' →
    ∃ (es : List Nat) (m'' : CanModule),
      Run.each (fun _ => dequeueHighest p) xs m' = .ok (es.map some) m'' ∧
      (es.map fun e => m'.pool[e]?) =
        (drainOrder p.numPrio xs).map (fun x => some ⟨true, x.1, x.2.1, x.2.2⟩) ∧
      dequeueHighest p m'' = .ok none m''

/-! ## The ring -/

/-- `rx_push` appends to the unread Messages, or drops the newest and counts one overrun when they are
`RX_DEPTH`; `rx_pop` takes the oldest and writes only `ridx`, or answers NONE
(41_rx_ring.md R210, R211, R213). -/
def Obligations.RingIsBoundedFifo : Prop :=
  ∀ (p : Params) (m : CanModule) (msg : Message), m.ringGood p = true →
    ((m.rx.unread p).length = p.rxDepth →
      rxPush p msg m = .ok .dropped { m with rx := { m.rx with overrun := m.rx.overrun + 1 } }) ∧
    ((m.rx.unread p).length ≠ p.rxDepth →
      ∃ r : RxRing, rxPush p msg m = .ok .pushed { m with rx := r } ∧
        r.unread p = m.rx.unread p ++ [msg] ∧ r.ridx = m.rx.ridx ∧ r.overrun = m.rx.overrun) ∧
    (m.rx.unread p = [] → rxPop p m = .ok none m) ∧
    (∀ (x : Message) (xs : List Message), m.rx.unread p = x :: xs →
      ∃ k, rxPop p m = .ok (some x) { m with rx := { m.rx with ridx := k } } ∧
        ({ m.rx with ridx := k } : RxRing).unread p = xs)

/-- 41_rx_ring.md R217: `N` pushes into an empty ring, `N` at most the capacity, and `N` pops return the
Messages in push order with `overrun` unchanged; one push more than the capacity is dropped, counted
once, and the ring holds the first ones, oldest first. -/
def Obligations.RingRoundTrip : Prop :=
  ∀ (p : Params) (m : CanModule) (xs : List Message),
    m.ringGood p = true → m.rx.unread p = [] →
    (xs.length ≤ p.rxDepth → ∃ m₁ m₂ : CanModule,
      Run.each (fun x => rxPush p x) xs m = .ok (xs.map fun _ => .pushed) m₁ ∧
      m₁.rx.overrun = m.rx.overrun ∧
      Run.each (fun _ => rxPop p) xs m₁ = .ok (xs.map some) m₂ ∧
      m₂.rx.overrun = m.rx.overrun) ∧
    (xs.length = p.rxDepth + 1 → ∃ m₁ : CanModule,
      Run.each (fun x => rxPush p x) xs m =
        .ok (List.replicate p.rxDepth .pushed ++ [.dropped]) m₁ ∧
      m₁.rx.overrun = m.rx.overrun + 1 ∧ m₁.rx.unread p = xs.take p.rxDepth)

/-! ## Commands -/

/-- A command whose handle is out of range or names an unallocated slot answers InvalidHandle and changes
nothing, whatever its other operands are (60_exceptions.md R402, check 2; 30_encoding.md R133). -/
def Obligations.BadHandleIsInvalidHandle : Prop :=
  ∀ (s : State) (i : Instr) (h : Byte), handleOf i = some h →
    (s.params.nInst ≤ h.toNat ∨ ∃ m, s.slot? h.toNat = some m ∧ m.allocated = false) →
    exec i s = .next { s with rsp := s.rsp ++ [Response.ofResult .invalidHandle] }

/-- ALLOCATE of an unclaimed peripheral completes: in a good state a free slot exists (43_module.md R261
(c)), the lowest is taken, every field of it is 0 but `allocated` and `cfg`, and no driver request is
made (R260, R261). -/
def Obligations.AllocateClaimsLowestSlot : Prop :=
  ∀ (s : State) (periph : Byte) (lb sil artx led : Bool), s.Good →
    periph.toNat < s.params.nInst →
    (∀ j m, s.slot? j = some m → m.allocated = true → m.cfg.periph ≠ periph) →
    ∃ h t, exec (.allocate periph lb sil artx led) s = .next t ∧
      (∃ m, s.slot? h = some m ∧ m.allocated = false) ∧
      (∀ j < h, ∃ m, s.slot? j = some m ∧ m.allocated = true) ∧
      t.slot? h = some { CanModule.zero s.params with
        allocated := true
        cfg := ⟨periph, lb, sil, artx, led⟩ } ∧
      OnlySlot h s t ∧ NoRequest s t ∧ t.ntf = s.ntf ∧
      t.rsp = s.rsp ++ [{ Response.ofResult .ok with rhandle := BitVec.ofNat 8 h }]

/-- ALLOCATE's failures, in order: an unknown peripheral selector is InvalidParam, a claimed one or no
free slot is NoResource; each answers RHANDLE 0xFF and changes nothing (43_module.md R260). -/
def Obligations.AllocateRefusals : Prop :=
  ∀ (s : State) (periph : Byte) (lb sil artx led : Bool),
    (s.params.nInst ≤ periph.toNat →
      exec (.allocate periph lb sil artx led) s =
        .next { s with rsp := s.rsp ++ [Response.noHandle .invalidParam] }) ∧
    (periph.toNat < s.params.nInst →
      ((∃ j m, s.slot? j = some m ∧ m.allocated = true ∧ m.cfg.periph = periph) ∨
        (∀ j m, s.slot? j = some m → m.allocated = true)) →
      exec (.allocate periph lb sil artx led) s =
        .next { s with rsp := s.rsp ++ [Response.noHandle .noResource] })

/-- FREE releases the slot in every case: every field becomes 0. A started Module is stopped first, with
the deactivate and the stop request, and a failure of either is answered DriverError
(43_module.md R270, R271). That the one step of FREE makes the requests and zeroes the queues, against
20_memory.md R89, is log 11's choice. -/
def Obligations.FreeReleasesTheSlot : Prop :=
  ∀ (s : State) (h : Byte) (m : CanModule), Claimed h m s →
    ∃ t, exec (.free h) s = .next t ∧ OnlySlot h.toNat s t ∧
      t.slot? h.toNat = some (CanModule.zero s.params) ∧ t.ntf = s.ntf ∧
      (m.started = false → NoRequest s t ∧ t.rsp = s.rsp ++ [Response.ofResult .ok]) ∧
      (m.started = true →
        Requested [.deactivate m.cfg.periph, .stop m.cfg.periph] s t ∧
        t.rsp = s.rsp ++ [Response.ofResult
          (if (s.answerAt 0).ok = true ∧ (s.answerAt 1).ok = true then .ok else .driverError)])

/-- STOP of a started Module clears `started` and nothing else, always issues both requests, and answers
DriverError when either fails; of a Module that is not started it answers NotStarted
(43_module.md R290, R291). -/
def Obligations.StopClearsStarted : Prop :=
  ∀ (s : State) (h : Byte) (m : CanModule), Claimed h m s →
    (m.started = true → ∃ t, exec (.stop h) s = .next t ∧ OnlySlot h.toNat s t ∧
      t.slot? h.toNat = some { m with started := false } ∧ t.ntf = s.ntf ∧
      Requested [.deactivate m.cfg.periph, .stop m.cfg.periph] s t ∧
      t.rsp = s.rsp ++ [Response.ofResult
        (if (s.answerAt 0).ok = true ∧ (s.answerAt 1).ok = true then .ok else .driverError)]) ∧
    (m.started = false →
      exec (.stop h) s = .next { s with rsp := s.rsp ++ [Response.ofResult .notStarted] })

/-- ADD_FILTER stages the filter after those already staged and makes no driver request
(43_module.md R275, 10_state.md R48). -/
def Obligations.AddFilterStages : Prop :=
  ∀ (s : State) (h : Byte) (fifo : BitVec 1) (id : CanId) (ide : Bool) (mask : CanId)
    (m : CanModule), Claimed h m s →
    (ide = false → id.toNat ≤ 0x7FF ∧ mask.toNat ≤ 0x7FF) → m.started = false →
    m.fltCount < s.params.maxFilters → m.flt.length = s.params.maxFilters →
    ∃ t, exec (.addFilter h fifo id ide mask) s = .next t ∧ OnlySlot h.toNat s t ∧
      t.slot? h.toNat = some { m with
        flt := m.flt.set m.fltCount ⟨id, mask, ide, fifo⟩
        fltCount := m.fltCount + 1 } ∧
      NoRequest s t ∧ t.ntf = s.ntf ∧ t.rsp = s.rsp ++ [Response.ofResult .ok]

/-- ADD_FILTER's failures in the order of 60_exceptions.md R402: a standard identifier or mask above 0x7FF
is InvalidParam (43_module.md R276), then a started Module is AlreadyStarted, then a full list is
FilterFull; nothing changes (R275). -/
def Obligations.AddFilterRefusals : Prop :=
  ∀ (s : State) (h : Byte) (fifo : BitVec 1) (id : CanId) (ide : Bool) (mask : CanId)
    (m : CanModule), Claimed h m s →
    (ide = false ∧ (0x7FF < id.toNat ∨ 0x7FF < mask.toNat) →
      exec (.addFilter h fifo id ide mask) s =
        .next { s with rsp := s.rsp ++ [Response.ofResult .invalidParam] }) ∧
    ((ide = false → id.toNat ≤ 0x7FF ∧ mask.toNat ≤ 0x7FF) → m.started = true →
      exec (.addFilter h fifo id ide mask) s =
        .next { s with rsp := s.rsp ++ [Response.ofResult .alreadyStarted] }) ∧
    ((ide = false → id.toNat ≤ 0x7FF ∧ mask.toNat ≤ 0x7FF) → m.started = false →
      m.fltCount = s.params.maxFilters →
      exec (.addFilter h fifo id ide mask) s =
        .next { s with rsp := s.rsp ++ [Response.ofResult .filterFull] })

/-- START whose requests all succeed programs every staged filter in order, starts and activates the
peripheral, sets `started` and nothing else of the Module, and begins its drain loop; the answer comes
when the loop ends (43_module.md R280, R281). -/
def Obligations.StartProgramsAndStarts : Prop :=
  ∀ (s : State) (h : Byte) (m : CanModule), Claimed h m s → m.started = false →
    m.fltCount ≤ s.params.maxFilters → m.fltCount ≤ m.flt.length →
    (∀ k < m.fltCount + 2, (s.answerAt k).ok = true) →
    ∃ t, exec (.start h) s = .next t ∧ OnlySlot h.toNat s { t with nctx := s.nctx } ∧
      t.slot? h.toNat = some { m with started := true } ∧
      t.nctx = ⟨.subQuery, 0x04, h, none, true, .ok⟩ ∧
      Requested (startRequests m) s t ∧ t.ntf = s.ntf ∧ t.rsp = s.rsp

/-- START whose request `k` is the first to fail stops there: a failed activate is followed by the
compensating stop; it answers DriverError, and the Module, its staged filters and its queues are as
before. A started Module answers AlreadyStarted and programs nothing (43_module.md R280 to R282). -/
def Obligations.StartFailureLeavesStopped : Prop :=
  ∀ (s : State) (h : Byte) (m : CanModule), Claimed h m s →
    (m.started = true →
      exec (.start h) s = .next { s with rsp := s.rsp ++ [Response.ofResult .alreadyStarted] }) ∧
    ∀ k, m.started = false → m.fltCount ≤ s.params.maxFilters → m.fltCount ≤ m.flt.length →
      k < m.fltCount + 2 → (∀ j < k, (s.answerAt j).ok = true) → (s.answerAt k).ok = false →
      ∃ t, exec (.start h) s = .next t ∧ SameBlock s t ∧
        Requested ((startRequests m).take (k + 1) ++
          (if k = m.fltCount + 1 then [.stop m.cfg.periph] else [])) s t ∧
        t.ntf = s.ntf ∧ t.rsp = s.rsp ++ [Response.ofResult .driverError]

/-- REGISTER_CB writes one callback enable in any allocated state and answers OK; the other three are as
before (43_module.md R294, R295). -/
def Obligations.RegisterCbWritesOneEnable : Prop :=
  ∀ (s : State) (h : Byte) (kind : CbKind) (en : Bool) (m : CanModule), Claimed h m s →
    ∃ t e, exec (.registerCb h kind en) s = .next t ∧ OnlySlot h.toNat s t ∧
      t.slot? h.toNat = some { m with cbEn := e } ∧
      e.get kind = en ∧ (∀ k, k ≠ kind → e.get k = m.cbEn.get k) ∧
      NoRequest s t ∧ t.ntf = s.ntf ∧ t.rsp = s.rsp ++ [Response.ofResult .ok]

/-- TRANSMIT with legal operands at a level with room queues the message last at its level. On a Module
that is not started it answers OK at once; on a started one it begins one submission and the answer
comes when that ends (40_priority_queue.md R180, R182). -/
def Obligations.TransmitQueues : Prop :=
  ∀ (s : State) (h : Byte) (prio : BitVec 3) (txid : Word) (id : CanId) (ide rtr : Bool)
    (len : BitVec 4) (data : BitVec 64) (ts : Word) (m : CanModule),
    s.Good → s.nctx.phase = .idle → Claimed h m s → LegalMessage s.params prio id ide len →
    (m.level s.params prio.toNat).length < s.params.qcap →
    ∃ e m' t, exec (.transmit h prio txid id ide rtr len data ts) s = .next t ∧
      t.slot? h.toNat = some m' ∧
      Enqueued s.params m ⟨id, ide, rtr, len, .ofData data, ts⟩ txid prio e m' ∧
      NoRequest s t ∧ t.ntf = s.ntf ∧
      (m.started = false → OnlySlot h.toNat s t ∧ t.rsp = s.rsp ++ [Response.ofResult .ok]) ∧
      (m.started = true → OnlySlot h.toNat s { t with nctx := s.nctx } ∧
        t.nctx = ⟨.subQuery, 0x10, h, none, false, .ok⟩ ∧ t.rsp = s.rsp)

/-- TRANSMIT's refusals: a priority level at or above `NUM_PRIO`, a length above 8 or a standard identifier
above 0x7FF is InvalidParam with nothing changed (40_priority_queue.md R181); a full level is TxQueueFull,
and nothing is changed but the lowest free Entry, if there is one, which keeps the copied message, `tx_id`
and level with `in_use = 0` (R164, R168; 60_exceptions.md R403). -/
def Obligations.TransmitRefusals : Prop :=
  ∀ (s : State) (h : Byte) (prio : BitVec 3) (txid : Word) (id : CanId) (ide rtr : Bool)
    (len : BitVec 4) (data : BitVec 64) (ts : Word) (m : CanModule), Claimed h m s →
    (s.params.numPrio ≤ prio.toNat ∨ 8 < len.toNat ∨ (ide = false ∧ 0x7FF < id.toNat) →
      exec (.transmit h prio txid id ide rtr len data ts) s =
        .next { s with rsp := s.rsp ++ [Response.ofResult .invalidParam] }) ∧
    (s.Good → s.nctx.phase = .idle → LegalMessage s.params prio id ide len →
      (m.level s.params prio.toNat).length = s.params.qcap →
      ∃ m' t, exec (.transmit h prio txid id ide rtr len data ts) s = .next t ∧
        OnlySlot h.toNat s t ∧ t.slot? h.toNat = some m' ∧
        EnqueueRefused m ⟨id, ide, rtr, len, .ofData data, ts⟩ txid prio m' ∧
        NoRequest s t ∧ t.ntf = s.ntf ∧ t.rsp = s.rsp ++ [Response.ofResult .txQueueFull])

/-- ABORT_TX answers FLAG 1 and removes the first queued Entry with the `tx_id`, or answers FLAG 0 with
nothing changed when none is queued; the tracker is left alone in both (40_priority_queue.md R184,
R185). -/
def Obligations.AbortTxRemovesQueued : Prop :=
  ∀ (s : State) (h : Byte) (txid : Word) (m : CanModule), s.Good → Claimed h m s →
    ((∀ e ∈ m.queued s.params, ¬ m.carries txid e) →
      exec (.abortTx h txid) s = .next { s with rsp := s.rsp ++ [Response.ofResult .ok] }) ∧
    ((∃ e ∈ m.queued s.params, m.carries txid e) →
      ∃ e m' t, exec (.abortTx h txid) s = .next t ∧ OnlySlot h.toNat s t ∧
        t.slot? h.toNat = some m' ∧ Removed s.params m txid e m' ∧ m'.mb = m.mb ∧
        NoRequest s t ∧ t.ntf = s.ntf ∧
        t.rsp = s.rsp ++ [{ Response.ofResult .ok with flag := true }])

/-- GET_OCCUPANCY answers `used` and the free count and writes nothing; in a good idle state `used` is the
number of queued Entries (40_priority_queue.md R186, 10_state.md R41). -/
def Obligations.GetOccupancyCountsQueued : Prop :=
  ∀ (s : State) (h : Byte) (m : CanModule), Claimed h m s →
    exec (.getOccupancy h) s = .next { s with rsp := s.rsp ++ [{ Response.ofResult .ok with
      rd0 := BitVec.ofNat 32 m.used
      rd1 := BitVec.ofNat 32 (s.params.poolCap - m.used) }] } ∧
    (s.Good → s.nctx.phase = .idle → m.used = (m.queued s.params).length)

/-- RX_READ takes the oldest unread Message, with the occupancy before the read, and writes only `ridx`; on
an empty ring it answers FLAG 0 and writes nothing (41_rx_ring.md R215). -/
def Obligations.RxReadTakesOldest : Prop :=
  ∀ (s : State) (h : Byte) (m : CanModule), Claimed h m s → m.ringGood s.params = true →
    (m.rx.unread s.params = [] →
      exec (.rxRead h) s = .next { s with rsp := s.rsp ++ [Response.ofResult .ok] }) ∧
    (∀ (x : Message) (xs : List Message), m.rx.unread s.params = x :: xs →
      ∃ k t, exec (.rxRead h) s = .next t ∧ OnlySlot h.toNat s t ∧
        t.slot? h.toNat = some { m with rx := { m.rx with ridx := k } } ∧
        ({ m.rx with ridx := k } : RxRing).unread s.params = xs ∧
        NoRequest s t ∧ t.ntf = s.ntf ∧
        t.rsp = s.rsp ++ [{ Response.ofResult .ok with
          flag := true
          rd0 := BitVec.ofNat 32 (xs.length + 1)
          rmid := midWord x.id x.ide x.rtr
          rmctl := mctlWord x.len
          rdata := x.data.toData
          rts := x.ts }])

/-- GET_BUS_STATE and GET_ERROR_COUNTERS ask the driver once and change nothing in the block: bus-off (2)
before error-passive (1) before active (0), and the counters as `{rec, tec}`; a failed request is
DriverError (43_module.md R296 to R298). -/
def Obligations.BusReadsAskTheDriver : Prop :=
  ∀ (s : State) (h : Byte) (m : CanModule), Claimed h m s →
    (∃ t, exec (.getBusState h) s = .next t ∧ SameBlock s t ∧
      Requested [.busRegs m.cfg.periph] s t ∧ t.ntf = s.ntf ∧
      t.rsp = s.rsp ++ [if (s.answerAt 0).ok = true then
          { Response.ofResult .ok with
            bus := if (s.answerAt 0).boff = true then 2 else if (s.answerAt 0).epv = true then 1 else 0 }
        else Response.ofResult .driverError]) ∧
    (∃ t, exec (.getErrorCounters h) s = .next t ∧ SameBlock s t ∧
      Requested [.busRegs m.cfg.periph] s t ∧ t.ntf = s.ntf ∧
      t.rsp = s.rsp ++ [if (s.answerAt 0).ok = true then
          { Response.ofResult .ok with
            rd0 := ((s.answerAt 0).rxErr ++ (s.answerAt 0).txErr).setWidth 32 }
        else Response.ofResult .driverError])

/-- GET_STATS answers the three counters and the overrun count and changes nothing
(43_module.md R300). -/
def Obligations.GetStatsAnswersCounters : Prop :=
  ∀ (s : State) (h : Byte) (m : CanModule), Claimed h m s →
    exec (.getStats h) s = .next { s with rsp := s.rsp ++ [{ Response.ofResult .ok with
      rd0 := m.stat.tx
      rd1 := m.stat.rx
      rd2 := m.stat.err
      rd3 := m.rx.overrun }] }

/-! ## Events -/

/-- An event for a peripheral on which no Module is started is ignored: no driver request, no state change,
no notification (44_interrupt_dispatch.md R350). -/
def Obligations.UnresolvedEventIsIgnored : Prop :=
  ∀ (s : State) (i : Instr) (p : Byte), eventPeriph i = some p →
    (∀ j m, s.slot? j = some m → ¬ (m.allocated = true ∧ m.started = true ∧ m.cfg.periph = p)) →
    exec i s = .next s

/-- EVT_RX_PENDING in BUFFERED mode with a frame delivered: one pull, `stat.rx` counts it, ACT comes first
when the Module has the indicator, and the Message is last in the ring, or, with the ring full, it is
dropped, counted in `overrun` and reported (44_interrupt_dispatch.md R320 to R324). -/
def Obligations.RxPendingBuffers : Prop :=
  ∀ (s : State) (p : Byte) (fifo : BitVec 1) (i : Nat) (m : CanModule),
    s.Good → StartedOn p i m s → s.params.rxMode = .buffered →
    (s.answerAt 0).ok = true → LegalHeader (s.answerAt 0).hdr →
    ∃ t r, exec (.evtRxPending p fifo) s = .next t ∧ OnlySlot i s t ∧
      t.slot? i = some { m with
        rx := r
        stat := if s.params.statsEn = true then { m.stat with rx := m.stat.rx + 1 } else m.stat } ∧
      Requested [.getRx p fifo] s t ∧ t.rsp = s.rsp ∧
      ((m.rx.unread s.params).length ≠ s.params.rxDepth →
        r.unread s.params = m.rx.unread s.params ++ [⟨(s.answerAt 0).hdr.id, (s.answerAt 0).hdr.ide,
          (s.answerAt 0).hdr.rtr, (s.answerAt 0).hdr.len, (s.answerAt 0).data,
          (s.answerAt 0).hdr.ts⟩] ∧
        r.ridx = m.rx.ridx ∧ r.overrun = m.rx.overrun ∧
        t.ntf = s.ntf ++ noteIf m.cfg.rxLedEn i .act) ∧
      ((m.rx.unread s.params).length = s.params.rxDepth →
        r = { m.rx with overrun := m.rx.overrun + 1 } ∧
        t.ntf = s.ntf ++ noteIf m.cfg.rxLedEn i .act ++ noteIf m.cbEn.err i (.err .rxOverrun 0))

/-- EVT_RX_PENDING in PASSTHROUGH mode with a frame delivered: the ring is untouched, the frame is
counted and leaves as an RX notification when that callback is enabled, after ACT
(44_interrupt_dispatch.md R320, R323, R324; 41_rx_ring.md R216). -/
def Obligations.RxPendingPassesThrough : Prop :=
  ∀ (s : State) (p : Byte) (fifo : BitVec 1) (i : Nat) (m : CanModule),
    s.Good → StartedOn p i m s → s.params.rxMode = .passthrough →
    (s.answerAt 0).ok = true → LegalHeader (s.answerAt 0).hdr →
    ∃ t, exec (.evtRxPending p fifo) s = .next t ∧ OnlySlot i s t ∧
      t.slot? i = some { m with
        stat := if s.params.statsEn = true then { m.stat with rx := m.stat.rx + 1 } else m.stat } ∧
      Requested [.getRx p fifo] s t ∧ t.rsp = s.rsp ∧
      t.ntf = s.ntf ++ noteIf m.cfg.rxLedEn i .act ++ noteIf m.cbEn.rx i
        (.rx (midWord (s.answerAt 0).hdr.id (s.answerAt 0).hdr.ide (s.answerAt 0).hdr.rtr)
          (mctlWord (s.answerAt 0).hdr.len) (s.answerAt 0).data.toData (s.answerAt 0).hdr.ts)

/-- EVT_RX_PENDING whose pull the driver fails: the block is as before and an ERR DriverError with AUX 0
is emitted when that callback is enabled (44_interrupt_dispatch.md R324 (b)). -/
def Obligations.RxPullFailureIsReported : Prop :=
  ∀ (s : State) (p : Byte) (fifo : BitVec 1) (i : Nat) (m : CanModule),
    s.Good → StartedOn p i m s → (s.answerAt 0).ok = false →
    ∃ t, exec (.evtRxPending p fifo) s = .next t ∧ SameBlock s t ∧
      Requested [.getRx p fifo] s t ∧ t.rsp = s.rsp ∧
      t.ntf = s.ntf ++ noteIf m.cbEn.err i (.err .driverError 0)

/-- EVT_TX_COMPLETE with no free mailbox reported or nothing queued: the tracker slot is cleared; an
active one is counted and notified with its `tx_id`, a spurious one is neither
(44_interrupt_dispatch.md R330 to R332, R334; 42_mailbox_tracker.md R236). -/
def Obligations.TxCompleteClearsAndNotifies : Prop :=
  ∀ (s : State) (p mb : Byte) (i : Nat) (m : CanModule) (was : Mailbox),
    s.Good → StartedOn p i m s → m.mb[mb.toNat]? = some was →
    (s.answerAt 0).count ≤ s.params.numMb →
    ((s.answerAt 0).count = 0 ∨ m.queued s.params = []) →
    ∃ t, exec (.evtTxComplete p mb) s = .next t ∧ OnlySlot i s t ∧
      t.slot? i = some { m with
        mb := m.mb.set mb.toNat ⟨false, 0⟩
        stat := if s.params.statsEn = true ∧ was.active = true then
            { m.stat with tx := m.stat.tx + 1 } else m.stat } ∧
      Requested [.freeMb p] s t ∧ t.rsp = s.rsp ∧
      t.ntf = s.ntf ++ noteIf (was.active && m.cbEn.txc) i (.txc was.txId)

/-- EVT_TX_COMPLETE with a mailbox free and Entries queued: after the clear and the notification, the
highest Entry is handed to the driver and released; the mailbox the driver reports records its `tx_id`,
or the rejected message is dropped and reported with AUX its `tx_id` (44_interrupt_dispatch.md R330;
42_mailbox_tracker.md R230, R232 to R235). That one step does all this, against 20_memory.md R89, is log
11's choice. -/
def Obligations.TxCompleteSubmitsNext : Prop :=
  ∀ (s : State) (p mb : Byte) (i : Nat) (m : CanModule) (was : Mailbox) (e : Nat) (en : Entry),
    s.Good → StartedOn p i m s → m.mb[mb.toNat]? = some was →
    0 < (s.answerAt 0).count → (s.answerAt 0).count ≤ s.params.numMb →
    (m.queued s.params).head? = some e → m.pool[e]? = some en →
    ((s.answerAt 1).ok = true → (s.answerAt 1).mb < s.params.numMb) →
    ∃ t m', exec (.evtTxComplete p mb) s = .next t ∧ OnlySlot i s t ∧ Dequeued s.params m e m' ∧
      t.slot? i = some { m' with
        pool := m.pool.set e { en with inUse := false }
        used := m.used - 1
        mb := if (s.answerAt 1).ok = true then
            (m.mb.set mb.toNat ⟨false, 0⟩).set (s.answerAt 1).mb ⟨true, en.txId⟩
          else m.mb.set mb.toNat ⟨false, 0⟩
        stat := if s.params.statsEn = true ∧ was.active = true then
            { m.stat with tx := m.stat.tx + 1 } else m.stat } ∧
      Requested [.freeMb p,
        .addTx p ⟨en.msg.id, en.msg.ide, en.msg.rtr, en.msg.len⟩ en.msg.data] s t ∧
      t.rsp = s.rsp ∧
      t.ntf = s.ntf ++ noteIf (was.active && m.cbEn.txc) i (.txc was.txId) ++
        noteIf (!(s.answerAt 1).ok && m.cbEn.err) i (.err .driverError en.txId)

/-- EVT_ERROR counts the event, and notifies BUS before ERR for a bus-off or error-passive code, bus-off
first, and ERR alone for any other code; nothing else of the block changes
(44_interrupt_dispatch.md R340 to R343). -/
def Obligations.ErrorEventClassifies : Prop :=
  ∀ (s : State) (p : Byte) (i : Nat) (m : CanModule), s.Good → StartedOn p i m s →
    ∃ t, exec (.evtError p) s = .next t ∧ OnlySlot i s t ∧
      t.slot? i = some { m with
        stat := if s.params.statsEn = true then { m.stat with err := m.stat.err + 1 } else m.stat } ∧
      Requested [.errorCode p] s t ∧ t.rsp = s.rsp ∧
      t.ntf = s.ntf ++
        (if (s.answerAt 0).code.getLsbD 0 = true then
          noteIf m.cbEn.bus i (.bus .busOff) ++ noteIf m.cbEn.err i (.err .busOff 0)
        else if (s.answerAt 0).code.getLsbD 1 = true then
          noteIf m.cbEn.bus i (.bus .passive) ++ noteIf m.cbEn.err i (.err .busPassive 0)
        else noteIf m.cbEn.err i (.err .driverError 0))

/-- The counting of 44_interrupt_dispatch.md R331, R332 and R341: with the counters present, an
EVT_TX_COMPLETE that resolves to a Module counts one in `stat.tx` when its tracker slot was active and
nothing when it was not; every EVT_ERROR that resolves counts one in `stat.err`, whatever the error code
is; no other event, no step of a submission and no command on a handle but FREE, which clears the slot,
changes either. The driver's answers are left open: that a step in which an answer breaks the contract is a
next state, and that its counting stands there, is log 4's reading. -/
def Obligations.StatisticsCountTheirEvents : Prop :=
  (∀ (s : State) (p mb : Byte) (i : Nat) (m : CanModule) (was : Mailbox),
    s.Good → s.params.statsEn = true → StartedOn p i m s → m.mb[mb.toNat]? = some was →
    ∃ t m', exec (.evtTxComplete p mb) s = .next t ∧ t.slot? i = some m' ∧
      m'.stat = { m.stat with tx := if was.active = true then m.stat.tx + 1 else m.stat.tx }) ∧
  (∀ (s : State) (p : Byte) (i : Nat) (m : CanModule),
    s.Good → s.params.statsEn = true → StartedOn p i m s →
    ∃ t m', exec (.evtError p) s = .next t ∧ t.slot? i = some m' ∧
      m'.stat = { m.stat with err := m.stat.err + 1 }) ∧
  (∀ (s : State) (p : Byte) (fifo : BitVec 1) (i : Nat) (m : CanModule),
    s.Good → StartedOn p i m s →
    ∃ t m', exec (.evtRxPending p fifo) s = .next t ∧ t.slot? i = some m' ∧
      m'.stat.tx = m.stat.tx ∧ m'.stat.err = m.stat.err) ∧
  (∀ (s t : State) (i : Instr) (h : Byte), handleOf i = some h → i ≠ .free h → exec i s = .next t →
    ∀ j m, s.slot? j = some m → ∃ m', t.slot? j = some m' ∧ m'.stat = m.stat) ∧
  (∀ s t : State, normalStep s = .next t →
    ∀ j m, s.slot? j = some m → ∃ m', t.slot? j = some m' ∧ m'.stat = m.stat)

/-- The driver answers that break the contract inside a handler record the fault DriverContract: an RX
header with a length above 8 or a standard identifier above 0x7FF, a free count above `NUM_MB`, and a
reported mailbox at or above `NUM_MB` (60_exceptions.md R424, R425, R430). That the breaching step is a next
state with the reason recorded is log 4's reading. -/
def Obligations.ContractBreachFaults : Prop :=
  ∀ (s : State) (p : Byte) (i : Nat) (m : CanModule), s.Good → StartedOn p i m s →
    (∀ fifo : BitVec 1, (s.answerAt 0).ok = true →
      (8 < (s.answerAt 0).hdr.len.toNat ∨
        ((s.answerAt 0).hdr.ide = false ∧ 0x7FF < (s.answerAt 0).hdr.id.toNat)) →
      ∃ t, exec (.evtRxPending p fifo) s = .next t ∧ t.fault = some .driverContract) ∧
    (∀ mb : Byte, mb.toNat < s.params.numMb → s.params.numMb < (s.answerAt 0).count →
      ∃ t, exec (.evtTxComplete p mb) s = .next t ∧ t.fault = some .driverContract) ∧
    (∀ mb : Byte, mb.toNat < s.params.numMb → 0 < (s.answerAt 0).count →
      (s.answerAt 0).count ≤ s.params.numMb → m.queued s.params ≠ [] → (s.answerAt 1).ok = true →
      s.params.numMb ≤ (s.answerAt 1).mb →
      ∃ t, exec (.evtTxComplete p mb) s = .next t ∧ t.fault = some .driverContract)

/-! ## The phases of a submission in the normal context -/

/-- Phase SUB_QUERY asks for the free count: 0 ends the command with its answer, a count in range goes on
to SUB_DEQ, and a count above `NUM_MB` is the fault DriverContract (42_mailbox_tracker.md R231;
60_exceptions.md R425). That the answer comes in this step and that only `nctx.phase` is written at the end
of the command (40_priority_queue.md R180, 43_module.md R280) is log 14's reading; that the faulting step is
a next state with the reason recorded is log 4's. -/
def Obligations.QueryPhaseAsksFreeCount : Prop :=
  ∀ (s : State) (m : CanModule), s.Good → s.nctx.phase = .subQuery → Claimed s.nctx.h m s →
    ∃ t, normalStep s = .next t ∧ t.modules = s.modules ∧ t.params = s.params ∧
      t.turns = s.turns ∧ t.ntf = s.ntf ∧ Requested [.freeMb m.cfg.periph] s t ∧
      ((s.answerAt 0).count = 0 → t.nctx = { s.nctx with phase := .idle } ∧ t.fault = s.fault ∧
        t.rsp = s.rsp ++ [Response.ofResult .ok]) ∧
      (0 < (s.answerAt 0).count → (s.answerAt 0).count ≤ s.params.numMb →
        t.nctx = { s.nctx with phase := .subDeq } ∧ t.fault = s.fault ∧ t.rsp = s.rsp) ∧
      (s.params.numMb < (s.answerAt 0).count → t.nctx = s.nctx ∧
        t.fault = some .driverContract ∧ t.rsp = s.rsp)

/-- Phase SUB_DEQ takes the highest Entry out of its queue and holds it, with no driver request; with
nothing queued it ends the command with its answer (42_mailbox_tracker.md R231, 20_memory.md R89). That the
answer comes in this step and that only `nctx.phase` is written at the end of the command
(40_priority_queue.md R180, 43_module.md R280) is log 14's reading. -/
def Obligations.DequeuePhaseHoldsHighest : Prop :=
  ∀ (s : State) (m : CanModule), s.Good → s.nctx.phase = .subDeq → Claimed s.nctx.h m s →
    (m.queued s.params = [] →
      normalStep s = .next { s with
        nctx := { s.nctx with phase := .idle }
        rsp := s.rsp ++ [Response.ofResult .ok] }) ∧
    (m.queued s.params ≠ [] → ∃ e m' t, normalStep s = .next t ∧ Dequeued s.params m e m' ∧
      t.slot? s.nctx.h.toNat = some m' ∧ OnlySlot s.nctx.h.toNat s { t with nctx := s.nctx } ∧
      t.nctx = { s.nctx with phase := .subAdd, held := some e } ∧
      NoRequest s t ∧ t.ntf = s.ntf ∧ t.rsp = s.rsp)

/-- Phase SUB_ADD hands the held Entry's header and payload to the driver and, in the same step, records
the mailbox it reports, or reports the rejected message; the queues and the pool are untouched, and a
mailbox at or above `NUM_MB` is the fault DriverContract (42_mailbox_tracker.md R231 to R233, R235;
20_memory.md R89, R90; 60_exceptions.md R430). That the faulting step is a next state with the reason
recorded and the request made is log 4's reading. -/
def Obligations.AddPhaseSubmitsHeld : Prop :=
  ∀ (s : State) (m : CanModule) (e : Nat) (en : Entry), s.Good → s.nctx.phase = .subAdd →
    Claimed s.nctx.h m s → s.nctx.held = some e → m.pool[e]? = some en →
    ∃ t, normalStep s = .next t ∧ t.rsp = s.rsp ∧
      Requested [.addTx m.cfg.periph ⟨en.msg.id, en.msg.ide, en.msg.rtr, en.msg.len⟩ en.msg.data] s t ∧
      ((s.answerAt 0).ok = true → (s.answerAt 0).mb < s.params.numMb →
        OnlySlot s.nctx.h.toNat s { t with nctx := s.nctx } ∧
        t.slot? s.nctx.h.toNat =
          some { m with mb := m.mb.set (s.answerAt 0).mb ⟨true, en.txId⟩ } ∧
        t.nctx = { s.nctx with phase := .subFree } ∧ t.ntf = s.ntf) ∧
      ((s.answerAt 0).ok = false →
        SameBlock s { t with nctx := s.nctx } ∧ t.nctx = { s.nctx with phase := .subFree } ∧
        t.ntf = s.ntf ++ noteIf m.cbEn.err s.nctx.h.toNat (.err .driverError en.txId)) ∧
      ((s.answerAt 0).ok = true → s.params.numMb ≤ (s.answerAt 0).mb →
        t.modules = s.modules ∧ t.fault = some .driverContract)

/-- Phase SUB_FREE releases the held Entry whatever the driver answered; TRANSMIT then answers OK and the
normal context is idle, START begins its next iteration (42_mailbox_tracker.md R231, R234;
40_priority_queue.md R180, 43_module.md R280). That TRANSMIT answers and START's next iteration begins in
this very step is log 14's reading. -/
def Obligations.FreePhaseReleasesHeld : Prop :=
  ∀ (s : State) (m : CanModule) (e : Nat) (en : Entry), s.Good → s.nctx.phase = .subFree →
    Claimed s.nctx.h m s → s.nctx.held = some e → m.pool[e]? = some en →
    ∃ t, normalStep s = .next t ∧ OnlySlot s.nctx.h.toNat s { t with nctx := s.nctx } ∧
      t.slot? s.nctx.h.toNat = some { m with
        pool := m.pool.set e { en with inUse := false }
        used := m.used - 1 } ∧
      NoRequest s t ∧ t.ntf = s.ntf ∧ t.nctx.held = none ∧
      (s.nctx.drain = false → t.nctx.phase = .idle ∧ t.rsp = s.rsp ++ [Response.ofResult .ok]) ∧
      (s.nctx.drain = true → t.nctx = ⟨.subQuery, 0x04, s.nctx.h, none, true, .ok⟩ ∧ t.rsp = s.rsp)

/-- A TRANSMIT or START in progress, left alone by the environment, answers OK exactly once and goes idle
within four steps for each Entry in use and two more (43_module.md R283; 10_state.md R56). The number of
steps rests on log 14 (the answer takes no step of its own); that an environment that does nothing is an
empty `turns` is log 3's choice. -/
def Obligations.SubmissionTerminates : Prop :=
  ∀ (s : State) (m : CanModule), s.Good → s.fault = none → s.lawful = true → s.turns = [] →
    s.nctx.phase ≠ .idle → Claimed s.nctx.h m s →
    ∃ n t, n ≤ 4 * m.used + 2 ∧ Host.Core.run Sys2Proof.core n s = .next t ∧ t.fault = none ∧
      t.nctx.phase = .idle ∧ t.rsp = s.rsp ++ [Response.ofResult .ok]

/-- START's drain loop, with `f` free mailboxes, no handler running and the driver accepting each message,
submits exactly the first `n = min f q` of the `q` queued Entries, in queue order, leaves the others
queued, and answers OK (43_module.md R283). The driver's `k`-th free count is `f - k`. That no handler
running is an empty `turns` is log 3's choice. -/
def Obligations.StartDrainsHighestFirst : Prop :=
  ∀ (s : State) (m : CanModule) (f n : Nat), s.Good → s.fault = none → s.turns = [] →
    s.nctx = ⟨.subQuery, 0x04, s.nctx.h, none, true, .ok⟩ → Claimed s.nctx.h m s →
    f ≤ s.params.numMb → n = min f (m.queued s.params).length →
    (∀ k ≤ n, (s.answerAt (2 * k)).count = f - k) →
    (∀ k < n, (s.answerAt (2 * k + 1)).ok = true ∧ (s.answerAt (2 * k + 1)).mb < s.params.numMb) →
    ∃ steps t m', Host.Core.run Sys2Proof.core steps s = .next t ∧ t.fault = none ∧
      t.nctx.phase = .idle ∧ t.rsp = s.rsp ++ [Response.ofResult .ok] ∧
      t.slot? s.nctx.h.toNat = some m' ∧ m'.queued s.params = (m.queued s.params).drop n ∧
      Requested (((m.queued s.params).take n).flatMap (fun e =>
        match m.pool[e]? with
        | some en => [DrvRequest.freeMb m.cfg.periph,
            .addTx m.cfg.periph ⟨en.msg.id, en.msg.ide, en.msg.rtr, en.msg.len⟩ en.msg.data]
        | none => []) ++ [.freeMb m.cfg.periph]) s t

/-! ## The whole machine -/

/-- In a good idle state every command completes its step without a fault: it answers exactly one
response, with a result code of its row of 60_exceptions.md R401 and, unless the result is OK, every other
response field 0 but RHANDLE 0xFF of ALLOCATE, or it is TRANSMIT or START and leaves the normal context
at SUB_QUERY (10_state.md R56, 30_encoding.md R131). -/
def Obligations.EveryCommandAnswersOnce : Prop :=
  ∀ (s : State) (i : Instr), s.Good → s.fault = none → s.nctx.phase = .idle →
    eventPeriph i = none →
    ∃ t, exec i s = .next t ∧ t.fault = none ∧
      ((∃ r, t.rsp = s.rsp ++ [r] ∧ t.nctx = s.nctx ∧ r.result ∈ resultsOf i ∧
          (r.result ≠ .ok → r = if isAllocate i = true then Response.noHandle r.result
            else Response.ofResult r.result)) ∨
        (isMultiStep i = true ∧ t.rsp = s.rsp ∧ t.nctx.phase = .subQuery ∧ t.nctx.held = none))

/-- The state each handler may touch (44_interrupt_dispatch.md R352), in every state: no handler writes
`nctx` or answers a command, and in every slot EVT_RX_PENDING writes only the ring's slots, `widx`,
`overrun` and `stat.rx`, EVT_TX_COMPLETE only the tracker, the queues, the pool and `stat.tx`, EVT_ERROR
only `stat.err`. -/
def Obligations.HandlersTouchOnlyTheirState : Prop :=
  ∀ (s t : State) (i : Instr) (p : Byte), eventPeriph i = some p → exec i s = .next t →
    t.nctx = s.nctx ∧ t.params = s.params ∧ t.rsp = s.rsp ∧ t.turns = s.turns ∧
    ∀ j m', t.slot? j = some m' → ∃ m, s.slot? j = some m ∧
      ((∃ fifo, i = .evtRxPending p fifo) →
        { m' with
          rx := { m'.rx with slot := m.rx.slot, widx := m.rx.widx, overrun := m.rx.overrun }
          stat := { m'.stat with rx := m.stat.rx } } = m) ∧
      ((∃ mb, i = .evtTxComplete p mb) →
        { m' with
          mb := m.mb
          pq := m.pq
          bitmap := m.bitmap
          pool := m.pool
          used := m.used
          stat := { m'.stat with tx := m.stat.tx } } = m) ∧
      (i = .evtError p → { m' with stat := { m'.stat with err := m.stat.err } } = m)

/-- An instruction changes no Module but its own (20_memory.md R94, 60_exceptions.md R415): a command only
the slot of its handle, ALLOCATE no allocated slot, an event only a Module started on its peripheral; in
every state. -/
def Obligations.OtherModulesUnchanged : Prop :=
  ∀ (s t : State) (i : Instr), exec i s = .next t →
    (∀ h, handleOf i = some h → ∀ j, j ≠ h.toNat → t.slot? j = s.slot? j) ∧
    (isAllocate i = true → ∀ j m, s.slot? j = some m → m.allocated = true → t.slot? j = some m) ∧
    (∀ p, eventPeriph i = some p → ∀ j m, s.slot? j = some m →
      ¬ (m.allocated = true ∧ m.started = true ∧ m.cfg.periph = p) → t.slot? j = some m)

/-- A command reads no Module but its own (20_memory.md R94): on two states that agree on the slot of its
handle, on `nctx`, on the fault record and on the driver's coming answers, it leaves the same slot and the
same `nctx` and fault, and puts the same records on the ports, whatever the other slots hold. (ALLOCATE has
no handle; R94 lets it read the other slots.) -/
def Obligations.CommandsReadOnlyTheirModule : Prop :=
  ∀ (s₁ s₂ t₁ t₂ : State) (i : Instr) (h : Byte), handleOf i = some h →
    s₁.params = s₂.params → s₁.slot? h.toNat = s₂.slot? h.toNat → s₁.nctx = s₂.nctx →
    s₁.fault = s₂.fault → s₁.drvAns = s₂.drvAns → s₁.drawn = s₂.drawn →
    exec i s₁ = .next t₁ → exec i s₂ = .next t₂ →
    t₁.slot? h.toNat = t₂.slot? h.toNat ∧ t₁.nctx = t₂.nctx ∧ t₁.fault = t₂.fault ∧
    t₁.drvAns = t₂.drvAns ∧ t₁.drawn = t₂.drawn ∧
    ∃ rs ns ds, t₁.rsp = s₁.rsp ++ rs ∧ t₂.rsp = s₂.rsp ++ rs ∧
      t₁.ntf = s₁.ntf ++ ns ∧ t₂.ntf = s₂.ntf ++ ns ∧
      t₁.drvLog = s₁.drvLog ++ ds ∧ t₂.drvLog = s₂.drvLog ++ ds

/-- Every notification a step emits names an allocated and started Module, and its callback slot is enabled
there, or it is ACT and the Module has the indicator (00_scope.md R17, 30_encoding.md R140, R141); earlier
records stay, in order. -/
def Obligations.NotificationsAreEnabled : Prop :=
  ∀ s t : State, s.Good → s.fault = none → step s = .next t →
    ∃ new, t.ntf = s.ntf ++ new ∧ ∀ n ∈ new, ∃ m, s.slot? n.handle.toNat = some m ∧
      m.allocated = true ∧ m.started = true ∧
      match n.body.slot with
      | some k => m.cbEn.get k = true
      | none => m.cfg.rxLedEn = true

/-- The fields of the response word and of the notification word, and the bits that are 0
(30_encoding.md R131, R140), for every record. -/
def Obligations.PortWordsHaveTheirFields : Prop :=
  (∀ r : Response, r.word.extractLsb' 0 8 = r.result.code ∧ r.word.extractLsb' 8 8 = r.rhandle ∧
    r.word.getLsbD 16 = r.flag ∧ r.word.extractLsb' 17 2 = r.bus ∧ r.word.extractLsb' 19 13 = 0) ∧
  (∀ n : Notification, n.word.extractLsb' 0 3 = n.body.kindCode ∧ n.word.extractLsb' 3 5 = 0 ∧
    n.word.extractLsb' 8 8 = n.handle ∧ n.word.extractLsb' 16 16 = 0)
end

