-- ==== Sys2Proof/Laws/Decode.lean ====
section
/-! SUPPORT. What each field of a word built by the encoder reads as: one lemma per field per word of
30_encoding.md R112 to R120, and the byte packing of 20_memory.md R83. -/

namespace Sys2Proof

/-! ## The bits of a placed field -/

@[simp] theorem getLsbD_place {n : Nat} (v : BitVec n) (lo i : Nat) :
    (place v lo).getLsbD i = (decide (i < 32) && decide (lo ≤ i) && v.getLsbD (i - lo)) := by
  by_cases h : lo ≤ i <;> by_cases h2 : i < 32 <;>
    simp [place, BitVec.getLsbD_shiftLeft, BitVec.getLsbD_setWidth, h, h2]

@[simp] theorem getElem_place {n : Nat} (v : BitVec n) (lo i : Nat) (hi : i < 32) :
    (place v lo)[i] = (decide (lo ≤ i) && v.getLsbD (i - lo)) := by
  rw [← BitVec.getLsbD_eq_getElem, getLsbD_place]; simp [hi]

@[simp] theorem getLsbD_flagBit (b : Bool) (lo i : Nat) :
    (flagBit b lo).getLsbD i = (decide (i < 32) && decide (i = lo) && b) := by
  rw [flagBit, getLsbD_place]
  by_cases h : i = lo <;> simp [h]
  intro _ _ h3
  omega

@[simp] theorem getElem_flagBit (b : Bool) (lo i : Nat) (hi : i < 32) :
    (flagBit b lo)[i] = (decide (i = lo) && b) := by
  rw [← BitVec.getLsbD_eq_getElem, getLsbD_flagBit]; simp [hi]

/-! ## Command words (R112) -/

section command

variable (op h : Byte) (a : BitVec 3) (e : Bool)

@[simp] theorem opField_cmdWord : opField (cmdWord op h a e) = op := by
  apply BitVec.eq_of_getLsbD_eq
  intro i hi
  interval_cases i <;> simp [opField, cmdWord]

@[simp] theorem unitField_cmdWord : unitField (cmdWord op h a e) = h := by
  apply BitVec.eq_of_getLsbD_eq
  intro i hi
  interval_cases i <;> simp [unitField, cmdWord]

@[simp] theorem argField_cmdWord : argField (cmdWord op h a e) = a := by
  apply BitVec.eq_of_getLsbD_eq
  intro i hi
  interval_cases i <;> simp [argField, cmdWord]

@[simp] theorem enableField_cmdWord : enableField (cmdWord op h a e) = e := by
  simp [enableField, cmdWord]

@[simp] theorem cmdReserved_cmdWord : cmdReserved (cmdWord op h a e) = 0 := by
  apply BitVec.eq_of_getLsbD_eq
  intro i hi
  interval_cases i <;> simp [cmdReserved, cmdWord]

/-- A command word with no reserved bit set is the word of its fields (R112). -/
theorem cmdWord_fields {w : Word} (hr : cmdReserved w = 0) :
    cmdWord (opField w) (unitField w) (argField w) (enableField w) = w := by
  have hb : ∀ k, k < 12 → w.getLsbD (20 + k) = false := by
    intro k hk
    have := congrArg (fun v : BitVec 12 => v.getLsbD k) hr
    simpa [cmdReserved, hk] using this
  apply BitVec.eq_of_getLsbD_eq
  intro i hi
  by_cases h20 : 20 ≤ i
  · have h0 := hb (i - 20) (by omega)
    rw [Nat.add_sub_cancel' h20] at h0
    rw [h0]
    interval_cases i <;> simp [cmdWord, opField, unitField, argField, enableField]
  · clear hb
    interval_cases i <;> simp_all [cmdWord, opField, unitField, argField, enableField]

end command

/-! ## Event words (R120) -/

section event

variable (eop p sub : Byte)

@[simp] theorem opField_evtWord : opField (evtWord eop p sub) = eop := by
  apply BitVec.eq_of_getLsbD_eq
  intro i hi
  interval_cases i <;> simp [opField, evtWord]

@[simp] theorem unitField_evtWord : unitField (evtWord eop p sub) = p := by
  apply BitVec.eq_of_getLsbD_eq
  intro i hi
  interval_cases i <;> simp [unitField, evtWord]

@[simp] theorem subField_evtWord : subField (evtWord eop p sub) = sub := by
  apply BitVec.eq_of_getLsbD_eq
  intro i hi
  interval_cases i <;> simp [subField, evtWord]

@[simp] theorem evtReserved_evtWord : evtReserved (evtWord eop p sub) = 0 := by
  apply BitVec.eq_of_getLsbD_eq
  intro i hi
  interval_cases i <;> simp [evtReserved, evtWord]

end event

/-! ## Identifier and control words (R114, R115) -/

section identifier

variable (id : CanId) (ide rtr : Bool)

@[simp] theorem idField_midWord : idField (midWord id ide rtr) = id := by
  apply BitVec.eq_of_getLsbD_eq
  intro i hi
  interval_cases i <;> simp [idField, midWord]

@[simp] theorem ideField_midWord : ideField (midWord id ide rtr) = ide := by
  simp [ideField, midWord]

@[simp] theorem rtrField_midWord : rtrField (midWord id ide rtr) = rtr := by
  simp [rtrField, midWord]

@[simp] theorem midWord_reserved : (midWord id ide rtr).getLsbD 31 = false := by
  simp [midWord]

@[simp] theorem lenField_mctlWord (len : BitVec 4) : lenField (mctlWord len) = len := by
  apply BitVec.eq_of_getLsbD_eq
  intro i hi
  interval_cases i <;> simp [lenField, mctlWord]

@[simp] theorem mctlWord_reserved (len : BitVec 4) : (mctlWord len).extractLsb' 4 28 = 0 := by
  apply BitVec.eq_of_getLsbD_eq
  intro i hi
  interval_cases i <;> simp [mctlWord]

end identifier

/-! ## Callback kinds and payload bytes -/

@[simp] theorem CbKind.ofCode_code (k : CbKind) : CbKind.ofCode k.code = k := by
  cases k <;> decide

@[simp] theorem CbKind.code_ofCode (c : BitVec 2) : (CbKind.ofCode c).code = c := by
  revert c
  decide

@[simp] theorem Payload.ofData_toData (p : Payload) : Payload.ofData p.toData = p := by
  cases p
  simp only [Payload.ofData, Payload.toData, Payload.mk.injEq]
  refine ⟨?_, ?_, ?_, ?_, ?_, ?_, ?_, ?_⟩ <;>
  · apply BitVec.eq_of_getLsbD_eq
    intro i hi
    interval_cases i <;> simp

@[simp] theorem Payload.toData_ofData (d : BitVec 64) : (Payload.ofData d).toData = d := by
  apply BitVec.eq_of_getLsbD_eq
  intro i hi
  interval_cases i <;> simp [Payload.ofData, Payload.toData]

end Sys2Proof
end

