-- ==== Sys2Proof/Laws/Params.lean ====
section
/-! SUPPORT. What the legality of the build parameters gives: the facts that proofs about arrays and
their indices cite. -/

namespace Sys2Proof

variable (p : Params)

/-- The parameter table as plain facts (00_scope.md R5 to R9). -/
theorem Params.legal_facts :
    (1 ≤ p.nInst ∧ p.nInst ≤ 254) ∧ (p.numPrio = 2 ∨ p.numPrio = 4 ∨ p.numPrio = 8) ∧
    (2 ≤ p.poolCap ∧ p.poolCap ≤ 256) ∧ p.poolCap % p.numPrio = 0 ∧ 1 ≤ p.qcap ∧
    p.rxDepth ∈ [1, 2, 4, 8, 16, 32, 64, 128] ∧ p.maxFilters ≤ 255 ∧
    (1 ≤ p.numMb ∧ p.numMb ≤ 255) := by
  have h := p.legal
  simp only [legalValues, Bool.and_eq_true, Bool.or_eq_true, decide_eq_true_eq, beq_iff_eq,
    List.contains_iff_mem] at h
  obtain ⟨⟨⟨⟨⟨⟨⟨⟨⟨⟨h₁, h₂⟩, h₃⟩, h₄⟩, h₅⟩, h₆⟩, h₇⟩, h₈⟩, h₉⟩, h₁₀⟩, h₁₁⟩ := h
  exact ⟨⟨h₁, h₂⟩, by omega, ⟨h₄, h₅⟩, h₆, h₇, h₈, h₉, h₁₀, h₁₁⟩

theorem Params.nInst_pos : 0 < p.nInst := p.legal_facts.1.1

theorem Params.numPrio_pos : 0 < p.numPrio := by
  have := p.legal_facts.2.1
  omega

theorem Params.numPrio_le : p.numPrio ≤ 8 := by
  have := p.legal_facts.2.1
  omega

theorem Params.poolCap_ge : 2 ≤ p.poolCap := p.legal_facts.2.2.1.1

theorem Params.qcap_pos : 0 < p.qcap := p.legal_facts.2.2.2.2.1

theorem Params.rxDepth_pos : 0 < p.rxDepth := by
  have h := p.legal_facts.2.2.2.2.2.1
  simp only [List.mem_cons, List.not_mem_nil, or_false] at h
  omega

theorem Params.numMb_pos : 0 < p.numMb := p.legal_facts.2.2.2.2.2.2.2.1

/-- The pool divided evenly: the queues together hold as many Entries as the pool (00_scope.md R6). -/
theorem Params.numPrio_mul_qcap : p.numPrio * p.qcap = p.poolCap :=
  Nat.mul_div_cancel' (Nat.dvd_of_mod_eq_zero p.legal_facts.2.2.2.1)

/-- The width of an Entry index holds every index of the pool (00_scope.md R13). -/
theorem Params.poolCap_le_entryBits : p.poolCap ≤ 2 ^ p.entryBits := by
  have h := Nat.lt_log2_self (n := p.poolCap - 1)
  have := p.poolCap_ge
  unfold Params.entryBits
  omega

/-- No smaller width does (00_scope.md R13). -/
theorem Params.entryBits_least : 2 ^ (p.entryBits - 1) < p.poolCap := by
  have hp := p.poolCap_ge
  have hn : p.poolCap - 1 ≠ 0 := by omega
  have := Nat.log2_self_le hn
  unfold Params.entryBits
  simp only [Nat.add_sub_cancel]
  omega

end Sys2Proof
end

