-- ==== Sys2Proof/Laws/State.lean ====
section
/-! SUPPORT. One lemma per field per update of State: what each named update leaves in each field. -/

namespace Sys2Proof.Machine

variable (s : State)

/-! ## setSlot -/

@[simp] theorem State.setSlot_params (i : Nat) (m : CanModule) : (s.setSlot i m).params = s.params := rfl
@[simp] theorem State.setSlot_modules (i : Nat) (m : CanModule) : (s.setSlot i m).modules = s.modules.set i m := rfl
@[simp] theorem State.setSlot_nctx (i : Nat) (m : CanModule) : (s.setSlot i m).nctx = s.nctx := rfl
@[simp] theorem State.setSlot_fault (i : Nat) (m : CanModule) : (s.setSlot i m).fault = s.fault := rfl
@[simp] theorem State.setSlot_rsp (i : Nat) (m : CanModule) : (s.setSlot i m).rsp = s.rsp := rfl
@[simp] theorem State.setSlot_ntf (i : Nat) (m : CanModule) : (s.setSlot i m).ntf = s.ntf := rfl
@[simp] theorem State.setSlot_drvLog (i : Nat) (m : CanModule) : (s.setSlot i m).drvLog = s.drvLog := rfl
@[simp] theorem State.setSlot_turns (i : Nat) (m : CanModule) : (s.setSlot i m).turns = s.turns := rfl
@[simp] theorem State.setSlot_drvAns (i : Nat) (m : CanModule) : (s.setSlot i m).drvAns = s.drvAns := rfl
@[simp] theorem State.setSlot_drawn (i : Nat) (m : CanModule) : (s.setSlot i m).drawn = s.drawn := rfl
@[simp] theorem State.setSlot_submitted (i : Nat) (m : CanModule) : (s.setSlot i m).submitted = s.submitted := rfl

/-! ## answer -/

@[simp] theorem State.answer_params (r : Response) : (s.answer r).params = s.params := rfl
@[simp] theorem State.answer_modules (r : Response) : (s.answer r).modules = s.modules := rfl
@[simp] theorem State.answer_nctx (r : Response) : (s.answer r).nctx = s.nctx := rfl
@[simp] theorem State.answer_fault (r : Response) : (s.answer r).fault = s.fault := rfl
@[simp] theorem State.answer_rsp (r : Response) : (s.answer r).rsp = s.rsp ++ [r] := rfl
@[simp] theorem State.answer_ntf (r : Response) : (s.answer r).ntf = s.ntf := rfl
@[simp] theorem State.answer_drvLog (r : Response) : (s.answer r).drvLog = s.drvLog := rfl
@[simp] theorem State.answer_turns (r : Response) : (s.answer r).turns = s.turns := rfl
@[simp] theorem State.answer_drvAns (r : Response) : (s.answer r).drvAns = s.drvAns := rfl
@[simp] theorem State.answer_drawn (r : Response) : (s.answer r).drawn = s.drawn := rfl
@[simp] theorem State.answer_submitted (r : Response) : (s.answer r).submitted = s.submitted := rfl

/-! ## append -/

@[simp] theorem State.append_params (i : Nat) (b : NtfBody) : (s.append i b).params = s.params := rfl
@[simp] theorem State.append_modules (i : Nat) (b : NtfBody) : (s.append i b).modules = s.modules := rfl
@[simp] theorem State.append_nctx (i : Nat) (b : NtfBody) : (s.append i b).nctx = s.nctx := rfl
@[simp] theorem State.append_fault (i : Nat) (b : NtfBody) : (s.append i b).fault = s.fault := rfl
@[simp] theorem State.append_rsp (i : Nat) (b : NtfBody) : (s.append i b).rsp = s.rsp := rfl
@[simp] theorem State.append_ntf (i : Nat) (b : NtfBody) : (s.append i b).ntf = s.ntf ++ [⟨BitVec.ofNat 8 i, b⟩] := rfl
@[simp] theorem State.append_drvLog (i : Nat) (b : NtfBody) : (s.append i b).drvLog = s.drvLog := rfl
@[simp] theorem State.append_turns (i : Nat) (b : NtfBody) : (s.append i b).turns = s.turns := rfl
@[simp] theorem State.append_drvAns (i : Nat) (b : NtfBody) : (s.append i b).drvAns = s.drvAns := rfl
@[simp] theorem State.append_drawn (i : Nat) (b : NtfBody) : (s.append i b).drawn = s.drawn := rfl
@[simp] theorem State.append_submitted (i : Nat) (b : NtfBody) : (s.append i b).submitted = s.submitted := rfl

/-! ## request -/

@[simp] theorem State.request_params (r : DrvRequest) : (s.request r).params = s.params := rfl
@[simp] theorem State.request_modules (r : DrvRequest) : (s.request r).modules = s.modules := rfl
@[simp] theorem State.request_nctx (r : DrvRequest) : (s.request r).nctx = s.nctx := rfl
@[simp] theorem State.request_fault (r : DrvRequest) : (s.request r).fault = s.fault := rfl
@[simp] theorem State.request_rsp (r : DrvRequest) : (s.request r).rsp = s.rsp := rfl
@[simp] theorem State.request_ntf (r : DrvRequest) : (s.request r).ntf = s.ntf := rfl
@[simp] theorem State.request_drvLog (r : DrvRequest) : (s.request r).drvLog = s.drvLog ++ [.request r s.nextAnswer] := rfl
@[simp] theorem State.request_turns (r : DrvRequest) : (s.request r).turns = s.turns := rfl
@[simp] theorem State.request_drvAns (r : DrvRequest) : (s.request r).drvAns = s.drvAns.tail := rfl
@[simp] theorem State.request_drawn (r : DrvRequest) : (s.request r).drawn = s.drawn + 1 := rfl
@[simp] theorem State.request_submitted (r : DrvRequest) : (s.request r).submitted = s.submitted := rfl

/-! ## noteSubmitted -/

@[simp] theorem State.noteSubmitted_params (t : Word) : (s.noteSubmitted t).params = s.params := rfl
@[simp] theorem State.noteSubmitted_modules (t : Word) : (s.noteSubmitted t).modules = s.modules := rfl
@[simp] theorem State.noteSubmitted_nctx (t : Word) : (s.noteSubmitted t).nctx = s.nctx := rfl
@[simp] theorem State.noteSubmitted_fault (t : Word) : (s.noteSubmitted t).fault = s.fault := rfl
@[simp] theorem State.noteSubmitted_rsp (t : Word) : (s.noteSubmitted t).rsp = s.rsp := rfl
@[simp] theorem State.noteSubmitted_ntf (t : Word) : (s.noteSubmitted t).ntf = s.ntf := rfl
@[simp] theorem State.noteSubmitted_drvLog (t : Word) : (s.noteSubmitted t).drvLog = s.drvLog := rfl
@[simp] theorem State.noteSubmitted_turns (t : Word) : (s.noteSubmitted t).turns = s.turns := rfl
@[simp] theorem State.noteSubmitted_drvAns (t : Word) : (s.noteSubmitted t).drvAns = s.drvAns := rfl
@[simp] theorem State.noteSubmitted_drawn (t : Word) : (s.noteSubmitted t).drawn = s.drawn := rfl
@[simp] theorem State.noteSubmitted_submitted (t : Word) : (s.noteSubmitted t).submitted = s.submitted ++ [t] := rfl

/-! ## raise -/

@[simp] theorem State.raise_params (r : Fault) : (s.raise r).params = s.params := rfl
@[simp] theorem State.raise_modules (r : Fault) : (s.raise r).modules = s.modules := rfl
@[simp] theorem State.raise_nctx (r : Fault) : (s.raise r).nctx = s.nctx := rfl
@[simp] theorem State.raise_fault (r : Fault) : (s.raise r).fault = some r := rfl
@[simp] theorem State.raise_rsp (r : Fault) : (s.raise r).rsp = s.rsp := rfl
@[simp] theorem State.raise_ntf (r : Fault) : (s.raise r).ntf = s.ntf := rfl
@[simp] theorem State.raise_drvLog (r : Fault) : (s.raise r).drvLog = s.drvLog := rfl
@[simp] theorem State.raise_turns (r : Fault) : (s.raise r).turns = s.turns := rfl
@[simp] theorem State.raise_drvAns (r : Fault) : (s.raise r).drvAns = s.drvAns := rfl
@[simp] theorem State.raise_drawn (r : Fault) : (s.raise r).drawn = s.drawn := rfl
@[simp] theorem State.raise_submitted (r : Fault) : (s.raise r).submitted = s.submitted := rfl

/-! ## setPhase -/

@[simp] theorem State.setPhase_params (ph : Phase) : (s.setPhase ph).params = s.params := rfl
@[simp] theorem State.setPhase_modules (ph : Phase) : (s.setPhase ph).modules = s.modules := rfl
@[simp] theorem State.setPhase_nctx (ph : Phase) : (s.setPhase ph).nctx = { s.nctx with phase := ph } := rfl
@[simp] theorem State.setPhase_fault (ph : Phase) : (s.setPhase ph).fault = s.fault := rfl
@[simp] theorem State.setPhase_rsp (ph : Phase) : (s.setPhase ph).rsp = s.rsp := rfl
@[simp] theorem State.setPhase_ntf (ph : Phase) : (s.setPhase ph).ntf = s.ntf := rfl
@[simp] theorem State.setPhase_drvLog (ph : Phase) : (s.setPhase ph).drvLog = s.drvLog := rfl
@[simp] theorem State.setPhase_turns (ph : Phase) : (s.setPhase ph).turns = s.turns := rfl
@[simp] theorem State.setPhase_drvAns (ph : Phase) : (s.setPhase ph).drvAns = s.drvAns := rfl
@[simp] theorem State.setPhase_drawn (ph : Phase) : (s.setPhase ph).drawn = s.drawn := rfl
@[simp] theorem State.setPhase_submitted (ph : Phase) : (s.setPhase ph).submitted = s.submitted := rfl

/-! ## setHeld -/

@[simp] theorem State.setHeld_params (e : Option Nat) : (s.setHeld e).params = s.params := rfl
@[simp] theorem State.setHeld_modules (e : Option Nat) : (s.setHeld e).modules = s.modules := rfl
@[simp] theorem State.setHeld_nctx (e : Option Nat) : (s.setHeld e).nctx = { s.nctx with held := e } := rfl
@[simp] theorem State.setHeld_fault (e : Option Nat) : (s.setHeld e).fault = s.fault := rfl
@[simp] theorem State.setHeld_rsp (e : Option Nat) : (s.setHeld e).rsp = s.rsp := rfl
@[simp] theorem State.setHeld_ntf (e : Option Nat) : (s.setHeld e).ntf = s.ntf := rfl
@[simp] theorem State.setHeld_drvLog (e : Option Nat) : (s.setHeld e).drvLog = s.drvLog := rfl
@[simp] theorem State.setHeld_turns (e : Option Nat) : (s.setHeld e).turns = s.turns := rfl
@[simp] theorem State.setHeld_drvAns (e : Option Nat) : (s.setHeld e).drvAns = s.drvAns := rfl
@[simp] theorem State.setHeld_drawn (e : Option Nat) : (s.setHeld e).drawn = s.drawn := rfl
@[simp] theorem State.setHeld_submitted (e : Option Nat) : (s.setHeld e).submitted = s.submitted := rfl

/-! ## takeEvent -/

@[simp] theorem State.takeEvent_params (w : Word) : (s.takeEvent w).params = s.params := rfl
@[simp] theorem State.takeEvent_modules (w : Word) : (s.takeEvent w).modules = s.modules := rfl
@[simp] theorem State.takeEvent_nctx (w : Word) : (s.takeEvent w).nctx = s.nctx := rfl
@[simp] theorem State.takeEvent_fault (w : Word) : (s.takeEvent w).fault = s.fault := rfl
@[simp] theorem State.takeEvent_rsp (w : Word) : (s.takeEvent w).rsp = s.rsp := rfl
@[simp] theorem State.takeEvent_ntf (w : Word) : (s.takeEvent w).ntf = s.ntf := rfl
@[simp] theorem State.takeEvent_drvLog (w : Word) : (s.takeEvent w).drvLog = s.drvLog ++ [.event w] := rfl
@[simp] theorem State.takeEvent_turns (w : Word) : (s.takeEvent w).turns = s.turns := rfl
@[simp] theorem State.takeEvent_drvAns (w : Word) : (s.takeEvent w).drvAns = s.drvAns := rfl
@[simp] theorem State.takeEvent_drawn (w : Word) : (s.takeEvent w).drawn = s.drawn := rfl
@[simp] theorem State.takeEvent_submitted (w : Word) : (s.takeEvent w).submitted = s.submitted := rfl

/-! ## popTurn -/

@[simp] theorem State.popTurn_params : (s.popTurn).params = s.params := rfl
@[simp] theorem State.popTurn_modules : (s.popTurn).modules = s.modules := rfl
@[simp] theorem State.popTurn_nctx : (s.popTurn).nctx = s.nctx := rfl
@[simp] theorem State.popTurn_fault : (s.popTurn).fault = s.fault := rfl
@[simp] theorem State.popTurn_rsp : (s.popTurn).rsp = s.rsp := rfl
@[simp] theorem State.popTurn_ntf : (s.popTurn).ntf = s.ntf := rfl
@[simp] theorem State.popTurn_drvLog : (s.popTurn).drvLog = s.drvLog := rfl
@[simp] theorem State.popTurn_turns : (s.popTurn).turns = s.turns.tail := rfl
@[simp] theorem State.popTurn_drvAns : (s.popTurn).drvAns = s.drvAns := rfl
@[simp] theorem State.popTurn_drawn : (s.popTurn).drawn = s.drawn := rfl
@[simp] theorem State.popTurn_submitted : (s.popTurn).submitted = s.submitted := rfl

/-! ## emitAct -/

theorem State.emitAct_eq (i : Nat) : s.emitAct i = s.append i .act := rfl

/-! ## emit: it appends one record or does nothing (00_scope.md R17) -/

/-- What `emit` does: the record is appended when the Module's callback slot of its kind is enabled,
and nothing happens otherwise. -/
theorem State.emit_cases (i : Nat) (b : NtfBody) :
    (∃ m k, s.slot? i = some m ∧ b.slot = some k ∧ m.cbEn.get k = true ∧ s.emit i b = s.append i b)
    ∨ s.emit i b = s := by
  unfold State.emit
  split
  · rename_i m k hm hk
    by_cases h : m.cbEn.get k = true
    · exact .inl ⟨m, k, hm, hk, h, by simp [h]⟩
    · exact .inr (by simp [h])
  · exact .inr rfl

@[simp] theorem State.emit_params (i : Nat) (b : NtfBody) : (s.emit i b).params = s.params := by
  rcases s.emit_cases i b with ⟨_, _, _, _, _, h⟩ | h <;> simp [h]

@[simp] theorem State.emit_modules (i : Nat) (b : NtfBody) : (s.emit i b).modules = s.modules := by
  rcases s.emit_cases i b with ⟨_, _, _, _, _, h⟩ | h <;> simp [h]

@[simp] theorem State.emit_nctx (i : Nat) (b : NtfBody) : (s.emit i b).nctx = s.nctx := by
  rcases s.emit_cases i b with ⟨_, _, _, _, _, h⟩ | h <;> simp [h]

@[simp] theorem State.emit_fault (i : Nat) (b : NtfBody) : (s.emit i b).fault = s.fault := by
  rcases s.emit_cases i b with ⟨_, _, _, _, _, h⟩ | h <;> simp [h]

@[simp] theorem State.emit_rsp (i : Nat) (b : NtfBody) : (s.emit i b).rsp = s.rsp := by
  rcases s.emit_cases i b with ⟨_, _, _, _, _, h⟩ | h <;> simp [h]

@[simp] theorem State.emit_drvLog (i : Nat) (b : NtfBody) : (s.emit i b).drvLog = s.drvLog := by
  rcases s.emit_cases i b with ⟨_, _, _, _, _, h⟩ | h <;> simp [h]

@[simp] theorem State.emit_turns (i : Nat) (b : NtfBody) : (s.emit i b).turns = s.turns := by
  rcases s.emit_cases i b with ⟨_, _, _, _, _, h⟩ | h <;> simp [h]

@[simp] theorem State.emit_drvAns (i : Nat) (b : NtfBody) : (s.emit i b).drvAns = s.drvAns := by
  rcases s.emit_cases i b with ⟨_, _, _, _, _, h⟩ | h <;> simp [h]

@[simp] theorem State.emit_drawn (i : Nat) (b : NtfBody) : (s.emit i b).drawn = s.drawn := by
  rcases s.emit_cases i b with ⟨_, _, _, _, _, h⟩ | h <;> simp [h]

@[simp] theorem State.emit_submitted (i : Nat) (b : NtfBody) :
    (s.emit i b).submitted = s.submitted := by
  rcases s.emit_cases i b with ⟨_, _, _, _, _, h⟩ | h <;> simp [h]

theorem State.emit_of_enabled {i : Nat} {b : NtfBody} {m : CanModule} {k : CbKind}
    (hm : s.slot? i = some m) (hk : b.slot = some k) (he : m.cbEn.get k = true) :
    s.emit i b = s.append i b := by
  simp [State.emit, hm, hk, he]

theorem State.emit_of_disabled {i : Nat} {b : NtfBody} {m : CanModule} {k : CbKind}
    (hm : s.slot? i = some m) (hk : b.slot = some k) (he : m.cbEn.get k = false) :
    s.emit i b = s := by
  simp [State.emit, hm, hk, he]

/-! ## Updates that leave the Module table leave every slot -/

theorem State.slot?_congr {s t : State} (hp : t.params = s.params) (hm : t.modules = s.modules)
    (j : Nat) : t.slot? j = s.slot? j := by
  simp [State.slot?, hp, hm]

@[simp] theorem State.slot?_answer (r : Response) (j : Nat) : (s.answer r).slot? j = s.slot? j := rfl

@[simp] theorem State.slot?_append (i : Nat) (b : NtfBody) (j : Nat) : (s.append i b).slot? j = s.slot? j := rfl

@[simp] theorem State.slot?_request (r : DrvRequest) (j : Nat) : (s.request r).slot? j = s.slot? j := rfl

@[simp] theorem State.slot?_noteSubmitted (t : Word) (j : Nat) : (s.noteSubmitted t).slot? j = s.slot? j := rfl

@[simp] theorem State.slot?_raise (r : Fault) (j : Nat) : (s.raise r).slot? j = s.slot? j := rfl

@[simp] theorem State.slot?_setPhase (ph : Phase) (j : Nat) : (s.setPhase ph).slot? j = s.slot? j := rfl

@[simp] theorem State.slot?_setHeld (e : Option Nat) (j : Nat) : (s.setHeld e).slot? j = s.slot? j := rfl

@[simp] theorem State.slot?_takeEvent (w : Word) (j : Nat) : (s.takeEvent w).slot? j = s.slot? j := rfl

@[simp] theorem State.slot?_popTurn (j : Nat) : (s.popTurn).slot? j = s.slot? j := rfl

@[simp] theorem State.slot?_emit (i : Nat) (b : NtfBody) (j : Nat) :
    (s.emit i b).slot? j = s.slot? j :=
  State.slot?_congr (by simp) (by simp) j

end Sys2Proof.Machine
end

