-- ==== Sys2Proof/Laws/Ops.lean ====
section
/-! SUPPORT. What each shared operation of Machine/Ops.lean can do, said once. -/

namespace Sys2Proof.Machine

/-! ## Checked array access -/

theorem readAt_eq_some {α : Type} {a : List α} {b i : Nat} {x : α} :
    readAt a b i = some x ↔ i < b ∧ a[i]? = some x := by
  unfold readAt
  split <;> simp_all

theorem readAt_of_lt {α : Type} {a : List α} {b i : Nat} (h : i < b) : readAt a b i = a[i]? := by
  simp [readAt, h]

theorem readAt_eq_none {α : Type} {a : List α} {b i : Nat} :
    readAt a b i = none ↔ b ≤ i ∨ a.length ≤ i := by
  unfold readAt
  split <;> simp_all

theorem State.slot?_eq_some {s : State} {i : Nat} {m : CanModule} :
    s.slot? i = some m ↔ i < s.params.nInst ∧ s.modules[i]? = some m := readAt_eq_some

theorem State.slot?_lt {s : State} {i : Nat} {m : CanModule} (h : s.slot? i = some m) :
    i < s.modules.length := by
  have := (State.slot?_eq_some.mp h).2
  exact (List.getElem?_eq_some_iff.mp this).1

theorem State.mem_of_slot? {s : State} {i : Nat} {m : CanModule} (h : s.slot? i = some m) :
    m ∈ s.modules :=
  List.mem_of_getElem? (State.slot?_eq_some.mp h).2

/-- `M[i] <- m` at a slot that exists: slot `i` is `m`. -/
theorem State.slot?_setSlot_self {s : State} {i : Nat} {m m₀ : CanModule}
    (h : s.slot? i = some m₀) : (s.setSlot i m).slot? i = some m := by
  obtain ⟨hi, hm⟩ := State.slot?_eq_some.mp h
  have hl := State.slot?_lt h
  exact State.slot?_eq_some.mpr ⟨hi, by simp [hl]⟩

/-- `M[i] <- m` leaves every other slot. -/
theorem State.slot?_setSlot_ne {s : State} {i j : Nat} {m : CanModule} (h : j ≠ i) :
    (s.setSlot i m).slot? j = s.slot? j := by
  simp [State.slot?, readAt, List.getElem?_set_ne (Ne.symm h)]

/-- Writing back what a slot holds changes nothing. -/
theorem State.setSlot_same {s : State} {i : Nat} {m : CanModule} (h : s.slot? i = some m) :
    s.setSlot i m = s := by
  obtain ⟨-, hm⟩ := State.slot?_eq_some.mp h
  obtain ⟨hl, rfl⟩ := List.getElem?_eq_some_iff.mp hm
  simp [State.setSlot]

theorem State.claimed?_eq_some {s : State} {h : Byte} {m : CanModule} :
    s.claimed? h = some m ↔ s.slot? h.toNat = some m ∧ m.allocated = true := by
  unfold State.claimed?
  split
  · rename_i m' hm'
    by_cases ha : m'.allocated = true
    · simp [ha, hm']
      rintro rfl
      exact ha
    · simp [ha, hm']
      rintro rfl
      simpa using ha
  · simp_all

/-! ## Computations that can fault -/

@[simp] theorem Run.andThen_ok {σ α β : Type} (a : α) (s : σ) (f : α → σ → Run σ β) :
    (Run.ok a s).andThen f = f a s := rfl

@[simp] theorem Run.andThen_fault {σ α β : Type} (r : Fault) (s : σ) (f : α → σ → Run σ β) :
    (Run.fault r s : Run σ α).andThen f = .fault r s := rfl

theorem Run.andThen_eq_ok {σ α β : Type} {x : Run σ α} {f : α → σ → Run σ β} {b : β} {t : σ} :
    x.andThen f = .ok b t ↔ ∃ a u, x = .ok a u ∧ f a u = .ok b t := by
  cases x <;> simp

theorem Run.andThen_eq_fault {σ α β : Type} {x : Run σ α} {f : α → σ → Run σ β} {r : Fault}
    {t : σ} :
    x.andThen f = .fault r t ↔ x = .fault r t ∨ ∃ a u, x = .ok a u ∧ f a u = .fault r t := by
  cases x <;> simp

@[simp] theorem Run.finish_ok {α : Type} (a : α) (s : State) : (Run.ok a s).finish = .next s := rfl

@[simp] theorem Run.finish_fault {α : Type} (r : Fault) (s : State) :
    (Run.fault r s : Run State α).finish = .next (s.raise r) := rfl

/-- A step ends in the state its computation leaves, or with the fault it met recorded. -/
theorem Run.finish_eq_next {α : Type} {x : Run State α} {t : State} :
    x.finish = .next t ↔ (∃ a, x = .ok a t) ∨ ∃ r u, x = .fault r u ∧ t = u.raise r := by
  cases x with
  | ok a s => simp [eq_comm]
  | fault r s =>
    simp only [Run.finish_fault, Host.Outcome.next.injEq, reduceCtorEq, exists_false,
      Run.fault.injEq, false_or]
    exact ⟨fun h => ⟨r, s, ⟨rfl, rfl⟩, h.symm⟩, fun ⟨_, _, ⟨hr, hs⟩, ht⟩ => by
      subst hr hs; exact ht.symm⟩

/-- Every step that is a computation answers a next state. -/
theorem Run.finish_next {α : Type} (x : Run State α) : ∃ t, x.finish = .next t := by
  cases x <;> exact ⟨_, rfl⟩

/-! ## Module operations on a slot -/

theorem State.onSlot_of {α : Type} {s : State} {i : Nat} {f : CanModule → Run CanModule α}
    {m : CanModule} (h : s.slot? i = some m) :
    s.onSlot i f = match f m with
      | .ok a m' => .ok a (s.setSlot i m')
      | .fault r m' => .fault r (s.setSlot i m') := by
  cases hf : f m <;> simp [State.onSlot, h, hf]

theorem State.onSlot_eq_ok {α : Type} {s : State} {i : Nat} {f : CanModule → Run CanModule α}
    {a : α} {t : State} :
    s.onSlot i f = .ok a t ↔
      ∃ m m', s.slot? i = some m ∧ f m = .ok a m' ∧ t = s.setSlot i m' := by
  unfold State.onSlot
  split
  · simp_all
  · rename_i m hm
    split
    · rename_i a' m' hf
      simp only [Run.ok.injEq, hm, Option.some.injEq]
      exact ⟨fun ⟨ha, ht⟩ => ⟨m, m', rfl, ha ▸ hf, ht.symm⟩, fun ⟨_, _, h₁, h₂, h₃⟩ => by
        subst h₁; rw [hf] at h₂; cases h₂; exact ⟨rfl, h₃.symm⟩⟩
    · rename_i r m' hf
      simp only [hm, Option.some.injEq, reduceCtorEq, false_iff]
      rintro ⟨_, _, h₁, h₂, -⟩
      subst h₁
      rw [hf] at h₂
      cases h₂

theorem State.onSlot_eq_fault {α : Type} {s : State} {i : Nat} {f : CanModule → Run CanModule α}
    {r : Fault} {t : State} :
    s.onSlot i f = .fault r t ↔
      (s.slot? i = none ∧ r = .invariantBroken ∧ t = s) ∨
      ∃ m m', s.slot? i = some m ∧ f m = .fault r m' ∧ t = s.setSlot i m' := by
  unfold State.onSlot
  split
  · rename_i hm
    simp only [Run.fault.injEq, hm, reduceCtorEq, false_and, exists_false, or_false, true_and]
    exact ⟨fun ⟨a, b⟩ => ⟨a.symm, b.symm⟩, fun ⟨a, b⟩ => ⟨a.symm, b.symm⟩⟩
  · rename_i m hm
    split
    · rename_i a m' hf
      simp only [reduceCtorEq, hm, Option.some.injEq, false_and, false_or, false_iff]
      rintro ⟨_, _, h₁, h₂, -⟩
      subst h₁
      rw [hf] at h₂
      cases h₂
    · rename_i r' m' hf
      simp only [Run.fault.injEq, hm, Option.some.injEq, reduceCtorEq, false_and, false_or]
      exact ⟨fun ⟨ha, ht⟩ => ⟨m, m', rfl, ha ▸ hf, ht.symm⟩, fun ⟨_, _, h₁, h₂, h₃⟩ => by
        subst h₁; rw [hf] at h₂; cases h₂; exact ⟨rfl, h₃.symm⟩⟩

/-! ## Handle and event checks -/

theorem State.withHandle_some {s : State} {h : Byte} {m : CanModule}
    {k : CanModule → Host.Outcome State Fault Refusal} (hm : s.claimed? h = some m) :
    s.withHandle h k = k m := by
  simp [State.withHandle, hm]

theorem State.withHandle_none {s : State} {h : Byte}
    {k : CanModule → Host.Outcome State Fault Refusal} (hm : s.claimed? h = none) :
    s.withHandle h k = .next (s.answer (.ofResult .invalidHandle)) := by
  simp [State.withHandle, hm, State.reply]

theorem State.withEvent_some {s : State} {p : Byte} {i : Nat} {k : Nat → Run State Unit}
    (h : s.resolve p = some i) : s.withEvent p k = (k i).finish := by
  simp [State.withEvent, h]

theorem State.withEvent_none {s : State} {p : Byte} {k : Nat → Run State Unit}
    (h : s.resolve p = none) : s.withEvent p k = .next s := by
  simp [State.withEvent, h]

/-- What `resolve` finds: the first allocated and started Module on the peripheral
(44_interrupt_dispatch.md R350). -/
theorem State.resolve_eq_some {s : State} {p : Byte} {i : Nat} (h : s.resolve p = some i) :
    ∃ m, s.slot? i = some m ∧ m.allocated = true ∧ m.started = true ∧ m.cfg.periph = p := by
  unfold State.resolve at h
  obtain ⟨hi, hp, -⟩ := List.findIdx?_eq_some_iff_getElem.mp h
  simp only [List.length_take, Nat.lt_min] at hi
  simp only [List.getElem_take, Bool.and_eq_true, beq_iff_eq] at hp
  exact ⟨_, State.slot?_eq_some.mpr ⟨hi.1, List.getElem?_eq_getElem hi.2⟩, hp.1.1, hp.1.2, hp.2⟩

theorem State.resolve_eq_none {s : State} {p : Byte} (h : s.resolve p = none) (i : Nat)
    (m : CanModule) (hm : s.slot? i = some m) :
    ¬ (m.allocated = true ∧ m.started = true ∧ m.cfg.periph = p) := by
  unfold State.resolve at h
  rw [List.findIdx?_eq_none_iff] at h
  obtain ⟨hi, hm⟩ := State.slot?_eq_some.mp hm
  have hmem : m ∈ s.modules.take s.params.nInst :=
    List.mem_of_getElem? (i := i) (by rw [List.getElem?_take]; simp [hi, hm])
  have := h m hmem
  rintro ⟨ha, hs, hp⟩
  simp [ha, hs, hp] at this

/-! ## Driver answers -/

theorem State.answerAt_zero (s : State) : s.answerAt 0 = s.nextAnswer := by
  unfold State.answerAt State.nextAnswer
  cases s.drvAns <;> simp

theorem State.answerAt_request (s : State) (r : DrvRequest) (n : Nat) :
    (s.request r).answerAt n = s.answerAt (n + 1) := by
  simp only [State.answerAt, State.request_drvAns, State.request_params, State.request_drawn]
  rw [List.getElem?_tail, Nat.add_right_comm, Nat.add_assoc]

theorem State.nextAnswer_request (s : State) (r : DrvRequest) :
    (s.request r).nextAnswer = s.answerAt 1 := by
  rw [← State.answerAt_zero, State.answerAt_request]

@[simp] theorem State.answerAt_setSlot (s : State) (i : Nat) (m : CanModule) (n : Nat) :
    (s.setSlot i m).answerAt n = s.answerAt n := rfl

@[simp] theorem State.answerAt_answer (s : State) (r : Response) (n : Nat) :
    (s.answer r).answerAt n = s.answerAt n := rfl

/-- An answer the model draws by itself keeps the bounds of the driver contract
(60_exceptions.md R424, R425). -/
theorem answerOk_confineAnswer (p : Params) (a : DrvAnswer) :
    answerOk p (confineAnswer p a) = true := by
  have hid : ∀ v : CanId, stdOverflow false (v &&& 0x7FF) = false := by
    intro v
    simp only [stdOverflow, Bool.not_false, Bool.true_and, bne_eq_false_iff_eq]
    apply BitVec.eq_of_getLsbD_eq
    intro i hi
    interval_cases i <;> simp
  have hmb : a.mb % p.numMb < p.numMb := Nat.mod_lt _ p.numMb_pos
  have hh : rxHeaderOk (confineHeader a.hdr) = true := by
    obtain ⟨id, ide, rtr, len, ts⟩ := a.hdr
    simp only [rxHeaderOk, confineHeader, Bool.and_eq_true, decide_eq_true_eq,
      Bool.not_eq_eq_eq_not, Bool.not_true]
    refine ⟨?_, ?_⟩
    · split <;> simp_all
    · by_cases hs : stdOverflow ide id = true
      · cases ide
        · simp only [hs, if_true]; exact hid id
        · simp [stdOverflow] at hs
      · simp only [hs, if_false, Bool.false_eq_true]
  simp [answerOk, confineAnswer, hmb, hh]

/-- The answer of a lawful environment keeps the bounds of the driver contract. -/
theorem State.nextAnswer_ok {s : State} (h : s.lawful = true) :
    answerOk s.params s.nextAnswer = true := by
  unfold State.nextAnswer
  simp only [State.lawful, Bool.and_eq_true, List.all_eq_true] at h
  split
  · rename_i a _ he
    exact h.1 a (by simp [he])
  · exact answerOk_confineAnswer _ _

end Sys2Proof.Machine
end

