-- ==== Sys2Proof/Laws/PerInstr.lean ====
section
/-! SUPPORT. Per instruction: its encoded word lies on its row of spec/opcode_table.json. -/

namespace Sys2Proof.Laws

/-- The word of a port input: the command word, or the event word. -/
def portWord : PortInput → Word
  | .command c => c.cmd
  | .event w => w

/-- The mask and the match of an instruction's row of spec/opcode_table.json. -/
def tableRow : Instr → Word × Word
  | .allocate _ _ _ _ _ => (0xFFFFFFFF, 0x00000001)
  | .free _ => (0xFFFF00FF, 0x00000002)
  | .addFilter _ _ _ _ _ => (0xFFFE00FF, 0x00000003)
  | .start _ => (0xFFFF00FF, 0x00000004)
  | .stop _ => (0xFFFF00FF, 0x00000005)
  | .registerCb _ _ _ => (0xFFF400FF, 0x00000006)
  | .transmit _ _ _ _ _ _ _ _ _ => (0xFFF800FF, 0x00000010)
  | .abortTx _ _ => (0xFFFF00FF, 0x00000011)
  | .getOccupancy _ => (0xFFFF00FF, 0x00000012)
  | .rxRead _ => (0xFFFF00FF, 0x00000020)
  | .getBusState _ => (0xFFFF00FF, 0x00000030)
  | .getErrorCounters _ => (0xFFFF00FF, 0x00000031)
  | .getStats _ => (0xFFFF00FF, 0x00000032)
  | .evtRxPending _ _ => (0xFFFE00FF, 0x00000081)
  | .evtTxComplete _ _ => (0xFF0000FF, 0x00000082)
  | .evtError _ => (0xFFFF00FF, 0x00000083)

/-- The encoded word of the instruction has the fixed bits of its table row. -/
def OnTableRow.Statement (i : Instr) : Prop :=
  portWord (encode i) &&& (tableRow i).1 = (tableRow i).2

/-- A word lies on a row when each of its 32 bits does. -/
theorem masked_eq {w mask m : Word}
    (h : ∀ k < 32, (w.getLsbD k && mask.getLsbD k) = m.getLsbD k) : w &&& mask = m := by
  apply BitVec.eq_of_getLsbD_eq
  intro k hk
  rw [BitVec.getLsbD_and]
  exact h k hk

/-- A command word with a handle, `A` and `E` zero lies on the row of its opcode. -/
theorem handleCmd_onRow (op h : Byte) :
    (handleCmd op h).cmd &&& 0xFFFF00FF = op.setWidth 32 := by
  apply masked_eq
  intro k hk
  interval_cases k <;> simp [handleCmd, CmdRecord.ofWord, cmdWord]

theorem OnTableRow.allocate (p : Byte) (lb sil artx led : Bool) :
    OnTableRow.Statement (.allocate p lb sil artx led) := by
  apply masked_eq
  intro k hk
  interval_cases k <;> simp [tableRow, portWord, encode, CmdRecord.ofWord, cmdWord]

theorem OnTableRow.free (h : Byte) : OnTableRow.Statement (.free h) := handleCmd_onRow 0x02 h

theorem OnTableRow.addFilter (h : Byte) (fifo : BitVec 1) (id : CanId) (ide : Bool)
    (mask : CanId) : OnTableRow.Statement (.addFilter h fifo id ide mask) := by
  apply masked_eq
  intro k hk
  interval_cases k <;> simp [tableRow, portWord, encode, CmdRecord.ofWord, cmdWord]

theorem OnTableRow.start (h : Byte) : OnTableRow.Statement (.start h) := handleCmd_onRow 0x04 h

theorem OnTableRow.stop (h : Byte) : OnTableRow.Statement (.stop h) := handleCmd_onRow 0x05 h

theorem OnTableRow.registerCb (h : Byte) (kind : CbKind) (en : Bool) :
    OnTableRow.Statement (.registerCb h kind en) := by
  apply masked_eq
  intro k hk
  interval_cases k <;> simp [tableRow, portWord, encode, CmdRecord.ofWord, cmdWord]

theorem OnTableRow.transmit (h : Byte) (prio : BitVec 3) (txid : Word) (id : CanId)
    (ide rtr : Bool) (len : BitVec 4) (data : BitVec 64) (ts : Word) :
    OnTableRow.Statement (.transmit h prio txid id ide rtr len data ts) := by
  apply masked_eq
  intro k hk
  interval_cases k <;> simp [tableRow, portWord, encode, CmdRecord.ofWord, cmdWord]

theorem OnTableRow.abortTx (h : Byte) (txid : Word) : OnTableRow.Statement (.abortTx h txid) :=
  handleCmd_onRow 0x11 h

theorem OnTableRow.getOccupancy (h : Byte) : OnTableRow.Statement (.getOccupancy h) :=
  handleCmd_onRow 0x12 h

theorem OnTableRow.rxRead (h : Byte) : OnTableRow.Statement (.rxRead h) := handleCmd_onRow 0x20 h

theorem OnTableRow.getBusState (h : Byte) : OnTableRow.Statement (.getBusState h) :=
  handleCmd_onRow 0x30 h

theorem OnTableRow.getErrorCounters (h : Byte) : OnTableRow.Statement (.getErrorCounters h) :=
  handleCmd_onRow 0x31 h

theorem OnTableRow.getStats (h : Byte) : OnTableRow.Statement (.getStats h) :=
  handleCmd_onRow 0x32 h

theorem OnTableRow.evtRxPending (p : Byte) (fifo : BitVec 1) :
    OnTableRow.Statement (.evtRxPending p fifo) := by
  apply masked_eq
  intro k hk
  interval_cases k <;> simp [tableRow, portWord, encode, evtWord]

theorem OnTableRow.evtTxComplete (p mb : Byte) :
    OnTableRow.Statement (.evtTxComplete p mb) := by
  apply masked_eq
  intro k hk
  interval_cases k <;> simp [tableRow, portWord, encode, evtWord]

theorem OnTableRow.evtError (p : Byte) : OnTableRow.Statement (.evtError p) := by
  apply masked_eq
  intro k hk
  interval_cases k <;> simp [tableRow, portWord, encode, evtWord]

end Sys2Proof.Laws
end

