-- ==== Sys2Proof/Laws/Queue.lean ====
section
/-! SUPPORT. What each primitive of the Entry Pool, the queues, the ring and the tracker can do, said
once; and that each keeps the shape of the Module's arrays. -/

namespace Sys2Proof.Machine

variable {p : Params} {m m' : CanModule}

/-! ## What each primitive can do -/

theorem liveEntry?_eq_some {e : Nat} {en : Entry} :
    liveEntry? p m e = some en ↔ e < p.poolCap ∧ m.pool[e]? = some en ∧ en.inUse = true := by
  unfold liveEntry?
  split
  · rename_i en' h
    obtain ⟨h₁, h₂⟩ := readAt_eq_some.mp h
    by_cases hu : en'.inUse = true
    · simp only [hu, if_true, Option.some.injEq, h₁, h₂, true_and]
      exact ⟨fun h => ⟨h, h ▸ hu⟩, fun h => h.1⟩
    · simp only [hu, if_false, reduceCtorEq, h₁, h₂, true_and, Option.some.injEq, false_iff,
        Bool.false_eq_true]
      rintro ⟨rfl, h⟩
      exact hu h
  · rename_i h
    simp only [reduceCtorEq, false_iff, not_and]
    intro h₁ h₂
    rw [readAt_of_lt h₁, h₂] at h
    cases h

/-- `alloc_entry` takes the lowest free Entry (40_priority_queue.md R161). -/
theorem allocEntry_eq_some {i : Nat} (h : allocEntry p m = some (i, m')) :
    i < p.poolCap ∧ (∃ en, m.pool[i]? = some en ∧ en.inUse = false) ∧
    (∀ j < i, ∀ en, m.pool[j]? = some en → en.inUse = true) ∧
    m' = { m with
      pool := m.pool.modify i fun en => { en with inUse := true }
      used := m.used + 1 } := by
  unfold allocEntry at h
  split at h
  · cases h
  · rename_i k hk
    simp only [Option.some.injEq, Prod.mk.injEq] at h
    obtain ⟨rfl, rfl⟩ := h
    obtain ⟨hl, hp, hb⟩ := List.findIdx?_eq_some_iff_getElem.mp hk
    simp only [List.length_take, Nat.lt_min] at hl
    simp only [List.getElem_take, Bool.not_eq_eq_eq_not, Bool.not_true] at hp hb
    refine ⟨hl.1, ⟨_, List.getElem?_eq_getElem hl.2, hp⟩, ?_, rfl⟩
    intro j hj en hen
    obtain ⟨_, rfl⟩ := List.getElem?_eq_some_iff.mp hen
    simpa using hb j hj

/-- `alloc_entry` answers NONE when no Entry is free (40_priority_queue.md R161). -/
theorem allocEntry_eq_none :
    allocEntry p m = none ↔ ∀ i < p.poolCap, ∀ en, m.pool[i]? = some en → en.inUse = true := by
  unfold allocEntry
  split
  · rename_i h
    simp only [true_iff]
    rw [List.findIdx?_eq_none_iff] at h
    intro i hi en hen
    have := h en (List.mem_of_getElem? (i := i) (by rw [List.getElem?_take]; simp [hi, hen]))
    simpa using this
  · rename_i k hk
    obtain ⟨hl, hp, -⟩ := List.findIdx?_eq_some_iff_getElem.mp hk
    simp only [List.length_take, Nat.lt_min] at hl
    simp only [List.getElem_take, Bool.not_eq_eq_eq_not, Bool.not_true] at hp
    simp only [reduceCtorEq, false_iff]
    intro h
    have := h k hl.1 _ (List.getElem?_eq_getElem hl.2)
    simp [hp] at this

/-- `free_entry` (40_priority_queue.md R162). -/
theorem freeEntry_eq_ok {e : Nat} {u : Unit} :
    freeEntry p e m = .ok u m' ↔ ∃ en, liveEntry? p m e = some en ∧
      m' = { m with pool := m.pool.set e { en with inUse := false }, used := m.used - 1 } := by
  unfold freeEntry
  cases h : liveEntry? p m e with
  | none => simp
  | some en =>
    simp only [Run.ok.injEq, Option.some.injEq, true_and]
    exact ⟨fun h => ⟨en, rfl, h.symm⟩, fun ⟨_, h₁, h₂⟩ => by subst h₁; exact h₂.symm⟩

theorem freeEntry_eq_fault {e : Nat} {r : Fault} :
    freeEntry p e m = .fault r m' ↔
      liveEntry? p m e = none ∧ r = .invariantBroken ∧ m' = m := by
  unfold freeEntry
  cases h : liveEntry? p m e with
  | none =>
    simp only [Run.fault.injEq, true_and]
    exact ⟨fun h => ⟨h.1.symm, h.2.symm⟩, fun h => ⟨h.1.symm, h.2.symm⟩⟩
  | some en => simp

/-- `pq_push` (40_priority_queue.md R163). -/
theorem pqPush_eq_ok {l e : Nat} {u : Unit} :
    pqPush p l e m = .ok u m' ↔ ∃ q, l < p.numPrio ∧ m.pq[l]? = some q ∧ q.tail < p.qcap ∧
      m' = { m with
        pq := m.pq.set l { q with
          slot := q.slot.set q.tail e
          tail := (q.tail + 1) % p.qcap
          count := q.count + 1 }
        bitmap := setBit m.bitmap l } := by
  unfold pqPush
  split
  · rename_i h
    rw [readAt_eq_none] at h
    simp only [reduceCtorEq, false_iff]
    rintro ⟨q, h₁, h₂, -⟩
    have := (List.getElem?_eq_some_iff.mp h₂).1
    omega
  · rename_i q h
    obtain ⟨h₁, h₂⟩ := readAt_eq_some.mp h
    by_cases ht : q.tail < p.qcap
    · simp [h₁, h₂, ht, eq_comm]
    · simp [h₁, h₂, ht]

/-- What `enqueue` can do when it does not fault (40_priority_queue.md R164): the pool is exhausted,
the level is full (the Entry taken is released again), or the Entry is queued. -/
theorem enqueue_eq_ok {msg : Message} {t : Word} {l : BitVec 3} {r : ResultCode}
    (h : enqueue p msg t l m = .ok r m') :
    (r = .txQueueFull ∧ allocEntry p m = none ∧ m' = m) ∨
    (∃ e m₁ q, allocEntry p m = some (e, m₁) ∧ m.pq[l.toNat]? = some q ∧ l.toNat < p.numPrio ∧
      ((q.count = p.qcap ∧ r = .txQueueFull ∧
          freeEntry p e (fillEntry e msg t l m₁) = .ok () m') ∨
       (q.count ≠ p.qcap ∧ r = .ok ∧
          pqPush p l.toNat e (fillEntry e msg t l m₁) = .ok () m'))) := by
  unfold enqueue at h
  split at h
  · simp only [Run.ok.injEq] at h
    exact .inl ⟨h.1.symm, by assumption, h.2.symm⟩
  · rename_i e m₁ ha
    right
    simp only at h
    split at h
    · cases h
    · rename_i q hq
      obtain ⟨-, -, -, hm₁⟩ := allocEntry_eq_some ha
      obtain ⟨hl, hq⟩ := readAt_eq_some.mp hq
      have hpq : m.pq[l.toNat]? = some q := by rw [← hq, hm₁]; rfl
      refine ⟨e, m₁, q, ha, hpq, hl, ?_⟩
      split at h
      · rename_i hc
        obtain ⟨_, _, hf, he⟩ := Run.andThen_eq_ok.mp h
        simp only [Run.ok.injEq] at he
        exact .inl ⟨hc, he.1.symm, by rw [hf, he.2]⟩
      · rename_i hc
        obtain ⟨_, _, hf, he⟩ := Run.andThen_eq_ok.mp h
        simp only [Run.ok.injEq] at he
        exact .inr ⟨hc, he.1.symm, by rw [hf, he.2]⟩

/-- What `dequeue_highest` can do when it does not fault (40_priority_queue.md R165). -/
theorem dequeueHighest_eq_ok {o : Option Nat} (h : dequeueHighest p m = .ok o m') :
    (ffs m.bitmap = none ∧ o = none ∧ m' = m) ∨
    (∃ l q e, ffs m.bitmap = some l ∧ l < p.numPrio ∧ m.pq[l]? = some q ∧ q.head < p.qcap ∧
      q.slot[q.head]? = some e ∧ (∃ en, liveEntry? p m e = some en) ∧ o = some e ∧
      m' = popLevel p l q m) := by
  unfold dequeueHighest at h
  split at h
  · cases h
    exact .inl ⟨by assumption, rfl, rfl⟩
  · rename_i l hl
    split at h
    · cases h
    · rename_i q hq
      split at h
      · cases h
      · rename_i e he
        split at h
        · cases h
        · rename_i en hen
          cases h
          obtain ⟨h₁, h₂⟩ := readAt_eq_some.mp hq
          obtain ⟨h₃, h₄⟩ := readAt_eq_some.mp he
          exact .inr ⟨l, q, e, hl, h₁, h₂, h₃, h₄, ⟨en, hen⟩, rfl, rfl⟩

/-- What `remove_by_tx_id` can do when it does not fault (40_priority_queue.md R166). -/
theorem removeByTxId_eq_ok {t : Word} {b : Bool} (h : removeByTxId p t m = .ok b m') :
    (b = false ∧ scanLevels p m t p.numPrio 0 = .absent ∧ m' = m) ∨
    (∃ l k e q, scanLevels p m t p.numPrio 0 = .found l k e ∧ l < p.numPrio ∧ m.pq[l]? = some q ∧
      b = true ∧ freeEntry p e (removeAt p l k q m) = .ok () m') := by
  unfold removeByTxId at h
  split at h
  · cases h
    exact .inl ⟨rfl, by assumption, rfl⟩
  · cases h
  · rename_i l k e hs
    split at h
    · cases h
    · rename_i q hq
      obtain ⟨_, _, hf, he⟩ := Run.andThen_eq_ok.mp h
      simp only [Run.ok.injEq] at he
      obtain ⟨h₁, h₂⟩ := readAt_eq_some.mp hq
      exact .inr ⟨l, k, e, q, hs, h₁, h₂, he.1.symm, by rw [hf, he.2]⟩

/-- What `rx_push` can do when it does not fault (41_rx_ring.md R210). -/
theorem rxPush_eq_ok {msg : Message} {r : PushResult} (h : rxPush p msg m = .ok r m') :
    (m.rx.occupancy p = p.rxDepth ∧ r = .dropped ∧
      m' = { m with rx := { m.rx with overrun := m.rx.overrun + 1 } }) ∨
    (m.rx.occupancy p ≠ p.rxDepth ∧ r = .pushed ∧
      m' = { m with
        rx := { m.rx with
          slot := m.rx.slot.set (m.rx.widx % p.rxDepth) msg
          widx := (m.rx.widx + 1) % (2 * p.rxDepth) } }) := by
  unfold rxPush at h
  split at h
  · cases h
    exact .inl ⟨by assumption, rfl, rfl⟩
  · split at h
    · cases h
    · cases h
      exact .inr ⟨by assumption, rfl, rfl⟩

/-- What `rx_pop` can do when it does not fault (41_rx_ring.md R213). -/
theorem rxPop_eq_ok {o : Option Message} (h : rxPop p m = .ok o m') :
    (m.rx.occupancy p = 0 ∧ o = none ∧ m' = m) ∨
    (∃ msg, m.rx.occupancy p ≠ 0 ∧ m.rx.slot[m.rx.ridx % p.rxDepth]? = some msg ∧ o = some msg ∧
      m' = { m with rx := { m.rx with ridx := (m.rx.ridx + 1) % (2 * p.rxDepth) } }) := by
  unfold rxPop at h
  split at h
  · cases h
    exact .inl ⟨by assumption, rfl, rfl⟩
  · split at h
    · cases h
    · rename_i msg hm
      cases h
      exact .inr ⟨msg, by assumption, (readAt_eq_some.mp hm).2, rfl, rfl⟩

/-- `record_mb` (42_mailbox_tracker.md R233). -/
theorem recordMb_eq_ok {k : Nat} {t : Word} {u : Unit} :
    recordMb p k t m = .ok u m' ↔ k < p.numMb ∧ m' = { m with mb := m.mb.set k ⟨true, t⟩ } := by
  unfold recordMb
  split <;> simp_all [eq_comm]

/-- `complete_mb` (42_mailbox_tracker.md R236). -/
theorem completeMb_eq_ok {k : Nat} {was : Mailbox} :
    completeMb p k m = .ok was m' ↔ k < p.numMb ∧ m.mb[k]? = some was ∧
      m' = { m with mb := m.mb.set k ⟨false, 0⟩ } := by
  unfold completeMb
  split
  · rename_i h
    rw [readAt_eq_none] at h
    simp only [reduceCtorEq, false_iff]
    rintro ⟨h₁, h₂, -⟩
    have := (List.getElem?_eq_some_iff.mp h₂).1
    omega
  · rename_i x h
    obtain ⟨h₁, h₂⟩ := readAt_eq_some.mp h
    simp [h₁, h₂, eq_comm]

/-- Staging a filter (43_module.md R275). -/
theorem stageFilter_eq_ok {f : RxFilter} {r : ResultCode} (h : stageFilter p f m = .ok r m') :
    (m.fltCount = p.maxFilters ∧ r = .filterFull ∧ m' = m) ∨
    (m.fltCount < p.maxFilters ∧ r = .ok ∧
      m' = { m with flt := m.flt.set m.fltCount f, fltCount := m.fltCount + 1 }) := by
  unfold stageFilter at h
  split at h
  · cases h
    exact .inl ⟨by assumption, rfl, rfl⟩
  · split at h
    · cases h
    · rename_i hx
      cases h
      exact .inr ⟨(readAt_eq_some.mp hx).1, rfl, rfl⟩

/-! ## Every primitive keeps the shape of the arrays -/

/-- The shape of a Module's arrays as plain facts. -/
theorem CanModule.shapeOk_iff :
    m.shapeOk p = true ↔ m.pool.length = p.poolCap ∧ m.pq.length = p.numPrio ∧
      (∀ q ∈ m.pq, q.slot.length = p.qcap) ∧ m.rx.slot.length = p.rxDepth ∧
      m.mb.length = p.numMb ∧ m.flt.length = p.maxFilters := by
  simp only [CanModule.shapeOk, Bool.and_eq_true, beq_iff_eq, List.all_eq_true]
  tauto

theorem closeGap_length (c hd n j : Nat) (slot : List Nat) :
    (closeGap c hd n j slot).length = slot.length := by
  induction n generalizing j slot with
  | zero => rfl
  | succ n ih => simp [closeGap, ih]

/-- A queue operation that changes one queue and keeps its slot count keeps the shape. -/
theorem shapeOk_set_queue {l : Nat} {q : PrioQueue} {b : BitVec 8} (h : m.shapeOk p = true)
    (hq : q.slot.length = p.qcap) :
    ({ m with pq := m.pq.set l q, bitmap := b } : CanModule).shapeOk p = true := by
  rw [CanModule.shapeOk_iff] at h ⊢
  obtain ⟨h₁, h₂, h₃, h₄, h₅, h₆⟩ := h
  refine ⟨h₁, by simpa using h₂, ?_, h₄, h₅, h₆⟩
  intro q' hq'
  rcases List.mem_or_eq_of_mem_set hq' with h | h
  · exact h₃ q' h
  · exact h ▸ hq

/-- A pool operation that keeps the pool's length keeps the shape. -/
theorem shapeOk_pool {pool : List Entry} {u : Nat} (h : m.shapeOk p = true)
    (hl : pool.length = m.pool.length) :
    ({ m with pool := pool, used := u } : CanModule).shapeOk p = true := by
  rw [CanModule.shapeOk_iff] at h ⊢
  exact ⟨by rw [← h.1]; exact hl, h.2⟩

theorem queue_slot_length {l : Nat} {q : PrioQueue} (h : m.shapeOk p = true)
    (hq : m.pq[l]? = some q) : q.slot.length = p.qcap :=
  (CanModule.shapeOk_iff.mp h).2.2.1 q (List.mem_of_getElem? hq)

theorem freeEntry_shapeOk {e : Nat} {u : Unit} (h : m.shapeOk p = true)
    (hf : freeEntry p e m = .ok u m') : m'.shapeOk p = true := by
  obtain ⟨en, -, rfl⟩ := freeEntry_eq_ok.mp hf
  exact shapeOk_pool h (by simp)

theorem allocEntry_shapeOk {e : Nat} (h : m.shapeOk p = true)
    (ha : allocEntry p m = some (e, m')) : m'.shapeOk p = true := by
  obtain ⟨-, -, -, rfl⟩ := allocEntry_eq_some ha
  exact shapeOk_pool h (by simp)

theorem fillEntry_shapeOk {e : Nat} {msg : Message} {t : Word} {l : BitVec 3}
    (h : m.shapeOk p = true) : (fillEntry e msg t l m).shapeOk p = true :=
  shapeOk_pool h (by simp)

theorem pqPush_shapeOk {l e : Nat} {u : Unit} (h : m.shapeOk p = true)
    (hp : pqPush p l e m = .ok u m') : m'.shapeOk p = true := by
  obtain ⟨q, -, hq, -, rfl⟩ := pqPush_eq_ok.mp hp
  exact shapeOk_set_queue h (by simpa using queue_slot_length h hq)

theorem enqueue_shapeOk {msg : Message} {t : Word} {l : BitVec 3} {r : ResultCode}
    (h : m.shapeOk p = true) (he : enqueue p msg t l m = .ok r m') : m'.shapeOk p = true := by
  rcases enqueue_eq_ok he with ⟨-, -, rfl⟩ | ⟨e, m₁, q, ha, -, -, ⟨-, -, hf⟩ | ⟨-, -, hp⟩⟩
  · exact h
  · exact freeEntry_shapeOk (fillEntry_shapeOk (allocEntry_shapeOk h ha)) hf
  · exact pqPush_shapeOk (fillEntry_shapeOk (allocEntry_shapeOk h ha)) hp

theorem dequeueHighest_shapeOk {o : Option Nat} (h : m.shapeOk p = true)
    (hd : dequeueHighest p m = .ok o m') : m'.shapeOk p = true := by
  rcases dequeueHighest_eq_ok hd with ⟨-, -, rfl⟩ | ⟨l, q, e, -, -, hq, -, -, -, -, rfl⟩
  · exact h
  · exact shapeOk_set_queue h (by simpa using queue_slot_length h hq)

theorem removeByTxId_shapeOk {t : Word} {b : Bool} (h : m.shapeOk p = true)
    (hr : removeByTxId p t m = .ok b m') : m'.shapeOk p = true := by
  rcases removeByTxId_eq_ok hr with ⟨-, -, rfl⟩ | ⟨l, k, e, q, -, -, hq, -, hf⟩
  · exact h
  · refine freeEntry_shapeOk (shapeOk_set_queue h ?_) hf
    simpa [closeGap_length] using queue_slot_length h hq

theorem rxPush_shapeOk {msg : Message} {r : PushResult} (h : m.shapeOk p = true)
    (hr : rxPush p msg m = .ok r m') : m'.shapeOk p = true := by
  rw [CanModule.shapeOk_iff] at h ⊢
  rcases rxPush_eq_ok hr with ⟨-, -, rfl⟩ | ⟨-, -, rfl⟩ <;> simpa using h

theorem rxPop_shapeOk {o : Option Message} (h : m.shapeOk p = true)
    (hr : rxPop p m = .ok o m') : m'.shapeOk p = true := by
  rw [CanModule.shapeOk_iff] at h ⊢
  rcases rxPop_eq_ok hr with ⟨-, -, rfl⟩ | ⟨-, -, -, -, rfl⟩ <;> simpa using h

theorem recordMb_shapeOk {k : Nat} {t : Word} {u : Unit} (h : m.shapeOk p = true)
    (hr : recordMb p k t m = .ok u m') : m'.shapeOk p = true := by
  rw [CanModule.shapeOk_iff] at h ⊢
  obtain ⟨-, rfl⟩ := recordMb_eq_ok.mp hr
  simpa using h

theorem completeMb_shapeOk {k : Nat} {was : Mailbox} (h : m.shapeOk p = true)
    (hr : completeMb p k m = .ok was m') : m'.shapeOk p = true := by
  rw [CanModule.shapeOk_iff] at h ⊢
  obtain ⟨-, -, rfl⟩ := completeMb_eq_ok.mp hr
  simpa using h

theorem stageFilter_shapeOk {f : RxFilter} {r : ResultCode} (h : m.shapeOk p = true)
    (hr : stageFilter p f m = .ok r m') : m'.shapeOk p = true := by
  rw [CanModule.shapeOk_iff] at h ⊢
  rcases stageFilter_eq_ok hr with ⟨-, -, rfl⟩ | ⟨-, -, rfl⟩ <;> simpa using h

theorem CanModule.zero_shapeOk (p : Params) : (CanModule.zero p).shapeOk p = true := by
  simp [CanModule.shapeOk, CanModule.zero]

end Sys2Proof.Machine
end

