-- ==== Sys2Proof/Laws/Submission.lean ====
section
/-! SUPPORT. What each shared operation of a submission, of START, STOP and FREE, of the handlers and of
the step boundary can do, said once. -/

namespace Sys2Proof.Machine

variable {s t : State}

/-! ## Requests -/

/-- Two requests, one after another, draw two answers. -/
theorem Requested.one (r : DrvRequest) : Requested [r] s (s.request r) where
  log := by simp [State.answerAt_zero]
  ans := by simp
  drawn := rfl

theorem Requested.trans {rs : List DrvRequest} {r : DrvRequest} (h : Requested rs s t)
    (ha : t.nextAnswer = s.answerAt rs.length) : Requested (rs ++ [r]) s (t.request r) where
  log := by
    rw [State.request_drvLog, h.log, ha, List.mapIdx_append]
    simp
  ans := by
    rw [State.request_drvAns, h.ans, List.length_append, List.length_singleton, ← List.drop_drop]
    simp
  drawn := by
    rw [State.request_drawn, h.drawn, List.length_append, List.length_singleton, Nat.add_assoc]

/-- After a list of requests the next answer is the one after theirs. -/
theorem Requested.nextAnswer {rs : List DrvRequest} (h : Requested rs s t)
    (hp : t.params = s.params) : t.nextAnswer = s.answerAt rs.length := by
  rw [← State.answerAt_zero]
  simp only [State.answerAt, h.ans, hp, h.drawn, List.getElem?_drop, Nat.add_zero]

/-- Driver requests change no part of the Module table, `nctx` or the fault record. -/
theorem SameBlock.request (h : SameBlock s t) (r : DrvRequest) : SameBlock s (t.request r) :=
  ⟨h.params, h.modules, h.nctx, h.fault, h.turns⟩

theorem SameBlock.refl (s : State) : SameBlock s s := ⟨rfl, rfl, rfl, rfl, rfl⟩

/-- A slot written, and nothing else of the block. -/
theorem OnlySlot.setSlot (s : State) (i : Nat) (m : CanModule) : OnlySlot i s (s.setSlot i m) where
  params := rfl
  nctx := rfl
  fault := rfl
  turns := rfl
  length := by simp
  others := fun _ h => State.slot?_setSlot_ne h

/-! ## Submission -/

/-- `drv.free_mb` (42_mailbox_tracker.md R230, 60_exceptions.md R425). -/
theorem drvFreeMb_eq_ok {p : Byte} {n : Nat} :
    drvFreeMb p s = .ok n t ↔
      s.nextAnswer.count ≤ s.params.numMb ∧ n = s.nextAnswer.count ∧ t = s.request (.freeMb p) := by
  unfold drvFreeMb
  split
  · rename_i h
    simp only [reduceCtorEq, false_iff, not_and]
    omega
  · rename_i h
    simp only [Run.ok.injEq]
    exact ⟨fun ⟨a, b⟩ => ⟨by omega, a.symm, b.symm⟩, fun ⟨_, a, b⟩ => ⟨a.symm, b.symm⟩⟩

theorem drvFreeMb_eq_fault {p : Byte} {r : Fault} :
    drvFreeMb p s = .fault r t ↔
      s.params.numMb < s.nextAnswer.count ∧ r = .driverContract ∧ t = s.request (.freeMb p) := by
  unfold drvFreeMb
  split
  · rename_i h
    simp only [Run.fault.injEq, h, true_and]
    exact ⟨fun ⟨a, b⟩ => ⟨a.symm, b.symm⟩, fun ⟨a, b⟩ => ⟨a.symm, b.symm⟩⟩
  · simp [*]

/-- The add request of an Entry: what it leaves when it does not fault (42_mailbox_tracker.md R230,
R233, R235). -/
theorem submitEntry_eq_ok {i : Nat} {m : CanModule} {en : Entry} {u : Unit}
    (h : submitEntry i m en s = .ok u t) :
    (s.nextAnswer.ok = true ∧ s.nextAnswer.mb < s.params.numMb ∧ ∃ m₀, s.slot? i = some m₀ ∧
      t = ((s.request (.addTx m.cfg.periph (txHeader en.msg) en.msg.data)).noteSubmitted
          en.txId).setSlot i
        { m₀ with mb := m₀.mb.set s.nextAnswer.mb ⟨true, en.txId⟩ }) ∨
    (s.nextAnswer.ok = false ∧
      t = (s.request (.addTx m.cfg.periph (txHeader en.msg) en.msg.data)).emit i
        (.err .driverError en.txId)) := by
  unfold submitEntry at h
  simp only at h
  split at h
  · rename_i ho
    obtain ⟨m₀, m', h₁, h₂, rfl⟩ := State.onSlot_eq_ok.mp h
    obtain ⟨hk, rfl⟩ := recordMb_eq_ok.mp h₂
    exact .inl ⟨ho, hk, m₀, h₁, rfl⟩
  · rename_i ho
    cases h
    exact .inr ⟨by simpa using ho, rfl⟩

theorem addTx_eq_ok {i e : Nat} {u : Unit} :
    addTx i e s = .ok u t ↔ ∃ m en, s.slot? i = some m ∧ liveEntry? s.params m e = some en ∧
      submitEntry i m en s = .ok u t := by
  unfold addTx
  split
  · simp [*]
  · rename_i m hm
    split
    · rename_i he
      simp [hm, he]
    · rename_i en he
      simp [hm, he]

/-- One submission in the interrupt context: what it does when it does not fault
(42_mailbox_tracker.md R230). -/
theorem submitNextIsr_eq_ok {i : Nat} {r : Submission} (h : submitNextIsr i s = .ok r t) :
    ∃ m, s.slot? i = some m ∧ s.nextAnswer.count ≤ s.params.numMb ∧
      ((s.nextAnswer.count = 0 ∧ r = .nothing ∧ t = s.request (.freeMb m.cfg.periph)) ∨
       (0 < s.nextAnswer.count ∧ ∃ o u,
          (s.request (.freeMb m.cfg.periph)).onSlot i (dequeueHighest s.params) = .ok o u ∧
          ((o = none ∧ r = .nothing ∧ t = u) ∨
           (∃ e v, o = some e ∧ r = .attempted ∧ addTx i e u = .ok () v ∧
              v.onSlot i (freeEntry v.params e) = .ok () t)))) := by
  unfold submitNextIsr at h
  split at h
  · cases h
  · rename_i m hm
    obtain ⟨n, u, hq, h⟩ := Run.andThen_eq_ok.mp h
    obtain ⟨hn, rfl, rfl⟩ := drvFreeMb_eq_ok.mp hq
    refine ⟨m, hm, hn, ?_⟩
    split at h
    · rename_i h0
      cases h
      exact .inl ⟨h0, rfl, rfl⟩
    · rename_i h0
      obtain ⟨o, u, hd, h⟩ := Run.andThen_eq_ok.mp h
      refine .inr ⟨by omega, o, u, hd, ?_⟩
      split at h
      · cases h
        exact .inl ⟨rfl, rfl, rfl⟩
      · rename_i e
        obtain ⟨_, v, ha, h⟩ := Run.andThen_eq_ok.mp h
        obtain ⟨_, w, hf, h⟩ := Run.andThen_eq_ok.mp h
        cases h
        exact .inr ⟨e, v, rfl, rfl, ha, hf⟩

/-! ## Lifecycle -/

/-- `stop_sequence`: both requests, and `started` cleared (43_module.md R290). -/
theorem stopSequence_requested (i : Nat) (m : CanModule) :
    Requested [.deactivate m.cfg.periph, .stop m.cfg.periph] s (stopSequence i m s) := by
  have h := (Requested.one (s := s) (.deactivate m.cfg.periph)).trans
    (r := .stop m.cfg.periph) (State.nextAnswer_request s _)
  exact ⟨h.log, h.ans, h.drawn⟩

theorem stopSequence_onlySlot (i : Nat) (m : CanModule) : OnlySlot i s (stopSequence i m s) where
  params := rfl
  nctx := rfl
  fault := rfl
  turns := rfl
  length := by simp [stopSequence]
  others := fun _ h => by simp [stopSequence, State.slot?_setSlot_ne h]

/-- Programming the staged filters makes requests and nothing else (43_module.md R281, R282). -/
theorem programFilters_sameBlock {m : CanModule} {n k : Nat} {b : Bool}
    (h : programFilters m n k s = .ok b t) :
    SameBlock s t ∧ t.rsp = s.rsp ∧ t.ntf = s.ntf := by
  induction n generalizing k s with
  | zero =>
    cases h
    exact ⟨SameBlock.refl _, rfl, rfl⟩
  | succ n ih =>
    unfold programFilters at h
    split at h
    · cases h
    · split at h
      · obtain ⟨h₁, h₂, h₃⟩ := ih h
        exact ⟨⟨h₁.params, h₁.modules, h₁.nctx, h₁.fault, h₁.turns⟩, h₂, h₃⟩
      · cases h
        exact ⟨(SameBlock.refl _).request _, rfl, rfl⟩

/-! ## The step boundary -/

/-- The assertions of a step boundary as plain facts (60_exceptions.md R430). -/
theorem State.boundaryOk_iff :
    s.boundaryOk = true ↔ s.heldNamed = true ∧
      ∀ i < s.params.nInst, ∃ m, s.slot? i = some m ∧ slotOk s.params s.nctx i m = true := by
  simp only [State.boundaryOk, Bool.and_eq_true, List.all_eq_true, List.mem_range]
  refine and_congr_right fun _ => forall₂_congr fun i _ => ?_
  cases s.slot? i <;> simp

theorem slotOk_iff {p : Params} {n : Nctx} {i : Nat} {m : CanModule} :
    slotOk p n i m = true ↔ (m.allocated = true → queuesOk p m = true) ∧
      ownershipOk p (heldOf n i) m = true ∧ ringOk p m = true := by
  cases h : m.allocated <;> simp [slotOk, h, and_assoc]

/-- The Entry a good state holds between the dequeue and the release is named (10_state.md R41). -/
theorem State.heldNamed_of_add_or_free (h : s.heldNamed = true)
    (hp : s.nctx.phase = .subAdd ∨ s.nctx.phase = .subFree) :
    (∃ e, s.nctx.held = some e) ∧ ∃ m, s.slot? s.nctx.h.toNat = some m := by
  rcases hp with hp | hp <;>
    simpa only [State.heldNamed, hp, Bool.and_eq_true, Option.isSome_iff_exists] using h

theorem State.checkBoundary_of_ok (h : s.boundaryOk = true) : s.checkBoundary = s := by
  unfold State.checkBoundary
  split <;> simp [h]

/-- The check at a step boundary: it does nothing, or it raises InvariantBroken. -/
theorem State.checkBoundary_cases (s : State) :
    (s.checkBoundary = s ∧ (s.fault = none → s.boundaryOk = true)) ∨
    (s.fault = none ∧ s.boundaryOk = false ∧ s.checkBoundary = s.raise .invariantBroken) := by
  unfold State.checkBoundary
  split
  · rename_i r hr
    exact .inl ⟨rfl, by simp [hr]⟩
  · rename_i hr
    by_cases hb : s.boundaryOk = true
    · exact .inl ⟨by simp [hb], fun _ => hb⟩
    · exact .inr ⟨hr, by simpa using hb, by simp [hb]⟩

@[simp] theorem State.checkBoundary_params (s : State) : s.checkBoundary.params = s.params := by
  rcases s.checkBoundary_cases with ⟨h, -⟩ | ⟨-, -, h⟩ <;> simp [h]

@[simp] theorem State.checkBoundary_modules (s : State) : s.checkBoundary.modules = s.modules := by
  rcases s.checkBoundary_cases with ⟨h, -⟩ | ⟨-, -, h⟩ <;> simp [h]

@[simp] theorem State.checkBoundary_nctx (s : State) : s.checkBoundary.nctx = s.nctx := by
  rcases s.checkBoundary_cases with ⟨h, -⟩ | ⟨-, -, h⟩ <;> simp [h]

@[simp] theorem State.checkBoundary_rsp (s : State) : s.checkBoundary.rsp = s.rsp := by
  rcases s.checkBoundary_cases with ⟨h, -⟩ | ⟨-, -, h⟩ <;> simp [h]

@[simp] theorem State.checkBoundary_ntf (s : State) : s.checkBoundary.ntf = s.ntf := by
  rcases s.checkBoundary_cases with ⟨h, -⟩ | ⟨-, -, h⟩ <;> simp [h]

@[simp] theorem State.checkBoundary_drvLog (s : State) : s.checkBoundary.drvLog = s.drvLog := by
  rcases s.checkBoundary_cases with ⟨h, -⟩ | ⟨-, -, h⟩ <;> simp [h]

@[simp] theorem State.checkBoundary_turns (s : State) : s.checkBoundary.turns = s.turns := by
  rcases s.checkBoundary_cases with ⟨h, -⟩ | ⟨-, -, h⟩ <;> simp [h]

@[simp] theorem State.checkBoundary_drvAns (s : State) : s.checkBoundary.drvAns = s.drvAns := by
  rcases s.checkBoundary_cases with ⟨h, -⟩ | ⟨-, -, h⟩ <;> simp [h]

@[simp] theorem State.checkBoundary_drawn (s : State) : s.checkBoundary.drawn = s.drawn := by
  rcases s.checkBoundary_cases with ⟨h, -⟩ | ⟨-, -, h⟩ <;> simp [h]

@[simp] theorem State.checkBoundary_submitted (s : State) :
    s.checkBoundary.submitted = s.submitted := by
  rcases s.checkBoundary_cases with ⟨h, -⟩ | ⟨-, -, h⟩ <;> simp [h]

end Sys2Proof.Machine
end

