-- ==== Sys2Proof/Laws/QueueAccess.lean ====
section
/-! SUPPORT. Which steps touch the state of the Priority Queue Manager and which make a driver request
(20_memory.md R89): no phase of a submission in the normal context and no command but FREE of a started
Module does both (log 11). -/

namespace Sys2Proof.Machine

/-! ## The state that R89 names -/

/-- `pq[*]`, `bitmap`, `pool[*].in_use` and `used` of a Module slot (20_memory.md R89). -/
def CanModule.queueState (m : CanModule) : List PrioQueue × BitVec 8 × List Bool × Nat :=
  (m.pq, m.bitmap, m.pool.map (·.inUse), m.used)

/-- No slot's Priority Queue Manager state differs. -/
def KeepsQueues (s t : State) : Prop :=
  ∀ j, (t.slot? j).map CanModule.queueState = (s.slot? j).map CanModule.queueState

/-- What R89 asks of a step: it makes no driver request, or it leaves the queues and the pool alone. -/
def Apart (s t : State) : Prop := t.drvLog = s.drvLog ∨ KeepsQueues s t

variable {s t u : State}

theorem KeepsQueues.of_modules (hp : t.params = s.params) (hm : t.modules = s.modules) :
    KeepsQueues s t := fun j => by rw [State.slot?_congr hp hm]

theorem KeepsQueues.trans (h : KeepsQueues s t) (h' : KeepsQueues t u) : KeepsQueues s u :=
  fun j => (h' j).trans (h j)

/-- Writing a slot with the queues and the pool it had keeps them. -/
theorem KeepsQueues.setSlot {i : Nat} {m m' : CanModule} (hm : s.slot? i = some m)
    (hq : m'.queueState = m.queueState) : KeepsQueues s (s.setSlot i m') := by
  intro j
  by_cases hj : j = i
  · subst hj
    rw [State.slot?_setSlot_self hm, hm, Option.map_some, Option.map_some, hq]
  · rw [State.slot?_setSlot_ne hj]

/-! ## Parts of steps -/

/-- The state a part of a step leaves, whether or not it faults. -/
def Run.state {σ α : Type} : Run σ α → σ
  | .ok _ s => s
  | .fault _ s => s

/-- A step ends with the records and the slots its computation leaves. -/
theorem Run.finish_state {α : Type} {x : Run State α} (h : x.finish = .next t) :
    t.drvLog = x.state.drvLog ∧ t.params = x.state.params ∧ t.modules = x.state.modules := by
  rcases Run.finish_eq_next.mp h with ⟨a, rfl⟩ | ⟨r, u, rfl, rfl⟩ <;> exact ⟨rfl, rfl, rfl⟩

theorem Apart.of_finish {α : Type} {x : Run State α} (h : x.finish = .next t)
    (hx : Apart s x.state) : Apart s t := by
  obtain ⟨h₁, h₂, h₃⟩ := Run.finish_state h
  rcases hx with hx | hx
  · exact .inl (h₁.trans hx)
  · exact .inr (hx.trans (.of_modules h₂ h₃))

/-- A Module operation makes no driver request. -/
theorem State.onSlot_drvLog {α : Type} (s : State) (i : Nat) (f : CanModule → Run CanModule α) :
    (s.onSlot i f).state.drvLog = s.drvLog := by
  unfold State.onSlot
  split
  · rfl
  · split <;> rfl

/-- A part of a step that goes on with updates making no request makes none either. -/
theorem Run.andThen_drvLog {α β : Type} {x : Run State α} {f : α → State → Run State β}
    (hx : x.state.drvLog = s.drvLog) (hf : ∀ a v, (f a v).state.drvLog = v.drvLog) :
    (x.andThen f).state.drvLog = s.drvLog := by
  cases x with
  | ok a v => exact (hf a v).trans hx
  | fault r v => exact hx

/-- A part of a step that goes on with updates keeping the queues keeps them too. -/
theorem Run.andThen_keepsQueues {α β : Type} {x : Run State α} {f : α → State → Run State β}
    (hx : KeepsQueues s x.state) (hf : ∀ a v, x = .ok a v → KeepsQueues v (f a v).state) :
    KeepsQueues s (x.andThen f).state := by
  cases x with
  | ok a v => exact hx.trans (hf a v rfl)
  | fault r v => exact hx

/-! ## The normal context -/

theorem submissionNothing_drvLog (s : State) : (submissionNothing s).drvLog = s.drvLog := rfl

theorem submissionAttempted_drvLog (s : State) : (submissionAttempted s).drvLog = s.drvLog := by
  unfold submissionAttempted
  split <;> rfl

theorem phaseQuery_keepsQueues (s : State) : KeepsQueues s (phaseQuery s).state := by
  unfold phaseQuery
  split
  · exact fun _ => rfl
  · refine Run.andThen_keepsQueues ?_ fun n v _ => ?_
    · unfold drvFreeMb
      split <;> exact .of_modules rfl rfl
    · split <;> exact .of_modules rfl rfl

theorem phaseDeq_drvLog (s : State) : (phaseDeq s).state.drvLog = s.drvLog := by
  refine Run.andThen_drvLog (State.onSlot_drvLog _ _ _) fun e v => ?_
  cases e <;> rfl

theorem submitEntry_keepsQueues (i : Nat) (m : CanModule) (en : Entry) (s : State) :
    KeepsQueues s (submitEntry i m en s).state := by
  unfold submitEntry
  simp only
  split
  · cases hi : s.slot? i with
    | none =>
      rw [State.onSlot, State.slot?_noteSubmitted, State.slot?_request, hi]
      exact .of_modules rfl rfl
    | some m₀ =>
      rw [State.onSlot_of (m := m₀) (by simpa using hi)]
      have hr : KeepsQueues s ((s.request (.addTx m.cfg.periph (txHeader en.msg)
          en.msg.data)).noteSubmitted en.txId) := .of_modules rfl rfl
      by_cases hk : s.nextAnswer.mb < s.params.numMb
      · simp only [recordMb, if_pos hk]
        exact hr.trans (.setSlot (m := m₀) (by simpa using hi) rfl)
      · simp only [recordMb, if_neg hk]
        exact hr.trans (.setSlot (m := m₀) (by simpa using hi) rfl)
  · exact .of_modules (by simp [Run.state]) (by simp [Run.state])

theorem phaseAdd_keepsQueues (s : State) : KeepsQueues s (phaseAdd s).state := by
  unfold phaseAdd
  split
  · exact fun _ => rfl
  · refine Run.andThen_keepsQueues ?_ fun _ v _ => .of_modules rfl rfl
    unfold addTx
    split
    · exact fun _ => rfl
    · split
      · exact fun _ => rfl
      · exact submitEntry_keepsQueues _ _ _ _

theorem phaseFree_drvLog (s : State) : (phaseFree s).state.drvLog = s.drvLog := by
  unfold phaseFree
  split
  · rfl
  · exact Run.andThen_drvLog (State.onSlot_drvLog _ _ _) fun _ v => submissionAttempted_drvLog _

/-- No step of the normal context inside a command both makes a driver request and touches the queues
(20_memory.md R89). -/
theorem normalStep_apart (h : normalStep s = .next t) : Apart s t := by
  unfold normalStep at h
  split at h
  · cases h; exact .inl rfl
  · exact .of_finish h (.inr (phaseQuery_keepsQueues s))
  · exact .of_finish h (.inl (phaseDeq_drvLog s))
  · exact .of_finish h (.inr (phaseAdd_keepsQueues s))
  · exact .of_finish h (.inl (phaseFree_drvLog s))

/-! ## The commands -/

/-- A command on a handle is apart when its own part is, on the Module the handle names. -/
theorem State.withHandle_apart {b : Byte} {k : CanModule → Host.Outcome State Fault Refusal}
    (hk : ∀ m, s.slot? b.toNat = some m → k m = .next t → Apart s t)
    (h : s.withHandle b k = .next t) : Apart s t := by
  unfold State.withHandle at h
  split at h
  · cases h; exact .inl rfl
  · rename_i m hm
    exact hk m (State.claimed?_eq_some.mp hm).1 h

theorem startPeripheral_modules (m : CanModule) (s : State) :
    (startPeripheral m s).state.params = s.params ∧
      (startPeripheral m s).state.modules = s.modules := by
  unfold startPeripheral
  simp only
  split
  · exact ⟨rfl, rfl⟩
  · split <;> exact ⟨rfl, rfl⟩

theorem programFilters_modules (m : CanModule) (n k : Nat) (s : State) :
    (programFilters m n k s).state.params = s.params ∧
      (programFilters m n k s).state.modules = s.modules := by
  induction n generalizing k s with
  | zero => exact ⟨rfl, rfl⟩
  | succ n ih =>
    unfold programFilters
    split
    · exact ⟨rfl, rfl⟩
    · split
      · exact ih _ _
      · exact ⟨rfl, rfl⟩

/-- START's driver sequence changes no slot. -/
theorem startSequence_modules (m : CanModule) (s : State) :
    (startSequence m s).state.params = s.params ∧ (startSequence m s).state.modules = s.modules := by
  have h := programFilters_modules m m.fltCount 0 s
  unfold startSequence
  cases hx : programFilters m m.fltCount 0 s with
  | fault r v => simpa [hx, Run.state] using h
  | ok b v =>
    rw [hx] at h
    rw [Run.andThen_ok]
    split
    · exact ⟨(startPeripheral_modules m v).1.trans h.1, (startPeripheral_modules m v).2.trans h.2⟩
    · exact h

theorem execStart_apart {b : Byte} (h : execStart b s = .next t) : Apart s t := by
  refine State.withHandle_apart (fun m hm h => ?_) h
  split at h
  · cases h; exact .inl rfl
  · refine .of_finish h (.inr ?_)
    have hs := startSequence_modules m s
    refine Run.andThen_keepsQueues (.of_modules hs.1 hs.2) fun ok v hv => ?_
    rw [hv] at hs
    split
    · exact KeepsQueues.trans (t := v.setSlot b.toNat { m with started := true })
        (.setSlot ((State.slot?_congr hs.1 hs.2 _).trans hm) rfl) (.of_modules rfl rfl)
    · exact .of_modules rfl rfl

theorem execStop_apart {b : Byte} (h : execStop b s = .next t) : Apart s t := by
  refine State.withHandle_apart (fun m hm h => ?_) h
  split at h
  · cases h
    refine .inr (KeepsQueues.trans (t := (s.request (.deactivate m.cfg.periph)).request
      (.stop m.cfg.periph)) (.of_modules rfl rfl) (KeepsQueues.trans
        (.setSlot (m := m) (m' := { m with started := false }) (by simpa using hm) rfl)
        (.of_modules rfl rfl)))
  · cases h; exact .inl rfl

/-- No command but FREE of a started Module both makes a driver request and touches the queues
(20_memory.md R89; log 11). -/
theorem exec_apart {i : Instr} (he : eventPeriph i = none)
    (hf : ∀ b m, i = .free b → s.slot? b.toNat = some m → m.started = false)
    (h : exec i s = .next t) : Apart s t := by
  cases i with
  | allocate p lb sil artx led =>
    left
    simp only [exec, execAllocate] at h
    split at h
    · cases h; rfl
    · split at h
      · cases h; rfl
      · split at h <;> cases h <;> rfl
  | free b =>
    refine State.withHandle_apart (fun m hm h => ?_) h
    rw [if_neg (by simp [hf b m rfl hm])] at h
    cases h
    exact .inl rfl
  | addFilter b fifo id ide mask =>
    refine State.withHandle_apart (fun m _ h => ?_) h
    split at h
    · cases h; exact .inl rfl
    · split at h
      · cases h; exact .inl rfl
      · exact .of_finish h (.inl (Run.andThen_drvLog (State.onSlot_drvLog _ _ _) fun _ _ => rfl))
  | start b => exact execStart_apart h
  | stop b => exact execStop_apart h
  | registerCb b kind en =>
    exact State.withHandle_apart (fun m _ h => by cases h; exact .inl rfl) h
  | transmit b prio txid id ide rtr len data ts =>
    refine State.withHandle_apart (fun m _ h => ?_) h
    split at h
    · refine .of_finish h (.inl (Run.andThen_drvLog (State.onSlot_drvLog _ _ _) fun _ _ => ?_))
      split
      · rfl
      · split <;> rfl
    · cases h; exact .inl rfl
  | abortTx b txid =>
    exact State.withHandle_apart (fun m _ h =>
      .of_finish h (.inl (Run.andThen_drvLog (State.onSlot_drvLog _ _ _) fun _ _ => rfl))) h
  | getOccupancy b => exact State.withHandle_apart (fun m _ h => by cases h; exact .inl rfl) h
  | rxRead b =>
    refine State.withHandle_apart (fun m _ h => .of_finish h
      (.inl (Run.andThen_drvLog (State.onSlot_drvLog _ _ _) fun o _ => ?_))) h
    cases o <;> rfl
  | getBusState b =>
    exact State.withHandle_apart (fun m _ h => by cases h; exact .inr (.of_modules rfl rfl)) h
  | getErrorCounters b =>
    exact State.withHandle_apart (fun m _ h => by cases h; exact .inr (.of_modules rfl rfl)) h
  | getStats b => exact State.withHandle_apart (fun m _ h => by cases h; exact .inl rfl) h
  | evtRxPending p fifo => cases he
  | evtTxComplete p mb => cases he
  | evtError p => cases he

end Sys2Proof.Machine
end

