-- ==== Sys2Proof/Tests/Slice0.lean ====
section
/-! SUPPORT. Tests: words written out from spec/30_encoding.md, single steps with the results that
spec/95_test_vectors.md and the rules' own examples give, and for each statement with hypotheses a state
and operands that meet them. -/

namespace Sys2Proof.Tests

open Sys2Proof.Machine

set_option Elab.async false

/-! ## WellFormed: an ill-formed instruction for each check, and its refusal -/

/-- The reference configuration without statistics (30_encoding.md R119). -/
def noStats : Params := { Params.reference with statsEn := false }

theorem test_getStats_illFormed_without_stats : (Instr.getStats 0).wellFormed noStats = false := by
  decide

theorem test_getStats_refused_without_stats :
    instrOf noStats (.command (.ofWord 0x00000032)) = none := by decide

theorem test_getStats_admitted_with_stats :
    instrOf Params.reference (.command (.ofWord 0x00000032)) = some (.getStats 0) := by decide

theorem test_txComplete_illFormed_mailbox :
    (Instr.evtTxComplete 0 3).wellFormed Params.reference = false := by decide

/-- V-ENC-15: mailbox 3 is `NUM_MB`. -/
theorem test_txComplete_refused_mailbox :
    instrOf Params.reference (.event 0x00030082) = none := by decide

theorem test_txComplete_admitted_last_mailbox :
    instrOf Params.reference (.event 0x00020082) = some (.evtTxComplete 0 2) := by decide

/-! ## Decode: words written out from the spec's encodings (95_test_vectors.md section 2.1) -/

/-- V-MOD-1: CFG 0xF01 is peripheral 1 with all four mode bits. -/
theorem test_decode_allocate :
    decode (.command { CmdRecord.ofWord 0x00000001 with cfg := 0x00000F01 })
      = .ok (.allocate 1 true true true true) := by decide

/-- CFG[8] is LOOPBACK alone (30_encoding.md R117). -/
theorem test_decode_allocate_loopback :
    decode (.command { CmdRecord.ofWord 0x00000001 with cfg := 0x00000100 })
      = .ok (.allocate 0 true false false false) := by decide

/-- CFG[10] is AUTO_RETX alone (30_encoding.md R117). -/
theorem test_decode_allocate_autoRetx :
    decode (.command { CmdRecord.ofWord 0x00000001 with cfg := 0x00000400 })
      = .ok (.allocate 0 false false true false) := by decide

/-- V-ENC-13's word: FREE h=1. -/
theorem test_decode_free : decode (.command (.ofWord 0x00000102)) = .ok (.free 1) := by decide

/-- V-MOD-7: an extended filter on FIFO 1. -/
theorem test_decode_addFilter :
    decode (.command { CmdRecord.ofWord 0x00010003 with fid := 0x201ABCDE, fmask := 0x1FFFFFFF })
      = .ok (.addFilter 0 1 0x1ABCDE true 0x1FFFFFFF) := by decide

/-- V-ENC-8's word: START h=0xFF. -/
theorem test_decode_start : decode (.command (.ofWord 0x0000FF04)) = .ok (.start 0xFF) := by decide

theorem test_decode_stop : decode (.command (.ofWord 0x00000005)) = .ok (.stop 0) := by decide

/-- REGISTER_CB with `en=1`: RX, TXC, ERR, BUS; and with `en=0` (95_test_vectors.md section 2.1). -/
theorem test_decode_registerCb :
    decode (.command (.ofWord 0x00080006)) = .ok (.registerCb 0 .rx true) ∧
    decode (.command (.ofWord 0x00090006)) = .ok (.registerCb 0 .txc true) ∧
    decode (.command (.ofWord 0x000A0006)) = .ok (.registerCb 0 .err true) ∧
    decode (.command (.ofWord 0x000B0006)) = .ok (.registerCb 0 .bus true) ∧
    decode (.command (.ofWord 0x00020006)) = .ok (.registerCb 0 .err false) := by decide

/-- V-PQ-14: a remote frame of length 8; payload byte 0 is in the low byte (20_memory.md R83). -/
theorem test_decode_transmit :
    decode (.command { CmdRecord.ofWord 0x00030010 with
        txid := 0x55, mid := 0x40000123, mctl := 8, data := 0x2211, ts := 77 })
      = .ok (.transmit 0 3 0x55 0x123 false true 8 0x2211 77) := by decide

theorem test_decode_abortTx :
    decode (.command { CmdRecord.ofWord 0x00000011 with txid := 0x41 })
      = .ok (.abortTx 0 0x41) := by decide

theorem test_decode_getOccupancy :
    decode (.command (.ofWord 0x00000012)) = .ok (.getOccupancy 0) := by decide

theorem test_decode_rxRead : decode (.command (.ofWord 0x00000020)) = .ok (.rxRead 0) := by decide

theorem test_decode_getBusState :
    decode (.command (.ofWord 0x00000030)) = .ok (.getBusState 0) := by decide

theorem test_decode_getErrorCounters :
    decode (.command (.ofWord 0x00000031)) = .ok (.getErrorCounters 0) := by decide

theorem test_decode_getStats : decode (.command (.ofWord 0x00000132)) = .ok (.getStats 1) := by
  decide

theorem test_decode_evtRxPending : decode (.event 0x00010081) = .ok (.evtRxPending 0 1) := by decide

theorem test_decode_evtTxComplete :
    decode (.event 0x00020182) = .ok (.evtTxComplete 1 2) := by decide

theorem test_decode_evtError : decode (.event 0x00000183) = .ok (.evtError 1) := by decide

/-- V-ENC-1 to V-ENC-7 and V-ENC-10 to V-ENC-12: words that are no command, each by its reason. -/
theorem test_reject_commands :
    decode (.command (.ofWord 0x00000000)) = .error .unassignedOpcode ∧
    decode (.command (.ofWord 0x00100004)) = .error .commandBits ∧
    decode (.command (.ofWord 0x00010004)) = .error .commandBits ∧
    decode (.command (.ofWord 0x00080010)) = .error .commandBits ∧
    decode (.command (.ofWord 0x00040003)) = .error .commandBits ∧
    decode (.command (.ofWord 0x00000101)) = .error .commandBits ∧
    decode (.command { CmdRecord.ofWord 0x00000001 with cfg := 0x00001000 }) = .error .operandBits ∧
    decode (.command { CmdRecord.ofWord 0x00000010 with mid := 0x80000123 }) = .error .operandBits ∧
    decode (.command { CmdRecord.ofWord 0x00000010 with mctl := 0x00000010 }) = .error .operandBits ∧
    decode (.command (.ofWord 0x000000FF)) = .error .unassignedOpcode := by decide

/-- V-ENC-14 and V-ENC-16 to V-ENC-18: words that are no event, each by its reason. -/
theorem test_reject_events :
    decode (.event 0x00020081) = .error .subRange ∧
    decode (.event 0x00010083) = .error .subRange ∧
    decode (.event 0x01000081) = .error .eventBits ∧
    decode (.event 0x00000084) = .error .unassignedEvent := by decide

/-- The table's numbering: the command word in bits 31:0 (opcode_table.json, TRANSMIT prio 2). -/
theorem test_tableWord_transmit :
    decodeTableWord 32 0x00020010 = some (.transmit 0 2 0 0 false false 0 0 0) := by decide

theorem test_tableWord_event : decodeTableWord 32 0x00010081 = some (.evtRxPending 0 1) := by decide

/-! ## Small states -/

/-- A driver answer of zeros with its first bit. -/
def answer (ok : Bool) : DrvAnswer where
  ok := ok
  mb := 0
  count := 0
  hdr := ⟨0, false, false, 0, 0⟩
  data := ⟨0, 0, 0, 0, 0, 0, 0, 0⟩
  code := 0
  txErr := 0
  rxErr := 0
  boff := false
  epv := false

/-- The answer of `drv.free_mb`. -/
def freeCount (n : Nat) : DrvAnswer := { answer true with count := n }

/-- The answer `(ok, m)` of `drv.add_tx`. -/
def added (m : Nat) : DrvAnswer := { answer true with mb := m }

/-- Module 0 allocated on peripheral 0, without statistics of its own choice: no mode bit set. -/
def plain : CanModule := claimedModule Params.reference ⟨0, false, false, false, false⟩

/-- The same, started. -/
def running : CanModule := { plain with started := true }

/-- The same, started, with every callback enabled. -/
def listening : CanModule := { running with cbEn := ⟨true, true, true, true⟩ }

/-- The Module a part of a step leaves. -/
def left {α : Type} (x : Run CanModule α) : CanModule :=
  match x with
  | .ok _ m => m
  | .fault _ m => m

/-- A message of the examples: standard identifier 0x123, one byte. -/
def hello : Message := ⟨0x123, false, false, 1, ⟨0x55, 0, 0, 0, 0, 0, 0, 0⟩, 0⟩

/-- The Module with one more message queued. -/
def queue (t : Word) (l : BitVec 3) (m : CanModule) : CanModule :=
  left (enqueue Params.reference hello t l m)

/-- The Module with one more message in its ring. -/
def arrived (m : CanModule) : CanModule := left (rxPush Params.reference hello m)

/-- The reference block with Module 0 as given and the driver's coming answers. -/
def block (m : CanModule) (ans : List DrvAnswer) : State :=
  { State.reset with modules := [m, .zero Params.reference], drvAns := ans }

/-- The block with a command or an event presented. -/
def presenting (x : PortInput) (s : State) : State := { s with turns := [.present x] }

/-- The state an outcome holds. -/
def after (o : Host.Outcome State Fault Refusal) : State :=
  match o with
  | .next s => s
  | .fault _ => State.reset
  | .refused _ => State.reset

/-- The response words answered. -/
def responses (o : Host.Outcome State Fault Refusal) : List Word := (after o).rsp.map Response.word

/-- The notifications emitted. -/
def notes (o : Host.Outcome State Fault Refusal) : List NtfBody := (after o).ntf.map (·.body)

/-- Module 0 after an outcome. -/
def module0 (o : Host.Outcome State Fault Refusal) : CanModule :=
  match (after o).slot? 0 with
  | some m => m
  | none => .zero Params.reference

/-! ## One step of each instruction -/

/-- V-MOD-1. -/
theorem test_allocate : responses (exec (.allocate 1 true true true true) State.reset) = [0x00000000] ∧
    (module0 (exec (.allocate 1 true true true true) State.reset)).cfg
      = ⟨1, true, true, true, true⟩ := by decide +kernel

/-- V-MOD-4 and V-MOD-3. -/
theorem test_allocate_fails : responses (exec (.allocate 2 false false false false) State.reset)
      = [0x0000FF01] ∧
    responses (exec (.allocate 0 false false false false) (block plain [])) = [0x0000FF07] := by
  decide +kernel

/-- V-MOD-5. -/
theorem test_free : responses (exec (.free 0) (block running [answer false, answer true]))
      = [0x00000008] ∧
    module0 (exec (.free 0) (block running [answer false, answer true])) = .zero Params.reference := by
  decide +kernel

/-- 43_module.md R275's example. -/
theorem test_addFilter : (module0 (exec (.addFilter 0 1 0x100 false 0x700) (block plain []))).flt[0]?
      = some ⟨0x100, 0x700, false, 1⟩ ∧
    (module0 (exec (.addFilter 0 1 0x100 false 0x700) (block plain []))).fltCount = 1 := by
  decide +kernel

/-- V-MOD-6 and V-MOD-21. -/
theorem test_addFilter_order : responses (exec (.addFilter 0 0 0x100 false 0x800) (block plain []))
      = [0x00000001] ∧
    responses (exec (.addFilter 0 0 0x100 false 0x700) (block { running with fltCount := 4 } []))
      = [0x00000004] := by
  decide +kernel

/-- V-MOD-12. -/
theorem test_start_activate_fails :
    responses (exec (.start 0) (block plain [answer true, answer false, answer true])) = [0x00000008] ∧
    (after (exec (.start 0) (block plain [answer true, answer false, answer true]))).drvLog.map
        (fun r => match r with | .request q _ => some q | .event _ => none)
      = [some (.start 0 false false false), some (.activate 0), some (.stop 0)] := by
  decide +kernel

/-- 43_module.md R280: `started` is set and the drain loop begins. -/
theorem test_start : (module0 (exec (.start 0) (block plain [answer true, answer true]))).started = true ∧
    (after (exec (.start 0) (block plain [answer true, answer true]))).nctx
      = ⟨.subQuery, 0x04, 0, none, true, .ok⟩ := by
  decide +kernel

/-- V-MOD-14 and V-MOD-13. -/
theorem test_stop : responses (exec (.stop 0) (block running [answer true, answer false])) = [0x00000008] ∧
    (module0 (exec (.stop 0) (block running [answer true, answer false]))).started = false ∧
    responses (exec (.stop 0) (block plain [])) = [0x00000003] := by decide +kernel

/-- 43_module.md R295's example. -/
theorem test_registerCb :
    (module0 (exec (.registerCb 0 .txc true) (block plain []))).cbEn = ⟨false, true, false, false⟩ := by
  decide +kernel

/-- 40_priority_queue.md R183. -/
theorem test_transmit :
    (module0 (exec (.transmit 0 2 0xA 0x123 false false 1 0x55 0) (block plain []))).pq[2]?
      = some ⟨[0, 0, 0, 0], 0, 1, 1⟩ ∧
    (module0 (exec (.transmit 0 2 0xA 0x123 false false 1 0x55 0) (block plain []))).bitmap = 0b0100 ∧
    (module0 (exec (.transmit 0 2 0xA 0x123 false false 1 0x55 0) (block plain []))).pool[0]?
      = some ⟨true, ⟨0x123, false, false, 1, ⟨0x55, 0, 0, 0, 0, 0, 0, 0⟩, 0⟩, 0xA, 2⟩ := by
  decide +kernel

/-- V-PQ-10 to V-PQ-13. -/
theorem test_transmit_operands :
    responses (exec (.transmit 0 4 0 0x123 false false 0 0 0) (block plain [])) = [0x00000001] ∧
    responses (exec (.transmit 0 0 0 0x123 false false 9 0 0) (block plain [])) = [0x00000001] ∧
    responses (exec (.transmit 0 0 0 0x800 false false 0 0 0) (block plain [])) = [0x00000001] ∧
    responses (exec (.transmit 0 0 0 0x1FFFFFFF true false 8 0 0) (block plain [])) = [0x00000000] := by
  decide +kernel

/-- V-PQ-7's first ABORT_TX: the match at the lower level goes. -/
theorem test_abortTx :
    responses (exec (.abortTx 0 9) (block (queue 9 1 (queue 9 0 plain)) [])) = [0x00010000] ∧
    (module0 (exec (.abortTx 0 9) (block (queue 9 1 (queue 9 0 plain)) []))).queued Params.reference
      = [1] ∧
    (module0 (exec (.abortTx 0 9) (block (queue 9 1 (queue 9 0 plain)) []))).bitmap = 0b0010 := by
  decide +kernel

/-- 40_priority_queue.md R186's example. -/
theorem test_getOccupancy :
    (after (exec (.getOccupancy 0) (block (queue 0xA 2 plain) []))).rsp.map (fun r => (r.rd0, r.rd1))
      = [(1, 15)] := by decide +kernel

/-- V-RX-4's first fields, on the example message, and V-RX-3. -/
theorem test_rxRead :
    (after (exec (.rxRead 0) (block (arrived plain) []))).rsp.map
        (fun r => (r.flag, r.rd0, r.rmid, r.rmctl, r.rdata))
      = [(true, 1, 0x00000123, 1, 0x55)] ∧
    responses (exec (.rxRead 0) (block plain [])) = [0x00000000] := by decide +kernel

/-- V-MOD-16, V-MOD-17 and V-MOD-19. -/
theorem test_getBusState :
    responses (exec (.getBusState 0) (block plain [{ answer true with boff := true, epv := true }]))
      = [0x00040000] ∧
    responses (exec (.getBusState 0) (block plain [{ answer true with epv := true }])) = [0x00020000] ∧
    responses (exec (.getBusState 0) (block plain [answer false])) = [0x00000008] := by decide +kernel

/-- V-MOD-20. -/
theorem test_getErrorCounters :
    (after (exec (.getErrorCounters 0)
        (block plain [{ answer true with txErr := 0x80, rxErr := 0x7F }]))).rsp.map (·.rd0)
      = [0x00007F80] := by decide +kernel

/-- 43_module.md R300: the order of the four counts. -/
theorem test_getStats :
    (after (exec (.getStats 0) (block { plain with
        stat := ⟨1, 2, 3⟩, rx := { plain.rx with overrun := 4 } } []))).rsp.map
        (fun r => (r.rd0, r.rd1, r.rd2, r.rd3))
      = [(1, 2, 3, 4)] := by decide +kernel

/-- V-EVT-1 and V-EVT-6. -/
theorem test_evtRxPending :
    (module0 (exec (.evtRxPending 0 1) (block running
        [{ answer true with hdr := ⟨0x100, false, false, 2, 50⟩ }]))).rx.widx = 1 ∧
    (after (exec (.evtRxPending 0 1) (block running
        [{ answer true with hdr := ⟨0x100, true, false, 9, 50⟩ }]))).fault
      = some .driverContract := by decide +kernel

/-- V-EVT-3: ACT first; V-EVT-2: a failed pull. -/
theorem test_evtRxPending_notes :
    notes (exec (.evtRxPending 0 0) (block { running with cfg := ⟨0, false, false, false, true⟩ }
        [answer true])) = [.act] ∧
    notes (exec (.evtRxPending 0 0) (block listening [answer false])) = [.err .driverError 0] := by
  decide +kernel

/-- V-EVT-8, on mailbox 0. -/
theorem test_evtTxComplete :
    notes (exec (.evtTxComplete 0 0) (block { listening with mb := listening.mb.set 0 ⟨true, 0x21⟩ }
        [freeCount 3])) = [.txc 0x21] ∧
    (module0 (exec (.evtTxComplete 0 0) (block { listening with mb := listening.mb.set 0 ⟨true, 0x21⟩ }
        [freeCount 3]))).stat.tx = 1 := by decide +kernel

/-- V-MB-3: a rejected submission; V-MB-4: a mailbox at `NUM_MB`. -/
theorem test_evtTxComplete_submission :
    notes (exec (.evtTxComplete 0 0) (block (queue 9 1 listening) [freeCount 2, answer false]))
      = [.err .driverError 9] ∧
    (after (exec (.evtTxComplete 0 0) (block (queue 9 0 listening) [freeCount 1, added 3]))).fault
      = some .driverContract := by decide +kernel

/-- V-EVT-10 to V-EVT-12. -/
theorem test_evtError :
    notes (exec (.evtError 0) (block listening [{ answer true with code := 2 }]))
      = [.bus .passive, .err .busPassive 0] ∧
    notes (exec (.evtError 0) (block listening [{ answer true with code := 3 }]))
      = [.bus .busOff, .err .busOff 0] ∧
    notes (exec (.evtError 0) (block listening [{ answer true with code := 4 }]))
      = [.err .driverError 0] := by decide +kernel

/-! ## Primitives (95_test_vectors.md sections 2.2 and 2.3) -/

/-- V-PQ-1. -/
theorem test_ffs : ffs 0b0001 = some 0 ∧ ffs 0b1000 = some 3 ∧ ffs 0b0110 = some 1 ∧ ffs 0 = none := by
  decide

/-- V-PQ-5: the gap closes across the wrap. -/
theorem test_removeAt_wraps :
    closeGap 4 2 1 1 [7, 0, 5, 6] = [7, 0, 5, 7] := by decide

/-- V-PQ-9. -/
theorem test_freeEntry_faults :
    freeEntry Params.reference 4 plain = .fault .invariantBroken plain := by decide +kernel

/-- V-RX-6 and V-RX-5: the occupancy across the wrap. -/
theorem test_occupancy_wraps :
    ({ plain.rx with widx := 2, ridx := 10 } : RxRing).occupancy Params.reference = 8 ∧
    ({ plain.rx with widx := 0, ridx := 8 } : RxRing).occupancy Params.reference = 8 := by
  decide +kernel

/-! ## Steps -/

/-- V-ENC-6: ALLOCATE with H = 1 at the command port. -/
theorem test_step_illegal_allocate :
    responses (step (presenting (.command (.ofWord 0x00000101)) State.reset)) = [0x0000FF01] := by
  decide +kernel

/-- V-ENC-14: a malformed event word records DriverContract, and the next step is stuck. -/
theorem test_step_malformed_event :
    (after (step (presenting (.event 0x00020081) State.reset))).fault = some .driverContract := by
  decide +kernel

/-- withFetchWord: the very next step runs the row's instruction. -/
theorem test_withFetchWord :
    responses (step (State.reset.withFetchWord 32 0x00000001)) = [0x00000000] := by decide +kernel

/-! ## Witnesses: for each statement with hypotheses, a state and operands that meet them -/

/-- The checks of a good state, as one Bool. -/
def goodCheck (s : State) : Bool :=
  s.modules.length == s.params.nInst && s.modules.all (fun m => m.ok s.params)
  && decide s.claimedPeriphs.Nodup && s.nctxOk && s.boundaryOk

theorem good_of_check {s : State} (h : goodCheck s = true) : s.Good := by
  simp only [goodCheck, Bool.and_eq_true, beq_iff_eq, List.all_eq_true, decide_eq_true_eq] at h
  obtain ⟨⟨⟨⟨h₁, h₂⟩, h₃⟩, h₄⟩, h₅⟩ := h
  exact ⟨h₁, h₂, h₃, h₄, h₅⟩

/-- The block in the middle of a submission of Module 0. -/
def submitting (ph : Phase) (held : Option Nat) (drain : Bool) (m : CanModule)
    (ans : List DrvAnswer) : State :=
  { block m ans with
    nctx := ⟨ph, if drain then 0x04 else 0x10, 0, held, drain, .ok⟩ }

/-- A started Module with its only queued Entry dequeued and held. -/
def holding : CanModule := left (dequeueHighest Params.reference (queue 9 1 listening))

theorem good_plain : (block plain []).Good := good_of_check (by decide +kernel)
theorem good_running : (block running []).Good := good_of_check (by decide +kernel)
theorem good_listening : (block listening []).Good := good_of_check (by decide +kernel)

theorem claimed_plain (ans : List DrvAnswer) : Claimed 0 plain (block plain ans) := ⟨rfl, rfl⟩
theorem claimed_running (ans : List DrvAnswer) : Claimed 0 running (block running ans) := ⟨rfl, rfl⟩

theorem startedOn (m : CanModule) (ans : List DrvAnswer) (ha : m.allocated = true)
    (hs : m.started = true) (hp : m.cfg.periph = 0) : StartedOn 0 0 m (block m ans) :=
  ⟨rfl, ha, hs, hp⟩

/-- EncodeThenDecode: an instruction that exists. -/
theorem witness_encode : (Instr.evtTxComplete 0 2).wellFormed Params.reference = true := by decide

/-- DecodeThenEncode: a command with unused operand fields, and an event. -/
theorem witness_decode :
    decode (.command { CmdRecord.ofWord 0x00000004 with cfg := 0xFFFFFFFF }) = .ok (.start 0) ∧
    decode (.event 0x00010081) = .ok (.evtRxPending 0 1) := by decide

/-- IllegalCommandIsInvalidParam and StepMeetsIllegalInput: the four cases of R119, the last for
ALLOCATE's opcode. -/
theorem witness_illegal :
    State.reset.fault = none ∧ State.reset.boundaryOk = true ∧ State.reset.nctx.phase = .idle ∧
    (presenting (.command (.ofWord 0)) State.reset).turns = [.present (.command (.ofWord 0))] ∧
    illegalCommand Params.reference (.ofWord 0x00000000) = true ∧
    illegalCommand noStats (.ofWord 0x00000032) = true ∧
    illegalCommand Params.reference (.ofWord 0x80000004) = true ∧
    illegalCommand Params.reference { CmdRecord.ofWord 0x00000001 with cfg := 0x00001000 } = true := by
  decide +kernel

/-- MalformedEventFaults and StepMeetsIllegalInput: the five cases of R121 at their boundary values. -/
theorem witness_malformed :
    State.reset.fault = none ∧
    (presenting (.event 0x00020081) State.reset).turns = [.present (.event 0x00020081)] ∧
    malformedEvent Params.reference 0x00000080 = true ∧
    malformedEvent Params.reference 0x01000083 = true ∧
    malformedEvent Params.reference 0x00020081 = true ∧
    malformedEvent Params.reference 0x00030082 = true ∧
    malformedEvent Params.reference 0x00010083 = true := by decide +kernel

/-- StepRunsTheCommand. -/
theorem witness_stepCommand :
    (presenting (.command (.ofWord 0x00000001)) State.reset).fault = none ∧
    (presenting (.command (.ofWord 0x00000001)) State.reset).turns
      = .present (.command (.ofWord 0x00000001)) :: [] ∧
    (presenting (.command (.ofWord 0x00000001)) State.reset).nctx.phase = .idle ∧
    decode (.command (.ofWord 0x00000001)) = .ok (.allocate 0 false false false false) ∧
    (Instr.allocate 0 false false false false).wellFormed Params.reference = true := by decide +kernel

/-- StepRunsTheEvent, while the normal context is busy. -/
theorem witness_stepEvent :
    (presenting (.event 0x00000083) (submitting .subQuery none true running [])).fault = none ∧
    (presenting (.event 0x00000083) (submitting .subQuery none true running [])).turns
      = .present (.event 0x00000083) :: [] ∧
    decode (.event 0x00000083) = .ok (.evtError 0) ∧
    (Instr.evtError 0).wellFormed Params.reference = true := by decide +kernel

/-- CommandWaitsWhileBusy. -/
theorem witness_waits :
    (presenting (.command (.ofWord 0x00000012)) (submitting .subDeq none true running [])).fault = none ∧
    (presenting (.command (.ofWord 0x00000012)) (submitting .subDeq none true running [])).turns
      = .present (.command (.ofWord 0x00000012)) :: [] ∧
    (submitting .subDeq none true running []).nctx.phase ≠ .idle := by decide +kernel

/-- IdleBlockWaits. -/
theorem witness_idle : State.reset.fault = none ∧ State.reset.turns = [] ∧
    State.reset.nctx.phase = .idle ∧ State.reset.boundaryOk = true := by decide +kernel

/-- FaultIsFinal. -/
theorem witness_fault : (State.reset.raise .driverContract).fault = some .driverContract := rfl

/-- ResetLeavesZero: the last slot exists. -/
theorem witness_reset : ∃ m, (State.resetWith Params.reference).slot? 1 = some m := ⟨_, rfl⟩

/-- ResetMeetsInvariants: instances with and without statistics. -/
theorem witness_legal : Params.reference.qcap = 4 ∧ noStats.statsEn = false := by decide

/-- R6: a `POOL_CAP` that `NUM_PRIO` does not divide, a `QCAP` of 0 and a `NUM_PRIO` of 3 are no
parameters of an instance. -/
theorem test_illegal_parameters :
    legalValues 2 15 4 8 4 3 = false ∧ legalValues 2 2 4 8 4 3 = false ∧
    legalValues 2 15 3 8 4 3 = false := by decide

/-- R13: `ceil(log2(POOL_CAP))` for 16, and for 2 and 10, where it is 1 and 4. -/
theorem test_entryBits : Params.reference.entryBits = 4 ∧
    ({ Params.reference with poolCap := 2, numPrio := 2, legal := by decide } : Params).entryBits = 1 ∧
    ({ Params.reference with poolCap := 10, numPrio := 2, legal := by decide } : Params).entryBits = 4 := by decide

/-- R41 and R45: an Entry held but not named, a handle of no slot, and an unallocated slot with an Entry
in use or a ring over its capacity, are found at the step boundary. -/
theorem test_boundary_checks :
    (submitting .subAdd none true running []).boundaryOk = false ∧
    ({ submitting .subFree (some 0) true holding [] with
      nctx := ⟨.subFree, 0x04, 2, some 0, true, .ok⟩ } : State).boundaryOk = false ∧
    (block { queue 9 1 plain with allocated := false, pq := plain.pq } []).boundaryOk = false ∧
    (block { CanModule.zero Params.reference with rx := { plain.rx with widx := 9 } } []).boundaryOk
      = false := by decide +kernel

/-- EveryStepKeepsInvariant: a step that handles an event. -/
theorem witness_invariant : (block listening [answer true]).Inv ∧
    ∃ t, step (presenting (.event 0x00000083) (block listening [answer true])) = .next t :=
  ⟨good_of_check (by decide +kernel), _, rfl⟩

/-- LawfulRunsNeverFault: answers and turns at their bounds. -/
theorem witness_lawful :
    (presenting (.event 0x00020082) (block listening [freeCount 3, added 2])).Good ∧
    (presenting (.event 0x00020082) (block listening [freeCount 3, added 2])).fault = none ∧
    (presenting (.event 0x00020082) (block listening [freeCount 3, added 2])).lawful = true :=
  ⟨good_of_check (by decide +kernel), rfl, by decide +kernel⟩

/-- A started Module 0 with the transmission of `tx_id` 7 in mailbox 0, the history that put it
there, and a coming answer. -/
def carrying : State :=
  { block { running with mb := running.mb.set 0 ⟨true, 7⟩ } [freeCount 1] with
    drvLog := [.request (.activate 0) (answer true),
      .request (.addTx 0 ⟨0x123, false, false, 1⟩ hello.data) (added 0)]
    submitted := [7] }

theorem carrying_view : carrying.contractView 0
    = some ⟨true, [(0, 7)], [], [1, 2], false⟩ := by decide +kernel

/-- A completion of mailbox 1, which may hold a frame from before reset, keeps the contract (log 12). -/
theorem test_inherited_completion :
    (({ carrying with drvLog := carrying.drvLog ++ [.event 0x00010082] } : State).contractView 0)
      = some ⟨true, [(0, 7)], [], [2], true⟩ ∧
    (({ carrying with drvLog := carrying.drvLog ++ [.event 0x00010082, .event 0x00010082] } :
      State).contractView 0) = none := by decide +kernel

/-- R237's second case (log 12): an add that names the live mailbox 0 keeps the contract, and its
transmission replaces the earlier one, so that one completion may follow and no second. -/
theorem test_live_mailbox_reported :
    (({ carrying with
        drvLog := carrying.drvLog ++ [.request (.addTx 0 ⟨0x123, false, false, 1⟩ hello.data) (added 0)]
        submitted := [7, 8] } : State).contractView 0) = some ⟨true, [(0, 8)], [], [1, 2], false⟩ ∧
    (({ carrying with
        drvLog := carrying.drvLog ++ [.request (.addTx 0 ⟨0x123, false, false, 1⟩ hello.data) (added 0),
          .event 0x00000082, .event 0x00000082]
        submitted := [7, 8] } : State).contractView 0) = none := by decide +kernel

theorem carrying_tracked : carrying.TrackerInv where
  recorded := by decide
  tracked := by
    intro p v h
    by_cases hp : p = 0
    · subst hp
      obtain rfl := Option.some.inj (carrying_view.symm.trans h)
      refine ⟨?_, fun hn => absurd rfl (hn { running with mb := running.mb.set 0 ⟨true, 7⟩ }
        (.head _) rfl)⟩
      intro m hm ha _
      rcases List.mem_cons.mp hm with rfl | hm
      · refine ⟨rfl, fun k slot hk hs => .inl ?_⟩
        match k with
        | 0 => cases hk; exact .head _
        | 1 => cases hk; cases hs
        | 2 => cases hk; cases hs
        | _ + 3 => cases hk
      · obtain rfl := List.mem_singleton.mp hm
        cases ha
    · have hq : ¬ 0#8 = p := fun h => hp h.symm
      have hv : v.activated = false := by
        simp [State.contractView, contractView, carrying, PeriphView.onRecord,
          PeriphView.onRequest, hq] at h
        rw [← h]
        rfl
      refine ⟨fun m hm ha hc => ?_, fun _ => hv⟩
      rcases List.mem_cons.mp hm with rfl | hm
      · exact absurd hc hq
      · obtain rfl := List.mem_singleton.mp hm
        cases ha

/-- EveryStepKeepsTracker: a transmission in a mailbox, and the step that handles its completion. -/
theorem witness_tracker : carrying.Good ∧ carrying.fault = none ∧ carrying.TrackerInv ∧
    (presenting (.event 0x00000082) carrying).TrackerInv ∧
    ∃ t, step (presenting (.event 0x00000082) carrying) = .next t :=
  ⟨good_of_check (by decide +kernel), rfl, carrying_tracked,
    ⟨carrying_tracked.recorded, carrying_tracked.tracked⟩, _, rfl⟩

/-- EnqueueAppendsOrRefuses: a full level, and a level with room. -/
theorem witness_enqueue :
    (queue 4 3 (queue 3 3 (queue 2 3 (queue 1 3 plain)))).queuesGood Params.reference none = true ∧
    ((queue 4 3 (queue 3 3 (queue 2 3 (queue 1 3 plain)))).level Params.reference 3).length
      = Params.reference.qcap ∧
    ((queue 4 3 (queue 3 3 (queue 2 3 (queue 1 3 plain)))).level Params.reference 2).length
      ≠ Params.reference.qcap := by decide +kernel

/-- DequeueTakesHighest: nothing queued, two levels queued, and an Entry held. -/
theorem witness_dequeue :
    plain.queuesGood Params.reference none = true ∧ plain.queued Params.reference = [] ∧
    (queue 9 0 (queue 9 1 plain)).queuesGood Params.reference none = true ∧
    (queue 9 0 (queue 9 1 plain)).queued Params.reference ≠ [] ∧
    holding.queuesGood Params.reference (some 0) = true := by decide +kernel

/-- RemoveTakesFirstMatch: no match, and a match. -/
theorem witness_remove :
    (∀ e ∈ plain.queued Params.reference, ¬ plain.carries 9 e) ∧
    ∃ e ∈ (queue 9 1 plain).queued Params.reference, (queue 9 1 plain).carries 9 e := by
  refine ⟨?_, 0, by decide +kernel, ⟨true, hello, 9, 1⟩, by decide +kernel, rfl⟩
  have h : plain.queued Params.reference = [] := by decide +kernel
  simp [h]

/-- PriorityThenFifoOrder: three messages on two levels. -/
theorem witness_order :
    plain.queuesGood Params.reference none = true ∧ plain.queued Params.reference = [] ∧
    Run.each (fun x : Message × Word × BitVec 3 => enqueue Params.reference x.1 x.2.1 x.2.2)
        [(hello, 1, 2), (hello, 2, 0), (hello, 3, 2)] plain
      = .ok [.ok, .ok, .ok] (queue 3 2 (queue 2 0 (queue 1 2 plain))) := by decide +kernel

/-- The reference configuration with a ring of one Message (41_rx_ring.md R218). -/
def ringOfOne : Params := { Params.reference with rxDepth := 1 }

/-- RingIsBoundedFifo: an empty ring and a full one. -/
theorem witness_ring :
    (CanModule.zero ringOfOne).ringGood ringOfOne = true ∧
    (CanModule.zero ringOfOne).rx.unread ringOfOne = [] ∧
    (left (rxPush ringOfOne hello (CanModule.zero ringOfOne))).ringGood ringOfOne = true ∧
    (left (rxPush ringOfOne hello (CanModule.zero ringOfOne))).rx.unread ringOfOne = [hello] := by
  decide +kernel

/-- RingRoundTrip: as many as the capacity, and one more. -/
theorem witness_roundTrip :
    (CanModule.zero ringOfOne).ringGood ringOfOne = true ∧
    (CanModule.zero ringOfOne).rx.unread ringOfOne = [] ∧
    [hello].length ≤ ringOfOne.rxDepth ∧ [hello, hello].length = ringOfOne.rxDepth + 1 := by
  decide +kernel

/-- BadHandleIsInvalidHandle: the invalid handle, and an unallocated slot. -/
theorem witness_badHandle :
    handleOf (.start 0xFF) = some 0xFF ∧ State.reset.params.nInst ≤ (0xFF : Byte).toNat ∧
    ∃ m, State.reset.slot? 1 = some m ∧ m.allocated = false :=
  ⟨rfl, by decide, _, rfl, rfl⟩

/-- AllocateClaimsLowestSlot: the second slot is free, and peripheral 1 unclaimed. -/
theorem witness_allocate : (block plain []).Good ∧ (1 : Byte).toNat < (block plain []).params.nInst ∧
    ∀ j m, (block plain []).slot? j = some m → m.allocated = true → m.cfg.periph ≠ 1 := by
  refine ⟨good_plain, by decide, ?_⟩
  intro j m hj ha
  match j with
  | 0 => cases hj; decide
  | 1 => cases hj; cases ha
  | _ + 2 => cases hj

/-- AllocateRefusals: an unknown selector, a claimed one, and a block with no free slot. -/
theorem witness_allocateRefusals :
    State.reset.params.nInst ≤ (2 : Byte).toNat ∧
    (∃ j m, (block plain []).slot? j = some m ∧ m.allocated = true ∧ m.cfg.periph = 0) ∧
    (1 : Byte).toNat < ({ State.reset with modules := [plain, plain] } : State).params.nInst ∧
    ∀ j m, ({ State.reset with modules := [plain, plain] } : State).slot? j = some m →
      m.allocated = true := by
  refine ⟨by decide, ⟨0, _, rfl, rfl, rfl⟩, by decide, ?_⟩
  intro j m hj
  match j with
  | 0 => cases hj; rfl
  | 1 => cases hj; rfl
  | _ + 2 => cases hj

/-- FreeReleasesTheSlot and StopClearsStarted: a Module not started, and one started. -/
theorem witness_lifecycle : Claimed 0 plain (block plain []) ∧ plain.started = false ∧
    Claimed 0 running (block running []) ∧ running.started = true :=
  ⟨claimed_plain [], rfl, claimed_running [], rfl⟩

/-- AddFilterStages: the largest standard identifier and mask. -/
theorem witness_addFilter : Claimed 0 plain (block plain []) ∧
    ((false : Bool) = false → (0x7FF : CanId).toNat ≤ 0x7FF ∧ (0x7FF : CanId).toNat ≤ 0x7FF) ∧
    plain.started = false ∧ plain.fltCount < Params.reference.maxFilters ∧
    plain.flt.length = Params.reference.maxFilters :=
  ⟨claimed_plain [], by decide, rfl, by decide, by decide⟩

/-- AddFilterRefusals: a mask of 0x800; a started Module; a full list. -/
theorem witness_addFilterRefusals :
    ((false : Bool) = false ∧ (0x7FF < (0x100 : CanId).toNat ∨ 0x7FF < (0x800 : CanId).toNat)) ∧
    Claimed 0 running (block running []) ∧ running.started = true ∧
    Claimed 0 { plain with fltCount := 4 } (block { plain with fltCount := 4 } []) ∧
    ({ plain with fltCount := 4 } : CanModule).fltCount = Params.reference.maxFilters :=
  ⟨by decide, claimed_running [], rfl, ⟨rfl, rfl⟩, rfl⟩

/-- StartProgramsAndStarts: no filter staged, both requests answered ok. -/
theorem witness_start : Claimed 0 plain (block plain [answer true, answer true]) ∧
    plain.started = false ∧ plain.fltCount ≤ Params.reference.maxFilters ∧
    plain.fltCount ≤ plain.flt.length ∧
    ∀ k < plain.fltCount + 2, ((block plain [answer true, answer true]).answerAt k).ok = true := by
  refine ⟨claimed_plain _, rfl, by decide, by decide, ?_⟩
  intro k hk
  match k with
  | 0 => rfl
  | 1 => rfl
  | n + 2 => exact absurd hk (by simp [plain, claimedModule, CanModule.zero])

/-- StartFailureLeavesStopped: the activate, which is request 1, fails; and the first request fails. -/
theorem witness_startFailure :
    (1 < plain.fltCount + 2 ∧
      (∀ j < 1, ((block plain [answer true, answer false]).answerAt j).ok = true) ∧
      ((block plain [answer true, answer false]).answerAt 1).ok = false) ∧
    (0 < plain.fltCount + 2 ∧ ((block plain [answer false]).answerAt 0).ok = false) ∧
    running.started = true := by
  refine ⟨⟨by decide, ?_, rfl⟩, ⟨by decide, rfl⟩, rfl⟩
  intro j hj
  match j with
  | 0 => rfl
  | n + 1 => omega

/-- RegisterCbWritesOneEnable and GetStatsAnswersCounters, GetOccupancyCountsQueued,
BusReadsAskTheDriver: an allocated Module. -/
theorem witness_claimed : Claimed 0 plain (block plain []) ∧ (block plain []).Good ∧
    (block plain []).nctx.phase = .idle := ⟨claimed_plain [], good_plain, rfl⟩

/-- TransmitQueues: the lowest level with the largest operands, not started and started. -/
theorem witness_transmit :
    (block plain []).Good ∧ (block running []).Good ∧ (block running []).nctx.phase = .idle ∧
    Claimed 0 plain (block plain []) ∧ Claimed 0 running (block running []) ∧
    LegalMessage Params.reference 3 0x7FF false 8 ∧
    (plain.level Params.reference 3).length < Params.reference.qcap ∧
    (running.level Params.reference 3).length < Params.reference.qcap :=
  ⟨good_plain, good_running, rfl, claimed_plain [], claimed_running [],
    ⟨by decide, by decide, by decide⟩, by decide +kernel, by decide +kernel⟩

/-- A Module with level 3 full. -/
def fullLevel : CanModule := queue 4 3 (queue 3 3 (queue 2 3 (queue 1 3 plain)))

/-- TransmitRefusals: each operand at its first illegal value; a full level. -/
theorem witness_transmitRefusals :
    Params.reference.numPrio ≤ (4 : BitVec 3).toNat ∧ 8 < (9 : BitVec 4).toNat ∧
    0x7FF < (0x800 : CanId).toNat ∧ (block fullLevel []).Good ∧
    Claimed 0 fullLevel (block fullLevel []) ∧ LegalMessage Params.reference 3 0x7FF false 8 ∧
    (fullLevel.level Params.reference 3).length = Params.reference.qcap :=
  ⟨by decide, by decide, by decide, good_of_check (by decide +kernel), ⟨rfl, by decide +kernel⟩,
    ⟨by decide, by decide, by decide⟩, by decide +kernel⟩

/-- AbortTxRemovesQueued: the two cases of witness_remove in a good state. -/
theorem witness_abort : (block plain []).Good ∧ Claimed 0 plain (block plain []) ∧
    (block (queue 9 1 plain) []).Good ∧ Claimed 0 (queue 9 1 plain) (block (queue 9 1 plain) []) :=
  ⟨good_plain, claimed_plain [], good_of_check (by decide +kernel), ⟨rfl, by decide +kernel⟩⟩

/-- RxReadTakesOldest: an empty ring, and one with a Message. -/
theorem witness_rxRead : Claimed 0 plain (block plain []) ∧ plain.ringGood Params.reference = true ∧
    plain.rx.unread Params.reference = [] ∧
    Claimed 0 (arrived plain) (block (arrived plain) []) ∧
    (arrived plain).ringGood Params.reference = true ∧
    (arrived plain).rx.unread Params.reference = [hello] :=
  ⟨claimed_plain [], by decide +kernel, by decide +kernel, ⟨rfl, by decide +kernel⟩,
    by decide +kernel, by decide +kernel⟩

/-- UnresolvedEventIsIgnored: no Module is started after reset. -/
theorem witness_unresolved : eventPeriph (.evtError 0) = some 0 ∧
    ∀ j m, State.reset.slot? j = some m →
      ¬ (m.allocated = true ∧ m.started = true ∧ m.cfg.periph = 0) := by
  refine ⟨rfl, ?_⟩
  intro j m hj
  match j with
  | 0 => cases hj; decide
  | 1 => cases hj; decide
  | _ + 2 => cases hj

/-- The block with a ring of one Message, Module 0 as given. -/
def smallBlock (mode : RxMode) (m : CanModule) (ans : List DrvAnswer) : State :=
  { State.resetWith { ringOfOne with rxMode := mode } with
    modules := [m, .zero ringOfOne], drvAns := ans }

/-- A started Module of that block. -/
def smallRunning : CanModule :=
  { claimedModule ringOfOne ⟨0, false, false, false, true⟩ with started := true }

/-- RxPendingBuffers: an empty ring and a full one. -/
theorem witness_rxBuffers :
    (smallBlock .buffered smallRunning [answer true]).Good ∧
    StartedOn 0 0 smallRunning (smallBlock .buffered smallRunning [answer true]) ∧
    (smallBlock .buffered smallRunning [answer true]).params.rxMode = .buffered ∧
    ((smallBlock .buffered smallRunning [answer true]).answerAt 0).ok = true ∧
    LegalHeader ((smallBlock .buffered smallRunning [answer true]).answerAt 0).hdr ∧
    (smallRunning.rx.unread ringOfOne).length ≠ ringOfOne.rxDepth ∧
    (smallBlock .buffered (left (rxPush ringOfOne hello smallRunning)) [answer true]).Good ∧
    ((left (rxPush ringOfOne hello smallRunning)).rx.unread ringOfOne).length
      = ringOfOne.rxDepth :=
  ⟨good_of_check (by decide +kernel), ⟨rfl, rfl, rfl, rfl⟩, rfl, rfl, ⟨by decide, by decide⟩,
    by decide +kernel, good_of_check (by decide +kernel), by decide +kernel⟩

/-- RxPendingPassesThrough. -/
theorem witness_rxPasses :
    (smallBlock .passthrough smallRunning [answer true]).Good ∧
    StartedOn 0 0 smallRunning (smallBlock .passthrough smallRunning [answer true]) ∧
    (smallBlock .passthrough smallRunning [answer true]).params.rxMode = .passthrough ∧
    LegalHeader ((smallBlock .passthrough smallRunning [answer true]).answerAt 0).hdr :=
  ⟨good_of_check (by decide +kernel), ⟨rfl, rfl, rfl, rfl⟩, rfl, ⟨by decide, by decide⟩⟩

/-- RxPullFailureIsReported and ErrorEventClassifies. -/
theorem witness_rxFails : (block listening [answer false]).Good ∧
    StartedOn 0 0 listening (block listening [answer false]) ∧
    ((block listening [answer false]).answerAt 0).ok = false :=
  ⟨good_of_check (by decide +kernel), startedOn _ _ rfl rfl rfl, rfl⟩

/-- TxCompleteClearsAndNotifies: no mailbox free, and nothing queued with every mailbox free. -/
theorem witness_txClears :
    (block listening [freeCount 0]).Good ∧ StartedOn 0 0 listening (block listening [freeCount 0]) ∧
    listening.mb[(2 : Byte).toNat]? = some ⟨false, 0⟩ ∧
    ((block listening [freeCount 0]).answerAt 0).count = 0 ∧
    ((block listening [freeCount 3]).answerAt 0).count ≤ Params.reference.numMb ∧
    listening.queued Params.reference = [] :=
  ⟨good_of_check (by decide +kernel), startedOn _ _ rfl rfl rfl, rfl, rfl, by decide,
    by decide +kernel⟩

/-- A started Module with a transmission in mailbox 0. -/
def waiting : CanModule := { listening with mb := listening.mb.set 0 ⟨true, 7⟩ }

/-- StatisticsCountTheirEvents: an active completion and a spurious one, at the first and the last
mailbox; a command that is not FREE. -/
theorem witness_statistics :
    (block waiting [freeCount 0]).Good ∧ (block waiting [freeCount 0]).params.statsEn = true ∧
    StartedOn 0 0 waiting (block waiting [freeCount 0]) ∧
    waiting.mb[(0 : Byte).toNat]? = some ⟨true, 7⟩ ∧
    waiting.mb[(2 : Byte).toNat]? = some ⟨false, 0⟩ ∧
    handleOf (.stop 0) = some 0 ∧ (block waiting [freeCount 0]).slot? 0 = some waiting :=
  ⟨good_of_check (by decide +kernel), rfl, startedOn _ _ rfl rfl rfl, rfl, rfl, rfl, rfl⟩

/-- TxCompleteSubmitsNext: the last mailbox, accepted and refused. -/
theorem witness_txSubmits :
    (block (queue 9 1 listening) [freeCount 1, added 2]).Good ∧
    StartedOn 0 0 (queue 9 1 listening) (block (queue 9 1 listening) [freeCount 1, added 2]) ∧
    (queue 9 1 listening).mb[(0 : Byte).toNat]? = some ⟨false, 0⟩ ∧
    0 < ((block (queue 9 1 listening) [freeCount 1, added 2]).answerAt 0).count ∧
    ((queue 9 1 listening).queued Params.reference).head? = some 0 ∧
    (queue 9 1 listening).pool[0]? = some ⟨true, hello, 9, 1⟩ ∧
    (((block (queue 9 1 listening) [freeCount 1, added 2]).answerAt 1).ok = true →
      ((block (queue 9 1 listening) [freeCount 1, added 2]).answerAt 1).mb < Params.reference.numMb) ∧
    ((block (queue 9 1 listening) [freeCount 3, answer false]).answerAt 1).ok = false :=
  ⟨good_of_check (by decide +kernel),
    startedOn _ _ (by decide +kernel) (by decide +kernel) (by decide +kernel), by decide +kernel,
    by decide, by decide +kernel, by decide +kernel, fun _ => by decide, rfl⟩

/-- ContractBreachFaults: a length of 9; a standard identifier of 0x800; a count of 4; mailbox 3. -/
theorem witness_breach :
    (block (queue 9 1 listening) [freeCount 3, added 3]).Good ∧
    StartedOn 0 0 (queue 9 1 listening) (block (queue 9 1 listening) [freeCount 3, added 3]) ∧
    8 < ((block (queue 9 1 listening) [{ answer true with hdr := ⟨0, true, false, 9, 0⟩ }]).answerAt
      0).hdr.len.toNat ∧
    0x7FF < ((block (queue 9 1 listening)
      [{ answer true with hdr := ⟨0x800, false, false, 0, 0⟩ }]).answerAt 0).hdr.id.toNat ∧
    (2 : Byte).toNat < Params.reference.numMb ∧
    Params.reference.numMb < ((block (queue 9 1 listening) [freeCount 4]).answerAt 0).count ∧
    ((block (queue 9 1 listening) [freeCount 3, added 3]).answerAt 0).count
      ≤ Params.reference.numMb ∧
    (queue 9 1 listening).queued Params.reference ≠ [] ∧
    Params.reference.numMb ≤ ((block (queue 9 1 listening) [freeCount 3, added 3]).answerAt 1).mb :=
  ⟨good_of_check (by decide +kernel),
    startedOn _ _ (by decide +kernel) (by decide +kernel) (by decide +kernel), by decide, by decide,
    by decide, by decide, by decide, by decide +kernel, by decide⟩

/-- QueryPhaseAsksFreeCount: a count of 0, `NUM_MB` and one more. -/
theorem witness_query : (submitting .subQuery none true running [freeCount 0]).Good ∧
    (submitting .subQuery none true running [freeCount 0]).nctx.phase = .subQuery ∧
    Claimed 0 running (submitting .subQuery none true running [freeCount 0]) ∧
    ((submitting .subQuery none true running [freeCount 0]).answerAt 0).count = 0 ∧
    ((submitting .subQuery none true running [freeCount 3]).answerAt 0).count
      ≤ Params.reference.numMb ∧
    Params.reference.numMb < ((submitting .subQuery none true running [freeCount 4]).answerAt 0).count :=
  ⟨good_of_check (by decide +kernel), rfl, ⟨rfl, rfl⟩, rfl, by decide, by decide⟩

/-- DequeuePhaseHoldsHighest: nothing queued, and one Entry queued. -/
theorem witness_dequeuePhase : (submitting .subDeq none false running []).Good ∧
    (submitting .subDeq none false running []).nctx.phase = .subDeq ∧
    Claimed 0 running (submitting .subDeq none false running []) ∧
    running.queued Params.reference = [] ∧
    (submitting .subDeq none false (queue 9 1 running) []).Good ∧
    Claimed 0 (queue 9 1 running) (submitting .subDeq none false (queue 9 1 running) []) ∧
    (queue 9 1 running).queued Params.reference ≠ [] :=
  ⟨good_of_check (by decide +kernel), rfl, ⟨rfl, rfl⟩, by decide +kernel,
    good_of_check (by decide +kernel), ⟨rfl, by decide +kernel⟩, by decide +kernel⟩

/-- AddPhaseSubmitsHeld: accepted in the last mailbox, refused, and mailbox 3. -/
theorem witness_addPhase : (submitting .subAdd (some 0) true holding [added 2]).Good ∧
    (submitting .subAdd (some 0) true holding [added 2]).nctx.phase = .subAdd ∧
    (submitting .subAdd (some 0) true holding [added 2]).nctx.held = some 0 ∧
    Claimed 0 holding (submitting .subAdd (some 0) true holding [added 2]) ∧
    holding.pool[0]? = some ⟨true, hello, 9, 1⟩ ∧
    ((submitting .subAdd (some 0) true holding [added 2]).answerAt 0).mb < Params.reference.numMb ∧
    ((submitting .subAdd (some 0) true holding [answer false]).answerAt 0).ok = false ∧
    Params.reference.numMb ≤ ((submitting .subAdd (some 0) true holding [added 3]).answerAt 0).mb :=
  ⟨good_of_check (by decide +kernel), rfl, rfl, ⟨rfl, by decide +kernel⟩, by decide +kernel,
    by decide, rfl, by decide⟩

/-- FreePhaseReleasesHeld: of a TRANSMIT and of a START. -/
theorem witness_freePhase : (submitting .subFree (some 0) false holding []).Good ∧
    (submitting .subFree (some 0) true holding []).Good ∧
    (submitting .subFree (some 0) false holding []).nctx.phase = .subFree ∧
    (submitting .subFree (some 0) false holding []).nctx.held = some 0 ∧
    Claimed 0 holding (submitting .subFree (some 0) false holding []) ∧
    holding.pool[0]? = some ⟨true, hello, 9, 1⟩ :=
  ⟨good_of_check (by decide +kernel), good_of_check (by decide +kernel), rfl, rfl,
    ⟨rfl, by decide +kernel⟩, by decide +kernel⟩

/-- SubmissionTerminates: an Entry held and the driver's answers left free. -/
theorem witness_terminates : (submitting .subAdd (some 0) true holding []).Good ∧
    (submitting .subAdd (some 0) true holding []).fault = none ∧
    (submitting .subAdd (some 0) true holding []).lawful = true ∧
    (submitting .subAdd (some 0) true holding []).turns = [] ∧
    (submitting .subAdd (some 0) true holding []).nctx.phase ≠ .idle ∧
    Claimed 0 holding (submitting .subAdd (some 0) true holding []) :=
  ⟨good_of_check (by decide +kernel), rfl, by decide +kernel, rfl, by decide, ⟨rfl, by decide +kernel⟩⟩

/-- StartDrainsHighestFirst: one free mailbox and two queued Entries. -/
theorem witness_drains :
    (submitting .subQuery none true (queue 7 0 (queue 9 1 running))
      [freeCount 1, added 0, freeCount 0]).Good ∧
    Claimed 0 (queue 7 0 (queue 9 1 running)) (submitting .subQuery none true
      (queue 7 0 (queue 9 1 running)) [freeCount 1, added 0, freeCount 0]) ∧
    1 ≤ Params.reference.numMb ∧
    1 = min 1 ((queue 7 0 (queue 9 1 running)).queued Params.reference).length ∧
    (∀ k ≤ 1, ((submitting .subQuery none true (queue 7 0 (queue 9 1 running))
      [freeCount 1, added 0, freeCount 0]).answerAt (2 * k)).count = 1 - k) ∧
    (∀ k < 1, ((submitting .subQuery none true (queue 7 0 (queue 9 1 running))
      [freeCount 1, added 0, freeCount 0]).answerAt (2 * k + 1)).ok = true ∧
      ((submitting .subQuery none true (queue 7 0 (queue 9 1 running))
      [freeCount 1, added 0, freeCount 0]).answerAt (2 * k + 1)).mb < Params.reference.numMb) := by
  refine ⟨good_of_check (by decide +kernel), ⟨rfl, by decide +kernel⟩, by decide, by decide +kernel,
    ?_, ?_⟩
  · intro k hk
    match k with
    | 0 => rfl
    | 1 => rfl
    | n + 2 => omega
  · intro k hk
    match k with
    | 0 => exact ⟨rfl, by decide⟩
    | n + 1 => omega

/-- StartDrainsHighestFirst: as many free mailboxes as `NUM_MB` and one queued Entry, so that the loop ends
with the queues empty. -/
theorem witness_drains_all :
    (submitting .subQuery none true (queue 9 1 running) [freeCount 3, added 2, freeCount 2]).Good ∧
    Claimed 0 (queue 9 1 running)
      (submitting .subQuery none true (queue 9 1 running) [freeCount 3, added 2, freeCount 2]) ∧
    3 ≤ Params.reference.numMb ∧
    1 = min 3 ((queue 9 1 running).queued Params.reference).length ∧
    (∀ k ≤ 1, ((submitting .subQuery none true (queue 9 1 running)
      [freeCount 3, added 2, freeCount 2]).answerAt (2 * k)).count = 3 - k) ∧
    (∀ k < 1, ((submitting .subQuery none true (queue 9 1 running)
      [freeCount 3, added 2, freeCount 2]).answerAt (2 * k + 1)).ok = true ∧
      ((submitting .subQuery none true (queue 9 1 running)
      [freeCount 3, added 2, freeCount 2]).answerAt (2 * k + 1)).mb < Params.reference.numMb) := by
  refine ⟨good_of_check (by decide +kernel), ⟨rfl, by decide +kernel⟩, by decide, by decide +kernel,
    ?_, ?_⟩
  · intro k hk
    match k with
    | 0 => rfl
    | 1 => rfl
    | n + 2 => omega
  · intro k hk
    match k with
    | 0 => exact ⟨rfl, by decide⟩
    | n + 1 => omega

/-- EveryCommandAnswersOnce. -/
theorem witness_command : (block running []).Good ∧ (block running []).fault = none ∧
    (block running []).nctx.phase = .idle ∧ eventPeriph (.start 0) = none :=
  ⟨good_running, rfl, rfl, rfl⟩

/-- HandlersTouchOnlyTheirState and OtherModulesUnchanged: an event that is handled. -/
theorem witness_handler : eventPeriph (.evtError 0) = some 0 ∧
    ∃ t, exec (.evtError 0) (block listening [answer true]) = .next t := ⟨rfl, _, rfl⟩

/-- CommandsReadOnlyTheirModule: two states that differ in the other slot. -/
theorem witness_isolation :
    handleOf (.getOccupancy 0) = some 0 ∧
    (block plain []).slot? 0 = ({ State.reset with modules := [plain, running] } : State).slot? 0 ∧
    (block plain []) ≠ ({ State.reset with modules := [plain, running] } : State) ∧
    ∃ t₁ t₂, exec (.getOccupancy 0) (block plain []) = .next t₁ ∧
      exec (.getOccupancy 0) ({ State.reset with modules := [plain, running] } : State) = .next t₂ :=
  ⟨rfl, rfl, by decide +kernel, _, _, rfl, rfl⟩

/-- NotificationsAreEnabled: a step that emits two records. -/
theorem witness_notes : (block listening [answer true]).Good ∧
    notes (step (presenting (.event 0x00000083) (block listening [{ answer true with code := 1 }])))
      = [.bus .busOff, .err .busOff 0] :=
  ⟨good_of_check (by decide +kernel), by decide +kernel⟩

end Sys2Proof.Tests
end

/-! Bits, circular indices and the occupied slots of a queue (10_state.md R37 to R39). -/

namespace Sys2Proof.Machine

/-! ## Bits of the priority bitmap -/

theorem getLsbD_one_shiftLeft (l k : Nat) : 
    (1#8 <<< l).getLsbD k = (decide (k < 8) && decide (k = l)) := by
  rw [BitVec.getLsbD_shiftLeft, BitVec.getLsbD_one]
  by_cases h : k < l
  · simp [h, Nat.ne_of_lt h]
  · simp only [h, decide_false, Bool.not_false, Bool.and_true, Nat.zero_lt_succ, decide_true,
      Bool.true_and]
    congr 1
    rw [decide_eq_decide]
    omega

/-- `bitmap[l] <- 1` sets bit `l` and no other (10_state.md R39). -/
theorem getLsbD_setBit (b : BitVec 8) {l : Nat} (hl : l < 8) (k : Nat) :
    (setBit b l).getLsbD k = (b.getLsbD k || decide (k = l)) := by
  rw [setBit, BitVec.getLsbD_or, getLsbD_one_shiftLeft]
  by_cases h : k = l <;> simp [h, hl]

/-- `bitmap[l] <- 0` clears bit `l` and no other (10_state.md R39). -/
theorem getLsbD_clearBit (b : BitVec 8) (l k : Nat) :
    (clearBit b l).getLsbD k = (b.getLsbD k && !decide (k = l)) := by
  rw [clearBit, BitVec.getLsbD_and, BitVec.getLsbD_not, getLsbD_one_shiftLeft]
  by_cases hk : k < 8
  · simp [hk]
  · simp [hk, BitVec.getLsbD_of_ge b k (by omega)]

/-- `ffs` finds a set bit with none set below it (00_scope.md R14). -/
theorem ffs_eq_some {b : BitVec 8} {l : Nat} :
    ffs b = some l ↔ l < 8 ∧ b.getLsbD l = true ∧ ∀ j < l, b.getLsbD j = false := by
  rw [ffs, List.find?_range_eq_some]
  simp [List.mem_range, and_left_comm]

/-- A bitmap fits in `n` bits when the bits from `n` on are 0 (10_state.md R39). -/
theorem toNat_lt_two_pow_iff {b : BitVec 8} {n : Nat} :
    b.toNat < 2 ^ n ↔ ∀ k, n ≤ k → b.getLsbD k = false := by
  constructor
  · intro h k hk
    exact Nat.testBit_lt_two_pow (h.trans_le (Nat.pow_le_pow_right (by decide) hk))
  · intro h
    exact Nat.lt_pow_two_of_testBit _ fun k hk => h k hk

/-! ## Circular indices -/

/-- Two offsets of a circular buffer that name one position are one offset. -/
theorem offset_inj {c hd a b : Nat} (ha : a < c) (hb : b < c) (h : (hd + a) % c = (hd + b) % c) :
    a = b := by
  have := Nat.ModEq.add_left_cancel' hd h
  rwa [Nat.ModEq, Nat.mod_eq_of_lt ha, Nat.mod_eq_of_lt hb] at this

/-- Writing at one offset of a circular buffer leaves what every other offset holds. -/
theorem getD_set_offset {xs : List Nat} {c hd a b x : Nat} (hl : xs.length = c) (ha : a < c)
    (hb : b < c) :
    (xs.set ((hd + a) % c) x).getD ((hd + b) % c) 0
      = if b = a then x else xs.getD ((hd + b) % c) 0 := by
  have hpos : (hd + b) % c < xs.length := hl ▸ Nat.mod_lt _ (by omega)
  by_cases h : b = a
  · subst h
    simp [List.getD, hpos]
  · have hne : (hd + a) % c ≠ (hd + b) % c := fun he => h (offset_inj ha hb he).symm
    simp [List.getD, List.getElem?_set_ne hne, h]

/-- What closing a gap does to a circular buffer: from offset `j` on, `n` elements come from one
offset later, and all others stay (40_priority_queue.md R166). -/
theorem closeGap_getD {c hd n j i : Nat} {xs : List Nat} (hl : xs.length = c) (hj : j + n < c)
    (hi : i < c) :
    (closeGap c hd n j xs).getD ((hd + i) % c) 0
      = if j ≤ i ∧ i < j + n then xs.getD ((hd + (i + 1)) % c) 0 else xs.getD ((hd + i) % c) 0 := by
  induction n generalizing j xs with
  | zero => simp [closeGap]
  | succ n ih =>
    rw [closeGap, ih (by simpa using hl) (by omega), getD_set_offset hl (by omega) hi]
    by_cases hin : j + 1 ≤ i ∧ i < j + 1 + n
    · rw [if_pos hin, if_pos (by omega), getD_set_offset hl (by omega) (by omega),
        if_neg (by omega)]
    · rw [if_neg hin]
      by_cases hij : i = j
      · subst hij
        rw [if_pos rfl, if_pos (by omega), Nat.add_assoc]
      · rw [if_neg hij, if_neg (by omega)]

/-! ## The occupied slots of one queue -/

@[simp] theorem PrioQueue.occupied_length (p : Params) (q : PrioQueue) :
    (q.occupied p).length = q.count := by
  simp [PrioQueue.occupied]

theorem PrioQueue.occupied_getElem {p : Params} {q : PrioQueue} {k : Nat}
    (h : k < (q.occupied p).length) :
    (q.occupied p)[k] = q.slot.getD ((q.head + k) % p.qcap) 0 := by
  simp [PrioQueue.occupied]

/-- A push writes the queue's tail, so its Entry comes last (40_priority_queue.md R163). -/
theorem occupied_push {p : Params} {q : PrioQueue} {e tl : Nat} (hl : q.slot.length = p.qcap)
    (ht : q.tail = (q.head + q.count) % p.qcap) (hc : q.count < p.qcap) :
    ({ q with
        slot := q.slot.set q.tail e
        tail := tl
        count := q.count + 1 } : PrioQueue).occupied p = q.occupied p ++ [e] := by
  refine List.ext_getElem (by simp) fun k hk _ => ?_
  simp only [PrioQueue.occupied_length] at hk
  rw [PrioQueue.occupied_getElem, ht, getD_set_offset hl hc (by omega), List.getElem_append]
  by_cases h : k = q.count
  · simp [h]
  · rw [if_neg h, dif_pos (by simp; omega), PrioQueue.occupied_getElem]

/-- A pop advances the queue's head past its oldest Entry (40_priority_queue.md R165). -/
theorem occupied_pop {p : Params} {q : PrioQueue} (hh : q.head < p.qcap) (hc : 0 < q.count) :
    q.occupied p = q.slot.getD q.head 0 ::
      ({ q with head := (q.head + 1) % p.qcap, count := q.count - 1 } : PrioQueue).occupied p := by
  refine List.ext_getElem (by simp; omega) fun k hk _ => ?_
  rw [PrioQueue.occupied_getElem]
  cases k with
  | zero => simp [Nat.mod_eq_of_lt hh]
  | succ k =>
    rw [List.getElem_cons_succ, PrioQueue.occupied_getElem, Nat.mod_add_mod, Nat.add_right_comm,
      Nat.add_assoc]

/-- Closing the gap at position `k` takes that Entry out of the queue and keeps the order of the
others (40_priority_queue.md R166). -/
theorem occupied_closeGap {p : Params} {q : PrioQueue} {k tl : Nat} (hl : q.slot.length = p.qcap)
    (hc : q.count ≤ p.qcap) (hk : k < q.count) :
    ({ q with
        slot := closeGap p.qcap q.head (q.count - 1 - k) k q.slot
        tail := tl
        count := q.count - 1 } : PrioQueue).occupied p = (q.occupied p).eraseIdx k := by
  refine List.ext_getElem (by simp [List.length_eraseIdx, hk]) fun i hi _ => ?_
  simp only [PrioQueue.occupied_length] at hi
  rw [PrioQueue.occupied_getElem, closeGap_getD hl (by omega) (by omega), List.getElem_eraseIdx]
  by_cases h : i < k
  · rw [if_neg (by omega), dif_pos h, PrioQueue.occupied_getElem]
  · rw [if_pos (by omega), dif_neg h, PrioQueue.occupied_getElem]

/-! ## The queues of a Module -/

/-- The queued Entries around level `l`: those of the levels below, its own, those of the levels
above. -/
theorem CanModule.queued_split {p : Params} {m : CanModule} {l : Nat} {q : PrioQueue}
    (h : m.pq[l]? = some q) :
    m.queued p = ((m.pq.take l).flatMap fun q => q.occupied p) ++ q.occupied p
      ++ ((m.pq.drop (l + 1)).flatMap fun q => q.occupied p) := by
  obtain ⟨hl, rfl⟩ := List.getElem?_eq_some_iff.mp h
  conv_lhs => rw [CanModule.queued, ← List.take_append_drop l m.pq, List.drop_eq_getElem_cons hl]
  rw [List.flatMap_append, List.flatMap_cons, List.append_assoc]

theorem CanModule.queued_set {p : Params} {m : CanModule} {l : Nat} {q q' : PrioQueue}
    {b : BitVec 8} (h : m.pq[l]? = some q) :
    ({ m with pq := m.pq.set l q', bitmap := b } : CanModule).queued p
      = ((m.pq.take l).flatMap fun q => q.occupied p) ++ q'.occupied p
        ++ ((m.pq.drop (l + 1)).flatMap fun q => q.occupied p) := by
  obtain ⟨hl, -⟩ := List.getElem?_eq_some_iff.mp h
  rw [CanModule.queued_split (l := l) (q := q') (by simp [hl])]
  simp [List.take_set_of_le, List.drop_set_of_lt]

/-- An Entry is queued when some level's occupied slots name it. -/
theorem CanModule.mem_queued {p : Params} {m : CanModule} {e : Nat} :
    e ∈ m.queued p ↔ ∃ (l : Nat) (q : PrioQueue), m.pq[l]? = some q ∧ e ∈ q.occupied p := by
  rw [CanModule.queued, List.mem_flatMap]
  constructor
  · rintro ⟨q, hq, he⟩
    obtain ⟨l, hl⟩ := List.mem_iff_getElem?.mp hq
    exact ⟨l, q, hl, he⟩
  · rintro ⟨l, q, hl, he⟩
    exact ⟨q, List.mem_of_getElem? hl, he⟩

end Sys2Proof.Machine

/-! A Module in order, as plain facts, and the model's checks on a slot as these facts (10_state.md). -/

namespace Sys2Proof.Machine

variable {p : Params} {m m' : CanModule} {out : List Nat}

/-! ## A Module in order, as plain facts -/

/-- A queue in order: its slots, its cursors and the clauses (a) and (b) of 10_state.md R40. -/
structure PrioQueue.Sound (p : Params) (q : PrioQueue) : Prop where
  length : q.slot.length = p.qcap
  head   : q.head < p.qcap
  fits   : ∀ e ∈ q.slot, e < 2 ^ p.entryBits
  count  : q.count ≤ p.qcap
  tail   : q.tail = (q.head + q.count) % p.qcap

theorem PrioQueue.Sound.tail_lt {q : PrioQueue} (h : q.Sound p) : q.tail < p.qcap :=
  h.tail ▸ Nat.mod_lt _ p.qcap_pos

/-- The queues and the pool in order (10_state.md R34 to R41), with the Entries `out` taken out of
the queues and not yet released: the normal context's held Entry and, inside a step, the ones the
step itself has taken. -/
structure QueuesSound (p : Params) (out : List Nat) (m : CanModule) : Prop where
  poolLen : m.pool.length = p.poolCap
  pqLen   : m.pq.length = p.numPrio
  queue   : ∀ (l : Nat) (q : PrioQueue), m.pq[l]? = some q → q.Sound p
  bit     : ∀ (l : Nat) (q : PrioQueue), m.pq[l]? = some q →
    m.bitmap.getLsbD l = decide (0 < q.count)
  bits    : ∀ k, p.numPrio ≤ k → m.bitmap.getLsbD k = false
  prio    : ∀ (l : Nat) (q : PrioQueue), m.pq[l]? = some q → ∀ e ∈ q.occupied p,
    ∃ en, liveEntry? p m e = some en ∧ en.prio.toNat = l
  used    : m.used = inUseCount m.pool
  nodup   : (m.queued p ++ out).Nodup
  live    : ∀ e, (liveEntry? p m e).isSome = true ↔ e ∈ m.queued p ++ out
  legal   : ∀ en ∈ m.pool, en.msg.legal = true

/-- The RX ring in order (10_state.md R42 to R45). -/
structure RingSound (p : Params) (r : RxRing) : Prop where
  length    : r.slot.length = p.rxDepth
  widx      : r.widx < 2 * p.rxDepth
  ridx      : r.ridx < 2 * p.rxDepth
  occupancy : r.occupancy p ≤ p.rxDepth
  legal     : ∀ msg ∈ r.slot, msg.legal = true

/-- A Module slot in order, with the Entries `out` taken out of its queues and not yet released. -/
structure CanModule.Sound (p : Params) (out : List Nat) (m : CanModule) : Prop where
  queues    : QueuesSound p out m
  ring      : RingSound p m.rx
  mbLen     : m.mb.length = p.numMb
  fltLen    : m.flt.length = p.maxFilters
  fltCount  : m.fltCount ≤ p.maxFilters
  fltLegal  : ∀ f ∈ m.flt, f.legal = true
  stat      : p.statsEn = true ∨ m.stat = ⟨0, 0, 0⟩
  lifecycle : m.lifecycleOk p = true

/-! ## The model's checks are these facts -/

theorem levelOk_iff {l : Nat} {q : PrioQueue} :
    levelOk p m l q = true ↔ q.count ≤ p.qcap ∧ q.tail = (q.head + q.count) % p.qcap ∧
      m.bitmap.getLsbD l = decide (0 < q.count) ∧
      ∀ e ∈ q.occupied p, ∃ en, liveEntry? p m e = some en ∧ en.prio.toNat = l := by
  have howned : ∀ e, ownedByLevel p m l e = true ↔
      ∃ en, liveEntry? p m e = some en ∧ en.prio.toNat = l := by
    intro e
    unfold ownedByLevel
    cases liveEntry? p m e <;> simp
  simp only [levelOk, Bool.and_eq_true, decide_eq_true_eq, beq_iff_eq, List.all_eq_true, howned,
    and_assoc]

theorem queuesOk_iff (hl : m.pq.length = p.numPrio) :
    queuesOk p m = true ↔
      (∀ (l : Nat) (q : PrioQueue), m.pq[l]? = some q → levelOk p m l q = true) ∧
      (m.queued p).Nodup ∧ m.used = inUseCount m.pool := by
  simp only [queuesOk, Bool.and_eq_true, List.all_eq_true, List.mem_range, decide_eq_true_eq,
    beq_iff_eq, and_assoc]
  refine and_congr_left fun _ => ⟨fun h l q hq => ?_, fun h l hlt => ?_⟩
  · have hlt : l < p.numPrio := hl ▸ (List.getElem?_eq_some_iff.mp hq).1
    simpa [readAt_of_lt hlt, hq] using h l hlt
  · have hq := List.getElem?_eq_getElem (hl ▸ hlt : l < m.pq.length)
    simpa [readAt_of_lt hlt, hq] using h l _ hq

/-- The Entry ownership invariant over queues without a repeated or a dead Entry (10_state.md R41):
the Entries in use are those queued and the one held, and no Entry is both. -/
theorem ownershipOk_iff {held : Option Nat} (hn : (m.queued p).Nodup)
    (hlive : ∀ e ∈ m.queued p, (liveEntry? p m e).isSome = true) :
    ownershipOk p held m = true ↔ (m.queued p ++ held.toList).Nodup ∧
      ∀ e, (liveEntry? p m e).isSome = true ↔ e ∈ m.queued p ++ held.toList := by
  have hlt : ∀ e, (liveEntry? p m e).isSome = true → e < p.poolCap := fun e he => by
    obtain ⟨en, hen⟩ := Option.isSome_iff_exists.mp he
    exact (liveEntry?_eq_some.mp hen).1
  have hmem : ∀ e, e ∈ m.queued p ++ held.toList ↔
      ((m.queued p).count e == 1 || held == some e) = true := fun e => by
    simp [hn.count, Option.mem_toList]
  have hnodup : (m.queued p ++ held.toList).Nodup ↔ ∀ e ∈ held, e ∉ m.queued p := by
    rw [List.nodup_append_comm]
    cases held <;> simp [hn]
  have hlive' : ∀ e, (liveEntry? p m e).isSome
      = ((m.queued p).count e == 1 || held == some e) ↔
      ((liveEntry? p m e).isSome = true ↔ e ∈ m.queued p ++ held.toList) := fun e => by
    rw [hmem, Bool.eq_iff_iff]
  have hown : ownershipOk p held m = true ↔
      (∀ e < p.poolCap, ((liveEntry? p m e).isSome = true ↔ e ∈ m.queued p ++ held.toList)) ∧
      ∀ e ∈ held, e < p.poolCap ∧ e ∉ m.queued p := by
    simp only [ownershipOk, Bool.and_eq_true, List.all_eq_true, List.mem_range, beq_iff_eq, hlive']
    refine and_congr_right fun _ => ?_
    cases held <;> simp
  rw [hown, hnodup]
  constructor
  · rintro ⟨h, hh⟩
    refine ⟨fun e he => (hh e he).2, fun e => ⟨fun he => (h e (hlt e he)).mp he, fun he => ?_⟩⟩
    rcases List.mem_append.mp he with hq | ho
    · exact hlive e hq
    · exact (h e (hh e (Option.mem_toList.mp ho)).1).mpr he
  · rintro ⟨hh, h⟩
    exact ⟨fun e _ => h e, fun e he => ⟨hlt e ((h e).mpr (List.mem_append_right _
      (Option.mem_toList.mpr he))), hh e he⟩⟩

theorem inUseCount_le (pool : List Entry) : inUseCount pool ≤ pool.length :=
  List.length_filter_le _ _

/-- The checks on the queues and the pool of a slot, together, are `QueuesSound`. -/
theorem queuesSound_iff {held : Option Nat} :
    QueuesSound p held.toList m ↔
      (m.pool.length = p.poolCap ∧ m.pq.length = p.numPrio ∧ (∀ q ∈ m.pq, q.slot.length = p.qcap)) ∧
      (∀ q ∈ m.pq, q.head < p.qcap ∧ q.tail < p.qcap ∧ ∀ e ∈ q.slot, e < 2 ^ p.entryBits) ∧
      m.used ≤ p.poolCap ∧ m.bitmap.toNat < 2 ^ p.numPrio ∧ (∀ en ∈ m.pool, en.msg.legal = true) ∧
      queuesOk p m = true ∧ ownershipOk p held m = true := by
  constructor
  · intro h
    have hq : ∀ q ∈ m.pq, q.Sound p := fun q hq => by
      obtain ⟨l, hl⟩ := List.mem_iff_getElem?.mp hq
      exact h.queue l q hl
    have hn : (m.queued p).Nodup := h.nodup.of_append_left
    refine ⟨⟨h.poolLen, h.pqLen, fun q hm => (hq q hm).length⟩,
      fun q hm => ⟨(hq q hm).head, (hq q hm).tail_lt, (hq q hm).fits⟩,
      h.used ▸ h.poolLen ▸ inUseCount_le _, toNat_lt_two_pow_iff.mpr h.bits, h.legal,
      (queuesOk_iff h.pqLen).mpr ⟨fun l q hl => levelOk_iff.mpr ⟨(h.queue l q hl).count,
        (h.queue l q hl).tail, h.bit l q hl, h.prio l q hl⟩, hn, h.used⟩,
      (ownershipOk_iff hn fun e he => (h.live e).mpr (List.mem_append_left _ he)).mpr
        ⟨h.nodup, h.live⟩⟩
  · rintro ⟨⟨hpool, hpq, hlen⟩, hcur, -, hbits, hlegal, hqs, hown⟩
    obtain ⟨hlev, hn, hused⟩ := (queuesOk_iff hpq).mp hqs
    have hprio : ∀ (l : Nat) (q : PrioQueue), m.pq[l]? = some q → ∀ e ∈ q.occupied p,
        ∃ en, liveEntry? p m e = some en ∧ en.prio.toNat = l := fun l q hl =>
      (levelOk_iff.mp (hlev l q hl)).2.2.2
    have hqlive : ∀ e ∈ m.queued p, (liveEntry? p m e).isSome = true := fun e he => by
      obtain ⟨l, q, hl, hq⟩ := CanModule.mem_queued.mp he
      obtain ⟨en, hen, -⟩ := hprio l q hl e hq
      simp [hen]
    obtain ⟨hnd, hlive⟩ := (ownershipOk_iff hn hqlive).mp hown
    refine ⟨hpool, hpq, fun l q hl => ?_, fun l q hl => (levelOk_iff.mp (hlev l q hl)).2.2.1,
      toNat_lt_two_pow_iff.mp hbits, hprio, hused, hnd, hlive, hlegal⟩
    have hm := List.mem_of_getElem? hl
    obtain ⟨hcount, htail, -, -⟩ := levelOk_iff.mp (hlev l q hl)
    obtain ⟨hhead, -, hfits⟩ := hcur q hm
    exact ⟨hlen q hm, hhead, hfits, hcount, htail⟩

/-- An unallocated slot is the zero slot (10_state.md R53). -/
theorem CanModule.lifecycleOk_iff :
    m.lifecycleOk p = true ↔
      (m.allocated = true ∧ m.cfg.periph.toNat < p.nInst) ∨
        (m.allocated = false ∧ m = CanModule.zero p) := by
  unfold CanModule.lifecycleOk
  cases m.allocated <;> simp

/-! ## The zero slot -/

theorem PrioQueue.zero_sound (p : Params) :
    PrioQueue.Sound p ⟨List.replicate p.qcap 0, 0, 0, 0⟩ where
  length := by simp
  head := p.qcap_pos
  fits := fun e he => by
    rw [List.eq_of_mem_replicate he]
    exact Nat.two_pow_pos _
  count := Nat.zero_le _
  tail := by simp

theorem CanModule.zero_queued (p : Params) : (CanModule.zero p).queued p = [] := by
  simp [CanModule.queued, CanModule.zero, PrioQueue.occupied]

theorem CanModule.zero_liveEntry? (p : Params) (e : Nat) :
    liveEntry? p (CanModule.zero p) e = none := by
  rw [← Option.not_isSome_iff_eq_none, Option.isSome_iff_exists]
  rintro ⟨en, h⟩
  obtain ⟨-, hget, huse⟩ := liveEntry?_eq_some.mp h
  rw [List.eq_of_mem_replicate (List.mem_of_getElem? hget)] at huse
  cases huse

theorem CanModule.zero_queue {l : Nat} {q : PrioQueue} (h : (CanModule.zero p).pq[l]? = some q) :
    q = ⟨List.replicate p.qcap 0, 0, 0, 0⟩ :=
  List.eq_of_mem_replicate (List.mem_of_getElem? h)

theorem CanModule.zero_queuesSound (p : Params) : QueuesSound p [] (CanModule.zero p) where
  poolLen := by simp [CanModule.zero]
  pqLen := by simp [CanModule.zero]
  queue := fun l q h => CanModule.zero_queue h ▸ PrioQueue.zero_sound p
  bit := fun l q h => by rw [CanModule.zero_queue h]; simp [CanModule.zero]
  bits := fun k _ => by simp [CanModule.zero]
  prio := fun l q h e he => by
    rw [CanModule.zero_queue h] at he
    simp [PrioQueue.occupied] at he
  used := by simp [CanModule.zero, inUseCount, Entry.zero]
  nodup := by simp [CanModule.zero_queued]
  live := by simp [CanModule.zero_queued, CanModule.zero_liveEntry?]
  legal := fun en h => by
    rw [List.eq_of_mem_replicate h]
    rfl

theorem CanModule.zero_ringSound (p : Params) : RingSound p (CanModule.zero p).rx where
  length := by simp [CanModule.zero]
  widx := Nat.mul_pos two_pos p.rxDepth_pos
  ridx := Nat.mul_pos two_pos p.rxDepth_pos
  occupancy := by simp [CanModule.zero, RxRing.occupancy]
  legal := fun msg h => by
    rw [List.eq_of_mem_replicate h]
    rfl

/-- The zero slot is in order (10_state.md R53). -/
theorem CanModule.zero_sound (p : Params) : (CanModule.zero p).Sound p [] where
  queues := CanModule.zero_queuesSound p
  ring := CanModule.zero_ringSound p
  mbLen := by simp [CanModule.zero]
  fltLen := by simp [CanModule.zero]
  fltCount := Nat.zero_le _
  fltLegal := fun f h => by
    rw [List.eq_of_mem_replicate h]
    rfl
  stat := .inr rfl
  lifecycle := CanModule.lifecycleOk_iff.mpr (.inr ⟨rfl, rfl⟩)

/-- A newly claimed slot on an existing peripheral is in order (43_module.md R260, R261). -/
theorem claimedModule_sound {cfg : ModuleCfg} (h : cfg.periph.toNat < p.nInst) :
    (claimedModule p cfg).Sound p [] :=
  let z := CanModule.zero_sound p
  { queues := ⟨z.queues.poolLen, z.queues.pqLen, z.queues.queue, z.queues.bit, z.queues.bits,
      z.queues.prio, z.queues.used, z.queues.nodup, z.queues.live, z.queues.legal⟩
    ring := z.ring
    mbLen := z.mbLen
    fltLen := z.fltLen
    fltCount := z.fltCount
    fltLegal := z.fltLegal
    stat := z.stat
    lifecycle := CanModule.lifecycleOk_iff.mpr (.inl ⟨rfl, h⟩) }

/-- The model's checks on one slot, together, are `CanModule.Sound`. -/
theorem CanModule.sound_iff {n : Nctx} {i : Nat} :
    m.Sound p (heldOf n i).toList ↔ m.ok p = true ∧ slotOk p n i m = true := by
  rw [slotOk_iff]
  simp only [CanModule.ok, CanModule.rangesOk, CanModule.contentsOk, Bool.and_eq_true,
    Bool.or_eq_true, CanModule.shapeOk_iff, decide_eq_true_eq, List.all_eq_true, beq_iff_eq,
    entryFits, ringOk]
  constructor
  · intro h
    obtain ⟨⟨hpool, hpq, hlen⟩, hcur, hused, hbits, hlegal, hqs, hown⟩ :=
      queuesSound_iff.mp h.queues
    exact ⟨⟨⟨⟨⟨hpool, hpq, hlen, h.ring.length, h.mbLen, h.fltLen⟩,
      ⟨⟨⟨⟨⟨⟨hused, fun q hq => ⟨⟨(hcur q hq).1, (hcur q hq).2.1⟩, (hcur q hq).2.2⟩⟩, hbits⟩,
        h.ring.widx⟩, h.ring.ridx⟩, h.fltCount⟩, h.stat⟩⟩,
      ⟨⟨hlegal, h.ring.legal⟩, h.fltLegal⟩⟩, h.lifecycle⟩,
      fun _ => hqs, hown, h.ring.occupancy⟩
  · rintro ⟨⟨⟨⟨⟨hpool, hpq, hlen, hslot, hmb, hflt⟩,
      ⟨⟨⟨⟨⟨⟨hused, hcur⟩, hbits⟩, hw⟩, hr⟩, hfc⟩, hstat⟩⟩,
      ⟨⟨hlegal, hrx⟩, hfl⟩⟩, hlife⟩, hqs, hown, hring⟩
    have hqs' : queuesOk p m = true := by
      rcases CanModule.lifecycleOk_iff.mp hlife with ⟨ha, -⟩ | ⟨-, rfl⟩
      · exact hqs ha
      · exact (queuesSound_iff (held := none)).mp (CanModule.zero_queuesSound p) |>.2.2.2.2.2.1
    exact ⟨queuesSound_iff.mpr ⟨⟨hpool, hpq, hlen⟩, fun q hq => ⟨(hcur q hq).1.1, (hcur q hq).1.2,
      (hcur q hq).2⟩, hused, hbits, hlegal, hqs', hown⟩, ⟨hslot, hw, hr, hring, hrx⟩, hmb, hflt,
      hfc, hfl, hstat, hlife⟩

end Sys2Proof.Machine

/-! Every primitive of the pool and the queues completes on a Module in order and keeps it in order
(40_priority_queue.md R160 to R166). -/

namespace Sys2Proof.Machine

variable {p : Params} {m m' : CanModule} {out out' : List Nat}

/-! ## Frames of the queue primitives -/

/-- Nothing of a Module but its pool, its count, its queues and its bitmap differs. -/
def OnlyQueues (m m' : CanModule) : Prop :=
  { m' with pool := m.pool, used := m.used, pq := m.pq, bitmap := m.bitmap } = m

theorem OnlyQueues.trans {m₁ m₂ m₃ : CanModule} (h : OnlyQueues m₁ m₂) (h' : OnlyQueues m₂ m₃) :
    OnlyQueues m₁ m₃ := by
  have h'' := congrArg (fun m : CanModule => { m with
    pool := m₁.pool, used := m₁.used, pq := m₁.pq, bitmap := m₁.bitmap }) h'
  exact h''.trans h

/-! ## Writing one Entry of the pool -/

theorem inUseCount_set {pool : List Entry} {e : Nat} {en en' : Entry} (h : pool[e]? = some en) :
    inUseCount (pool.set e en') + en.inUse.toNat = inUseCount pool + en'.inUse.toNat := by
  obtain ⟨hl, rfl⟩ := List.getElem?_eq_some_iff.mp h
  have hle := List.boole_getElem_le_countP (p := fun en : Entry => en.inUse) hl
  simp only [inUseCount, ← List.countP_eq_length_filter, List.countP_set hl]
  simp only [Bool.toNat, Bool.cond_eq_ite]
  omega

theorem liveEntry?_set_ne {e x u : Nat} {en : Entry} (h : x ≠ e) :
    liveEntry? p { m with pool := m.pool.set e en, used := u } x = liveEntry? p m x := by
  simp [liveEntry?, readAt, List.getElem?_set_ne (Ne.symm h)]

theorem liveEntry?_set_self {e u : Nat} {en : Entry} (hl : m.pool.length = p.poolCap)
    (he : e < m.pool.length) :
    (liveEntry? p { m with pool := m.pool.set e en, used := u } e).isSome = en.inUse := by
  have hp : e < p.poolCap := hl ▸ he
  cases h : en.inUse <;> simp [liveEntry?, readAt, hp, he, h]

theorem QueuesSound.isSome_of_mem (h : QueuesSound p out m) {e : Nat} (he : e ∈ m.queued p ++ out) :
    ∃ en, liveEntry? p m e = some en :=
  Option.isSome_iff_exists.mp ((h.live e).mpr he)

theorem QueuesSound.notMem_of_free (h : QueuesSound p out m) {e : Nat} {en : Entry}
    (hget : m.pool[e]? = some en) (hfree : en.inUse = false) : e ∉ m.queued p ++ out := fun he => by
  obtain ⟨en', hen⟩ := h.isSome_of_mem he
  obtain ⟨-, hget', huse⟩ := liveEntry?_eq_some.mp hen
  rw [hget, Option.some.injEq] at hget'
  rw [← hget', hfree] at huse
  cases huse

/-- Writing an Entry that no queue names keeps the queues in order, when the Entries out of the
queues follow its in-use flag and the count does too. -/
theorem QueuesSound.setEntry {e u : Nat} {en en' : Entry} (h : QueuesSound p out m)
    (hget : m.pool[e]? = some en) (hq : e ∉ m.queued p) (hlegal : en'.msg.legal = true)
    (hu : u + en.inUse.toNat = m.used + en'.inUse.toNat) (he : e ∈ out' ↔ en'.inUse = true)
    (hout : ∀ x ≠ e, x ∈ out' ↔ x ∈ out) (hn : out'.Nodup) :
    QueuesSound p out' { m with pool := m.pool.set e en', used := u } := by
  have hlt := (List.getElem?_eq_some_iff.mp hget).1
  have hqne : ∀ x ∈ m.queued p, x ≠ e := fun x hx hxe => hq (hxe ▸ hx)
  obtain ⟨hnq, -, hdisj⟩ := List.nodup_append.mp h.nodup
  refine ⟨by simpa using h.poolLen, h.pqLen, h.queue, h.bit, h.bits, fun l q hl x hx => ?_, ?_, ?_,
    fun x => ?_, fun x hx => ?_⟩
  · rw [liveEntry?_set_ne (hqne x (CanModule.mem_queued.mpr ⟨l, q, hl, hx⟩))]
    exact h.prio l q hl x hx
  · have hcount := inUseCount_set (en' := en') hget
    have hused := h.used
    simp only
    omega
  · refine List.nodup_append.mpr ⟨hnq, hn, fun x hx y hy hxy => ?_⟩
    subst hxy
    exact hdisj x hx x ((hout x (hqne x hx)).mp hy) rfl
  · change _ ↔ x ∈ m.queued p ++ out'
    by_cases hx : x = e
    · subst hx
      rw [liveEntry?_set_self h.poolLen hlt, List.mem_append, he]
      simp [hq]
    · rw [liveEntry?_set_ne hx, h.live x, List.mem_append, List.mem_append, hout x hx]
  · rcases List.mem_or_eq_of_mem_set hx with hx | rfl
    · exact h.legal x hx
    · exact hlegal

/-- `free_entry` of an Entry out of the queues (40_priority_queue.md R162). -/
theorem freeEntry_sound {e : Nat} (h : QueuesSound p (e :: out) m) :
    ∃ m', freeEntry p e m = .ok () m' ∧ QueuesSound p out m' ∧ OnlyQueues m m' := by
  obtain ⟨en, hen⟩ := h.isSome_of_mem (e := e) (by simp)
  obtain ⟨-, hget, huse⟩ := liveEntry?_eq_some.mp hen
  obtain ⟨-, hn, hdisj⟩ := List.nodup_append.mp h.nodup
  obtain ⟨heout, hnout⟩ := List.nodup_cons.mp hn
  have hused : 0 < m.used := by
    have := inUseCount_set (en' := { en with inUse := false }) hget
    rw [← h.used, huse] at this
    simp only [Bool.toNat_true, Bool.toNat_false] at this
    omega
  refine ⟨_, freeEntry_eq_ok.mpr ⟨en, hen, rfl⟩, h.setEntry hget ?_ ?_ ?_ ?_ ?_ hnout, rfl⟩
  · exact fun hq => hdisj e hq e (by simp) rfl
  · exact h.legal en (List.mem_of_getElem? hget)
  · simp only [huse, Bool.toNat_true, Bool.toNat_false]
    omega
  · simpa using heout
  · intro x hx
    simp [hx]

/-- `alloc_entry`, filled: the Entry taken is in use and out of the queues, and holds what was
copied (40_priority_queue.md R161, R164). -/
theorem allocEntry_fillEntry_sound {e : Nat} {m₁ : CanModule} {msg : Message} {t : Word}
    {l : BitVec 3} (h : QueuesSound p out m) (ha : allocEntry p m = some (e, m₁))
    (hmsg : msg.legal = true) :
    QueuesSound p (e :: out) (fillEntry e msg t l m₁) ∧ OnlyQueues m (fillEntry e msg t l m₁) ∧
      liveEntry? p (fillEntry e msg t l m₁) e = some ⟨true, msg, t, l⟩ := by
  obtain ⟨hlt, ⟨en, hget, hfree⟩, -, rfl⟩ := allocEntry_eq_some ha
  have hfill : fillEntry e msg t l { m with
      pool := m.pool.modify e fun en => { en with inUse := true }, used := m.used + 1 }
      = { m with pool := m.pool.set e ⟨true, msg, t, l⟩, used := m.used + 1 } := by
    have hl := (List.getElem?_eq_some_iff.mp hget).1
    simp [fillEntry, List.modify_eq_set_getElem?, hl]
  have hnot := h.notMem_of_free hget hfree
  rw [List.mem_append, not_or] at hnot
  rw [hfill]
  refine ⟨h.setEntry hget hnot.1 hmsg ?_ ?_ ?_ ?_, rfl, ?_⟩
  · simp [hfree]
  · simp
  · intro x hx
    simp [hx]
  · exact List.nodup_cons.mpr ⟨hnot.2, (List.nodup_append.mp h.nodup).2.1⟩
  · have hl := (List.getElem?_eq_some_iff.mp hget).1
    exact liveEntry?_eq_some.mpr ⟨hlt, by simp [hl], rfl⟩

/-! ## Writing one queue -/

/-- Writing one queue keeps the queues in order, when its Entries and those out of the queues are,
in all, the same as before, and the bitmap follows its count. -/
theorem QueuesSound.setQueue {l : Nat} {q q' : PrioQueue} {b : BitVec 8} (h : QueuesSound p out m)
    (hq : m.pq[l]? = some q) (hs : q'.Sound p)
    (hperm : (q'.occupied p ++ out').Perm (q.occupied p ++ out))
    (hprio : ∀ e ∈ q'.occupied p, ∃ en, liveEntry? p m e = some en ∧ en.prio.toNat = l)
    (hbit : b.getLsbD l = decide (0 < q'.count))
    (hbits : ∀ k ≠ l, b.getLsbD k = m.bitmap.getLsbD k) :
    QueuesSound p out' { m with pq := m.pq.set l q', bitmap := b } := by
  have hlt := (List.getElem?_eq_some_iff.mp hq).1
  have hset : ∀ (k : Nat) (x : PrioQueue), (m.pq.set l q')[k]? = some x →
      (k = l ∧ x = q') ∨ (k ≠ l ∧ m.pq[k]? = some x) := fun k x hx => by
    by_cases hk : k = l
    · subst hk
      rw [List.getElem?_set_self hlt, Option.some.injEq] at hx
      exact .inl ⟨rfl, hx.symm⟩
    · rw [List.getElem?_set_ne (Ne.symm hk)] at hx
      exact .inr ⟨hk, hx⟩
  have hall : (({ m with pq := m.pq.set l q', bitmap := b } : CanModule).queued p ++ out').Perm
      (m.queued p ++ out) := by
    rw [CanModule.queued_set hq, CanModule.queued_split hq, List.perm_iff_count]
    intro x
    have := hperm.count_eq x
    simp only [List.count_append] at this ⊢
    omega
  refine ⟨h.poolLen, by simpa using h.pqLen, fun k x hx => ?_, fun k x hx => ?_, fun k hk => ?_,
    fun k x hx => ?_, h.used, hall.nodup_iff.mpr h.nodup, fun e => ?_, h.legal⟩
  · rcases hset k x hx with ⟨-, rfl⟩ | ⟨-, hx⟩
    · exact hs
    · exact h.queue k x hx
  · rcases hset k x hx with ⟨rfl, rfl⟩ | ⟨hk, hx⟩
    · exact hbit
    · exact (hbits k hk).trans (h.bit k x hx)
  · have hkl : k ≠ l := by have := h.pqLen; omega
    exact (hbits k hkl).trans (h.bits k hk)
  · rcases hset k x hx with ⟨rfl, rfl⟩ | ⟨-, hx⟩
    · exact hprio
    · exact h.prio k x hx
  · exact (h.live e).trans hall.mem_iff.symm

theorem QueuesSound.level_lt (h : QueuesSound p out m) {l : Nat} {q : PrioQueue}
    (hq : m.pq[l]? = some q) : l < p.numPrio :=
  h.pqLen ▸ (List.getElem?_eq_some_iff.mp hq).1

theorem QueuesSound.exists_level (h : QueuesSound p out m) {l : Nat} (hl : l < p.numPrio) :
    ∃ q, m.pq[l]? = some q :=
  ⟨_, List.getElem?_eq_getElem (h.pqLen ▸ hl)⟩

/-- `pq_push` of an Entry out of the queues, at its own level, into a queue that is not full
(40_priority_queue.md R163). -/
theorem pqPush_sound {l e : Nat} {q : PrioQueue} {en : Entry} (h : QueuesSound p (e :: out) m)
    (hq : m.pq[l]? = some q) (hc : q.count ≠ p.qcap) (hen : liveEntry? p m e = some en)
    (hl : en.prio.toNat = l) :
    ∃ m', pqPush p l e m = .ok () m' ∧ QueuesSound p out m' ∧ OnlyQueues m m' := by
  have hs := h.queue l q hq
  have hlt : q.count < p.qcap := lt_of_le_of_ne hs.count hc
  have hl8 : l < 8 := (h.level_lt hq).trans_le p.numPrio_le
  have hocc := occupied_push (e := e) (tl := (q.tail + 1) % p.qcap) hs.length hs.tail hlt
  refine ⟨_, pqPush_eq_ok.mpr ⟨q, h.level_lt hq, hq, hs.tail_lt, rfl⟩,
    h.setQueue hq ⟨?_, hs.head, ?_, hlt, ?_⟩ ?_ ?_ ?_ ?_, rfl⟩
  · simpa using hs.length
  · intro x hx
    rcases List.mem_or_eq_of_mem_set hx with hx | rfl
    · exact hs.fits x hx
    · exact (liveEntry?_eq_some.mp hen).1.trans_le p.poolCap_le_entryBits
  · simp [hs.tail, Nat.add_assoc]
  · rw [hocc, List.append_assoc]
    rfl
  · intro x hx
    rw [hocc, List.mem_append, List.mem_singleton] at hx
    rcases hx with hx | rfl
    · exact h.prio l q hq x hx
    · exact ⟨en, hen, hl⟩
  · simp [getLsbD_setBit _ hl8]
  · intro k hk
    simp [getLsbD_setBit _ hl8, hk]

/-- The bitmap after one Entry has left a queue of `n` (40_priority_queue.md R165, R166). -/
theorem getLsbD_shrunk {b : BitVec 8} {l n : Nat} (hn : 0 < n) (hb : b.getLsbD l = decide (0 < n)) :
    (if n - 1 = 0 then clearBit b l else b).getLsbD l = decide (0 < n - 1) ∧
    ∀ k ≠ l, (if n - 1 = 0 then clearBit b l else b).getLsbD k = b.getLsbD k := by
  by_cases h : n - 1 = 0
  · simp only [if_pos h, getLsbD_clearBit]
    simp only [h, decide_true, Bool.not_true, Bool.and_false, lt_irrefl, decide_false, true_and]
    intro k hk
    simp [hk]
  · simp only [if_neg h, implies_true, and_true]
    rw [hb, decide_eq_decide]
    omega

/-- A set bit names a queue that is not empty (10_state.md R39, R40 (c)). -/
theorem QueuesSound.level_of_ffs (h : QueuesSound p out m) {l : Nat} (hf : ffs m.bitmap = some l) :
    ∃ q, m.pq[l]? = some q ∧ 0 < q.count := by
  have hbit := (ffs_eq_some.mp hf).2.1
  have hl : l < p.numPrio := by
    by_contra hl
    rw [h.bits l (by omega)] at hbit
    cases hbit
  obtain ⟨q, hq⟩ := h.exists_level hl
  rw [h.bit l q hq, decide_eq_true_eq] at hbit
  exact ⟨q, hq, hbit⟩

/-- `dequeue_highest`: it answers NONE, or an Entry that is now out of the queues
(40_priority_queue.md R165). -/
theorem dequeueHighest_sound (h : QueuesSound p out m) :
    ∃ o m', dequeueHighest p m = .ok o m' ∧ QueuesSound p (o.toList ++ out) m' ∧
      OnlyQueues m m' := by
  cases hf : ffs m.bitmap with
  | none => exact ⟨none, m, by simp [dequeueHighest, hf], h, rfl⟩
  | some l =>
    obtain ⟨q, hq, hc⟩ := h.level_of_ffs hf
    have hs := h.queue l q hq
    have hhead : q.slot[q.head]? = some (q.slot.getD q.head 0) := by
      simp [List.getD, hs.length, hs.head]
    have hocc := occupied_pop hs.head hc
    obtain ⟨en, hen⟩ := h.isSome_of_mem (e := q.slot.getD q.head 0)
      (List.mem_append_left _ (CanModule.mem_queued.mpr ⟨l, q, hq, by rw [hocc]; simp⟩))
    obtain ⟨hbit, hbits⟩ := getLsbD_shrunk hc (h.bit l q hq)
    refine ⟨some (q.slot.getD q.head 0), popLevel p l q m, ?_, h.setQueue hq
      ⟨hs.length, Nat.mod_lt _ p.qcap_pos, hs.fits, (Nat.sub_le _ _).trans hs.count, ?_⟩ ?_ ?_ hbit
      hbits, rfl⟩
    · have hen' : liveEntry? p (popLevel p l q m) (q.slot.getD q.head 0) = some en := hen
      simp only [dequeueHighest, hf, readAt_of_lt (h.level_lt hq), hq, readAt_of_lt hs.head, hhead,
        hen']
    · rw [Nat.mod_add_mod, hs.tail, Nat.add_assoc, Nat.add_sub_cancel' hc]
    · rw [hocc, Option.toList_some, List.singleton_append]
      exact List.perm_middle
    · intro x hx
      exact h.prio l q hq x (by rw [hocc]; exact List.mem_cons_of_mem _ hx)

/-! ## The scan of the queues -/

/-- Position `k` of a queue holds its `k`-th occupied Entry. -/
theorem PrioQueue.Sound.readAt_slot {q : PrioQueue} (h : q.Sound p) {k : Nat} (hk : k < q.count) :
    readAt q.slot p.qcap ((q.head + k) % p.qcap) = (q.occupied p)[k]? := by
  have hlt := Nat.mod_lt (q.head + k) p.qcap_pos
  have hk' : k < (q.occupied p).length := by simpa using hk
  rw [readAt_of_lt hlt, List.getElem?_eq_getElem hk', PrioQueue.occupied_getElem]
  simp [List.getD, h.length, hlt]

/-- The scan of one level finds nothing, or a position of its queue (40_priority_queue.md R166). -/
theorem scanQueue_cases {t : Word} {l : Nat} {q : PrioQueue} (h : QueuesSound p out m)
    (hq : m.pq[l]? = some q) {n k : Nat} (hn : k + n = q.count) :
    scanQueue p m t l q n k = .absent ∨
      ∃ j e, scanQueue p m t l q n k = .found l j e ∧ (q.occupied p)[j]? = some e := by
  induction n generalizing k with
  | zero => exact .inl rfl
  | succ n ih =>
    have hk : k < (q.occupied p).length := by rw [PrioQueue.occupied_length]; omega
    obtain ⟨e, he⟩ : ∃ e, (q.occupied p)[k]? = some e := ⟨_, List.getElem?_eq_getElem hk⟩
    obtain ⟨en, hen, -⟩ := h.prio l q hq e (List.mem_of_getElem? he)
    have hread := ((h.queue l q hq).readAt_slot (k := k) (by omega)).trans he
    simp only [scanQueue, hread, hen]
    split
    · exact .inr ⟨k, e, rfl, he⟩
    · exact ih (by omega)

/-- The scan of the levels finds nothing, or a position of some level (40_priority_queue.md
R166). -/
theorem scanLevels_cases {t : Word} (h : QueuesSound p out m) {n l : Nat} (hn : l + n = p.numPrio) :
    scanLevels p m t n l = .absent ∨
      ∃ (k : Nat) (q : PrioQueue) (j e : Nat), scanLevels p m t n l = .found k j e ∧
        m.pq[k]? = some q ∧ (q.occupied p)[j]? = some e := by
  induction n generalizing l with
  | zero => exact .inl rfl
  | succ n ih =>
    obtain ⟨q, hq⟩ := h.exists_level (l := l) (by omega)
    simp only [scanLevels, readAt_of_lt (h.level_lt hq), hq]
    rcases scanQueue_cases (t := t) h hq (Nat.zero_add _) with hs | ⟨j, e, hs, he⟩
    · simp only [hs]
      exact ih (by omega)
    · simp only [hs]
      exact .inr ⟨l, q, j, e, rfl, hq, he⟩

/-- Closing a gap writes no value that was not there, but 0 in place of a missing one. -/
theorem closeGap_lt {c hd n j b : Nat} {xs : List Nat} (h : ∀ x ∈ xs, x < b) (hb : 0 < b) :
    ∀ x ∈ closeGap c hd n j xs, x < b := by
  induction n generalizing j xs with
  | zero => exact h
  | succ n ih =>
    refine ih fun x hx => ?_
    rcases List.mem_or_eq_of_mem_set hx with hx | rfl
    · exact h x hx
    · rw [List.getD]
      cases hg : xs[(hd + j + 1) % c]? with
      | none => exact hb
      | some y => exact h y (List.mem_of_getElem? hg)

/-- Taking position `k` out of a queue leaves its Entry out of the queues (40_priority_queue.md
R166). -/
theorem removeAt_sound {l k e : Nat} {q : PrioQueue} (h : QueuesSound p out m)
    (hq : m.pq[l]? = some q) (he : (q.occupied p)[k]? = some e) :
    QueuesSound p (e :: out) (removeAt p l k q m) := by
  have hs := h.queue l q hq
  obtain ⟨hk', hke⟩ := List.getElem?_eq_some_iff.mp he
  have hk : k < q.count := by simpa using hk'
  have hocc := occupied_closeGap (tl := (q.tail + p.qcap - 1) % p.qcap) hs.length hs.count hk
  obtain ⟨hbit, hbits⟩ := getLsbD_shrunk (Nat.zero_lt_of_lt hk) (h.bit l q hq)
  refine h.setQueue hq ⟨?_, hs.head, ?_, (Nat.sub_le _ _).trans hs.count, ?_⟩ ?_ ?_ hbit hbits
  · simpa [closeGap_length] using hs.length
  · exact closeGap_lt hs.fits (Nat.two_pow_pos _)
  · obtain ⟨n, hn⟩ : ∃ n, q.count = n + 1 := ⟨q.count - 1, by omega⟩
    simp only [hs.tail, hn, Nat.add_sub_cancel]
    rw [Nat.add_sub_assoc p.qcap_pos, Nat.mod_add_mod, ← Nat.add_assoc, Nat.add_assoc,
      Nat.add_sub_cancel' p.qcap_pos, Nat.add_mod_right]
  · rw [hocc]
    have hp := List.getElem_cons_eraseIdx_perm hk'
    rw [hke] at hp
    exact List.perm_middle.trans (hp.append_right out)
  · intro x hx
    rw [hocc] at hx
    exact h.prio l q hq x (List.mem_of_mem_eraseIdx hx)

/-- `remove_by_tx_id` (40_priority_queue.md R166). -/
theorem removeByTxId_sound (t : Word) (h : QueuesSound p out m) :
    ∃ b m', removeByTxId p t m = .ok b m' ∧ QueuesSound p out m' ∧ OnlyQueues m m' := by
  rcases scanLevels_cases (t := t) h (Nat.zero_add _) with hs | ⟨l, q, k, e, hs, hq, he⟩
  · exact ⟨false, m, by simp [removeByTxId, hs], h, rfl⟩
  · obtain ⟨m', hf, hm', ho⟩ := freeEntry_sound (removeAt_sound h hq he)
    have hr : OnlyQueues m (removeAt p l k q m) := rfl
    exact ⟨true, m', by simp [removeByTxId, hs, readAt_of_lt (h.level_lt hq), hq, hf], hm',
      hr.trans ho⟩

/-- `enqueue` of a legal message at an existing level (40_priority_queue.md R164). -/
theorem enqueue_sound {msg : Message} (t : Word) {l : BitVec 3} (h : QueuesSound p out m)
    (hmsg : msg.legal = true) (hl : l.toNat < p.numPrio) :
    ∃ r m', enqueue p msg t l m = .ok r m' ∧ QueuesSound p out m' ∧ OnlyQueues m m' := by
  cases ha : allocEntry p m with
  | none => exact ⟨.txQueueFull, m, by simp [enqueue, ha], h, rfl⟩
  | some x =>
    obtain ⟨e, m₁⟩ := x
    obtain ⟨hfill, ho, hen⟩ := allocEntry_fillEntry_sound (t := t) (l := l) h ha hmsg
    obtain ⟨q, hq⟩ := hfill.exists_level hl
    by_cases hc : q.count = p.qcap
    · obtain ⟨m', hf, hm', ho'⟩ := freeEntry_sound hfill
      exact ⟨.txQueueFull, m', by simp [enqueue, ha, readAt_of_lt hl, hq, hc, hf], hm',
        ho.trans ho'⟩
    · obtain ⟨m', hp, hm', ho'⟩ := pqPush_sound hfill hq hc hen rfl
      exact ⟨.ok, m', by simp [enqueue, ha, readAt_of_lt hl, hq, hc, hp], hm', ho.trans ho'⟩

end Sys2Proof.Machine

/-! Every operation on a Module completes on one in order and keeps it in order. -/

namespace Sys2Proof.Machine

variable {p : Params} {m m' : CanModule} {out : List Nat}

/-! ## Operations on a Module in order -/

/-- What an operation on an allocated Module may leave to others to write: its lifecycle, its
configuration and its callback enables. -/
def CanModule.control (m : CanModule) : Bool × Bool × ModuleCfg × CbEnables :=
  (m.allocated, m.started, m.cfg, m.cbEn)

theorem CanModule.control_eq_iff :
    m'.control = m.control ↔ m'.allocated = m.allocated ∧ m'.started = m.started ∧
      m'.cfg = m.cfg ∧ m'.cbEn = m.cbEn := by
  simp [CanModule.control]

/-- An operation that completes on every allocated Module in order, keeps it in order, and leaves
its control fields; `out` are the Entries out of the queues before it, `out' a` after it answers
`a`. -/
def Serves {α : Type} (p : Params) (out : List Nat) (out' : α → List Nat)
    (f : CanModule → Run CanModule α) : Prop :=
  ∀ m : CanModule, m.Sound p out → m.allocated = true →
    ∃ a m', f m = .ok a m' ∧ m'.Sound p (out' a) ∧ m'.control = m.control

theorem CanModule.lifecycleOk_of_control (h : m.lifecycleOk p = true) (ha : m.allocated = true)
    (hc : m'.control = m.control) : m'.lifecycleOk p = true := by
  obtain ⟨ha', -, hcfg, -⟩ := CanModule.control_eq_iff.mp hc
  rcases CanModule.lifecycleOk_iff.mp h with ⟨-, hp⟩ | ⟨hn, -⟩
  · exact CanModule.lifecycleOk_iff.mpr (.inl ⟨ha'.trans ha, hcfg ▸ hp⟩)
  · rw [ha] at hn
    cases hn

theorem QueuesSound.congr (h : QueuesSound p out m) (hpool : m'.pool = m.pool)
    (hused : m'.used = m.used) (hpq : m'.pq = m.pq) (hbm : m'.bitmap = m.bitmap) :
    QueuesSound p out m' := by
  obtain ⟨_, _, _, _, _, _, _, _, _, _, _, _, _⟩ := m'
  simp only at hpool hused hpq hbm
  subst hpool hused hpq hbm
  exact ⟨h.poolLen, h.pqLen, h.queue, h.bit, h.bits, h.prio, h.used, h.nodup, h.live, h.legal⟩

/-- A queue primitive keeps the whole Module in order. -/
theorem CanModule.Sound.ofQueues {out' : List Nat} (h : m.Sound p out) (ha : m.allocated = true)
    (hq : QueuesSound p out' m') (ho : OnlyQueues m m') :
    m'.Sound p out' ∧ m'.control = m.control := by
  have hc : m'.control = m.control := (congrArg CanModule.control ho :)
  have hrx : m'.rx = m.rx := (congrArg CanModule.rx ho :)
  have hmb : m'.mb = m.mb := (congrArg CanModule.mb ho :)
  have hflt : m'.flt = m.flt := (congrArg CanModule.flt ho :)
  have hcount : m'.fltCount = m.fltCount := (congrArg CanModule.fltCount ho :)
  have hstat : m'.stat = m.stat := (congrArg CanModule.stat ho :)
  exact ⟨⟨hq, hrx ▸ h.ring, hmb ▸ h.mbLen, hflt ▸ h.fltLen, hcount ▸ h.fltCount, hflt ▸ h.fltLegal,
    hstat ▸ h.stat, CanModule.lifecycleOk_of_control h.lifecycle ha hc⟩, hc⟩

theorem dequeueHighest_serves :
    Serves p out (fun o => o.toList ++ out) (dequeueHighest p) := fun _ h ha => by
  obtain ⟨o, m', hd, hq, ho⟩ := dequeueHighest_sound h.queues
  exact ⟨o, m', hd, h.ofQueues ha hq ho⟩

theorem freeEntry_serves {e : Nat} :
    Serves p (e :: out) (fun _ => out) (freeEntry p e) := fun _ h ha => by
  obtain ⟨m', hf, hq, ho⟩ := freeEntry_sound h.queues
  exact ⟨(), m', hf, h.ofQueues ha hq ho⟩

theorem removeByTxId_serves (t : Word) :
    Serves p out (fun _ => out) (removeByTxId p t) := fun _ h ha => by
  obtain ⟨b, m', hr, hq, ho⟩ := removeByTxId_sound t h.queues
  exact ⟨b, m', hr, h.ofQueues ha hq ho⟩

theorem enqueue_serves {msg : Message} (t : Word) {l : BitVec 3} (hmsg : msg.legal = true)
    (hl : l.toNat < p.numPrio) :
    Serves p out (fun _ => out) (enqueue p msg t l) := fun _ h ha => by
  obtain ⟨r, m', hr, hq, ho⟩ := enqueue_sound t h.queues hmsg hl
  exact ⟨r, m', hr, h.ofQueues ha hq ho⟩

/-! ### The ring -/

/-- The occupancy of a ring whose cursors are in their range (10_state.md R43). -/
theorem RxRing.occupancy_eq {r : RxRing} (hw : r.widx < 2 * p.rxDepth)
    (hr : r.ridx < 2 * p.rxDepth) :
    r.occupancy p =
      if r.ridx ≤ r.widx then r.widx - r.ridx else r.widx + 2 * p.rxDepth - r.ridx := by
  rw [RxRing.occupancy, Nat.mod_eq_of_lt hr]
  split
  · rw [show r.widx + (2 * p.rxDepth - r.ridx) = (r.widx - r.ridx) + 2 * p.rxDepth by omega,
      Nat.add_mod_right, Nat.mod_eq_of_lt (by omega)]
  · rw [Nat.mod_eq_of_lt (by omega)]
    omega

theorem mod_succ_eq {a n : Nat} (h : a < n) : (a + 1) % n = if a + 1 = n then 0 else a + 1 := by
  split
  · next he => rw [he, Nat.mod_self]
  · exact Nat.mod_eq_of_lt (by omega)

theorem RingSound.push {r : RxRing} {msg : Message} (h : RingSound p r)
    (hne : r.occupancy p ≠ p.rxDepth) (hmsg : msg.legal = true) :
    RingSound p { r with
      slot := r.slot.set (r.widx % p.rxDepth) msg
      widx := (r.widx + 1) % (2 * p.rxDepth) } where
  length := by simpa using h.length
  widx := Nat.mod_lt _ (Nat.mul_pos two_pos p.rxDepth_pos)
  ridx := h.ridx
  occupancy := by
    have hlt := lt_of_le_of_ne h.occupancy hne
    simp only [RxRing.occupancy] at hlt ⊢
    rw [Nat.mod_add_mod, Nat.add_right_comm, ← Nat.mod_add_mod]
    exact (Nat.mod_le _ _).trans hlt
  legal := fun x hx => by
    rcases List.mem_or_eq_of_mem_set hx with hx | rfl
    · exact h.legal x hx
    · exact hmsg

theorem RingSound.pop {r : RxRing} (h : RingSound p r) (hne : r.occupancy p ≠ 0) :
    RingSound p { r with ridx := (r.ridx + 1) % (2 * p.rxDepth) } where
  length := h.length
  widx := h.widx
  ridx := Nat.mod_lt _ (Nat.mul_pos two_pos p.rxDepth_pos)
  occupancy := by
    have hocc := h.occupancy
    have hw := h.widx
    have hr := h.ridx
    rw [RxRing.occupancy_eq hw hr] at hocc hne
    rw [RxRing.occupancy_eq (r := { r with ridx := (r.ridx + 1) % (2 * p.rxDepth) }) hw
      (Nat.mod_lt _ (Nat.mul_pos two_pos p.rxDepth_pos))]
    simp only [mod_succ_eq hr]
    split_ifs at hocc hne ⊢ <;> omega
  legal := h.legal

/-- An operation that writes only the ring keeps the rest of the Module. -/
theorem CanModule.Sound.setRing {r : RxRing} (h : m.Sound p out) (ha : m.allocated = true)
    (hr : RingSound p r) : ({ m with rx := r } : CanModule).Sound p out :=
  { h with
    queues := h.queues.congr rfl rfl rfl rfl
    ring := hr
    lifecycle := CanModule.lifecycleOk_of_control h.lifecycle ha rfl }

theorem rxPush_serves {msg : Message} (hmsg : msg.legal = true) :
    Serves p out (fun _ => out) (rxPush p msg) := fun m h ha => by
  by_cases hfull : m.rx.occupancy p = p.rxDepth
  · exact ⟨.dropped, { m with rx := { m.rx with overrun := m.rx.overrun + 1 } },
      by simp [rxPush, hfull], h.setRing ha
        ⟨h.ring.length, h.ring.widx, h.ring.ridx, h.ring.occupancy, h.ring.legal⟩, rfl⟩
  · have hread : readAt m.rx.slot p.rxDepth (m.rx.widx % p.rxDepth) ≠ none := fun hn => by
      have := Nat.mod_lt m.rx.widx p.rxDepth_pos
      have := h.ring.length
      rcases readAt_eq_none.mp hn with h | h <;> omega
    obtain ⟨x, hx⟩ := Option.ne_none_iff_exists'.mp hread
    exact ⟨.pushed, _, by simp [rxPush, hfull, hx], h.setRing ha (h.ring.push hfull hmsg), rfl⟩

theorem rxPop_serves : Serves p out (fun _ => out) (rxPop p) := fun m h ha => by
  by_cases hempty : m.rx.occupancy p = 0
  · exact ⟨none, m, by simp [rxPop, hempty], h, rfl⟩
  · have hread : readAt m.rx.slot p.rxDepth (m.rx.ridx % p.rxDepth) ≠ none := fun hn => by
      have := Nat.mod_lt m.rx.ridx p.rxDepth_pos
      have := h.ring.length
      rcases readAt_eq_none.mp hn with h | h <;> omega
    obtain ⟨x, hx⟩ := Option.ne_none_iff_exists'.mp hread
    exact ⟨some x, _, by simp [rxPop, hempty, hx], h.setRing ha (h.ring.pop hempty), rfl⟩

/-! ### The tracker, the statistics and the staged filters -/

theorem CanModule.Sound.setTracker {k : Nat} {x : Mailbox} (h : m.Sound p out)
    (ha : m.allocated = true) : ({ m with mb := m.mb.set k x } : CanModule).Sound p out :=
  { h with
    queues := h.queues.congr rfl rfl rfl rfl
    mbLen := by simpa using h.mbLen
    lifecycle := CanModule.lifecycleOk_of_control h.lifecycle ha rfl }

theorem recordMb_serves {k : Nat} (t : Word) (hk : k < p.numMb) :
    Serves p out (fun _ => out) (recordMb p k t) := fun _ h ha =>
  ⟨(), _, recordMb_eq_ok.mpr ⟨hk, rfl⟩, h.setTracker ha, rfl⟩

theorem completeMb_serves {k : Nat} (hk : k < p.numMb) :
    Serves p out (fun _ => out) (completeMb p k) := fun m h ha =>
  have hget := List.getElem?_eq_getElem (h.mbLen.symm ▸ hk : k < m.mb.length)
  ⟨_, _, completeMb_eq_ok.mpr ⟨hk, hget, rfl⟩, h.setTracker ha, rfl⟩

theorem countStat_serves (f : Stats → Stats) :
    Serves p out (fun _ => out) (countStat p f) := fun m h ha => by
  by_cases hs : p.statsEn = true
  · refine ⟨(), { m with stat := f m.stat }, by simp [countStat, hs], ?_, rfl⟩
    exact { h with
      queues := h.queues.congr rfl rfl rfl rfl
      stat := .inl hs
      lifecycle := CanModule.lifecycleOk_of_control h.lifecycle ha rfl }
  · exact ⟨(), m, by simp [countStat, hs], h, rfl⟩

theorem stageFilter_serves {f : RxFilter} (hf : f.legal = true) :
    Serves p out (fun _ => out) (stageFilter p f) := fun m h ha => by
  by_cases hfull : m.fltCount = p.maxFilters
  · exact ⟨.filterFull, m, by simp [stageFilter, hfull], h, rfl⟩
  · have hlt := lt_of_le_of_ne h.fltCount hfull
    have hget := List.getElem?_eq_getElem (h.fltLen.symm ▸ hlt : m.fltCount < m.flt.length)
    refine ⟨.ok, { m with flt := m.flt.set m.fltCount f, fltCount := m.fltCount + 1 },
      by simp [stageFilter, hfull, readAt_of_lt hlt, hget], ?_, rfl⟩
    exact { h with
      queues := h.queues.congr rfl rfl rfl rfl
      fltLen := by simpa using h.fltLen
      fltCount := hlt
      fltLegal := fun x hx => by
        rcases List.mem_or_eq_of_mem_set hx with hx | rfl
        · exact h.fltLegal x hx
        · exact hf
      lifecycle := CanModule.lifecycleOk_of_control h.lifecycle ha rfl }

end Sys2Proof.Machine

/-! A good state slot by slot, and a step at work on one Module: what it keeps and what it may emit. -/

namespace Sys2Proof.Machine

variable {s t u s₀ : State} {i : Nat} {m m₀ : CanModule} {out : List Nat}

/-! ## A good state, slot by slot -/

theorem State.slot?_of_lt (hl : s.modules.length = s.params.nInst) (hi : i < s.params.nInst) :
    ∃ m, s.slot? i = some m :=
  ⟨_, State.slot?_eq_some.mpr ⟨hi, List.getElem?_eq_getElem (hl ▸ hi)⟩⟩

/-- Distinct allocated slots have claimed distinct peripherals (10_state.md R54). -/
theorem State.claimedPeriphs_nodup_iff (hl : s.modules.length = s.params.nInst) :
    s.claimedPeriphs.Nodup ↔ ∀ i j m m', i ≠ j → s.slot? i = some m → s.slot? j = some m' →
      m.allocated = true → m'.allocated = true → m.cfg.periph ≠ m'.cfg.periph := by
  rw [State.claimedPeriphs, List.Nodup, List.pairwise_map, List.pairwise_filter,
    List.pairwise_iff_getElem]
  constructor
  · intro h i j m m' hij hm hm'
    obtain ⟨hi, rfl⟩ := List.getElem?_eq_some_iff.mp (State.slot?_eq_some.mp hm).2
    obtain ⟨hj, rfl⟩ := List.getElem?_eq_some_iff.mp (State.slot?_eq_some.mp hm').2
    rcases Nat.lt_or_gt_of_ne hij with hlt | hlt
    · exact h i j hi hj hlt
    · exact fun ha ha' => (h j i hj hi hlt ha' ha).symm
  · intro h i j hi hj hij
    exact h i j _ _ (Nat.ne_of_lt hij)
      (State.slot?_eq_some.mpr ⟨hl ▸ hi, List.getElem?_eq_getElem hi⟩)
      (State.slot?_eq_some.mpr ⟨hl ▸ hj, List.getElem?_eq_getElem hj⟩)

/-- A command in progress has its Module allocated and started (10_state.md R55). -/
theorem State.busyOk_iff :
    s.busyOk = true ↔
      (∃ m, s.slot? s.nctx.h.toNat = some m ∧ m.allocated = true ∧ m.started = true) ∧
      s.nctx.pend = .ok ∧ s.nctx.op = if s.nctx.drain then opStart else opTransmit := by
  have hc : (match s.claimed? s.nctx.h with
      | some m => m.started
      | none => false) = true ↔ ∃ m, s.claimed? s.nctx.h = some m ∧ m.started = true := by
    cases s.claimed? s.nctx.h <;> simp
  simp only [State.busyOk, Bool.and_eq_true, beq_iff_eq, and_assoc]
  refine and_congr (hc.trans ?_) Iff.rfl
  simp only [State.claimed?_eq_some, and_assoc]

/-- The legal points of the normal context (10_state.md R41, R55). -/
theorem State.nctxOk_iff :
    s.nctxOk = true ↔
      (s.nctx.phase = .idle ∧ s.nctx.held = none) ∨
      ((s.nctx.phase = .subQuery ∨ s.nctx.phase = .subDeq) ∧ s.busyOk = true ∧ s.nctx.held = none) ∨
      ((s.nctx.phase = .subAdd ∨ s.nctx.phase = .subFree) ∧ s.busyOk = true ∧
        ∃ e, s.nctx.held = some e ∧ e < 2 ^ s.params.entryBits) := by
  have hh : s.holdsEntry = true ↔ ∃ e, s.nctx.held = some e ∧ e < 2 ^ s.params.entryBits := by
    unfold State.holdsEntry
    cases s.nctx.held <;> simp [entryFits]
  unfold State.nctxOk
  cases s.nctx.phase <;> simp [hh]

theorem State.busyOk_of_nctxOk (h : s.nctxOk = true) (hp : s.nctx.phase ≠ .idle) :
    s.busyOk = true := by
  rcases State.nctxOk_iff.mp h with ⟨hi, -⟩ | ⟨-, hb, -⟩ | ⟨-, hb, -⟩
  · exact absurd hi hp
  · exact hb
  · exact hb

/-- At a legal point of the normal context the held Entry is named (10_state.md R41). -/
theorem State.heldNamed_of_nctxOk (h : s.nctxOk = true) : s.heldNamed = true := by
  rcases State.nctxOk_iff.mp h with ⟨hp, -⟩ | ⟨hp | hp, -⟩ | ⟨hp, hb, e, he, -⟩
  · simp [State.heldNamed, hp]
  · simp [State.heldNamed, hp]
  · simp [State.heldNamed, hp]
  · obtain ⟨⟨m, hm, -⟩, -⟩ := State.busyOk_iff.mp hb
    rcases hp with hp | hp <;> simp [State.heldNamed, hp, he, hm]

/-- A good state, slot by slot: every slot is in order with the Entry that the normal context holds
of it, if any, out of its queues. -/
theorem State.good_iff :
    s.Good ↔ s.modules.length = s.params.nInst ∧
      (∀ i m, s.slot? i = some m → m.Sound s.params (heldOf s.nctx i).toList) ∧
      s.claimedPeriphs.Nodup ∧ s.nctxOk = true := by
  constructor
  · intro h
    refine ⟨h.table, fun i m hm => CanModule.sound_iff.mpr ⟨h.slots m (State.mem_of_slot? hm), ?_⟩,
      h.periphs, h.nctx⟩
    obtain ⟨m', hm', hs⟩ := (State.boundaryOk_iff.mp h.boundary).2 i (State.slot?_eq_some.mp hm).1
    rw [hm, Option.some.injEq] at hm'
    exact hm' ▸ hs
  · rintro ⟨ht, hs, hp, hn⟩
    refine ⟨ht, fun m hm => ?_, hp, hn, State.boundaryOk_iff.mpr ⟨State.heldNamed_of_nctxOk hn,
      fun i hi => ?_⟩⟩
    · obtain ⟨i, hi⟩ := List.mem_iff_getElem?.mp hm
      have hlt := (List.getElem?_eq_some_iff.mp hi).1
      exact (CanModule.sound_iff.mp (hs i m (State.slot?_eq_some.mpr ⟨ht ▸ hlt, hi⟩))).1
    · obtain ⟨m, hm⟩ := State.slot?_of_lt ht hi
      exact ⟨m, hm, (CanModule.sound_iff.mp (hs i m hm)).2⟩

theorem State.Good.sound (h : s.Good) (hm : s.slot? i = some m) :
    m.Sound s.params (heldOf s.nctx i).toList :=
  (State.good_iff.mp h).2.1 i m hm

theorem heldOf_idle {n : Nctx} (h : n.phase = .idle) (j : Nat) : heldOf n j = none := by
  simp [heldOf, h]

theorem heldOf_query_or_deq {n : Nctx} (h : n.phase = .subQuery ∨ n.phase = .subDeq) (j : Nat) :
    heldOf n j = none := by
  rcases h with h | h <;> simp [heldOf, h]

theorem heldOf_add_or_free {n : Nctx} (h : n.phase = .subAdd ∨ n.phase = .subFree) (j : Nat) :
    heldOf n j = if n.h.toNat = j then n.held else none := by
  rcases h with h | h <;> simp [heldOf, h]

/-- Writing one slot, and `nctx` as far as no other slot's held Entry changes, keeps a state
good. -/
theorem State.Good.replace (hg : s.Good) (hp : t.params = s.params)
    (hl : t.modules.length = s.modules.length) (hothers : ∀ j, j ≠ i → t.slot? j = s.slot? j)
    (hm : t.slot? i = some m) (hs : m.Sound s.params (heldOf t.nctx i).toList)
    (hper : ∀ j m', j ≠ i → s.slot? j = some m' → m'.allocated = true → m.allocated = true →
      m'.cfg.periph ≠ m.cfg.periph)
    (hheld : ∀ j, j ≠ i → heldOf t.nctx j = heldOf s.nctx j) (hn : t.nctxOk = true) : t.Good := by
  have ht : t.modules.length = t.params.nInst := by rw [hl, hp, hg.table]
  refine State.good_iff.mpr ⟨ht, fun j m' hm' => ?_, ?_, hn⟩
  · rw [hp]
    by_cases hj : j = i
    · subst hj
      rw [hm, Option.some.injEq] at hm'
      exact hm' ▸ hs
    · rw [hothers j hj] at hm'
      rw [hheld j hj]
      exact hg.sound hm'
  · rw [State.claimedPeriphs_nodup_iff ht]
    have hdist := (State.claimedPeriphs_nodup_iff hg.table).mp hg.periphs
    intro j k mj mk hjk hmj hmk haj hak
    by_cases hj : j = i
    · subst hj
      rw [hm, Option.some.injEq] at hmj
      rw [hothers k hjk.symm] at hmk
      subst hmj
      exact (hper k mk hjk.symm hmk hak haj).symm
    · rw [hothers j hj] at hmj
      by_cases hk : k = i
      · subst hk
        rw [hm, Option.some.injEq] at hmk
        subst hmk
        exact hper j mj hj hmj haj hak
      · rw [hothers k hk] at hmk
        exact hdist j k mj mk hjk hmj hmk haj hak

/-- The claims of a Module that keeps its peripheral are distinct from those of the others. -/
theorem State.Good.periph_ne (hg : s.Good) (hm : s.slot? i = some m) (ha : m.allocated = true) :
    ∀ j m', j ≠ i → s.slot? j = some m' → m'.allocated = true → m'.cfg.periph ≠ m.cfg.periph :=
  fun j m' hj hm' ha' =>
    (State.claimedPeriphs_nodup_iff hg.table).mp hg.periphs j i m' m hj hm' hm ha' ha

/-! ## What a step may emit, and what it must leave -/

/-- A notification that Module `n.handle` of `s`, allocated and started, may emit: its callback slot
is enabled, or it is ACT and the Module has the indicator (00_scope.md R17, 30_encoding.md R141). -/
def EnabledIn (s : State) (n : Notification) : Prop :=
  ∃ m, s.slot? n.handle.toNat = some m ∧ m.allocated = true ∧ m.started = true ∧
    match n.body.slot with
    | some k => m.cbEn.get k = true
    | none => m.cfg.rxLedEn = true

/-- The notifications of `t` are those of `s`, and after them only ones enabled in `s`. -/
def EmitsEnabled (s t : State) : Prop :=
  ∃ new, t.ntf = s.ntf ++ new ∧ ∀ n ∈ new, EnabledIn s n

theorem EmitsEnabled.of_eq (h : t.ntf = s.ntf) : EmitsEnabled s t :=
  ⟨[], by simpa using h, by simp⟩

theorem EmitsEnabled.congr (h : EmitsEnabled s t) (hn : u.ntf = t.ntf) : EmitsEnabled s u := by
  obtain ⟨new, ht, hnew⟩ := h
  exact ⟨new, hn.trans ht, hnew⟩

theorem EmitsEnabled.snoc {n : Notification} (h : EmitsEnabled s t) (hu : u.ntf = t.ntf ++ [n])
    (hn : EnabledIn s n) : EmitsEnabled s u := by
  obtain ⟨new, ht, hnew⟩ := h
  refine ⟨new ++ [n], by rw [hu, ht, List.append_assoc], fun x hx => ?_⟩
  rcases List.mem_append.mp hx with hx | hx
  · exact hnew x hx
  · exact List.mem_singleton.mp hx ▸ hn

/-- What is proved of every step: it ends in a state of the invariant, and what it has emitted was
enabled before it. -/
def StepKeeps (s t : State) : Prop := t.Inv ∧ EmitsEnabled s t

theorem State.inv_of_good (hf : t.fault = none) (hg : t.Good) : t.Inv := by
  simpa [State.Inv, hf] using hg

theorem State.inv_of_driverContract (hf : t.fault = some .driverContract) : t.Inv := by
  simp [State.Inv, hf]

theorem State.Good.of_sameBlock (hg : s.Good) (h : SameBlock s t) : t.Good := by
  obtain ⟨pa, ms, nc, fa, rs, nt, dl, tu, da, dr, su⟩ := t
  obtain ⟨rfl, rfl, rfl, -, -⟩ := h
  exact ⟨hg.table, hg.slots, hg.periphs, hg.nctx, hg.boundary⟩

theorem StepKeeps.of_sameBlock (hg : s.Good) (hf : s.fault = none) (h : SameBlock s t)
    (hn : t.ntf = s.ntf) : StepKeeps s t :=
  ⟨State.inv_of_good (h.fault.trans hf) (hg.of_sameBlock h), .of_eq hn⟩

/-! ## A step at work on one Module -/

/-- A step from `s₀` that works on allocated Module `i`, which held `m₀`, has come to `s`: nothing
but slot `i` and the ports differs, the slot is in order with `out` out of its queues and keeps its
control fields, and what has been emitted was enabled. -/
structure Serving (s₀ : State) (i : Nat) (m₀ : CanModule) (out : List Nat) (s : State) : Prop where
  base    : s₀.slot? i = some m₀
  claimed : m₀.allocated = true
  only    : OnlySlot i s₀ s
  emits   : EmitsEnabled s₀ s
  slot    : ∃ m, s.slot? i = some m ∧ m.Sound s.params out ∧ m.control = m₀.control

theorem OnlySlot.trans (h : OnlySlot i s t) (h' : OnlySlot i t u) : OnlySlot i s u where
  params := h'.params.trans h.params
  nctx := h'.nctx.trans h.nctx
  fault := h'.fault.trans h.fault
  turns := h'.turns.trans h.turns
  length := h'.length.trans h.length
  others := fun j hj => (h'.others j hj).trans (h.others j hj)

theorem SameBlock.slot? (h : SameBlock s t) (j : Nat) : t.slot? j = s.slot? j :=
  State.slot?_congr h.params h.modules j

theorem SameBlock.onlySlot (h : SameBlock s t) : OnlySlot i s t where
  params := h.params
  nctx := h.nctx
  fault := h.fault
  turns := h.turns
  length := by rw [h.modules]
  others := fun j _ => h.slot? j

theorem Serving.initial (hg : s.Good) (hm : s.slot? i = some m) (ha : m.allocated = true) :
    Serving s i m (heldOf s.nctx i).toList s :=
  ⟨hm, ha, (SameBlock.refl s).onlySlot, .of_eq rfl, m, hm, hg.sound hm, rfl⟩

/-- What leaves the block as it is, ports apart. -/
theorem Serving.ofSame (h : Serving s₀ i m₀ out s) (hb : SameBlock s t)
    (he : EmitsEnabled s₀ t) : Serving s₀ i m₀ out t := by
  obtain ⟨m, hm, hs, hc⟩ := h.slot
  exact ⟨h.base, h.claimed, h.only.trans hb.onlySlot, he, m, (hb.slot? i).trans hm,
    hb.params ▸ hs, hc⟩

theorem Serving.request (h : Serving s₀ i m₀ out s) (r : DrvRequest) :
    Serving s₀ i m₀ out (s.request r) :=
  h.ofSame ((SameBlock.refl s).request r) (h.emits.congr rfl)

theorem Serving.noteSubmitted (h : Serving s₀ i m₀ out s) (w : Word) :
    Serving s₀ i m₀ out (s.noteSubmitted w) :=
  h.ofSame ⟨rfl, rfl, rfl, rfl, rfl⟩ (h.emits.congr rfl)

/-- Module `i`'s handle is its index (00_scope.md R5). -/
theorem State.toNat_ofNat_of_slot? (h : s.slot? i = some m) : (BitVec.ofNat 8 i).toNat = i := by
  have := (State.slot?_eq_some.mp h).1
  have := s.params.legal_facts.1.2
  rw [BitVec.toNat_ofNat, Nat.mod_eq_of_lt (by omega)]

theorem Serving.append (h : Serving s₀ i m₀ out s) (hs : m₀.started = true) {b : NtfBody}
    (hb : match b.slot with
      | some k => m₀.cbEn.get k = true
      | none => m₀.cfg.rxLedEn = true) : Serving s₀ i m₀ out (s.append i b) := by
  refine h.ofSame ⟨rfl, rfl, rfl, rfl, rfl⟩ (h.emits.snoc rfl ⟨m₀, ?_, h.claimed, hs, hb⟩)
  rw [State.toNat_ofNat_of_slot? h.base]
  exact h.base

/-- `emit` of a started Module (00_scope.md R17). -/
theorem Serving.emit (h : Serving s₀ i m₀ out s) (hs : m₀.started = true) (b : NtfBody) :
    Serving s₀ i m₀ out (s.emit i b) := by
  rcases s.emit_cases i b with ⟨m, k, hm, hk, hen, he⟩ | he
  · obtain ⟨m', hm', -, hc⟩ := h.slot
    rw [hm, Option.some.injEq] at hm'
    obtain ⟨-, -, -, hcb⟩ := CanModule.control_eq_iff.mp hc
    rw [he]
    refine h.append hs ?_
    rw [hk]
    simpa [← hcb, ← hm'] using hen
  · rw [he]
    exact h

/-! ## Parts of steps -/

/-- A part of a step from `s₀` ends with what `Q` says, or in the one fault that is the
environment's, with nothing emitted that was not enabled. -/
def Run.Ends {α : Type} (s₀ : State) (Q : α → State → Prop) (x : Run State α) : Prop :=
  match x with
  | .ok a t => Q a t
  | .fault r t => r = .driverContract ∧ EmitsEnabled s₀ t

@[simp] theorem Run.ends_ok {α : Type} {Q : α → State → Prop} {a : α} :
    (Run.ok a t).Ends s₀ Q ↔ Q a t := Iff.rfl

theorem Run.Ends.andThen {α β : Type} {Q : α → State → Prop} {R : β → State → Prop}
    {x : Run State α} {f : α → State → Run State β} (hx : x.Ends s₀ Q)
    (hf : ∀ a t, Q a t → (f a t).Ends s₀ R) : (x.andThen f).Ends s₀ R := by
  cases x with
  | ok a t => exact hf a t hx
  | fault r t => exact hx

theorem Run.Ends.finish {α : Type} {x : Run State α} (hx : x.Ends s₀ fun _ u => StepKeeps s₀ u)
    (h : x.finish = .next t) : StepKeeps s₀ t := by
  rcases Run.finish_eq_next.mp h with ⟨a, rfl⟩ | ⟨r, u, rfl, rfl⟩
  · exact hx
  · obtain ⟨rfl, he⟩ := hx
    exact ⟨State.inv_of_driverContract rfl, he.congr rfl⟩

/-- A Module operation on the slot at work. -/
theorem Serving.onSlot {α : Type} {out' : α → List Nat} {f : CanModule → Run CanModule α}
    (h : Serving s₀ i m₀ out s) (hf : Serves s.params out out' f) :
    (s.onSlot i f).Ends s₀ fun a t => Serving s₀ i m₀ (out' a) t := by
  obtain ⟨m, hm, hs, hc⟩ := h.slot
  have ha : m.allocated = true := (CanModule.control_eq_iff.mp hc).1.trans h.claimed
  obtain ⟨a, m', hfm, hs', hc'⟩ := hf m hs ha
  rw [State.onSlot_of hm, hfm]
  exact ⟨h.base, h.claimed, h.only.trans (.setSlot s i m'), h.emits.congr rfl, m',
    State.slot?_setSlot_self hm, hs', hc'.trans hc⟩

/-! ## The end of a step -/

/-- A command in progress stays at its legal point when its Module keeps its control fields. -/
theorem State.busyOk_of_control (hb : s.busyOk = true) (hh : t.nctx.h = s.nctx.h)
    (hpend : t.nctx.pend = s.nctx.pend) (hop : t.nctx.op = s.nctx.op)
    (hdrain : t.nctx.drain = s.nctx.drain)
    (hs : ∀ j m, s.slot? j = some m → ∃ m', t.slot? j = some m' ∧ m'.control = m.control) :
    t.busyOk = true := by
  obtain ⟨⟨m, hm, ha, hst⟩, hp, ho⟩ := State.busyOk_iff.mp hb
  obtain ⟨m', hm', hc⟩ := hs _ m hm
  obtain ⟨ha', hst', -⟩ := CanModule.control_eq_iff.mp hc
  refine State.busyOk_iff.mpr ⟨⟨m', hh ▸ hm', ha'.trans ha, hst'.trans hst⟩, hpend.trans hp, ?_⟩
  rw [hop, ho, hdrain]

theorem Serving.control (h : Serving s₀ i m₀ out s) (j : Nat) (m : CanModule)
    (hm : s₀.slot? j = some m) : ∃ m', s.slot? j = some m' ∧ m'.control = m.control := by
  by_cases hj : j = i
  · subst hj
    obtain ⟨m', hm', -, hc⟩ := h.slot
    rw [h.base, Option.some.injEq] at hm
    exact ⟨m', hm', hm ▸ hc⟩
  · exact ⟨m, (h.only.others j hj).trans hm, rfl⟩

/-- A step that has worked on one Module ends in a state `t` that differs from the one it came to in
the ports and in `nctx` only: it keeps the invariant when `nctx` is at a legal point and names the
Entries that are out of the queues. -/
theorem Serving.keeps (h : Serving s₀ i m₀ out s) (hg : s₀.Good) (hf : s₀.fault = none)
    (hp : t.params = s.params) (hm : t.modules = s.modules) (hft : t.fault = s.fault)
    (hntf : t.ntf = s.ntf) (hout : (heldOf t.nctx i).toList = out)
    (hheld : ∀ j, j ≠ i → heldOf t.nctx j = heldOf s₀.nctx j) (hn : t.nctxOk = true) :
    StepKeeps s₀ t := by
  obtain ⟨m, hmi, hs, hc⟩ := h.slot
  obtain ⟨ha, -, hcfg, -⟩ := CanModule.control_eq_iff.mp hc
  refine ⟨State.inv_of_good (hft.trans (h.only.fault.trans hf)) (hg.replace (hp.trans h.only.params)
    (by rw [hm, h.only.length]) (fun j hj => (State.slot?_congr hp hm j).trans (h.only.others j hj))
    ((State.slot?_congr hp hm i).trans hmi) ?_ (fun j m' hj hm' ha' _ => ?_) hheld hn),
    h.emits.congr hntf⟩
  · rw [hout, ← h.only.params]
    exact hs
  · rw [hcfg]
    exact hg.periph_ne h.base h.claimed j m' hj hm' ha'

/-- A step that has worked on one Module and leaves `nctx`. -/
theorem Serving.keeps_nctx (h : Serving s₀ i m₀ (heldOf s₀.nctx i).toList s) (hg : s₀.Good)
    (hf : s₀.fault = none) : StepKeeps s₀ s := by
  have hnc := h.only.nctx
  refine h.keeps hg hf rfl rfl rfl rfl (by rw [hnc]) (fun j _ => by rw [hnc]) ?_
  have hbusy : s₀.busyOk = true → s.busyOk = true := fun hb =>
    State.busyOk_of_control hb (by rw [hnc]) (by rw [hnc]) (by rw [hnc]) (by rw [hnc]) h.control
  rw [State.nctxOk_iff, hnc, h.only.params]
  exact (State.nctxOk_iff.mp hg.nctx).imp_right (Or.imp
    (fun ⟨hp, hb, hh⟩ => ⟨hp, hbusy hb, hh⟩) fun ⟨hp, hb, hh⟩ => ⟨hp, hbusy hb, hh⟩)

end Sys2Proof.Machine

/-! Submission, the event handlers and the phases of the normal context keep the invariant. -/

namespace Sys2Proof.Machine

variable {s t u s₀ : State} {i : Nat} {m m₀ : CanModule} {out : List Nat}

/-! ## Submission -/

/-- `drv.free_mb` (60_exceptions.md R425). -/
theorem Serving.drvFreeMb (h : Serving s₀ i m₀ out s) (b : Byte) :
    (drvFreeMb b s).Ends s₀ fun _ t => Serving s₀ i m₀ out t := by
  unfold Machine.drvFreeMb
  split
  · exact ⟨rfl, (h.request (.freeMb b)).emits⟩
  · exact h.request (.freeMb b)

/-- The add request on a started Module: its mailbox is recorded, its rejection is reported, or its
mailbox breaks the contract (42_mailbox_tracker.md R233, R235). -/
theorem Serving.submitEntry (h : Serving s₀ i m₀ out s) (hs : m₀.started = true) (m : CanModule)
    (en : Entry) : (submitEntry i m en s).Ends s₀ fun _ t => Serving s₀ i m₀ out t := by
  have hr := h.request (.addTx m.cfg.periph (txHeader en.msg) en.msg.data)
  unfold Machine.submitEntry
  simp only
  split
  · by_cases hk : s.nextAnswer.mb < s.params.numMb
    · exact (hr.noteSubmitted en.txId).onSlot (recordMb_serves en.txId hk)
    · obtain ⟨m', hm', -⟩ := h.slot
      rw [State.onSlot_of (m := m') (by simpa using hm'), recordMb, if_neg hk]
      exact ⟨rfl, h.emits.congr rfl⟩
  · exact hr.emit hs _

/-- The add request of an Entry out of the queues. -/
theorem Serving.addTx {e : Nat} (h : Serving s₀ i m₀ (e :: out) s) (hs : m₀.started = true) :
    (addTx i e s).Ends s₀ fun _ t => Serving s₀ i m₀ (e :: out) t := by
  obtain ⟨m, hm, hm', -⟩ := h.slot
  obtain ⟨en, hen⟩ := hm'.queues.isSome_of_mem (e := e) (by simp)
  simp only [Machine.addTx, hm, hen]
  exact h.submitEntry hs m en

/-- One submission in the interrupt context, whatever Entry the normal context holds
(42_mailbox_tracker.md R230). -/
theorem Serving.submitNextIsr (h : Serving s₀ i m₀ out s) (hs : m₀.started = true) :
    (submitNextIsr i s).Ends s₀ fun _ t => Serving s₀ i m₀ out t := by
  obtain ⟨m, hm, -⟩ := h.slot
  simp only [Machine.submitNextIsr, hm]
  refine (h.drvFreeMb m.cfg.periph).andThen fun n u hu => ?_
  split
  · exact hu
  · refine (hu.onSlot dequeueHighest_serves).andThen fun o v hv => ?_
    cases o with
    | none => exact hv
    | some e =>
      refine (Serving.addTx hv hs).andThen fun _ w hw => ?_
      exact (hw.onSlot freeEntry_serves).andThen fun _ x hx => hx

/-! ## The event handlers -/

/-- A handler runs on the started Module it resolves to, or the event is ignored
(44_interrupt_dispatch.md R350). -/
theorem State.withEvent_keeps {b : Byte} {k : Nat → Run State Unit} (hg : s.Good)
    (hf : s.fault = none)
    (hk : ∀ i m, m.started = true → Serving s i m (heldOf s.nctx i).toList s →
      (k i).Ends s fun _ t => Serving s i m (heldOf s.nctx i).toList t)
    (h : s.withEvent b k = .next t) : StepKeeps s t := by
  cases hr : s.resolve b with
  | none =>
    rw [State.withEvent_none hr] at h
    cases h
    exact .of_sameBlock hg hf (.refl s) rfl
  | some i =>
    obtain ⟨m, hm, ha, hs, -⟩ := State.resolve_eq_some hr
    rw [State.withEvent_some hr] at h
    have hx := hk i m hs (.initial hg hm ha)
    refine Run.Ends.finish ?_ h
    cases hki : k i with
    | ok a u =>
      rw [hki] at hx
      exact Serving.keeps_nctx hx hg hf
    | fault r u =>
      rw [hki] at hx
      exact hx

/-- The activity indicator (44_interrupt_dispatch.md R323). -/
theorem Serving.indicate (h : Serving s₀ i m₀ out s) (hs : m₀.started = true) :
    (indicate i s).Ends s₀ fun _ t => Serving s₀ i m₀ out t := by
  obtain ⟨m, hm, -, hc⟩ := h.slot
  obtain ⟨-, -, hcfg, -⟩ := CanModule.control_eq_iff.mp hc
  simp only [Machine.indicate, hm, Run.ends_ok]
  split
  · next hled => exact h.append hs (b := .act) (by simpa [NtfBody.slot, ← hcfg] using hled)
  · exact h

/-- The delivery of a legal Message (44_interrupt_dispatch.md R320). -/
theorem Serving.deliver {msg : Message} (h : Serving s₀ i m₀ out s) (hs : m₀.started = true)
    (hmsg : msg.legal = true) : (deliver i msg s).Ends s₀ fun _ t => Serving s₀ i m₀ out t := by
  unfold Machine.deliver
  split
  · exact h.emit hs _
  · refine (h.onSlot (rxPush_serves hmsg)).andThen fun r u hu => ?_
    cases r with
    | pushed => exact hu
    | dropped => exact Serving.emit hu hs _

theorem Serving.receive (h : Serving s₀ i m₀ out s) (hs : m₀.started = true) (a : DrvAnswer) :
    (receive i a s).Ends s₀ fun _ t => Serving s₀ i m₀ out t := by
  unfold Machine.receive
  split
  · next hok =>
    refine (h.onSlot (countStat_serves _)).andThen fun _ u hu => ?_
    exact (Serving.indicate hu hs).andThen fun _ v hv => hv.deliver hs hok
  · exact ⟨rfl, h.emits⟩

theorem Serving.reportCompletion (h : Serving s₀ i m₀ out s) (hs : m₀.started = true)
    (was : Mailbox) : (reportCompletion i was s).Ends s₀ fun _ t => Serving s₀ i m₀ out t := by
  unfold Machine.reportCompletion
  split
  · exact (h.onSlot (countStat_serves _)).andThen fun _ u hu => Serving.emit hu hs _
  · exact h

theorem Serving.reportError (h : Serving s₀ i m₀ out s) (hs : m₀.started = true) (c : Word) :
    Serving s₀ i m₀ out (reportError i c s) := by
  unfold Machine.reportError
  split
  · exact (h.emit hs _).emit hs _
  · exact h.emit hs _

theorem execEvtRxPending_keeps {b : Byte} {fifo : BitVec 1} (hg : s.Good) (hf : s.fault = none)
    (h : execEvtRxPending b fifo s = .next t) : StepKeeps s t := by
  refine State.withEvent_keeps hg hf (fun i m hs hi => ?_) h
  have hr := hi.request (.getRx b fifo)
  split
  · exact hr.receive hs _
  · exact hr.emit hs _

theorem execEvtTxComplete_keeps {b mb : Byte} (hg : s.Good) (hf : s.fault = none)
    (hmb : mb.toNat < s.params.numMb) (h : execEvtTxComplete b mb s = .next t) : StepKeeps s t := by
  refine State.withEvent_keeps hg hf (fun i m hs hi => ?_) h
  refine (hi.onSlot (completeMb_serves hmb)).andThen fun was u hu => ?_
  refine (Serving.reportCompletion hu hs was).andThen fun _ v hv => ?_
  exact (hv.submitNextIsr hs).andThen fun _ w hw => hw

theorem execEvtError_keeps {b : Byte} (hg : s.Good) (hf : s.fault = none)
    (h : execEvtError b s = .next t) : StepKeeps s t := by
  refine State.withEvent_keeps hg hf (fun i m hs hi => ?_) h
  exact ((hi.request (.errorCode b)).onSlot (countStat_serves _)).andThen fun _ u hu =>
    Serving.reportError hu hs _

/-! ## The phases of a submission in the normal context -/

/-- At a phase of a submission the step works on the Module of the command in progress. -/
theorem State.Good.serving_nctx (hg : s.Good) (hp : s.nctx.phase ≠ .idle) :
    ∃ m, m.started = true ∧
      Serving s s.nctx.h.toNat m (heldOf s.nctx s.nctx.h.toNat).toList s := by
  obtain ⟨⟨m, hm, ha, hs⟩, -⟩ := State.busyOk_iff.mp (State.busyOk_of_nctxOk hg.nctx hp)
  exact ⟨m, hs, .initial hg hm ha⟩

/-- The normal context goes idle: the command in progress answers (10_state.md R55). -/
theorem Serving.complete_keeps (h : Serving s₀ i m₀ [] s) (hg : s₀.Good) (hf : s₀.fault = none)
    (hp : u.params = s.params) (hm : u.modules = s.modules) (hfu : u.fault = s.fault)
    (hntf : u.ntf = s.ntf) (hheld : u.nctx.held = none)
    (hn : ∀ j, j ≠ i → heldOf s₀.nctx j = none) : StepKeeps s₀ u.complete := by
  have hidle : u.complete.nctx.phase = .idle := rfl
  refine h.keeps hg hf hp hm hfu hntf ?_ (fun j hj => ?_) ?_
  · rw [heldOf_idle hidle]
    rfl
  · rw [heldOf_idle hidle, hn j hj]
  · exact State.nctxOk_iff.mpr (.inl ⟨hidle, hheld⟩)

/-- The normal context goes on to ask for a free mailbox or to dequeue, with no Entry held. -/
theorem Serving.unheld_keeps (h : Serving s₀ i m₀ [] s) (hg : s₀.Good) (hf : s₀.fault = none)
    (hp : t.params = s.params) (hm : t.modules = s.modules) (hft : t.fault = s.fault)
    (hntf : t.ntf = s.ntf) (hph : t.nctx.phase = .subQuery ∨ t.nctx.phase = .subDeq)
    (hheld : t.nctx.held = none) (hn : ∀ j, j ≠ i → heldOf s₀.nctx j = none)
    (hb : t.busyOk = true) : StepKeeps s₀ t := by
  refine h.keeps hg hf hp hm hft hntf ?_ (fun j hj => ?_)
    (State.nctxOk_iff.mpr (.inr (.inl ⟨hph, hb, hheld⟩)))
  · rw [heldOf_query_or_deq hph]
    rfl
  · rw [heldOf_query_or_deq hph, hn j hj]

/-- The submission a TRANSMIT or a START begins is a legal point of the normal context
(10_state.md R55). -/
theorem State.nctxOk_submission {b : Byte} {drain : Bool} (hm : t.slot? b.toNat = some m)
    (ha : m.allocated = true) (hs : m.started = true)
    (hn : t.nctx = Nctx.submission (if drain then opStart else opTransmit) b drain) :
    t.nctxOk = true :=
  State.nctxOk_iff.mpr (.inr (.inl ⟨.inl (by rw [hn]; rfl),
    State.busyOk_iff.mpr ⟨⟨m, by rw [hn]; exact hm, ha, hs⟩, by rw [hn]; rfl, by rw [hn]; rfl⟩,
    by rw [hn]; rfl⟩))

/-- A submission begins on the started Module at work: TRANSMIT's, or the next of START's drain loop
(40_priority_queue.md R180, 43_module.md R280). -/
theorem Serving.submission_keeps {b : Byte} {drain : Bool} (h : Serving s₀ b.toNat m₀ [] s)
    (hg : s₀.Good) (hf : s₀.fault = none) (hs : m₀.started = true) (hp : t.params = s.params)
    (hm : t.modules = s.modules) (hft : t.fault = s.fault) (hntf : t.ntf = s.ntf)
    (hnc : t.nctx = Nctx.submission (if drain then opStart else opTransmit) b drain)
    (hn : ∀ j, j ≠ b.toNat → heldOf s₀.nctx j = none) : StepKeeps s₀ t := by
  obtain ⟨m, hmb, -, hc⟩ := h.slot
  obtain ⟨ha', hs', -⟩ := CanModule.control_eq_iff.mp hc
  have hok := State.nctxOk_submission ((State.slot?_congr hp hm _).trans hmb) (ha'.trans h.claimed)
    (hs'.trans hs) hnc
  exact h.unheld_keeps hg hf hp hm hft hntf (.inl (by rw [hnc]; rfl)) (by rw [hnc]; rfl) hn
    (State.busyOk_of_nctxOk hok (by simp [hnc, Nctx.submission]))

/-- The normal context goes on to the add request or to the release, with Entry `e` held. -/
theorem Serving.held_keeps {e : Nat} (h : Serving s₀ i m₀ [e] s) (hg : s₀.Good)
    (hf : s₀.fault = none) (hp : t.params = s.params) (hm : t.modules = s.modules)
    (hft : t.fault = s.fault) (hntf : t.ntf = s.ntf)
    (hph : t.nctx.phase = .subAdd ∨ t.nctx.phase = .subFree) (hh : t.nctx.h.toNat = i)
    (hheld : t.nctx.held = some e) (hn : ∀ j, j ≠ i → heldOf s₀.nctx j = none)
    (hb : t.busyOk = true) : StepKeeps s₀ t := by
  obtain ⟨m, -, hs, -⟩ := h.slot
  obtain ⟨en, hen⟩ := hs.queues.isSome_of_mem (e := e) (by simp)
  have hlt := (liveEntry?_eq_some.mp hen).1.trans_le s.params.poolCap_le_entryBits
  refine h.keeps hg hf hp hm hft hntf ?_ (fun j hj => ?_)
    (State.nctxOk_iff.mpr (.inr (.inr ⟨hph, hb, e, hheld, hp ▸ hlt⟩)))
  · rw [heldOf_add_or_free hph, if_pos hh, hheld]
    rfl
  · rw [heldOf_add_or_free hph, if_neg (fun he => hj (he.symm.trans hh)), hn j hj]

/-- The command in progress, its Module still its own, is still in progress in another phase. -/
theorem Serving.busyOk (h : Serving s₀ i m₀ out s) (hb : s₀.busyOk = true)
    (hp : t.params = s.params) (hm : t.modules = s.modules)
    (hn : { t.nctx with phase := s₀.nctx.phase, held := s₀.nctx.held } = s₀.nctx) :
    t.busyOk = true := by
  refine State.busyOk_of_control hb (congrArg Nctx.h hn :) (congrArg Nctx.pend hn :)
    (congrArg Nctx.op hn :) (congrArg Nctx.drain hn :) fun j m hj => ?_
  rw [State.slot?_congr hp hm]
  exact h.control j m hj

/-- Phase SUB_QUERY (42_mailbox_tracker.md R231). -/
theorem phaseQuery_keeps (hg : s.Good) (hf : s.fault = none) (hp : s.nctx.phase = .subQuery)
    (h : (phaseQuery s).finish = .next t) : StepKeeps s t := by
  have hbusy : s.busyOk = true := State.busyOk_of_nctxOk hg.nctx (by simp [hp])
  have hheld : s.nctx.held = none := by simpa [State.nctxOk_iff, hp, hbusy] using hg.nctx
  have hn : ∀ j, heldOf s.nctx j = none := heldOf_query_or_deq (.inl hp)
  obtain ⟨m, -, hsv⟩ := hg.serving_nctx (by simp [hp])
  rw [hn, Option.toList_none] at hsv
  refine Run.Ends.finish ?_ h
  obtain ⟨m', hm', -⟩ := hsv.slot
  simp only [phaseQuery, hm']
  refine (hsv.drvFreeMb m'.cfg.periph).andThen fun n u hu => ?_
  have hnc := hu.only.nctx
  split
  · exact hu.complete_keeps hg hf rfl rfl rfl rfl (by rw [hnc, hheld]) fun j _ => hn j
  · exact hu.unheld_keeps hg hf rfl rfl rfl rfl (.inr rfl) (by simp [hnc, hheld]) (fun j _ => hn j)
      (hu.busyOk hbusy rfl rfl (by simp [hnc]))

/-- Phase SUB_DEQ (42_mailbox_tracker.md R231). -/
theorem phaseDeq_keeps (hg : s.Good) (hf : s.fault = none) (hp : s.nctx.phase = .subDeq)
    (h : (phaseDeq s).finish = .next t) : StepKeeps s t := by
  have hbusy : s.busyOk = true := State.busyOk_of_nctxOk hg.nctx (by simp [hp])
  have hheld : s.nctx.held = none := by simpa [State.nctxOk_iff, hp, hbusy] using hg.nctx
  have hn : ∀ j, heldOf s.nctx j = none := heldOf_query_or_deq (.inr hp)
  obtain ⟨m, -, hsv⟩ := hg.serving_nctx (by simp [hp])
  rw [hn, Option.toList_none] at hsv
  refine Run.Ends.finish ?_ h
  refine (hsv.onSlot dequeueHighest_serves).andThen fun o u hu => ?_
  have hnc := hu.only.nctx
  cases o with
  | none =>
    exact Serving.complete_keeps hu hg hf rfl rfl rfl rfl (by rw [hnc, hheld]) fun j _ => hn j
  | some e =>
    exact Serving.held_keeps hu hg hf rfl rfl rfl rfl (.inl rfl) (by simp [hnc]) rfl
      (fun j _ => hn j)
      (hu.busyOk hbusy rfl rfl (by simp [hnc]))

/-- Between the dequeue and the release the step works on the Module whose Entry is held. -/
theorem State.Good.serving_held (hg : s.Good)
    (hp : s.nctx.phase = .subAdd ∨ s.nctx.phase = .subFree) :
    ∃ e m, s.nctx.held = some e ∧ m.started = true ∧ Serving s s.nctx.h.toNat m [e] s ∧
      ∀ j, j ≠ s.nctx.h.toNat → heldOf s.nctx j = none := by
  have hne : s.nctx.phase ≠ .idle := by rcases hp with hp | hp <;> simp [hp]
  obtain ⟨⟨e, he⟩, -⟩ :=
    State.heldNamed_of_add_or_free (State.heldNamed_of_nctxOk hg.nctx) hp
  obtain ⟨m, hs, hsv⟩ := hg.serving_nctx hne
  rw [heldOf_add_or_free hp, if_pos rfl, he] at hsv
  exact ⟨e, m, he, hs, hsv, fun j hj => by rw [heldOf_add_or_free hp, if_neg hj.symm]⟩

/-- Phase SUB_ADD (42_mailbox_tracker.md R231). -/
theorem phaseAdd_keeps (hg : s.Good) (hf : s.fault = none) (hp : s.nctx.phase = .subAdd)
    (h : (phaseAdd s).finish = .next t) : StepKeeps s t := by
  have hbusy : s.busyOk = true := State.busyOk_of_nctxOk hg.nctx (by simp [hp])
  obtain ⟨e, m, he, hs, hsv, hn⟩ := hg.serving_held (.inl hp)
  refine Run.Ends.finish ?_ h
  simp only [phaseAdd, he]
  refine (hsv.addTx hs).andThen fun _ u hu => ?_
  have hnc := hu.only.nctx
  exact hu.held_keeps hg hf rfl rfl rfl rfl (.inr rfl) (by simp [hnc]) (by simp [hnc, he]) hn
    (hu.busyOk hbusy rfl rfl (by simp [hnc]))

/-- Phase SUB_FREE: TRANSMIT answers, START begins its next iteration (43_module.md R280). -/
theorem phaseFree_keeps (hg : s.Good) (hf : s.fault = none) (hp : s.nctx.phase = .subFree)
    (h : (phaseFree s).finish = .next t) : StepKeeps s t := by
  obtain ⟨e, m, he, hs, hsv, hn⟩ := hg.serving_held (.inr hp)
  refine Run.Ends.finish ?_ h
  simp only [phaseFree, he]
  refine (hsv.onSlot freeEntry_serves).andThen fun _ u hu => ?_
  have hnc : u.nctx = s.nctx := hu.only.nctx
  simp only [submissionAttempted, State.setHeld_nctx, hnc, Run.ends_ok]
  split
  · exact Serving.submission_keeps (drain := true) hu hg hf hs rfl rfl rfl rfl rfl hn
  · exact Serving.complete_keeps hu hg hf rfl rfl rfl rfl rfl hn

theorem normalStep_keeps (hg : s.Good) (hf : s.fault = none) (h : normalStep s = .next t) :
    StepKeeps s t := by
  unfold normalStep at h
  split at h
  · cases h
    exact .of_sameBlock hg hf (.refl s) rfl
  · next hp => exact phaseQuery_keeps hg hf hp h
  · next hp => exact phaseDeq_keeps hg hf hp h
  · next hp => exact phaseAdd_keeps hg hf hp h
  · next hp => exact phaseFree_keeps hg hf hp h

end Sys2Proof.Machine

/-! The commands keep the invariant (30_encoding.md R118). -/

namespace Sys2Proof.Machine

variable {s t u s₀ : State} {i : Nat} {m m₀ : CanModule} {out : List Nat}

/-! ## Commands -/

/-- A command that answers, and may have made requests. -/
theorem State.reply_keeps {r : Response} (hg : s.Good) (hf : s.fault = none) (hb : SameBlock s u)
    (hn : u.ntf = s.ntf) (h : u.reply r = .next t) : StepKeeps s t := by
  cases h
  exact .of_sameBlock hg hf ⟨hb.params, hb.modules, hb.nctx, hb.fault, hb.turns⟩ hn

/-- A command on a handle works on the allocated Module the handle names, or answers InvalidHandle
(60_exceptions.md R402). -/
theorem State.withHandle_keeps {b : Byte} {k : CanModule → Host.Outcome State Fault Refusal}
    (hg : s.Good) (hf : s.fault = none)
    (hk : ∀ m, s.slot? b.toNat = some m → m.allocated = true → k m = .next t → StepKeeps s t)
    (h : s.withHandle b k = .next t) : StepKeeps s t := by
  cases hc : s.claimed? b with
  | none =>
    rw [State.withHandle_none hc] at h
    exact State.reply_keeps hg hf (.refl s) rfl h
  | some m =>
    rw [State.withHandle_some hc] at h
    obtain ⟨hm, ha⟩ := State.claimed?_eq_some.mp hc
    exact hk m hm ha h

/-- A command in the idle block works on a Module that has no Entry held. -/
theorem Serving.initial_idle (hg : s.Good) (hi : s.nctx.phase = .idle) (hm : s.slot? i = some m)
    (ha : m.allocated = true) : Serving s i m [] s := by
  simpa [heldOf_idle hi] using Serving.initial hg hm ha

/-- A command that has worked on its Module in the idle block and leaves `nctx`. -/
theorem Serving.keeps_idle (h : Serving s₀ i m₀ [] s) (hg : s₀.Good) (hf : s₀.fault = none)
    (hi : s₀.nctx.phase = .idle) : StepKeeps s₀ s := by
  have hnone : (heldOf s₀.nctx i).toList = [] := by rw [heldOf_idle hi]; rfl
  exact Serving.keeps_nctx (hnone ▸ h) hg hf

theorem Serving.answer (h : Serving s₀ i m₀ out s) (r : Response) :
    Serving s₀ i m₀ out (s.answer r) :=
  h.ofSame ⟨rfl, rfl, rfl, rfl, rfl⟩ (h.emits.congr rfl)

/-- A command in the idle block that writes a Module slot whole: the slot written is in order, and
its peripheral, if it is allocated, is no other Module's. -/
theorem State.Good.writeSlot_keeps (hg : s.Good) (hf : s.fault = none) (hi : s.nctx.phase = .idle)
    (hm : s.slot? i = some m₀) (hp : t.params = s.params) (hmod : t.modules = s.modules.set i m)
    (hft : t.fault = s.fault) (hntf : t.ntf = s.ntf) (hs : m.Sound s.params [])
    (hper : ∀ j m', j ≠ i → s.slot? j = some m' → m'.allocated = true → m.allocated = true →
      m'.cfg.periph ≠ m.cfg.periph)
    (hheld : ∀ j, heldOf t.nctx j = none) (hn : t.nctxOk = true) : StepKeeps s t := by
  have hslot : ∀ j, t.slot? j = (s.setSlot i m).slot? j := State.slot?_congr hp hmod
  refine ⟨State.inv_of_good (hft.trans hf) (hg.replace (i := i) (m := m) hp (by simp [hmod])
    (fun j hj => (hslot j).trans (State.slot?_setSlot_ne hj))
    ((hslot i).trans (State.slot?_setSlot_self hm)) ?_ hper (fun j _ => ?_) hn), .of_eq hntf⟩
  · rw [hheld]
    exact hs
  · rw [hheld, heldOf_idle hi]

/-- A command in the idle block that writes control fields of an allocated Module, but not its
peripheral, and leaves `nctx`. -/
theorem State.Good.writeControl_keeps (hg : s.Good) (hf : s.fault = none)
    (hi : s.nctx.phase = .idle) (hm : s.slot? i = some m₀) (ha : m₀.allocated = true)
    (hp : t.params = s.params) (hmod : t.modules = s.modules.set i m) (hft : t.fault = s.fault)
    (hntf : t.ntf = s.ntf) (hs : m.Sound s.params []) (hcfg : m.cfg = m₀.cfg)
    (hnc : t.nctx = s.nctx) : StepKeeps s t := by
  refine hg.writeSlot_keeps hf hi hm hp hmod hft hntf hs (fun j m' hj hm' ha' _ => ?_)
    (fun j => heldOf_idle (hnc ▸ hi) j) ?_
  · rw [hcfg]
    exact hg.periph_ne hm ha j m' hj hm' ha'
  · simpa [State.nctxOk_iff, hnc, hi] using hg.nctx

/-- What `started` and the callback enables of an allocated Module are is no part of its being in
order. -/
theorem CanModule.Sound.setControl {p : Params} {b : Bool} {c : CbEnables} (h : m.Sound p out)
    (ha : m.allocated = true) : ({ m with started := b, cbEn := c } : CanModule).Sound p out :=
  { h with
    queues := h.queues.congr rfl rfl rfl rfl
    lifecycle := by
      rcases CanModule.lifecycleOk_iff.mp h.lifecycle with hl | ⟨hn, -⟩
      · exact CanModule.lifecycleOk_iff.mpr (.inl hl)
      · rw [ha] at hn
        cases hn }

theorem State.Good.sound_idle (hg : s.Good) (hi : s.nctx.phase = .idle) (hm : s.slot? i = some m) :
    m.Sound s.params [] := by
  simpa [heldOf_idle hi] using hg.sound hm

/-! ### ALLOCATE, STOP and FREE -/

theorem State.lowestFree?_eq_some (h : s.lowestFree? = some i) : ∃ m, s.slot? i = some m := by
  obtain ⟨hi, -, -⟩ := List.findIdx?_eq_some_iff_getElem.mp h
  simp only [List.length_take, Nat.lt_min] at hi
  exact ⟨_, State.slot?_eq_some.mpr ⟨hi.1, List.getElem?_eq_getElem hi.2⟩⟩

theorem State.periph_ne_of_not_claimed {b : Byte} (h : s.periphClaimed b = false) (j : Nat)
    (m : CanModule) (hm : s.slot? j = some m) (ha : m.allocated = true) : m.cfg.periph ≠ b := by
  obtain ⟨hj, hget⟩ := State.slot?_eq_some.mp hm
  have hmem : m ∈ s.modules.take s.params.nInst :=
    List.mem_of_getElem? (i := j) (by rw [List.getElem?_take]; simp [hj, hget])
  simp only [State.periphClaimed, List.any_eq_false] at h
  simpa [ha] using h m hmem

theorem execAllocate_keeps {b : Byte} {lb sil artx led : Bool} (hg : s.Good) (hf : s.fault = none)
    (hi : s.nctx.phase = .idle) (h : execAllocate b lb sil artx led s = .next t) :
    StepKeeps s t := by
  unfold execAllocate at h
  split at h
  · exact State.reply_keeps hg hf (.refl s) rfl h
  · next hb =>
    split at h
    · exact State.reply_keeps hg hf (.refl s) rfl h
    · next hc =>
      split at h
      · exact State.reply_keeps hg hf (.refl s) rfl h
      · next i hl =>
        cases h
        have hc : s.periphClaimed b = false := by simpa using hc
        obtain ⟨m, hm⟩ := State.lowestFree?_eq_some hl
        exact hg.writeSlot_keeps hf hi hm rfl rfl rfl rfl
          (claimedModule_sound (Nat.lt_of_not_le hb))
          (fun j m' _ hm' ha _ => State.periph_ne_of_not_claimed hc j m' hm' ha)
          (fun j => heldOf_idle hi j) (by simpa [State.nctxOk_iff, hi] using hg.nctx)

theorem execStop_keeps {b : Byte} (hg : s.Good) (hf : s.fault = none) (hi : s.nctx.phase = .idle)
    (h : execStop b s = .next t) : StepKeeps s t := by
  refine State.withHandle_keeps hg hf (fun m hm ha h => ?_) h
  split at h
  · cases h
    exact hg.writeControl_keeps hf hi hm ha rfl rfl rfl rfl
      ((hg.sound_idle hi hm).setControl ha) rfl rfl
  · exact State.reply_keeps hg hf (.refl s) rfl h

theorem execFree_keeps {b : Byte} (hg : s.Good) (hf : s.fault = none) (hi : s.nctx.phase = .idle)
    (h : execFree b s = .next t) : StepKeeps s t := by
  have hzero : ∀ m, s.slot? b.toNat = some m → ∀ u : State, u.params = s.params →
      u.modules = s.modules.set b.toNat (.zero s.params) → u.fault = s.fault → u.ntf = s.ntf →
      u.nctx = s.nctx → StepKeeps s u := fun m hm u hp hmod hfu hntf hnc =>
    hg.writeSlot_keeps hf hi hm hp hmod hfu hntf (CanModule.zero_sound _)
      (fun _ _ _ _ _ hz => by cases hz) (fun j => heldOf_idle (hnc ▸ hi) j)
      (by simpa [State.nctxOk_iff, hnc, hi] using hg.nctx)
  refine State.withHandle_keeps hg hf (fun m hm _ h => ?_) h
  split at h
  · cases h
    exact hzero m hm _ rfl (by simp [stopSequence]) rfl rfl rfl
  · cases h
    exact hzero m hm _ rfl rfl rfl rfl rfl

/-! ### START -/

/-- Programming staged filters does not fault (43_module.md R281). -/
theorem programFilters_ok {n k : Nat} (h : k + n ≤ s.params.maxFilters)
    (hl : m.flt.length = s.params.maxFilters) : ∃ b t, programFilters m n k s = .ok b t := by
  induction n generalizing k s with
  | zero => exact ⟨true, s, rfl⟩
  | succ n ih =>
    have hk : k < s.params.maxFilters := by omega
    have hget := List.getElem?_eq_getElem (hl.symm ▸ hk : k < m.flt.length)
    simp only [programFilters, readAt_of_lt hk, hget]
    split
    · exact ih (s := s.request (.configFilter m.cfg.periph k _)) (by simp; omega) hl
    · exact ⟨false, _, rfl⟩

theorem startPeripheral_sameBlock (m : CanModule) (s : State) :
    ∃ b t, startPeripheral m s = .ok b t ∧ SameBlock s t ∧ t.ntf = s.ntf := by
  simp only [startPeripheral]
  split
  · exact ⟨_, _, rfl, (SameBlock.refl s).request _, rfl⟩
  · split
    · exact ⟨_, _, rfl, (((SameBlock.refl s).request _).request _).request _, rfl⟩
    · exact ⟨_, _, rfl, ((SameBlock.refl s).request _).request _, rfl⟩

theorem SameBlock.trans (h : SameBlock s t) (h' : SameBlock t u) : SameBlock s u :=
  ⟨h'.params.trans h.params, h'.modules.trans h.modules, h'.nctx.trans h.nctx,
    h'.fault.trans h.fault, h'.turns.trans h.turns⟩

/-- START's driver sequence makes requests and nothing else (43_module.md R280 to R282). -/
theorem startSequence_sameBlock (hs : m.Sound s.params out) :
    ∃ b t, startSequence m s = .ok b t ∧ SameBlock s t ∧ t.ntf = s.ntf := by
  obtain ⟨b, u, hu⟩ := programFilters_ok (s := s) (m := m) (n := m.fltCount) (k := 0)
    (by simpa using hs.fltCount) hs.fltLen
  obtain ⟨hb, -, hn⟩ := programFilters_sameBlock hu
  simp only [startSequence, hu, Run.andThen_ok]
  split
  · obtain ⟨b', v, hv, hb', hn'⟩ := startPeripheral_sameBlock m u
    exact ⟨b', v, hv, hb.trans hb', hn'.trans hn⟩
  · exact ⟨false, u, rfl, hb, hn⟩

theorem execStart_keeps {b : Byte} (hg : s.Good) (hf : s.fault = none) (hi : s.nctx.phase = .idle)
    (h : execStart b s = .next t) : StepKeeps s t := by
  refine State.withHandle_keeps hg hf (fun m hm ha h => ?_) h
  split at h
  · exact State.reply_keeps hg hf (.refl s) rfl h
  · have hs := hg.sound_idle hi hm
    obtain ⟨ok, u, hu, hb, hn⟩ := startSequence_sameBlock hs
    rw [hu, Run.andThen_ok] at h
    split at h
    · cases h
      have hmu : u.slot? b.toNat = some m := (hb.slot? _).trans hm
      refine hg.writeSlot_keeps hf hi hm (m := { m with started := true }) hb.params
        (by simp [hb.modules]) hb.fault hn (hs.setControl ha)
        (fun j m' hj hm' ha' _ => hg.periph_ne hm ha j m' hj hm' ha')
        (fun j => heldOf_query_or_deq (.inl rfl) j) ?_
      exact State.nctxOk_submission (drain := true) (State.slot?_setSlot_self hmu) ha rfl rfl
    · exact State.reply_keeps hg hf hb hn h

/-! ### The commands on the queues, the ring and the filters -/

theorem execAddFilter_keeps {b : Byte} {fifo : BitVec 1} {id mask : CanId} {ide : Bool}
    (hg : s.Good) (hf : s.fault = none) (hi : s.nctx.phase = .idle)
    (h : execAddFilter b fifo id ide mask s = .next t) : StepKeeps s t := by
  refine State.withHandle_keeps hg hf (fun m hm ha h => ?_) h
  split at h
  · exact State.reply_keeps hg hf (.refl s) rfl h
  · next hok =>
    split at h
    · exact State.reply_keeps hg hf (.refl s) rfl h
    · refine Run.Ends.finish ?_ h
      refine ((Serving.initial_idle hg hi hm ha).onSlot
        (stageFilter_serves (by simpa [RxFilter.legal] using hok))).andThen fun r u hu => ?_
      exact (Serving.answer hu _).keeps_idle hg hf hi

theorem execRxRead_keeps {b : Byte} (hg : s.Good) (hf : s.fault = none) (hi : s.nctx.phase = .idle)
    (h : execRxRead b s = .next t) : StepKeeps s t := by
  refine State.withHandle_keeps hg hf (fun m hm ha h => Run.Ends.finish ?_ h) h
  refine ((Serving.initial_idle hg hi hm ha).onSlot rxPop_serves).andThen fun o u hu => ?_
  cases o <;> exact (Serving.answer hu _).keeps_idle hg hf hi

theorem execAbortTx_keeps {b : Byte} {w : Word} (hg : s.Good) (hf : s.fault = none)
    (hi : s.nctx.phase = .idle) (h : execAbortTx b w s = .next t) : StepKeeps s t := by
  refine State.withHandle_keeps hg hf (fun m hm ha h => Run.Ends.finish ?_ h) h
  have hx := (Serving.initial_idle hg hi hm ha).onSlot (removeByTxId_serves w)
  refine hx.andThen fun o u hu => ?_
  exact (Serving.answer hu _).keeps_idle hg hf hi

/-- TRANSMIT after its checks: it answers, or on a started Module one submission begins
(40_priority_queue.md R180). -/
theorem transmitQueued_keeps {b : Byte} {msg : Message} {w : Word} {l : BitVec 3} (hg : s.Good)
    (hf : s.fault = none) (hi : s.nctx.phase = .idle) (hm : s.slot? b.toNat = some m)
    (ha : m.allocated = true) (hmsg : msg.legal = true) (hl : l.toNat < s.params.numPrio)
    (h : (transmitQueued b m msg w l s).finish = .next t) : StepKeeps s t := by
  refine Run.Ends.finish ?_ h
  have hx := (Serving.initial_idle hg hi hm ha).onSlot (enqueue_serves w hmsg hl)
  refine hx.andThen fun r u hu => ?_
  split
  · exact (Serving.answer hu _).keeps_idle hg hf hi
  · split
    · next hs =>
      exact Serving.submission_keeps (drain := false) hu hg hf hs rfl rfl rfl rfl rfl fun j _ =>
        heldOf_idle hi j
    · exact (Serving.answer hu _).keeps_idle hg hf hi

theorem execTransmit_keeps {b : Byte} {prio : BitVec 3} {w ts : Word} {id : CanId} {ide rtr : Bool}
    {len : BitVec 4} {data : BitVec 64} (hg : s.Good) (hf : s.fault = none)
    (hi : s.nctx.phase = .idle) (h : execTransmit b prio w id ide rtr len data ts s = .next t) :
    StepKeeps s t := by
  refine State.withHandle_keeps hg hf (fun m hm ha h => ?_) h
  split at h
  · next hok =>
    simp only [messageOk, Bool.and_eq_true, decide_eq_true_eq] at hok
    obtain ⟨⟨hprio, hlen⟩, hid⟩ := hok
    exact transmitQueued_keeps hg hf hi hm ha
      (by simp [Message.legal, txMessage, hlen, hid]) hprio h
  · exact State.reply_keeps hg hf (.refl s) rfl h

/-! ### Every instruction -/

/-- The meaning of an instruction keeps the invariant and emits what is enabled: an event at any
point of the normal context, a command in the idle block. -/
theorem exec_keeps {x : Instr} (hg : s.Good) (hf : s.fault = none)
    (hw : x.wellFormed s.params = true) (hi : eventPeriph x = none → s.nctx.phase = .idle)
    (h : exec x s = .next t) : StepKeeps s t := by
  cases x with
  | allocate p lb sil artx led => exact execAllocate_keeps hg hf (hi rfl) h
  | free b => exact execFree_keeps hg hf (hi rfl) h
  | addFilter b fifo id ide mask => exact execAddFilter_keeps hg hf (hi rfl) h
  | start b => exact execStart_keeps hg hf (hi rfl) h
  | stop b => exact execStop_keeps hg hf (hi rfl) h
  | registerCb b kind en =>
    refine State.withHandle_keeps hg hf (fun m hm ha h => ?_) h
    cases h
    exact hg.writeControl_keeps hf (hi rfl) hm ha rfl rfl rfl rfl
      ((hg.sound_idle (hi rfl) hm).setControl ha) rfl rfl
  | transmit b prio txid id ide rtr len data ts => exact execTransmit_keeps hg hf (hi rfl) h
  | abortTx b txid => exact execAbortTx_keeps hg hf (hi rfl) h
  | getOccupancy b =>
    exact State.withHandle_keeps hg hf (fun _ _ _ h => State.reply_keeps hg hf (.refl s) rfl h) h
  | rxRead b => exact execRxRead_keeps hg hf (hi rfl) h
  | getBusState b =>
    exact State.withHandle_keeps hg hf
      (fun _ _ _ h => State.reply_keeps hg hf ((SameBlock.refl s).request _) rfl h) h
  | getErrorCounters b =>
    exact State.withHandle_keeps hg hf
      (fun _ _ _ h => State.reply_keeps hg hf ((SameBlock.refl s).request _) rfl h) h
  | getStats b =>
    exact State.withHandle_keeps hg hf (fun _ _ _ h => State.reply_keeps hg hf (.refl s) rfl h) h
  | evtRxPending b fifo => exact execEvtRxPending_keeps hg hf h
  | evtTxComplete b mb => exact execEvtTxComplete_keeps hg hf (of_decide_eq_true hw) h
  | evtError b => exact execEvtError_keeps hg hf h

end Sys2Proof.Machine

/-! One step of the block, and the statements of 00_scope.md. -/

namespace Sys2Proof.Machine

variable {s t : State}

/-! ## A recorded fault -/

/-- A block with a recorded fault is stuck (00_scope.md R20). -/
theorem step_of_fault {s : State} {r : Fault} (h : s.fault = some r) : step s = .fault r := by
  simp [step, runStep, h]

/-- Settles O11: the first step already stops with the recorded fault. -/
theorem faultIsFinal : Obligations.FaultIsFinal := by
  intro s r h n
  have hs : Sys2Proof.core.step s = .fault r := step_of_fault h
  simp [Host.Core.run, hs]

/-! ## A step of the block -/

/-- An event word decodes to an event (30_encoding.md R120). -/
theorem eventPeriph_of_decodeEvent {w : Word} {x : Instr} (h : decodeEvent w = .ok x) :
    eventPeriph x ≠ none := by
  unfold decodeEvent at h
  split_ifs at h <;> cases h <;> simp [eventPeriph]

theorem instrOf_eq_some {p : Params} {y : PortInput} {x : Instr} (h : instrOf p y = some x) :
    decode y = .ok x ∧ x.wellFormed p = true := by
  unfold instrOf at h
  split at h
  · split at h
    · cases h
      exact ⟨by assumption, by assumption⟩
    · cases h
  · cases h

theorem State.Good.popTurn (hg : s.Good) : s.popTurn.Good :=
  ⟨hg.table, hg.slots, hg.periphs, hg.nctx, hg.boundary⟩

theorem State.Good.takeEvent (hg : s.Good) (w : Word) : (s.takeEvent w).Good :=
  hg.of_sameBlock ⟨rfl, rfl, rfl, rfl, rfl⟩

theorem acceptCommand_keeps {c : CmdRecord} (hg : s.Good) (hf : s.fault = none)
    (hi : s.nctx.phase = .idle) (h : acceptCommand c s = .next t) : StepKeeps s t := by
  unfold acceptCommand at h
  split at h
  · next x hx => exact exec_keeps hg hf (instrOf_eq_some hx).2 (fun _ => hi) h
  · exact State.reply_keeps hg hf (.refl s) rfl h

theorem handleEvent_keeps {w : Word} (hg : s.Good) (hf : s.fault = none)
    (h : handleEvent w s = .next t) : StepKeeps s t := by
  unfold handleEvent at h
  split at h
  · next x hx =>
    obtain ⟨hd, hw⟩ := instrOf_eq_some hx
    exact exec_keeps (s := s.takeEvent w) (hg.takeEvent w) hf hw
      (fun hn => absurd hn (eventPeriph_of_decodeEvent hd)) h
  · cases h
    exact ⟨State.inv_of_driverContract rfl, .of_eq rfl⟩

/-- The environment's turn, whatever it is, keeps the invariant (60_exceptions.md R410). -/
theorem takeTurn_keeps (hg : s.Good) (hf : s.fault = none) (h : takeTurn s = .next t) :
    StepKeeps s t := by
  unfold takeTurn at h
  split at h
  · exact normalStep_keeps hg hf h
  · exact normalStep_keeps (s := s.popTurn) hg.popTurn hf h
  · exact handleEvent_keeps (s := s.popTurn) hg.popTurn hf h
  · split at h
    · next hi => exact acceptCommand_keeps (s := s.popTurn) hg.popTurn hf hi h
    · exact normalStep_keeps hg hf h

/-- The check at the step boundary finds nothing to raise in a state of the invariant
(60_exceptions.md R430). -/
theorem State.Inv.checkBoundary (h : s.Inv) : s.checkBoundary = s := by
  unfold State.checkBoundary
  split
  · rfl
  · next hf =>
    have hg : s.Good := by simpa [State.Inv, hf] using h
    rw [if_pos hg.boundary]

/-- A step from a block with no fault is the environment's turn, and the check at the boundary
after. -/
theorem step_eq_next (hf : s.fault = none) (h : step s = .next t) :
    ∃ u, takeTurn s = .next u ∧ t = u.checkBoundary := by
  simp only [step, runStep, hf] at h
  cases hu : takeTurn s with
  | next u =>
    rw [hu] at h
    cases h
    exact ⟨u, rfl, rfl⟩
  | fault r => rw [hu] at h; cases h
  | refused r => rw [hu] at h; cases h

/-- A step from a good state keeps the invariant, and emits what is enabled. -/
theorem step_keeps (hg : s.Good) (hf : s.fault = none) (h : step s = .next t) : StepKeeps s t := by
  obtain ⟨u, hu, rfl⟩ := step_eq_next hf h
  have hk := takeTurn_keeps hg hf hu
  rwa [hk.1.checkBoundary]

/-- Settles O14: a step is the turn of one context, each of which works on one Module and leaves it
in order; a block with a recorded fault makes no step. -/
theorem everyStepKeepsInvariant : Obligations.EveryStepKeepsInvariant := by
  intro s t hi h
  cases hf : s.fault with
  | some r =>
    rw [step_of_fault hf] at h
    cases h
  | none =>
    have hg : s.Good := by simpa [State.Inv, hf] using hi
    exact (step_keeps hg hf h).1

/-- Settles O59: every part of a step emits through the callback enables of the Module it works on,
which no part that emits writes. -/
theorem notificationsAreEnabled : Obligations.NotificationsAreEnabled :=
  fun _ _ hg hf h => (step_keeps hg hf h).2

end Sys2Proof.Machine

/-! What the driver contract knows after one record more, and the tracker invariant slot by slot
(10_state.md R47). -/

namespace Sys2Proof.Machine

variable {s t u : State} {i : Nat} {m m₀ : CanModule} {ps : Params} {p q : Byte}
  {v v' : PeriphView} {d : DrvRecord} {w : Word}

/-! ## The history, one record longer -/

/-- Every accepted add request has its `tx_id` on record (log 22). -/
def State.Recorded (s : State) : Prop :=
  (s.drvLog.filter DrvRecord.acceptedAdd).length = s.submitted.length

/-- From `s` to `t` the ports have carried the one record `d`; `w` is the `tx_id` submitted when it
is an accepted add request. -/
structure Logs (d : DrvRecord) (w : Word) (s t : State) : Prop where
  params    : t.params = s.params
  log       : t.drvLog = s.drvLog ++ [d]
  submitted : t.submitted = s.submitted ++ if d.acceptedAdd then [w] else []

theorem Logs.recorded (h : Logs d w s t) (hr : s.Recorded) : t.Recorded := by
  simp only [State.Recorded] at hr ⊢
  cases hd : d.acceptedAdd <;> simp [h.log, h.submitted, hd, hr]

/-- Only an accepted add request reads the `tx_id` submitted with it. -/
theorem PeriphView.onRecord_congr {w' : Word} (h : d.acceptedAdd = false) :
    v.onRecord ps p d w = v.onRecord ps p d w' := by
  cases d with
  | event _ => rfl
  | request r a =>
    cases r with
    | addTx _ _ _ =>
      have ha : a.ok = false := h
      simp [PeriphView.onRecord, PeriphView.onRequest, ha]
    | _ => rfl

/-- The contract reads a history record by record. -/
theorem contractView_snoc {l : List DrvRecord} {ts : List Word}
    (h : (l.filter DrvRecord.acceptedAdd).length = ts.length) :
    contractView ps p (l ++ [d]) (ts ++ if d.acceptedAdd then [w] else []) v
      = (contractView ps p l ts v).bind fun v' => v'.onRecord ps p d w := by
  induction l generalizing ts v with
  | nil =>
    obtain rfl : ts = [] := List.length_eq_zero_iff.mp h.symm
    have hw : v.onRecord ps p d ((if d.acceptedAdd then [w] else []).headD 0)
        = v.onRecord ps p d w := by
      cases hd : d.acceptedAdd with
      | true => rfl
      | false => exact PeriphView.onRecord_congr hd
    simp only [List.nil_append, contractView, hw, Option.bind_some]
    cases v.onRecord ps p d w <;> rfl
  | cons d₀ l ih =>
    cases hd : d₀.acceptedAdd with
    | true =>
      cases ts with
      | nil => simp [hd] at h
      | cons w₀ ts =>
        have hl : (l.filter DrvRecord.acceptedAdd).length = ts.length := by simpa [hd] using h
        simp only [List.cons_append, contractView, hd, if_true, List.headD_cons, List.tail_cons]
        cases v.onRecord ps p d₀ w₀ with
        | none => rfl
        | some v₁ => exact ih hl
    | false =>
      have hl : (l.filter DrvRecord.acceptedAdd).length = ts.length := by simpa [hd] using h
      simp only [List.cons_append, contractView, hd, Bool.false_eq_true, if_false]
      rw [PeriphView.onRecord_congr (w' := ts.headD 0) hd]
      cases v.onRecord ps p d₀ (ts.headD 0) with
      | none => rfl
      | some v₁ => exact ih hl

theorem Logs.contractView_eq_some (h : Logs d w s t) (hr : s.Recorded) :
    t.contractView p = some v' ↔
      ∃ v, s.contractView p = some v ∧ v.onRecord s.params p d w = some v' := by
  rw [State.contractView, h.params, h.log, h.submitted, contractView_snoc hr,
    Option.bind_eq_some_iff]
  rfl

theorem State.contractView_congr (hp : t.params = s.params) (hl : t.drvLog = s.drvLog)
    (hs : t.submitted = s.submitted) (p : Byte) : t.contractView p = s.contractView p := by
  rw [State.contractView, State.contractView, hp, hl, hs]

theorem State.Recorded.congr (h : s.Recorded) (hl : t.drvLog = s.drvLog)
    (hs : t.submitted = s.submitted) : t.Recorded := by
  rw [State.Recorded, hl, hs]
  exact h

/-! ## What a record means for the tracker -/

/-- What the tracker invariant reads of a view. -/
def PeriphView.mail (v : PeriphView) : Bool × List (Nat × Word) × List (Nat × Word) :=
  (v.activated, v.live, v.carried)

/-- A request, with its answer, that changes nothing of what the tracker invariant reads: all but an
activation and an accepted transmission that succeed, and a deactivation. -/
def DrvRequest.quiet (a : DrvAnswer) : DrvRequest → Bool
  | .activate _ => !a.ok
  | .deactivate _ => false
  | .addTx _ _ _ => !a.ok
  | .start _ _ _ _ => true
  | .stop _ => true
  | .configFilter _ _ _ => true
  | .getRx _ _ => true
  | .freeMb _ => true
  | .errorCode _ => true
  | .busRegs _ => true

theorem DrvRequest.acceptedAdd_of_quiet {a : DrvAnswer} {r : DrvRequest} (h : r.quiet a = true) :
    (DrvRecord.request r a).acceptedAdd = false := by
  cases r with
  | addTx _ _ _ => simpa [DrvRequest.quiet, DrvRecord.acceptedAdd] using h
  | _ => rfl

theorem DrvRequest.mail_of_quiet {a : DrvAnswer} {r : DrvRequest} (h : r.quiet a = true)
    (hv : v.onRequest ps p r a w = some v') : v'.mail = v.mail := by
  cases r with
  | activate q =>
    have ha : a.ok = false := by simpa [DrvRequest.quiet] using h
    have hvv : v = v' := by simpa [PeriphView.onRequest, ha] using hv
    rw [hvv]
  | deactivate q => cases h
  | addTx q hdr data =>
    have ha : a.ok = false := by simpa [DrvRequest.quiet] using h
    have hvv : v = v' := by simpa [PeriphView.onRequest, ha] using hv
    rw [hvv]
  | freeMb q =>
    simp only [PeriphView.onRequest] at hv
    split_ifs at hv <;> cases hv <;> rfl
  | getRx q fifo =>
    simp only [PeriphView.onRequest] at hv
    split_ifs at hv
    cases hv
    rfl
  | _ => cases hv; rfl

theorem trackerOk.congr (h : trackerOk m v) (ha : m.started = m₀.started) (hb : m.mb = m₀.mb)
    (hv : v'.mail = v.mail) : trackerOk m₀ v' := by
  simp only [PeriphView.mail, Prod.mk.injEq] at hv
  obtain ⟨hact, hlive, hcarried⟩ := hv
  rw [trackerOk, hact, hlive, hcarried, ← ha, ← hb]
  exact h

/-- Taking a mailbox out of a list leaves every other mailbox in it. -/
theorem mem_without_of_ne {l : List (Nat × Word)} {k j : Nat} (h : (j, w) ∈ l) (hj : j ≠ k) :
    (j, w) ∈ without l k := by
  simp [without, h, hj]

/-- A tracker slot recorded with the transmission its mailbox has accepted (42_mailbox_tracker.md
R233). -/
theorem trackerOk.record {k : Nat} {inh : List Nat} (h : trackerOk m v) :
    trackerOk { m with mb := m.mb.set k ⟨true, w⟩ }
      { v with
        live := (k, w) :: without v.live k
        carried := without v.carried k
        inherited := inh } := by
  refine ⟨h.1, fun j slot hj hact => ?_⟩
  by_cases hjk : k = j
  · subst hjk
    obtain ⟨-, rfl⟩ : k < m.mb.length ∧ slot = ⟨true, w⟩ := by
      simpa [List.getElem?_set, eq_comm] using hj
    exact .inl List.mem_cons_self
  · rw [List.getElem?_set_ne hjk] at hj
    exact (h.2 j slot hj hact).imp
      (fun hl => List.mem_cons_of_mem _ (mem_without_of_ne hl (Ne.symm hjk)))
      fun hc => mem_without_of_ne hc (Ne.symm hjk)

/-- A tracker slot cleared with the completion of its mailbox's transmission
(42_mailbox_tracker.md R236). -/
theorem trackerOk.complete {k : Nat} {inh : List Nat} {b : Bool} (h : trackerOk m v) :
    trackerOk { m with mb := m.mb.set k ⟨false, 0⟩ }
      { v with
        live := without v.live k
        carried := without v.carried k
        inherited := inh
        owed := b } := by
  refine ⟨h.1, fun j slot hj hact => ?_⟩
  by_cases hjk : k = j
  · subst hjk
    obtain ⟨-, rfl⟩ : k < m.mb.length ∧ slot = ⟨false, 0⟩ := by
      simpa [List.getElem?_set, eq_comm] using hj
    cases hact
  · rw [List.getElem?_set_ne hjk] at hj
    exact (h.2 j slot hj hact).imp (fun hl => mem_without_of_ne hl (Ne.symm hjk))
      fun hc => mem_without_of_ne hc (Ne.symm hjk)

end Sys2Proof.Machine

/-! The tracker invariant inside a step (10_state.md R47). -/

namespace Sys2Proof.Machine

variable {s t u : State} {i : Nat} {m m₀ : CanModule} {p q : Byte} {v v' : PeriphView}
  {d : DrvRecord} {w : Word}

/-! ## The tracker invariant, slot by slot -/

/-- The tracker invariant inside a step: that of `State.TrackerInv`, slot by slot, and of a good
state the distinct peripherals that it needs. -/
structure State.Tracks (s : State) : Prop where
  table     : s.modules.length = s.params.nInst
  distinct  : ∀ i j m m', i ≠ j → s.slot? i = some m → s.slot? j = some m' →
    m.allocated = true → m'.allocated = true → m.cfg.periph ≠ m'.cfg.periph
  recorded  : s.Recorded
  tracked   : ∀ p v, s.contractView p = some v → ∀ i m, s.slot? i = some m →
    m.allocated = true → m.cfg.periph = p → trackerOk m v
  unclaimed : ∀ p v, s.contractView p = some v →
    (∀ i m, s.slot? i = some m → m.allocated = true → m.cfg.periph ≠ p) → v.activated = false

theorem State.mem_modules_iff (hl : s.modules.length = s.params.nInst) :
    m ∈ s.modules ↔ ∃ i, s.slot? i = some m := by
  constructor
  · intro hm
    obtain ⟨i, hi⟩ := List.mem_iff_getElem?.mp hm
    exact ⟨i, State.slot?_eq_some.mpr ⟨hl ▸ (List.getElem?_eq_some_iff.mp hi).1, hi⟩⟩
  · rintro ⟨i, hi⟩
    exact State.mem_of_slot? hi

theorem State.Good.tracks (hg : s.Good) (ht : s.TrackerInv) : s.Tracks where
  table := hg.table
  distinct := (State.claimedPeriphs_nodup_iff hg.table).mp hg.periphs
  recorded := ht.recorded
  tracked := fun p v hv _ m hm => (ht.tracked p v hv).1 m (State.mem_of_slot? hm)
  unclaimed := fun p v hv hn => (ht.tracked p v hv).2 fun m hm => by
    obtain ⟨i, hi⟩ := (State.mem_modules_iff hg.table).mp hm
    exact hn i m hi

theorem State.Tracks.trackerInv (h : s.Tracks) : s.TrackerInv where
  recorded := h.recorded
  tracked := fun p v hv => by
    refine ⟨fun m hm => ?_, fun hn => h.unclaimed p v hv fun i m hm => hn m (State.mem_of_slot? hm)⟩
    obtain ⟨i, hi⟩ := (State.mem_modules_iff h.table).mp hm
    exact h.tracked p v hv i m hi

/-! ## What leaves the trackers as they are -/

/-- What the tracker invariant reads of a Module. -/
def CanModule.tracking (m : CanModule) : Bool × Bool × Byte × List Mailbox :=
  (m.allocated, m.started, m.cfg.periph, m.mb)

theorem CanModule.tracking_eq_iff :
    m.tracking = m₀.tracking ↔ m.allocated = m₀.allocated ∧ m.started = m₀.started ∧
      m.cfg.periph = m₀.cfg.periph ∧ m.mb = m₀.mb := by
  simp [CanModule.tracking]

/-- No tracker, and nothing of a Module's claim, differs. -/
structure SameTrackers (s t : State) : Prop where
  params : t.params = s.params
  length : t.modules.length = s.modules.length
  slots  : ∀ j, (t.slot? j).map CanModule.tracking = (s.slot? j).map CanModule.tracking

theorem SameTrackers.of_modules (hp : t.params = s.params) (hm : t.modules = s.modules) :
    SameTrackers s t :=
  ⟨hp, by rw [hm], fun j => by rw [State.slot?_congr hp hm]⟩

/-- Writing a slot with the tracker and the claim it had. -/
theorem SameTrackers.setSlot (hm₀ : s.slot? i = some m₀) (hm : m.tracking = m₀.tracking) :
    SameTrackers s (s.setSlot i m) := by
  refine ⟨rfl, by simp, fun j => ?_⟩
  by_cases hj : j = i
  · subst hj
    rw [State.slot?_setSlot_self hm₀, hm₀, Option.map_some, Option.map_some, hm]
  · rw [State.slot?_setSlot_ne hj]

theorem SameTrackers.symm (h : SameTrackers s t) : SameTrackers t s :=
  ⟨h.params.symm, h.length.symm, fun j => (h.slots j).symm⟩

theorem SameTrackers.slot (h : SameTrackers s t) {j : Nat} (hm : t.slot? j = some m) :
    ∃ m₀, s.slot? j = some m₀ ∧ m.allocated = m₀.allocated ∧ m.started = m₀.started ∧
      m.cfg.periph = m₀.cfg.periph ∧ m.mb = m₀.mb := by
  have hj := h.slots j
  rw [hm, Option.map_some, eq_comm, Option.map_eq_some_iff] at hj
  obtain ⟨m₀, hm₀, htr⟩ := hj
  exact ⟨m₀, hm₀, CanModule.tracking_eq_iff.mp htr.symm⟩

/-- A part of a step that leaves the trackers, and after which the contract's views are as before in
what the tracker invariant reads, or broken. -/
theorem State.Tracks.quiet (h : s.Tracks) (hs : SameTrackers s t) (hr : t.Recorded)
    (hv : ∀ p v', t.contractView p = some v' → ∃ v, s.contractView p = some v ∧ v'.mail = v.mail) :
    t.Tracks where
  table := by rw [hs.length, hs.params, h.table]
  distinct := fun j k mj mk hjk hmj hmk haj hak => by
    obtain ⟨nj, hnj, haj', -, hpj, -⟩ := hs.slot hmj
    obtain ⟨nk, hnk, hak', -, hpk, -⟩ := hs.slot hmk
    rw [hpj, hpk]
    exact h.distinct j k nj nk hjk hnj hnk (haj' ▸ haj) (hak' ▸ hak)
  recorded := hr
  tracked := fun p v' hv' j mj hmj haj hpj => by
    obtain ⟨v, hvs, hmail⟩ := hv p v' hv'
    obtain ⟨nj, hnj, haj', hsj, hpj', hmb⟩ := hs.slot hmj
    exact (h.tracked p v hvs j nj hnj (haj' ▸ haj) (hpj' ▸ hpj)).congr hsj.symm hmb.symm hmail
  unclaimed := fun p v' hv' hn => by
    obtain ⟨v, hvs, hmail⟩ := hv p v' hv'
    refine (congrArg Prod.fst hmail).trans (h.unclaimed p v hvs fun j nj hnj haj => ?_)
    obtain ⟨mj, hmj, haj', -, hpj, -⟩ := hs.symm.slot hnj
    exact hpj ▸ hn j mj hmj (haj' ▸ haj)

/-- A part of a step that leaves the trackers and carries nothing on the driver ports. -/
theorem State.Tracks.congr (h : s.Tracks) (hs : SameTrackers s t) (hl : t.drvLog = s.drvLog)
    (hsub : t.submitted = s.submitted) : t.Tracks :=
  h.quiet hs (h.recorded.congr hl hsub) fun p v hv =>
    ⟨v, (State.contractView_congr hs.params hl hsub p).symm.trans hv, rfl⟩

/-! ## What writes the tracker, or the claim, of one Module -/

/-- Peripheral `q` is slot `i`'s own: no other allocated Module has claimed it, and that of slot `i`,
when it is allocated, has. -/
def State.Owns (s : State) (i : Nat) (q : Byte) : Prop :=
  ∀ j m, s.slot? j = some m → m.allocated = true → (m.cfg.periph = q ↔ j = i)

theorem State.Tracks.owns (h : s.Tracks) (hm : s.slot? i = some m) (ha : m.allocated = true) :
    s.Owns i m.cfg.periph := fun j m' hm' ha' => by
  constructor
  · intro hp
    by_contra hj
    exact h.distinct j i m' m hj hm' hm ha' ha hp
  · rintro rfl
    rw [hm, Option.some.injEq] at hm'
    rw [hm']

/-- A Module slot follows what the contract knows of the peripheral it owns: the tracker of an
allocated one is in order, and with none allocated the peripheral is not activated (10_state.md R47,
60_exceptions.md R421). -/
def CanModule.Follows (m : CanModule) (v : PeriphView) : Prop :=
  if m.allocated = true then trackerOk m v else v.activated = false

theorem CanModule.follows_of_allocated (ha : m.allocated = true) : m.Follows v ↔ trackerOk m v := by
  simp [CanModule.Follows, ha]

/-- The tracker invariant, said of one slot and the peripheral it owns. -/
theorem State.Tracks.follows (h : s.Tracks) (hm : s.slot? i = some m) (ho : s.Owns i q)
    (hv : s.contractView q = some v) : m.Follows v := by
  unfold CanModule.Follows
  split
  · next ha => exact h.tracked q v hv i m hm ha ((ho i m hm ha).mpr rfl)
  · next ha =>
    refine h.unclaimed q v hv fun j m' hm' ha' hp => ?_
    obtain rfl := (ho j m' hm' ha').mp hp
    rw [hm, Option.some.injEq] at hm'
    exact ha (hm' ▸ ha')

/-- A part of a step that writes one slot, and carries on the driver ports nothing of another
peripheral than the one the slot owns: it keeps the tracker invariant when the slot it writes is in
order with the new view of that peripheral, if the slot before it was with the view before. -/
theorem State.Tracks.write (h : s.Tracks) (hm₀ : s.slot? i = some m₀) (ho : s.Owns i q)
    (hp : t.params = s.params) (hmod : t.modules = s.modules.set i m) (hr : t.Recorded)
    (hq : m.allocated = true → m.cfg.periph = q)
    (hother : ∀ p v, p ≠ q → t.contractView p = some v → s.contractView p = some v)
    (hview : ∀ v', t.contractView q = some v' →
      ∃ v, s.contractView q = some v ∧ (m₀.Follows v → m.Follows v')) : t.Tracks := by
  have hslot : ∀ j, t.slot? j = (s.setSlot i m).slot? j := State.slot?_congr hp hmod
  have hi : t.slot? i = some m := (hslot i).trans (State.slot?_setSlot_self hm₀)
  have hne : ∀ j, j ≠ i → t.slot? j = s.slot? j := fun j hj =>
    (hslot j).trans (State.slot?_setSlot_ne hj)
  have ho' : t.Owns i q := fun j mj hmj haj => by
    by_cases hj : j = i
    · subst hj
      rw [hi, Option.some.injEq] at hmj
      subst hmj
      simp [hq haj]
    · exact ho j mj (hne j hj ▸ hmj) haj
  have hfollows : ∀ v', t.contractView q = some v' → m.Follows v' := fun v' hv' => by
    obtain ⟨v, hv, hf⟩ := hview v' hv'
    exact hf (h.follows hm₀ ho hv)
  refine ⟨by rw [hmod, List.length_set, hp, h.table], fun j k mj mk hjk hmj hmk haj hak hpp => ?_,
    hr, fun p v' hv' j mj hmj haj hpj => ?_, fun p v' hv' hn => ?_⟩
  · by_cases hj : j = i
    · exact hjk (hj.trans ((ho' k mk hmk hak).mp (hpp.symm.trans ((ho' j mj hmj haj).mpr hj))).symm)
    · by_cases hk : k = i
      · exact hj ((ho' j mj hmj haj).mp (hpp.trans ((ho' k mk hmk hak).mpr hk)))
      · exact h.distinct j k mj mk hjk (hne j hj ▸ hmj) (hne k hk ▸ hmk) haj hak hpp
  · by_cases hpq : p = q
    · subst hpq
      obtain rfl := (ho' j mj hmj haj).mp hpj
      rw [hi, Option.some.injEq] at hmj
      subst hmj
      exact (CanModule.follows_of_allocated haj).mp (hfollows v' hv')
    · have hj : j ≠ i := fun hj => hpq (hpj.symm.trans ((ho' j mj hmj haj).mpr hj))
      exact h.tracked p v' (hother p v' hpq hv') j mj (hne j hj ▸ hmj) haj hpj
  · by_cases hpq : p = q
    · subst hpq
      have hna : ¬ m.allocated = true := fun ha => hn i m hi ha (hq ha)
      simpa [CanModule.Follows, hna] using hfollows v' hv'
    · refine h.unclaimed p v' (hother p v' hpq hv') fun j mj hmj haj hpj => ?_
      have hj : j ≠ i := fun hj => hpq (hpj.symm.trans ((ho j mj hmj haj).mpr hj))
      exact hn j mj (hne j hj ▸ hmj) haj hpj

end Sys2Proof.Machine

/-! The parts of a step keep the tracker invariant (42_mailbox_tracker.md). -/

namespace Sys2Proof.Machine

variable {s t u : State} {i : Nat} {m m₀ : CanModule} {p q : Byte} {v v' : PeriphView}
  {d : DrvRecord} {w : Word}

/-! ## Operations on a Module that leave its tracker -/

@[simp] theorem Run.state_ok {σ α : Type} (a : α) (x : σ) : (Run.ok a x).state = x := rfl

/-- A part of a run, and then another: what both keep. -/
theorem Run.state_andThen {σ α β : Type} {P : σ → Prop} {x : Run σ α} {f : α → σ → Run σ β}
    (hx : P x.state) (hf : ∀ a v, P v → P (f a v).state) : P (x.andThen f).state := by
  cases x with
  | ok a v => exact hf a v hx
  | fault r v => exact hx

/-- An operation that leaves the tracker and the claim of every Module, whether or not it faults. -/
def KeepsTracking {α : Type} (f : CanModule → Run CanModule α) : Prop :=
  ∀ m, (f m).state.tracking = m.tracking

theorem Run.tracking_andThen {α β : Type} {x : Run CanModule α}
    {f : α → CanModule → Run CanModule β}
    (hx : x.state.tracking = m.tracking) (hf : ∀ a m', (f a m').state.tracking = m'.tracking) :
    (x.andThen f).state.tracking = m.tracking :=
  Run.state_andThen (P := fun m' : CanModule => m'.tracking = m.tracking) hx
    fun a m' h => (hf a m').trans h

variable (ps : Params)

theorem freeEntry_keepsTracking (e : Nat) : KeepsTracking (freeEntry ps e) := fun m => by
  unfold freeEntry
  split <;> rfl

theorem pqPush_keepsTracking (l e : Nat) : KeepsTracking (pqPush ps l e) := fun m => by
  unfold pqPush
  split
  · rfl
  · split <;> rfl

theorem enqueue_keepsTracking (msg : Message) (w : Word) (l : BitVec 3) :
    KeepsTracking (enqueue ps msg w l) := fun m => by
  unfold enqueue
  split
  · rfl
  · next e m₁ ha =>
    obtain ⟨-, -, -, rfl⟩ := allocEntry_eq_some ha
    simp only
    split
    · rfl
    · split
      · exact Run.tracking_andThen (freeEntry_keepsTracking ps e _) fun _ _ => rfl
      · exact Run.tracking_andThen (pqPush_keepsTracking ps l.toNat e _) fun _ _ => rfl

theorem dequeueHighest_keepsTracking : KeepsTracking (dequeueHighest ps) := fun m => by
  unfold dequeueHighest
  split
  · rfl
  · split
    · rfl
    · split
      · rfl
      · split <;> rfl

theorem removeByTxId_keepsTracking (w : Word) : KeepsTracking (removeByTxId ps w) := fun m => by
  unfold removeByTxId
  split
  · rfl
  · rfl
  · next l k e _ =>
    split
    · rfl
    · exact Run.tracking_andThen (freeEntry_keepsTracking ps e _) fun _ _ => rfl

theorem rxPush_keepsTracking (msg : Message) : KeepsTracking (rxPush ps msg) := fun m => by
  unfold rxPush
  split
  · rfl
  · split <;> rfl

theorem rxPop_keepsTracking : KeepsTracking (rxPop ps) := fun m => by
  unfold rxPop
  split
  · rfl
  · split <;> rfl

theorem countStat_keepsTracking (f : Stats → Stats) : KeepsTracking (countStat ps f) := fun m => by
  cases hs : ps.statsEn <;> simp [countStat, hs, Run.state, CanModule.tracking]

theorem stageFilter_keepsTracking (f : RxFilter) : KeepsTracking (stageFilter ps f) := fun m => by
  unfold stageFilter
  split
  · rfl
  · split <;> rfl

/-! ## A step at work on an allocated Module -/

/-- The tracker invariant inside a step, with slot `i` allocated. -/
structure State.TracksOn (i : Nat) (s : State) : Prop extends s.Tracks where
  claimed : ∃ m, s.slot? i = some m ∧ m.allocated = true

theorem State.TracksOn.congr (h : s.TracksOn i) (hs : SameTrackers s t) (hl : t.drvLog = s.drvLog)
    (hsub : t.submitted = s.submitted) : t.TracksOn i where
  toTracks := h.toTracks.congr hs hl hsub
  claimed := by
    obtain ⟨m₀, hm₀, ha⟩ := h.claimed
    obtain ⟨m, hm, ha', -⟩ := hs.symm.slot hm₀
    exact ⟨m, hm, ha' ▸ ha⟩

/-- A part of a step that writes no slot and carries nothing on the driver ports. -/
theorem State.TracksOn.same (h : s.TracksOn i) (hp : t.params = s.params)
    (hm : t.modules = s.modules) (hl : t.drvLog = s.drvLog) (hsub : t.submitted = s.submitted) :
    t.TracksOn i :=
  h.congr (.of_modules hp hm) hl hsub

theorem State.TracksOn.emit (h : s.TracksOn i) (j : Nat) (b : NtfBody) : (s.emit j b).TracksOn i :=
  h.same (by simp) (by simp) (by simp) (by simp)

theorem State.Tracks.request {r : DrvRequest} (h : s.Tracks) (hr : r.quiet s.nextAnswer = true) :
    (s.request r).Tracks := by
  have hlog : Logs (.request r s.nextAnswer) 0 s (s.request r) :=
    ⟨rfl, rfl, by simp [DrvRequest.acceptedAdd_of_quiet hr]⟩
  refine h.quiet (.of_modules rfl rfl) (hlog.recorded h.recorded) fun p v' hv' => ?_
  obtain ⟨v, hv, hrec⟩ := (hlog.contractView_eq_some h.recorded).mp hv'
  exact ⟨v, hv, DrvRequest.mail_of_quiet hr hrec⟩

theorem State.TracksOn.request {r : DrvRequest} (h : s.TracksOn i)
    (hr : r.quiet s.nextAnswer = true) : (s.request r).TracksOn i :=
  ⟨h.toTracks.request hr, h.claimed⟩

theorem State.onSlot_state {α : Type} {f : CanModule → Run CanModule α}
    (hm : s.slot? i = some m) : (s.onSlot i f).state = s.setSlot i (f m).state := by
  rw [State.onSlot_of hm]
  cases f m <;> rfl

theorem State.TracksOn.onSlot {α : Type} {f : CanModule → Run CanModule α} (h : s.TracksOn i)
    (hf : KeepsTracking f) : (s.onSlot i f).state.TracksOn i := by
  obtain ⟨m, hm, -⟩ := h.claimed
  rw [State.onSlot_state hm]
  exact h.congr (.setSlot hm (hf m)) rfl rfl

/-! ## One record of the driver ports, and the slot of its peripheral -/

/-- A part of a step that carries one record on the driver ports and writes the slot of the Module
that has claimed the record's peripheral, its claim apart. -/
theorem State.Tracks.writeLogged (h : s.Tracks) (hm₀ : s.slot? i = some m₀)
    (ha₀ : m₀.allocated = true) (hlog : Logs d w s u) (hmod : u.modules = s.modules)
    (ha : m.allocated = true) (hq : m.cfg.periph = m₀.cfg.periph)
    (hother : ∀ p (v v' : PeriphView), p ≠ m₀.cfg.periph →
      v.onRecord s.params p d w = some v' → v' = v)
    (hview : ∀ v v' : PeriphView, v.onRecord s.params m₀.cfg.periph d w = some v' →
      trackerOk m₀ v → trackerOk m v') : (u.setSlot i m).Tracks := by
  have hv : ∀ p v', (u.setSlot i m).contractView p = some v' →
      ∃ v, s.contractView p = some v ∧ v.onRecord s.params p d w = some v' := fun p v' hv' =>
    (hlog.contractView_eq_some h.recorded).mp hv'
  refine h.write hm₀ (h.owns hm₀ ha₀) hlog.params (by simp [hmod]) (hlog.recorded h.recorded)
    (fun _ => hq) (fun p v' hp hv' => ?_) fun v' hv' => ?_
  · obtain ⟨v, hvs, hrec⟩ := hv p v' hv'
    rw [hother p v v' hp hrec]
    exact hvs
  · obtain ⟨v, hvs, hrec⟩ := hv _ v' hv'
    exact ⟨v, hvs, fun hf => (CanModule.follows_of_allocated ha).mpr
      (hview v v' hrec ((CanModule.follows_of_allocated ha₀).mp hf))⟩

/-! ## Submission -/

theorem State.TracksOn.drvFreeMb (h : s.TracksOn i) (b : Byte) :
    (drvFreeMb b s).state.TracksOn i := by
  unfold Machine.drvFreeMb
  split <;> exact h.request rfl

/-- The add request and the tracker record after it: the slot recorded is the mailbox accepted, and
an accepted mailbox that does not exist breaks the contract (42_mailbox_tracker.md R233). -/
theorem State.TracksOn.submitEntry (h : s.TracksOn i) (hm : s.slot? i = some m)
    (ha : m.allocated = true) (en : Entry) : (submitEntry i m en s).state.TracksOn i := by
  unfold Machine.submitEntry
  simp only
  split
  · next hok =>
    have hm' : ((s.request (.addTx m.cfg.periph (txHeader en.msg) en.msg.data)).noteSubmitted
        en.txId).slot? i = some m := hm
    have hlog : Logs (.request (.addTx m.cfg.periph (txHeader en.msg) en.msg.data) s.nextAnswer)
        en.txId s ((s.request (.addTx m.cfg.periph (txHeader en.msg) en.msg.data)).noteSubmitted
          en.txId) :=
      ⟨rfl, rfl, by simp [DrvRecord.acceptedAdd, hok]⟩
    have hother : ∀ p v v', p ≠ m.cfg.periph → PeriphView.onRecord s.params p v
        (.request (.addTx m.cfg.periph (txHeader en.msg) en.msg.data) s.nextAnswer) en.txId
          = some v' → v' = v := fun p v v' hp hv' => by
      simpa [PeriphView.onRecord, PeriphView.onRequest, hp.symm, eq_comm] using hv'
    rw [State.onSlot_state hm']
    by_cases hk : s.nextAnswer.mb < s.params.numMb
    · simp only [recordMb, if_pos hk]
      refine ⟨h.toTracks.writeLogged hm ha hlog rfl ha rfl hother fun v v' hv' hv => ?_,
        _, State.slot?_setSlot_self hm', ha⟩
      simp only [PeriphView.onRecord, PeriphView.onRequest, hok, hk, decide_true, Bool.and_self,
        if_true, Option.some.injEq] at hv'
      exact hv' ▸ hv.record
    · simp only [recordMb, if_neg hk]
      refine ⟨h.toTracks.writeLogged hm ha hlog rfl ha rfl hother fun v v' hv' => ?_,
        _, State.slot?_setSlot_self hm', ha⟩
      simp [PeriphView.onRecord, PeriphView.onRequest, hok, hk] at hv'
  · next hok => exact (h.request (by simpa [DrvRequest.quiet] using hok)).emit i _

theorem State.TracksOn.addTx (h : s.TracksOn i) (e : Nat) : (addTx i e s).state.TracksOn i := by
  obtain ⟨m, hm, ha⟩ := h.claimed
  simp only [Machine.addTx, hm]
  split
  · exact h
  · exact h.submitEntry hm ha _

/-- One submission in the interrupt context (42_mailbox_tracker.md R230). -/
theorem State.TracksOn.submitNextIsr (h : s.TracksOn i) :
    (submitNextIsr i s).state.TracksOn i := by
  unfold Machine.submitNextIsr
  split
  · exact h
  · next m _ =>
    refine Run.state_andThen (h.drvFreeMb m.cfg.periph) fun n u hu => ?_
    split
    · exact hu
    · refine Run.state_andThen (hu.onSlot (dequeueHighest_keepsTracking _)) fun o v hv => ?_
      cases o with
      | none => exact hv
      | some e =>
        refine Run.state_andThen (hv.addTx e) fun _ x hx => ?_
        exact Run.state_andThen (hx.onSlot (freeEntry_keepsTracking _ e)) fun _ _ hy => hy

/-! ## The phases of a submission in the normal context -/

theorem State.TracksOn.submissionNothing (h : s.TracksOn i) : (submissionNothing s).TracksOn i :=
  h.same rfl rfl rfl rfl

theorem State.TracksOn.submissionAttempted (h : s.TracksOn i) :
    (submissionAttempted s).TracksOn i := by
  unfold Machine.submissionAttempted
  split <;> exact h.same rfl rfl rfl rfl

theorem State.TracksOn.phaseQuery (h : s.TracksOn i) : (phaseQuery s).state.TracksOn i := by
  unfold Machine.phaseQuery
  split
  · exact h
  · next m _ =>
    refine Run.state_andThen (h.drvFreeMb m.cfg.periph) fun n u hu => ?_
    split
    · exact hu.submissionNothing
    · exact hu.same rfl rfl rfl rfl

theorem State.TracksOn.phaseDeq (h : s.TracksOn s.nctx.h.toNat) :
    (phaseDeq s).state.TracksOn s.nctx.h.toNat := by
  refine Run.state_andThen (h.onSlot (dequeueHighest_keepsTracking _)) fun o u hu => ?_
  cases o with
  | none => exact hu.submissionNothing
  | some e => exact hu.same rfl rfl rfl rfl

theorem State.TracksOn.phaseAdd (h : s.TracksOn s.nctx.h.toNat) :
    (phaseAdd s).state.TracksOn s.nctx.h.toNat := by
  unfold Machine.phaseAdd
  split
  · exact h
  · next e _ => exact Run.state_andThen (h.addTx e) fun _ u hu => hu.same rfl rfl rfl rfl

theorem State.TracksOn.phaseFree (h : s.TracksOn s.nctx.h.toNat) :
    (phaseFree s).state.TracksOn s.nctx.h.toNat := by
  unfold Machine.phaseFree
  split
  · exact h
  · next e _ =>
    refine Run.state_andThen (h.onSlot (freeEntry_keepsTracking _ e)) fun _ u hu => ?_
    exact State.TracksOn.submissionAttempted (hu.same rfl rfl rfl rfl)

theorem Run.finish_tracks {α : Type} {x : Run State α} (hx : x.state.Tracks)
    (h : x.finish = .next t) : t.Tracks := by
  rcases Run.finish_eq_next.mp h with ⟨a, rfl⟩ | ⟨r, u, rfl, rfl⟩
  · exact hx
  · exact hx.congr (.of_modules rfl rfl) rfl rfl

theorem normalStep_tracks (hg : s.Good) (ht : s.Tracks) (h : normalStep s = .next t) :
    t.Tracks := by
  have hon : s.nctx.phase ≠ .idle → s.TracksOn s.nctx.h.toNat := fun hp => by
    obtain ⟨⟨m, hm, ha, -⟩, -⟩ := State.busyOk_iff.mp (State.busyOk_of_nctxOk hg.nctx hp)
    exact ⟨ht, m, hm, ha⟩
  unfold normalStep at h
  split at h
  · cases h
    exact ht
  · next hp => exact Run.finish_tracks (hon (by simp [hp])).phaseQuery.toTracks h
  · next hp => exact Run.finish_tracks (hon (by simp [hp])).phaseDeq.toTracks h
  · next hp => exact Run.finish_tracks (hon (by simp [hp])).phaseAdd.toTracks h
  · next hp => exact Run.finish_tracks (hon (by simp [hp])).phaseFree.toTracks h

end Sys2Proof.Machine

/-! Every step keeps the tracker invariant (10_state.md R47). -/

namespace Sys2Proof.Machine

variable {s t u : State} {i : Nat} {m m₀ : CanModule} {p q : Byte} {v v' : PeriphView}
  {w : Word}

/-! ## The event handlers -/

theorem Logs.takeEvent (w : Word) (s : State) : Logs (.event w) 0 s (s.takeEvent w) :=
  ⟨rfl, rfl, by simp [DrvRecord.acceptedAdd]⟩

/-- Taking an event word that changes nothing of what the tracker invariant reads, or breaks the
contract. -/
theorem State.Tracks.takeEvent (h : s.Tracks)
    (hv : ∀ p (v v' : PeriphView), s.contractView p = some v → v.onEvent s.params p w = some v' →
      v'.mail = v.mail) : (s.takeEvent w).Tracks := by
  have hlog := Logs.takeEvent w s
  refine h.quiet (.of_modules rfl rfl) (hlog.recorded h.recorded) fun p v' hv' => ?_
  obtain ⟨v, hvs, hrec⟩ := (hlog.contractView_eq_some h.recorded).mp hv'
  exact ⟨v, hvs, hv p v v' hvs hrec⟩

/-- A handler runs on the started Module it resolves to, or the event is ignored
(44_interrupt_dispatch.md R350). -/
theorem State.withEvent_tracks {b : Byte} {k : Nat → Run State Unit} (ht : s.Tracks)
    (hk : ∀ i, s.TracksOn i → (k i).state.TracksOn i) (h : s.withEvent b k = .next t) :
    t.Tracks := by
  cases hr : s.resolve b with
  | none =>
    rw [State.withEvent_none hr] at h
    cases h
    exact ht
  | some i =>
    obtain ⟨m, hm, ha, -⟩ := State.resolve_eq_some hr
    rw [State.withEvent_some hr] at h
    exact Run.finish_tracks (hk i ⟨ht, m, hm, ha⟩).toTracks h

theorem State.TracksOn.indicate (h : s.TracksOn i) : (indicate i s).state.TracksOn i := by
  unfold Machine.indicate
  split
  · exact h
  · simp only [Run.state]
    split
    · exact h.same rfl rfl rfl rfl
    · exact h

theorem State.TracksOn.deliver (h : s.TracksOn i) (msg : Message) :
    (deliver i msg s).state.TracksOn i := by
  unfold Machine.deliver
  split
  · exact h.emit i _
  · refine Run.state_andThen (h.onSlot (rxPush_keepsTracking _ msg)) fun r u hu => ?_
    cases r with
    | pushed => exact hu
    | dropped => exact hu.emit i _

theorem State.TracksOn.receive (h : s.TracksOn i) (a : DrvAnswer) :
    (receive i a s).state.TracksOn i := by
  unfold Machine.receive
  split
  · refine Run.state_andThen (h.onSlot (countStat_keepsTracking _ _)) fun _ u hu => ?_
    exact Run.state_andThen hu.indicate fun _ x hx => hx.deliver _
  · exact h

theorem State.TracksOn.reportCompletion (h : s.TracksOn i) (was : Mailbox) :
    (reportCompletion i was s).state.TracksOn i := by
  unfold Machine.reportCompletion
  split
  · exact Run.state_andThen (h.onSlot (countStat_keepsTracking _ _)) fun _ u hu => hu.emit i _
  · exact h

theorem State.TracksOn.reportError (h : s.TracksOn i) (c : Word) :
    (reportError i c s).TracksOn i := by
  unfold Machine.reportError
  split
  · exact (h.emit i _).emit i _
  · exact h.emit i _

theorem execEvtRxPending_tracks {b : Byte} {fifo : BitVec 1} (ht : s.Tracks)
    (h : execEvtRxPending b fifo s = .next t) : t.Tracks := by
  refine State.withEvent_tracks ht (fun i hi => ?_) h
  split
  · exact (hi.request rfl).receive _
  · exact (hi.request rfl).emit i _

theorem execEvtError_tracks {b : Byte} (ht : s.Tracks) (h : execEvtError b s = .next t) :
    t.Tracks := by
  refine State.withEvent_tracks ht (fun i hi => ?_) h
  exact Run.state_andThen ((hi.request rfl).onSlot (countStat_keepsTracking _ _))
    fun _ u hu => hu.reportError _

/-- A TX-complete event that keeps the contract is of a peripheral that is activated, and clears its
mailbox from the transmissions not reported complete (60_exceptions.md R421, R422). -/
theorem PeriphView.onEvent_txComplete {ps : Params} {mb : Byte}
    (hx : instrOf ps (.event w) = some (.evtTxComplete q mb)) (hv : v.onEvent ps p w = some v') :
    (p ≠ q ∧ v' = v) ∨ (p = q ∧ v.activated = true ∧ v' = { v with
      live := without v.live mb.toNat
      carried := without v.carried mb.toNat
      inherited := v.inherited.filter (· != mb.toNat)
      owed := true }) := by
  simp only [PeriphView.onEvent, hx] at hv
  split_ifs at hv with hq hc
  · cases hv
    exact .inr ⟨hq.symm, (Bool.and_eq_true_iff.mp hc).1, rfl⟩
  · cases hv
    exact .inl ⟨fun hp => hq hp.symm, rfl⟩

/-- EVT_TX_COMPLETE: the event and the cleared tracker slot go together; an event of a peripheral
with no started Module breaks the contract (42_mailbox_tracker.md R236, 44_interrupt_dispatch.md
R330). -/
theorem execEvtTxComplete_tracks {mb : Byte} (hg : s.Good) (ht : s.Tracks)
    (hx : instrOf s.params (.event w) = some (.evtTxComplete q mb))
    (h : execEvtTxComplete q mb (s.takeEvent w) = .next t) : t.Tracks := by
  unfold execEvtTxComplete at h
  cases hr : (s.takeEvent w).resolve q with
  | none =>
    rw [State.withEvent_none hr] at h
    cases h
    refine ht.takeEvent fun p v v' hv hv' => ?_
    rcases PeriphView.onEvent_txComplete hx hv' with ⟨-, rfl⟩ | ⟨rfl, hact, -⟩
    · rfl
    · have hns : ∀ j m, s.slot? j = some m → m.allocated = true → m.cfg.periph ≠ p :=
        fun j m hm ha hp => State.resolve_eq_none hr j m hm
          ⟨ha, (ht.tracked p v hv j m hm ha hp).1.symm.trans hact, hp⟩
      rw [ht.unclaimed p v hv hns] at hact
      cases hact
  | some i =>
    obtain ⟨m, hm, ha, -, hq⟩ := State.resolve_eq_some hr
    have hms : s.slot? i = some m := hm
    have hk : mb.toNat < s.params.numMb := of_decide_eq_true (instrOf_eq_some hx).2
    have hmb := List.getElem?_eq_getElem ((hg.sound hms).mbLen.symm ▸ hk : mb.toNat < m.mb.length)
    rw [State.withEvent_some hr, State.takeEvent_params,
      State.onSlot_eq_ok.mpr ⟨m, _, hm, completeMb_eq_ok.mpr ⟨hk, hmb, rfl⟩, rfl⟩,
      Run.andThen_ok] at h
    have hclear : ((s.takeEvent w).setSlot i
        { m with mb := m.mb.set mb.toNat ⟨false, 0⟩ }).TracksOn i := by
      refine ⟨ht.writeLogged hms ha (Logs.takeEvent w s) rfl ha rfl (fun p v v' hp hv' => ?_)
        fun v v' hv' hv => ?_, _, State.slot?_setSlot_self hm, ha⟩
      · rcases PeriphView.onEvent_txComplete hx hv' with ⟨-, rfl⟩ | ⟨rfl, -⟩
        · rfl
        · exact absurd hq.symm hp
      · rcases PeriphView.onEvent_txComplete hx hv' with ⟨hp, -⟩ | ⟨-, -, rfl⟩
        · exact absurd hq hp
        · exact hv.complete
    refine Run.finish_tracks (State.TracksOn.toTracks (i := i) ?_) h
    refine Run.state_andThen (hclear.reportCompletion _) fun _ x hx => ?_
    exact Run.state_andThen hx.submitNextIsr fun _ _ hy => hy

theorem handleEvent_tracks (hg : s.Good) (ht : s.Tracks) (h : handleEvent w s = .next t) :
    t.Tracks := by
  unfold handleEvent at h
  split at h
  · next x hx =>
    have hev := eventPeriph_of_decodeEvent (instrOf_eq_some hx).1
    cases x with
    | evtRxPending b fifo =>
      refine execEvtRxPending_tracks (ht.takeEvent fun p v v' _ hv' => ?_) h
      simp only [PeriphView.onEvent, hx] at hv'
      split_ifs at hv'
      cases hv'
      rfl
    | evtTxComplete b mb => exact execEvtTxComplete_tracks hg ht hx h
    | evtError b =>
      refine execEvtError_tracks (ht.takeEvent fun p v v' _ hv' => ?_) h
      simp only [PeriphView.onEvent, hx] at hv'
      split_ifs at hv'
      cases hv'
      rfl
    | _ => exact absurd rfl hev
  · next hx =>
    cases h
    refine State.Tracks.congr (s := s.takeEvent w) (ht.takeEvent fun p v v' _ hv' => ?_)
      (.of_modules rfl rfl) rfl rfl
    simp [PeriphView.onEvent, hx] at hv'

/-! ## The commands -/

theorem State.Tracks.reply {r : Response} (ht : s.Tracks) (h : s.reply r = .next t) :
    t.Tracks := by
  cases h
  exact ht.congr (.of_modules rfl rfl) rfl rfl

/-- A command on a handle works on the allocated Module the handle names, or answers InvalidHandle
(60_exceptions.md R402). -/
theorem State.withHandle_tracks {b : Byte} {k : CanModule → Host.Outcome State Fault Refusal}
    (ht : s.Tracks)
    (hk : ∀ m, s.slot? b.toNat = some m → m.allocated = true → k m = .next t → t.Tracks)
    (h : s.withHandle b k = .next t) : t.Tracks := by
  cases hc : s.claimed? b with
  | none =>
    rw [State.withHandle_none hc] at h
    cases h
    exact ht.congr (.of_modules rfl rfl) rfl rfl
  | some m =>
    rw [State.withHandle_some hc] at h
    obtain ⟨hm, ha⟩ := State.claimed?_eq_some.mp hc
    exact hk m hm ha h

/-- A command that runs an operation on its Module and then changes no slot. -/
theorem State.Tracks.onSlot_finish {α : Type} {f : CanModule → Run CanModule α}
    {g : α → State → Run State Unit} (ht : s.Tracks) (hm : s.slot? i = some m)
    (ha : m.allocated = true) (hf : KeepsTracking f)
    (hg : ∀ a x, x.TracksOn i → (g a x).state.TracksOn i)
    (h : ((s.onSlot i f).andThen g).finish = .next t) : t.Tracks :=
  have hon : s.TracksOn i := ⟨ht, m, hm, ha⟩
  Run.finish_tracks (Run.state_andThen (hon.onSlot hf) hg).toTracks h

theorem State.TracksOn.answer (h : s.TracksOn i) (r : Response) : (s.answer r).TracksOn i :=
  h.same rfl rfl rfl rfl

/-! ### STOP, FREE and ALLOCATE -/

/-- A deactivated peripheral: its transmissions stay with the trackers, and its Module is no longer
started (43_module.md R290, 70_reset_and_hazards.md R466). -/
theorem State.Tracks.stopSequence (ht : s.Tracks) (hm : s.slot? i = some m)
    (ha : m.allocated = true) : (stopSequence i m s).Tracks := by
  have hlog : Logs (.request (.deactivate m.cfg.periph) s.nextAnswer) 0 s
      (s.request (.deactivate m.cfg.periph)) :=
    ⟨rfl, rfl, by simp [DrvRecord.acceptedAdd]⟩
  have hstopped := ht.writeLogged (m := { m with started := false }) hm ha hlog rfl ha rfl
    (fun p v v' hp hv' => by
      simpa [PeriphView.onRecord, PeriphView.onRequest, hp.symm, eq_comm] using hv')
    fun v v' hv' hv => by
      simp only [PeriphView.onRecord, PeriphView.onRequest, if_true, Option.some.injEq] at hv'
      subst hv'
      exact ⟨rfl, fun k slot hk hact =>
        .inr (List.mem_append.mpr ((hv.2 k slot hk hact)))⟩
  exact State.Tracks.request (r := .stop m.cfg.periph) hstopped rfl

/-- The slot of a Module that is not started is released: its peripheral is not activated
(43_module.md R270). -/
theorem State.Tracks.release (ht : s.Tracks) (hm : s.slot? i = some m) (ha : m.allocated = true)
    (hs : m.started = false) : (s.setSlot i (.zero s.params)).Tracks :=
  ht.write hm (ht.owns hm ha) rfl rfl ht.recorded (fun hz => by cases hz) (fun _ _ _ hv => hv)
    fun v hv => ⟨v, hv, fun hf =>
      ((CanModule.follows_of_allocated ha).mp hf).1.trans hs⟩

theorem execStop_tracks {b : Byte} (ht : s.Tracks) (h : execStop b s = .next t) : t.Tracks := by
  refine State.withHandle_tracks ht (fun m hm ha h => ?_) h
  split at h
  · exact (ht.stopSequence hm ha).reply h
  · exact ht.reply h

theorem execFree_tracks {b : Byte} (ht : s.Tracks) (h : execFree b s = .next t) : t.Tracks := by
  refine State.withHandle_tracks ht (fun m hm ha h => ?_) h
  split at h
  · exact State.Tracks.reply ((ht.stopSequence hm ha).release
      (m := { m with started := false }) (State.slot?_setSlot_self (m₀ := m) hm) ha rfl) h
  · next hs => exact (ht.release hm ha (by simpa using hs)).reply h

theorem State.lowestFree?_unallocated (h : s.lowestFree? = some i) :
    ∃ m, s.slot? i = some m ∧ m.allocated = false := by
  obtain ⟨hi, ha, -⟩ := List.findIdx?_eq_some_iff_getElem.mp h
  simp only [List.length_take, Nat.lt_min] at hi
  simp only [List.getElem_take, Bool.not_eq_eq_eq_not, Bool.not_true] at ha
  exact ⟨_, State.slot?_eq_some.mpr ⟨hi.1, List.getElem?_eq_getElem hi.2⟩, ha⟩

/-- A newly claimed Module is in order with a peripheral that is not activated
(43_module.md R261). -/
theorem claimedModule_trackerOk {ps : Params} {cfg : ModuleCfg} (h : v.activated = false) :
    trackerOk (claimedModule ps cfg) v := by
  refine ⟨h, fun k slot hk hact => ?_⟩
  rw [List.eq_of_mem_replicate (List.mem_of_getElem? hk)] at hact
  cases hact

theorem execAllocate_tracks {b : Byte} {lb sil artx led : Bool} (ht : s.Tracks)
    (h : execAllocate b lb sil artx led s = .next t) : t.Tracks := by
  unfold execAllocate at h
  split at h
  · exact ht.reply h
  · split at h
    · exact ht.reply h
    · next hc =>
      split at h
      · exact ht.reply h
      · next i hl =>
        obtain ⟨m₀, hm₀, ha₀⟩ := State.lowestFree?_unallocated hl
        have ho : s.Owns i b := fun j m hm ha => by
          refine iff_of_false (State.periph_ne_of_not_claimed (by simpa using hc) j m hm ha) ?_
          rintro rfl
          rw [hm₀, Option.some.injEq] at hm
          rw [← hm, ha₀] at ha
          cases ha
        have hclaim := ht.write (t := s.setSlot i
            (claimedModule s.params ⟨b, lb, sil, artx, led⟩)) hm₀ ho rfl rfl ht.recorded
          (fun _ => rfl) (fun _ _ _ hv => hv) fun v hv => ⟨v, hv, fun hf =>
            (CanModule.follows_of_allocated rfl).mpr
              (claimedModule_trackerOk (by simpa [CanModule.Follows, ha₀] using hf))⟩
        exact hclaim.reply h

/-! ### START -/

theorem programFilters_tracks {n k : Nat} (h : s.TracksOn i) :
    (programFilters m n k s).state.TracksOn i := by
  induction n generalizing k s with
  | zero => exact h
  | succ n ih =>
    unfold programFilters
    split
    · exact h
    · split
      · exact ih (h.request rfl)
      · exact h.request rfl

/-- START's requests after the filters: when they succeed the peripheral is activated, so the Module
is in order once it is started (43_module.md R280, R283; 60_exceptions.md R421). -/
theorem startPeripheral_tracks (ht : s.TracksOn i) (hm : s.slot? i = some m)
    (ha : m.allocated = true) : ∃ b u, startPeripheral m s = .ok b u ∧
      if b = true then (u.setSlot i { m with started := true }).Tracks else u.Tracks := by
  simp only [startPeripheral]
  split
  · exact ⟨_, _, rfl, (ht.request rfl).toTracks⟩
  · have ht₁ := ht.request (r := .start m.cfg.periph m.cfg.loopback m.cfg.silent m.cfg.autoRetx) rfl
    split
    · next hok =>
      refine ⟨_, _, rfl, ?_⟩
      exact ((ht₁.request (r := .activate m.cfg.periph)
        (by simpa [DrvRequest.quiet] using hok)).request rfl).toTracks
    · next hok =>
      refine ⟨_, _, rfl, ?_⟩
      have hok : (s.request (.start m.cfg.periph m.cfg.loopback m.cfg.silent
          m.cfg.autoRetx)).nextAnswer.ok = true := by simpa using hok
      refine ht₁.toTracks.writeLogged (m₀ := m) hm ha (d := .request (.activate m.cfg.periph) _)
        (w := 0) ⟨rfl, rfl, by simp [DrvRecord.acceptedAdd]⟩ rfl ha rfl
        (fun p v v' hp hv' => ?_) fun v v' hv' hv => ?_
      · simpa [PeriphView.onRecord, PeriphView.onRequest, hp.symm, eq_comm] using hv'
      · simp only [PeriphView.onRecord, PeriphView.onRequest, hok, decide_true, Bool.and_self,
          if_true, Option.some.injEq] at hv'
        subst hv'
        exact ⟨rfl, hv.2⟩

/-- START's driver sequence, in the same terms; one that faults has made quiet requests only. -/
theorem startSequence_tracks (ht : s.TracksOn i) (hm : s.slot? i = some m)
    (ha : m.allocated = true) :
    (∃ r u, startSequence m s = .fault r u ∧ u.Tracks) ∨
    ∃ b u, startSequence m s = .ok b u ∧
      if b = true then (u.setSlot i { m with started := true }).Tracks else u.Tracks := by
  have hprog := programFilters_tracks (m := m) (n := m.fltCount) (k := 0) ht
  have hsame := programFilters_modules m m.fltCount 0 s
  unfold startSequence
  cases hx : programFilters m m.fltCount 0 s with
  | fault r u =>
    rw [hx] at hprog
    exact .inl ⟨r, u, rfl, hprog.toTracks⟩
  | ok b u =>
    rw [hx, Run.state_ok] at hprog hsame
    right
    cases b with
    | false => exact ⟨false, u, rfl, hprog.toTracks⟩
    | true =>
      exact startPeripheral_tracks hprog ((State.slot?_congr hsame.1 hsame.2 _).trans hm) ha

theorem execStart_tracks {b : Byte} (ht : s.Tracks) (h : execStart b s = .next t) : t.Tracks := by
  refine State.withHandle_tracks ht (fun m hm ha h => ?_) h
  split at h
  · exact ht.reply h
  · refine Run.finish_tracks ?_ h
    rcases startSequence_tracks ⟨ht, m, hm, ha⟩ hm ha with ⟨r, u, hu, htu⟩ | ⟨ok, u, hu, htu⟩
    · rw [hu]
      exact htu
    · rw [hu]
      cases ok with
      | false => exact State.Tracks.congr htu (.of_modules rfl rfl) rfl rfl
      | true => exact State.Tracks.congr htu (.of_modules rfl rfl) rfl rfl

/-! ### Every command -/

/-- The meaning of a command keeps the tracker invariant. -/
theorem exec_tracks {x : Instr} (hx : eventPeriph x = none) (ht : s.Tracks)
    (h : exec x s = .next t) : t.Tracks := by
  cases x with
  | allocate p lb sil artx led => exact execAllocate_tracks ht h
  | free b => exact execFree_tracks ht h
  | addFilter b fifo id ide mask =>
    refine State.withHandle_tracks ht (fun m hm ha h => ?_) h
    split at h
    · exact ht.reply h
    · split at h
      · exact ht.reply h
      · refine ht.onSlot_finish hm ha (stageFilter_keepsTracking _ _) (fun r x hx => ?_) h
        exact hx.answer _
  | start b => exact execStart_tracks ht h
  | stop b => exact execStop_tracks ht h
  | registerCb b kind en =>
    refine State.withHandle_tracks ht (fun m hm ha h => ?_) h
    exact (ht.congr (.setSlot (m := { m with cbEn := m.cbEn.set kind en }) hm rfl) rfl rfl).reply h
  | transmit b prio txid id ide rtr len data ts =>
    refine State.withHandle_tracks ht (fun m hm ha h => ?_) h
    split at h
    · refine ht.onSlot_finish hm ha (enqueue_keepsTracking _ _ _ _) (fun r x hx => ?_) h
      split
      · exact hx.answer _
      · split
        · exact hx.same rfl rfl rfl rfl
        · exact hx.answer _
    · exact ht.reply h
  | abortTx b txid =>
    refine State.withHandle_tracks ht (fun m hm ha h => ?_) h
    refine ht.onSlot_finish hm ha (removeByTxId_keepsTracking _ _) (fun r x hx => ?_) h
    exact hx.answer _
  | getOccupancy b => exact State.withHandle_tracks ht (fun _ _ _ h => ht.reply h) h
  | rxRead b =>
    refine State.withHandle_tracks ht (fun m hm ha h => ?_) h
    refine ht.onSlot_finish hm ha (rxPop_keepsTracking _) (fun o x hx => ?_) h
    cases o <;> exact hx.answer _
  | getBusState b => exact State.withHandle_tracks ht (fun _ _ _ h => (ht.request rfl).reply h) h
  | getErrorCounters b =>
    exact State.withHandle_tracks ht (fun _ _ _ h => (ht.request rfl).reply h) h
  | getStats b => exact State.withHandle_tracks ht (fun _ _ _ h => ht.reply h) h
  | evtRxPending p fifo => cases hx
  | evtTxComplete p mb => cases hx
  | evtError p => cases hx

/-! ## A step of the block -/

/-- A decoder's answer that is a command, when it is an instruction. -/
def GivesCommand (e : Except Reject Instr) : Prop := ∀ x, e = .ok x → eventPeriph x = none

theorem GivesCommand.error (r : Reject) : GivesCommand (.error r) := fun _ h => by cases h

theorem GivesCommand.ok {x : Instr} (hx : eventPeriph x = none) : GivesCommand (.ok x) :=
  fun _ h => by
    cases h
    exact hx

theorem GivesCommand.ite {c : Prop} [Decidable c] {a b : Except Reject Instr}
    (ha : GivesCommand a) (hb : GivesCommand b) : GivesCommand (if c then a else b) := by
  split
  · exact ha
  · exact hb

theorem decodeHandleOnly_givesCommand (c : CmdRecord) {mk : Byte → Instr}
    (hmk : ∀ b, eventPeriph (mk b) = none) : GivesCommand (decodeHandleOnly c mk) :=
  .ite (.ok (hmk _)) (.error _)

/-- A command word decodes to a command (30_encoding.md R118). -/
theorem decodeCommand_givesCommand (c : CmdRecord) : GivesCommand (decodeCommand c) := by
  have hallocate : GivesCommand (decodeAllocate c) := .ite (.error _) (.ite (.error _) (.ok rfl))
  have hfilter : GivesCommand (decodeAddFilter c) := .ite (.error _) (.ite (.error _) (.ok rfl))
  have hregister : GivesCommand (decodeRegisterCb c) := .ite (.error _) (.ok rfl)
  have htransmit : GivesCommand (decodeTransmit c) := .ite (.error _) (.ite (.error _) (.ok rfl))
  have habort : GivesCommand (decodeAbortTx c) := .ite (.ok rfl) (.error _)
  have hhandle {mk : Byte → Instr} (hmk : ∀ b, eventPeriph (mk b) = none) :
      GivesCommand (decodeHandleOnly c mk) := decodeHandleOnly_givesCommand c hmk
  exact .ite (.error _) <| .ite hallocate <| .ite (hhandle fun _ => rfl) <| .ite hfilter <|
    .ite (hhandle fun _ => rfl) <| .ite (hhandle fun _ => rfl) <| .ite hregister <|
    .ite htransmit <| .ite habort <| .ite (hhandle fun _ => rfl) <| .ite (hhandle fun _ => rfl) <|
    .ite (hhandle fun _ => rfl) <| .ite (hhandle fun _ => rfl) <| .ite (hhandle fun _ => rfl) <|
    .error _

theorem acceptCommand_tracks {c : CmdRecord} (ht : s.Tracks) (h : acceptCommand c s = .next t) :
    t.Tracks := by
  unfold acceptCommand at h
  split at h
  · next x hx =>
    exact exec_tracks (decodeCommand_givesCommand c x (instrOf_eq_some hx).1) ht h
  · exact ht.reply h

theorem State.Tracks.popTurn (ht : s.Tracks) : s.popTurn.Tracks :=
  ht.congr (.of_modules rfl rfl) rfl rfl

theorem takeTurn_tracks (hg : s.Good) (ht : s.Tracks) (h : takeTurn s = .next t) : t.Tracks := by
  unfold takeTurn at h
  split at h
  · exact normalStep_tracks hg ht h
  · exact normalStep_tracks (s := s.popTurn) hg.popTurn ht.popTurn h
  · exact handleEvent_tracks (s := s.popTurn) hg.popTurn ht.popTurn h
  · split at h
    · exact acceptCommand_tracks (s := s.popTurn) ht.popTurn h
    · exact normalStep_tracks hg ht h

/-- Settles O16: with each record on the driver ports that the tracker invariant reads, a step makes
the matching write of the tracker or of `started`; all else of a step leaves both. -/
theorem everyStepKeepsTracker : Obligations.EveryStepKeepsTracker := by
  intro s t hg hf ht h
  obtain ⟨u, hu, rfl⟩ := step_eq_next hf h
  have hu := takeTurn_tracks hg (hg.tracks ht) hu
  exact (hu.congr (.of_modules (by simp) (by simp)) (by simp) (by simp)).trackerInv

end Sys2Proof.Machine

/-! Every command completes its step and answers once, or begins a submission (10_state.md R56). -/

namespace Sys2Proof.Machine

variable {s t u : State} {i : Nat} {m : CanModule} {x : Instr} {r : Response} {c : ResultCode}

/-! ## What a command may answer -/

/-- A response that the row of a command allows: a result of the row and, unless it is OK, nothing
else but the handle of a failed ALLOCATE (60_exceptions.md R401, 30_encoding.md R131, R133). -/
def Allows (x : Instr) (r : Response) : Prop :=
  r.result ∈ resultsOf x ∧ (r.result ≠ .ok →
    r = if isAllocate x = true then Response.noHandle r.result else Response.ofResult r.result)

theorem Allows.ok (hc : (resultsOf x).contains .ok = true) (hr : r.result = .ok) : Allows x r :=
  ⟨hr ▸ List.contains_iff_mem.mp hc, fun h => absurd hr h⟩

theorem Allows.ofResult (hx : isAllocate x = false) (hc : (resultsOf x).contains c = true) :
    Allows x (.ofResult c) :=
  ⟨List.contains_iff_mem.mp hc, fun _ => by rw [hx]; rfl⟩

theorem Allows.noHandle (hx : isAllocate x = true) (hc : (resultsOf x).contains c = true) :
    Allows x (.noHandle c) :=
  ⟨List.contains_iff_mem.mp hc, fun _ => by rw [hx]; rfl⟩

/-! ## A command that completes its step -/

/-- A step of a command ends without a fault: it has answered once, as its row allows, or it has
begun a submission (10_state.md R55, R56). -/
def Completes (x : Instr) (s : State) (o : Host.Outcome State Fault Refusal) : Prop :=
  ∃ t, o = .next t ∧ t.fault = none ∧
    ((∃ r, t.rsp = s.rsp ++ [r] ∧ t.nctx = s.nctx ∧ Allows x r) ∨
      (isMultiStep x = true ∧ t.rsp = s.rsp ∧ t.nctx.phase = .subQuery ∧ t.nctx.held = none))

/-- Nothing has been answered, no fault met, and the normal context is as before. -/
structure Unanswered (s u : State) : Prop where
  fault : u.fault = s.fault
  rsp   : u.rsp = s.rsp
  nctx  : u.nctx = s.nctx

theorem Completes.answer (hf : s.fault = none) (hu : Unanswered s u) (hr : Allows x r) :
    Completes x s (.next (u.answer r)) :=
  ⟨_, rfl, hu.fault.trans hf, .inl ⟨r, congrArg (· ++ [r]) hu.rsp, hu.nctx, hr⟩⟩

/-- A command on a handle completes when it does on the allocated Module the handle names
(60_exceptions.md R402). -/
theorem Completes.withHandle {b : Byte} {k : CanModule → Host.Outcome State Fault Refusal}
    (hf : s.fault = none) (hr : Allows x (.ofResult .invalidHandle))
    (hk : ∀ m, s.slot? b.toNat = some m → m.allocated = true → Completes x s (k m)) :
    Completes x s (s.withHandle b k) := by
  cases hc : s.claimed? b with
  | none =>
    rw [State.withHandle_none hc]
    exact .answer hf ⟨rfl, rfl, rfl⟩ hr
  | some m =>
    rw [State.withHandle_some hc]
    obtain ⟨hm, ha⟩ := State.claimed?_eq_some.mp hc
    exact hk m hm ha

/-- A command that runs on its Module an operation that completes on one in order. -/
theorem Completes.onSlot {α : Type} {out' : α → List Nat} {f : CanModule → Run CanModule α}
    {g : α → State → Run State Unit} (hg : s.Good) (hi : s.nctx.phase = .idle)
    (hm : s.slot? i = some m) (ha : m.allocated = true) (hf : Serves s.params [] out' f)
    (hk : ∀ a m', f m = .ok a m' → Completes x s (g a (s.setSlot i m')).finish) :
    Completes x s ((s.onSlot i f).andThen g).finish := by
  obtain ⟨a, m', hfm, -⟩ := hf m (hg.sound_idle hi hm) ha
  rw [State.onSlot_eq_ok.mpr ⟨m, m', hm, hfm, rfl⟩, Run.andThen_ok]
  exact hk a m' hfm

/-! ## The commands, one by one -/

theorem execAllocate_completes {b : Byte} {lb sil artx led : Bool} (hf : s.fault = none) :
    Completes (.allocate b lb sil artx led) s (execAllocate b lb sil artx led s) := by
  unfold execAllocate
  split
  · exact .answer hf ⟨rfl, rfl, rfl⟩ (.noHandle rfl rfl)
  · split
    · exact .answer hf ⟨rfl, rfl, rfl⟩ (.noHandle rfl rfl)
    · split
      · exact .answer hf ⟨rfl, rfl, rfl⟩ (.noHandle rfl rfl)
      · exact .answer hf ⟨rfl, rfl, rfl⟩ (.ok rfl rfl)

/-- The answer of a stop sequence: OK, or DriverError when a request failed (43_module.md R290). -/
theorem Allows.stopResult (hx : isAllocate x = false) (hok : (resultsOf x).contains .ok = true)
    (herr : (resultsOf x).contains .driverError = true) (m : CanModule) (s : State) :
    Allows x (.ofResult (stopResult m s)) := by
  unfold Machine.stopResult
  split
  · exact .ofResult hx hok
  · exact .ofResult hx herr

theorem execFree_completes {b : Byte} (hf : s.fault = none) :
    Completes (.free b) s (execFree b s) := by
  refine .withHandle hf (.ofResult rfl rfl) fun m _ _ => ?_
  split
  · exact .answer hf ⟨rfl, rfl, rfl⟩ (.stopResult rfl rfl rfl m s)
  · exact .answer hf ⟨rfl, rfl, rfl⟩ (.ofResult rfl rfl)

theorem execStop_completes {b : Byte} (hf : s.fault = none) :
    Completes (.stop b) s (execStop b s) := by
  refine .withHandle hf (.ofResult rfl rfl) fun m _ _ => ?_
  split
  · exact .answer hf ⟨rfl, rfl, rfl⟩ (.stopResult rfl rfl rfl m s)
  · exact .answer hf ⟨rfl, rfl, rfl⟩ (.ofResult rfl rfl)

theorem execAddFilter_completes {b : Byte} {fifo : BitVec 1} {id mask : CanId} {ide : Bool}
    (hg : s.Good) (hf : s.fault = none) (hi : s.nctx.phase = .idle) :
    Completes (.addFilter b fifo id ide mask) s (execAddFilter b fifo id ide mask s) := by
  refine .withHandle hf (.ofResult rfl rfl) fun m hm ha => ?_
  split
  · exact .answer hf ⟨rfl, rfl, rfl⟩ (.ofResult rfl rfl)
  · next hok =>
    split
    · exact .answer hf ⟨rfl, rfl, rfl⟩ (.ofResult rfl rfl)
    · refine .onSlot hg hi hm ha (stageFilter_serves (by simpa [RxFilter.legal] using hok))
        fun r m' hr => .answer hf ⟨rfl, rfl, rfl⟩ (.ofResult rfl ?_)
      rcases stageFilter_eq_ok hr with ⟨-, rfl, -⟩ | ⟨-, rfl, -⟩ <;> rfl

/-- START's driver sequence answers nothing. -/
theorem startSequence_rsp {b : Bool} (h : startSequence m s = .ok b t) : t.rsp = s.rsp := by
  obtain ⟨b₁, u, hu, h⟩ := Run.andThen_eq_ok.mp h
  obtain ⟨-, hrsp, -⟩ := programFilters_sameBlock hu
  rw [← hrsp]
  cases b₁ with
  | false =>
    cases h
    rfl
  | true =>
    simp only [if_true, startPeripheral] at h
    split_ifs at h <;> cases h <;> rfl

theorem execStart_completes {b : Byte} (hg : s.Good) (hf : s.fault = none)
    (hi : s.nctx.phase = .idle) : Completes (.start b) s (execStart b s) := by
  refine .withHandle hf (.ofResult rfl rfl) fun m hm ha => ?_
  split
  · exact .answer hf ⟨rfl, rfl, rfl⟩ (.ofResult rfl rfl)
  · obtain ⟨ok, u, hu, hb, -⟩ := startSequence_sameBlock (hg.sound_idle hi hm)
    have hrsp := startSequence_rsp hu
    rw [hu, Run.andThen_ok]
    cases ok with
    | false =>
      exact .answer hf ⟨hb.fault, hrsp, hb.nctx⟩ (.ofResult rfl rfl)
    | true => exact ⟨_, rfl, hb.fault.trans hf, .inr ⟨rfl, hrsp, rfl, rfl⟩⟩

/-- Legal message operands give a legal Message at an existing level (40_priority_queue.md R181). -/
theorem txMessage_legal {p : Params} {prio : BitVec 3} {id : CanId} {ide rtr : Bool}
    {len : BitVec 4} {data : BitVec 64} {ts : Word} (h : messageOk p prio id ide len = true) :
    (txMessage id ide rtr len data ts).legal = true ∧ prio.toNat < p.numPrio := by
  simp only [messageOk, Bool.and_eq_true, decide_eq_true_eq] at h
  obtain ⟨⟨hprio, hlen⟩, hid⟩ := h
  exact ⟨by simp [Message.legal, txMessage, hlen, hid], hprio⟩

theorem execTransmit_completes {b : Byte} {prio : BitVec 3} {w ts : Word} {id : CanId}
    {ide rtr : Bool} {len : BitVec 4} {data : BitVec 64} (hg : s.Good) (hf : s.fault = none)
    (hi : s.nctx.phase = .idle) :
    Completes (.transmit b prio w id ide rtr len data ts) s
      (execTransmit b prio w id ide rtr len data ts s) := by
  refine .withHandle hf (.ofResult rfl rfl) fun m hm ha => ?_
  split
  · next hok =>
    obtain ⟨hmsg, hl⟩ := txMessage_legal (rtr := rtr) (data := data) (ts := ts) hok
    refine .onSlot hg hi hm ha (enqueue_serves w hmsg hl) fun r m' _ => ?_
    split
    · exact .answer hf ⟨rfl, rfl, rfl⟩ (.ofResult rfl rfl)
    · split
      · exact ⟨_, rfl, hf, .inr ⟨rfl, rfl, rfl, rfl⟩⟩
      · exact .answer hf ⟨rfl, rfl, rfl⟩ (.ofResult rfl rfl)
  · exact .answer hf ⟨rfl, rfl, rfl⟩ (.ofResult rfl rfl)

theorem execRxRead_completes {b : Byte} (hg : s.Good) (hf : s.fault = none)
    (hi : s.nctx.phase = .idle) : Completes (.rxRead b) s (execRxRead b s) := by
  refine .withHandle hf (.ofResult rfl rfl) fun m hm ha => ?_
  refine .onSlot hg hi hm ha rxPop_serves fun o m' _ => ?_
  cases o with
  | none => exact .answer hf ⟨rfl, rfl, rfl⟩ (.ofResult rfl rfl)
  | some msg => exact .answer hf ⟨rfl, rfl, rfl⟩ (.ok rfl rfl)

/-- A reading of the bus registers: the driver's failure is DriverError
(43_module.md R296, R298). -/
theorem Allows.driverAnswer {a : DrvAnswer} (hx : isAllocate x = false)
    (hok : (resultsOf x).contains .ok = true)
    (herr : (resultsOf x).contains .driverError = true) (hr : r.result = .ok) :
    Allows x (if a.ok = true then r else .ofResult .driverError) := by
  split
  · exact .ok hok hr
  · exact .ofResult hx herr

/-- Every command completes its step in a good idle state. -/
theorem exec_completes (hx : eventPeriph x = none) (hg : s.Good) (hf : s.fault = none)
    (hi : s.nctx.phase = .idle) : Completes x s (exec x s) := by
  cases x with
  | allocate p lb sil artx led => exact execAllocate_completes hf
  | free b => exact execFree_completes hf
  | addFilter b fifo id ide mask => exact execAddFilter_completes hg hf hi
  | start b => exact execStart_completes hg hf hi
  | stop b => exact execStop_completes hf
  | registerCb b kind en =>
    refine .withHandle hf (.ofResult rfl rfl) fun m _ _ => ?_
    exact .answer hf ⟨rfl, rfl, rfl⟩ (.ofResult rfl rfl)
  | transmit b prio txid id ide rtr len data ts => exact execTransmit_completes hg hf hi
  | abortTx b txid =>
    refine .withHandle hf (.ofResult rfl rfl) fun m hm ha => ?_
    refine .onSlot hg hi hm ha (removeByTxId_serves txid) fun found m' _ => ?_
    exact .answer hf ⟨rfl, rfl, rfl⟩ (.ok rfl rfl)
  | getOccupancy b =>
    refine .withHandle hf (.ofResult rfl rfl) fun m _ _ => ?_
    exact .answer hf ⟨rfl, rfl, rfl⟩ (.ok rfl rfl)
  | rxRead b => exact execRxRead_completes hg hf hi
  | getBusState b =>
    refine .withHandle hf (.ofResult rfl rfl) fun m _ _ => ?_
    exact .answer hf ⟨rfl, rfl, rfl⟩
      (.driverAnswer rfl rfl rfl rfl)
  | getErrorCounters b =>
    refine .withHandle hf (.ofResult rfl rfl) fun m _ _ => ?_
    exact .answer hf ⟨rfl, rfl, rfl⟩
      (.driverAnswer rfl rfl rfl rfl)
  | getStats b =>
    refine .withHandle hf (.ofResult rfl rfl) fun m _ _ => ?_
    exact .answer hf ⟨rfl, rfl, rfl⟩ (.ok rfl rfl)
  | evtRxPending p fifo => cases hx
  | evtTxComplete p mb => cases hx
  | evtError p => cases hx

/-- Settles O55: a command answers InvalidHandle, or works on its Module, on which no operation
faults while it is in order, and answers by its row; TRANSMIT and START may begin a submission
instead. -/
theorem everyCommandAnswersOnce : Obligations.EveryCommandAnswersOnce :=
  fun _ _ hg hf hi hx => exec_completes hx hg hf hi

end Sys2Proof.Machine

/-! An instruction writes no Module but its own (20_memory.md R94, 60_exceptions.md R415). -/

namespace Sys2Proof.Machine

variable {s t u : State} {i : Nat} {b : Byte}

/-! ## What leaves every slot but one -/

/-- Every slot but `i` is as it was. `OnlySlot` asks for `nctx` and the fault record too, which TRANSMIT,
START and a step that faults write. -/
structure OthersKept (i : Nat) (s t : State) : Prop where
  params : t.params = s.params
  others : ∀ j, j ≠ i → t.slot? j = s.slot? j

theorem OthersKept.of_modules (hp : t.params = s.params) (hm : t.modules = s.modules) :
    OthersKept i s t :=
  ⟨hp, fun j _ => State.slot?_congr hp hm j⟩

theorem OthersKept.trans (h : OthersKept i s t) (h' : OthersKept i t u) : OthersKept i s u :=
  ⟨h'.params.trans h.params, fun j hj => (h'.others j hj).trans (h.others j hj)⟩

/-- A part of a step that writes no slot. -/
theorem OthersKept.same (h : OthersKept i s t) (hp : u.params = t.params)
    (hm : u.modules = t.modules) : OthersKept i s u :=
  h.trans (.of_modules hp hm)

theorem OthersKept.refl (i : Nat) (s : State) : OthersKept i s s := .of_modules rfl rfl

theorem OthersKept.setSlot (h : OthersKept i s t) (m : CanModule) : OthersKept i s (t.setSlot i m) :=
  h.trans ⟨rfl, fun _ hj => State.slot?_setSlot_ne hj⟩

theorem OthersKept.request (h : OthersKept i s t) (r : DrvRequest) :
    OthersKept i s (t.request r) :=
  h.same rfl rfl

theorem OthersKept.emit (h : OthersKept i s t) (j : Nat) (n : NtfBody) :
    OthersKept i s (t.emit j n) :=
  h.same (by simp) (by simp)

theorem OthersKept.onSlot {α : Type} (h : OthersKept i s t) (f : CanModule → Run CanModule α) :
    OthersKept i s (t.onSlot i f).state := by
  cases hm : t.slot? i with
  | none => simpa [State.onSlot, hm, Run.state] using h
  | some m =>
    rw [State.onSlot_state hm]
    exact h.setSlot _

theorem OthersKept.of_finish {α : Type} {x : Run State α} (hx : OthersKept i s x.state)
    (h : x.finish = .next t) : OthersKept i s t := by
  obtain ⟨-, hp, hm⟩ := Run.finish_state h
  exact hx.same hp hm

theorem OthersKept.of_reply {r : Response} (hu : OthersKept i s u) (h : u.reply r = .next t) :
    OthersKept i s t := by
  cases h
  exact hu.same rfl rfl

/-! ## The commands on a handle -/

theorem State.withHandle_othersKept {k : CanModule → Host.Outcome State Fault Refusal}
    (hk : ∀ m, k m = .next t → OthersKept i s t) (h : s.withHandle b k = .next t) :
    OthersKept i s t := by
  cases hc : s.claimed? b with
  | none =>
    rw [State.withHandle_none hc] at h
    exact (OthersKept.refl i s).of_reply h
  | some m =>
    rw [State.withHandle_some hc] at h
    exact hk m h

/-- A command that runs an operation on its Module and then changes no slot. -/
theorem OthersKept.onSlot_finish {α : Type} {f : CanModule → Run CanModule α}
    {g : α → State → Run State Unit}
    (hg : ∀ a v, OthersKept i s v → OthersKept i s (g a v).state)
    (h : ((s.onSlot i f).andThen g).finish = .next t) : OthersKept i s t :=
  .of_finish (Run.state_andThen ((OthersKept.refl i s).onSlot f) hg) h

theorem OthersKept.stopSequence (i : Nat) (m : CanModule) (s : State) :
    OthersKept i s (stopSequence i m s) :=
  ⟨(stopSequence_onlySlot i m).params, (stopSequence_onlySlot i m).others⟩

theorem execFree_othersKept (h : execFree b s = .next t) : OthersKept b.toNat s t := by
  refine State.withHandle_othersKept (fun m h => ?_) h
  split at h
  · exact ((OthersKept.stopSequence b.toNat m s).setSlot _).of_reply h
  · exact ((OthersKept.refl _ s).setSlot _).of_reply h

theorem execStop_othersKept (h : execStop b s = .next t) : OthersKept b.toNat s t := by
  refine State.withHandle_othersKept (fun m h => ?_) h
  split at h
  · exact (OthersKept.stopSequence b.toNat m s).of_reply h
  · exact (OthersKept.refl _ s).of_reply h

theorem execStart_othersKept (h : execStart b s = .next t) : OthersKept b.toNat s t := by
  refine State.withHandle_othersKept (fun m h => ?_) h
  split at h
  · exact (OthersKept.refl _ s).of_reply h
  · obtain ⟨hp, hm⟩ := startSequence_modules m s
    refine .of_finish (Run.state_andThen (.of_modules hp hm) fun ok v hv => ?_) h
    split
    · exact (hv.setSlot _).same rfl rfl
    · exact hv.same rfl rfl

/-- The meaning of a command writes no slot but the one its handle names. -/
theorem exec_othersKept {x : Instr} (hx : handleOf x = some b) (h : exec x s = .next t) :
    OthersKept b.toNat s t := by
  cases x with
  | allocate p lb sil artx led => cases hx
  | free c => cases hx; exact execFree_othersKept h
  | addFilter c fifo id ide mask =>
    cases hx
    refine State.withHandle_othersKept (fun m h => ?_) h
    split at h
    · exact (OthersKept.refl _ s).of_reply h
    · split at h
      · exact (OthersKept.refl _ s).of_reply h
      · exact .onSlot_finish (fun _ _ hv => hv.same rfl rfl) h
  | start c => cases hx; exact execStart_othersKept h
  | stop c => cases hx; exact execStop_othersKept h
  | registerCb c kind en =>
    cases hx
    exact State.withHandle_othersKept (fun m h => ((OthersKept.refl _ s).setSlot _).of_reply h) h
  | transmit c prio txid id ide rtr len data ts =>
    cases hx
    refine State.withHandle_othersKept (fun m h => ?_) h
    split at h
    · refine .onSlot_finish (fun r v hv => ?_) h
      split
      · exact hv.same rfl rfl
      · split <;> exact hv.same rfl rfl
    · exact (OthersKept.refl _ s).of_reply h
  | abortTx c txid =>
    cases hx
    exact State.withHandle_othersKept
      (fun m h => .onSlot_finish (fun _ _ hv => hv.same rfl rfl) h) h
  | getOccupancy c =>
    cases hx
    exact State.withHandle_othersKept (fun m h => (OthersKept.refl _ s).of_reply h) h
  | rxRead c =>
    cases hx
    refine State.withHandle_othersKept (fun m h => .onSlot_finish (fun o v hv => ?_) h) h
    cases o <;> exact hv.same rfl rfl
  | getBusState c =>
    cases hx
    exact State.withHandle_othersKept
      (fun m h => ((OthersKept.refl _ s).request _).of_reply h) h
  | getErrorCounters c =>
    cases hx
    exact State.withHandle_othersKept
      (fun m h => ((OthersKept.refl _ s).request _).of_reply h) h
  | getStats c =>
    cases hx
    exact State.withHandle_othersKept (fun m h => (OthersKept.refl _ s).of_reply h) h
  | evtRxPending p fifo => cases hx
  | evtTxComplete p mb => cases hx
  | evtError p => cases hx

/-! ## ALLOCATE -/

/-- ALLOCATE writes at most the lowest unallocated slot (43_module.md R260). -/
theorem execAllocate_keeps_allocated {lb sil artx led : Bool} {j : Nat} {m : CanModule}
    (h : execAllocate b lb sil artx led s = .next t) (hm : s.slot? j = some m)
    (ha : m.allocated = true) : t.slot? j = some m := by
  unfold execAllocate at h
  split at h
  · cases h; exact hm
  · split at h
    · cases h; exact hm
    · split at h
      · cases h; exact hm
      · next i hl =>
        obtain ⟨m₀, hm₀, ha₀⟩ := State.lowestFree?_unallocated hl
        have hj : j ≠ i := by
          rintro rfl
          simp_all
        have hkept := ((OthersKept.refl i s).setSlot _).of_reply h
        exact (hkept.others j hj).trans hm

/-! ## The event handlers -/

theorem OthersKept.submitEntry (h : OthersKept i s t) (m : CanModule) (en : Entry) :
    OthersKept i s (submitEntry i m en t).state := by
  unfold Machine.submitEntry
  simp only
  split
  · have hnoted := OthersKept.same (h.request (.addTx m.cfg.periph (txHeader en.msg) en.msg.data))
      (State.noteSubmitted_params _ en.txId) (State.noteSubmitted_modules _ en.txId)
    exact hnoted.onSlot _
  · exact (h.request _).emit i _

theorem OthersKept.addTx (h : OthersKept i s t) (e : Nat) :
    OthersKept i s (addTx i e t).state := by
  unfold Machine.addTx
  split
  · exact h
  · split
    · exact h
    · exact h.submitEntry _ _

theorem OthersKept.drvFreeMb (h : OthersKept i s t) (p : Byte) :
    OthersKept i s (drvFreeMb p t).state := by
  unfold Machine.drvFreeMb
  split <;> exact h.same rfl rfl

theorem OthersKept.submitNextIsr (h : OthersKept i s t) :
    OthersKept i s (submitNextIsr i t).state := by
  unfold Machine.submitNextIsr
  split
  · exact h
  · refine Run.state_andThen (h.drvFreeMb _) fun n u hu => ?_
    split
    · exact hu
    · refine Run.state_andThen (hu.onSlot _) fun o v hv => ?_
      cases o with
      | none => exact hv
      | some e =>
        refine Run.state_andThen (hv.addTx e) fun _ x hx => ?_
        exact Run.state_andThen (hx.onSlot _) fun _ _ hy => hy

theorem OthersKept.indicate (h : OthersKept i s t) : OthersKept i s (indicate i t).state := by
  unfold Machine.indicate
  split
  · exact h
  · rw [Run.state_ok]
    split
    · exact h.same rfl rfl
    · exact h

theorem OthersKept.deliver (h : OthersKept i s t) (msg : Message) :
    OthersKept i s (deliver i msg t).state := by
  unfold Machine.deliver
  split
  · exact h.emit i _
  · refine Run.state_andThen (h.onSlot _) fun r u hu => ?_
    cases r with
    | pushed => exact hu
    | dropped => exact hu.emit i _

theorem OthersKept.receive (h : OthersKept i s t) (a : DrvAnswer) :
    OthersKept i s (receive i a t).state := by
  unfold Machine.receive
  split
  · refine Run.state_andThen (h.onSlot _) fun _ u hu => ?_
    exact Run.state_andThen hu.indicate fun _ x hx => hx.deliver _
  · exact h

theorem OthersKept.reportCompletion (h : OthersKept i s t) (was : Mailbox) :
    OthersKept i s (reportCompletion i was t).state := by
  unfold Machine.reportCompletion
  split
  · exact Run.state_andThen (h.onSlot _) fun _ u hu => hu.emit i _
  · exact h

theorem OthersKept.reportError (h : OthersKept i s t) (c : Word) :
    OthersKept i s (reportError i c t) := by
  unfold Machine.reportError
  split
  · exact (h.emit i _).emit i _
  · exact h.emit i _

/-- A handler that writes no slot but the one the event resolves to leaves every slot that is not
started on the event's peripheral (44_interrupt_dispatch.md R350). -/
theorem State.withEvent_keeps_unresolved {k : Nat → Run State Unit} {j : Nat} {m : CanModule}
    (hk : ∀ i, OthersKept i s (k i).state) (h : s.withEvent b k = .next t)
    (hm : s.slot? j = some m)
    (hn : ¬ (m.allocated = true ∧ m.started = true ∧ m.cfg.periph = b)) : t.slot? j = some m := by
  cases hr : s.resolve b with
  | none =>
    rw [State.withEvent_none hr] at h
    cases h
    exact hm
  | some i =>
    rw [State.withEvent_some hr] at h
    obtain ⟨m₀, hm₀, hon⟩ := State.resolve_eq_some hr
    have hj : j ≠ i := by
      rintro rfl
      rw [hm, Option.some.injEq] at hm₀
      exact hn (hm₀ ▸ hon)
    exact (((hk i).of_finish h).others j hj).trans hm

/-- The meaning of an event writes no slot but that of a Module started on its peripheral. -/
theorem exec_event_keeps {x : Instr} {j : Nat} {m : CanModule} (hx : eventPeriph x = some b)
    (h : exec x s = .next t) (hm : s.slot? j = some m)
    (hn : ¬ (m.allocated = true ∧ m.started = true ∧ m.cfg.periph = b)) : t.slot? j = some m := by
  cases x with
  | evtRxPending p fifo =>
    cases hx
    refine State.withEvent_keeps_unresolved (fun i => ?_) h hm hn
    split
    · exact ((OthersKept.refl i s).request _).receive _
    · exact ((OthersKept.refl i s).request _).emit i _
  | evtTxComplete p mb =>
    cases hx
    refine State.withEvent_keeps_unresolved (fun i => ?_) h hm hn
    refine Run.state_andThen ((OthersKept.refl i s).onSlot _) fun was u hu => ?_
    refine Run.state_andThen (hu.reportCompletion was) fun _ v hv => ?_
    exact Run.state_andThen hv.submitNextIsr fun _ _ hx => hx
  | evtError p =>
    cases hx
    refine State.withEvent_keeps_unresolved (fun i => ?_) h hm hn
    refine Run.state_andThen (((OthersKept.refl i s).request _).onSlot _) fun _ u hu => ?_
    exact hu.reportError _
  | _ => cases hx

/-- Settles O57: every write of a slot is on the slot of the command's handle, on the free slot
ALLOCATE claims, or on the slot the event resolves to. -/
theorem otherModulesUnchanged : Obligations.OtherModulesUnchanged := by
  intro s t x h
  refine ⟨fun b hb => (exec_othersKept hb h).others, fun hx j m hm ha => ?_,
    fun p hp j m hm hn => exec_event_keeps hp h hm hn⟩
  cases x with
  | allocate p lb sil artx led => exact execAllocate_keeps_allocated h hm ha
  | _ => cases hx

end Sys2Proof.Machine

/-! Two runs of a command, from states that agree on its Module (20_memory.md R94). -/

namespace Sys2Proof.Machine

variable {s₁ s₂ t₁ t₂ : State} {i : Nat} {b : Byte}

/-! ## Two runs that are alike on one Module -/

/-- Two lists have grown by the same records. -/
def SameGrowth {α : Type} (l₁ l₂ l₁' l₂' : List α) : Prop :=
  ∃ new, l₁' = l₁ ++ new ∧ l₂' = l₂ ++ new

theorem SameGrowth.refl {α : Type} (l₁ l₂ : List α) : SameGrowth l₁ l₂ l₁ l₂ := ⟨[], by simp⟩

theorem SameGrowth.snoc {α : Type} {l₁ l₂ l₁' l₂' : List α} (h : SameGrowth l₁ l₂ l₁' l₂') (x : α) :
    SameGrowth l₁ l₂ (l₁' ++ [x]) (l₂' ++ [x]) := by
  obtain ⟨new, rfl, rfl⟩ := h
  exact ⟨new ++ [x], by simp⟩

/-- Two runs of a command on Module `i`, from `s₁` and from `s₂`, have come to `t₁` and `t₂`: all that
the command may read is the same in both, and both have put the same records on the ports. -/
structure Twins (i : Nat) (s₁ s₂ t₁ t₂ : State) : Prop where
  params : t₁.params = t₂.params
  slot   : t₁.slot? i = t₂.slot? i
  nctx   : t₁.nctx = t₂.nctx
  fault  : t₁.fault = t₂.fault
  drvAns : t₁.drvAns = t₂.drvAns
  drawn  : t₁.drawn = t₂.drawn
  rsp    : SameGrowth s₁.rsp s₂.rsp t₁.rsp t₂.rsp
  ntf    : SameGrowth s₁.ntf s₂.ntf t₁.ntf t₂.ntf
  drvLog : SameGrowth s₁.drvLog s₂.drvLog t₁.drvLog t₂.drvLog

/-- The driver answers both runs alike (00_scope.md R18). -/
theorem Twins.nextAnswer (h : Twins i s₁ s₂ t₁ t₂) : t₁.nextAnswer = t₂.nextAnswer := by
  simp only [State.nextAnswer, h.drvAns, h.params, h.drawn]

theorem Twins.answer (h : Twins i s₁ s₂ t₁ t₂) (r : Response) :
    Twins i s₁ s₂ (t₁.answer r) (t₂.answer r) :=
  { h with rsp := h.rsp.snoc r }

theorem Twins.request (h : Twins i s₁ s₂ t₁ t₂) (r : DrvRequest) :
    Twins i s₁ s₂ (t₁.request r) (t₂.request r) :=
  { h with
    drvAns := congrArg List.tail h.drvAns
    drawn := congrArg (· + 1) h.drawn
    drvLog := by
      simp only [State.request_drvLog, h.nextAnswer]
      exact h.drvLog.snoc _ }

theorem Twins.raise (h : Twins i s₁ s₂ t₁ t₂) (r : Fault) :
    Twins i s₁ s₂ (t₁.raise r) (t₂.raise r) :=
  { h with fault := rfl }

theorem Twins.setNctx (h : Twins i s₁ s₂ t₁ t₂) (n : Nctx) :
    Twins i s₁ s₂ { t₁ with nctx := n } { t₂ with nctx := n } :=
  { h with nctx := rfl }

/-- `M[i] <- m` on slot `i`, which may be missing. -/
theorem State.slot?_setSlot_eq_map (s : State) (i : Nat) (m : CanModule) :
    (s.setSlot i m).slot? i = (s.slot? i).map fun _ => m := by
  cases hm : s.slot? i with
  | none => simpa [State.slot?, readAt_eq_none] using hm
  | some m₀ => exact State.slot?_setSlot_self hm

theorem Twins.setSlot (h : Twins i s₁ s₂ t₁ t₂) (m : CanModule) :
    Twins i s₁ s₂ (t₁.setSlot i m) (t₂.setSlot i m) :=
  { h with slot := by simp only [State.slot?_setSlot_eq_map, h.slot] }

/-! ## Parts of two runs -/

/-- The same part of both runs ends alike: with the same value or the same fault, in states that
`R` relates. -/
inductive Run.Alike {α : Type} (R : State → State → Prop) : Run State α → Run State α → Prop where
  | ok (a : α) {t₁ t₂ : State} (h : R t₁ t₂) : Alike R (.ok a t₁) (.ok a t₂)
  | fault (r : Fault) {t₁ t₂ : State} (h : R t₁ t₂) : Alike R (.fault r t₁) (.fault r t₂)

theorem Run.Alike.andThen {α β : Type} {R : State → State → Prop} {x₁ x₂ : Run State α}
    {f₁ f₂ : α → State → Run State β} (hx : x₁.Alike R x₂)
    (hf : ∀ a u₁ u₂, R u₁ u₂ → (f₁ a u₁).Alike R (f₂ a u₂)) :
    (x₁.andThen f₁).Alike R (x₂.andThen f₂) := by
  cases hx with
  | ok a h => exact hf a _ _ h
  | fault r h => exact .fault r h

/-- A Module operation reads and writes the one slot. -/
theorem Twins.onSlot {α : Type} (h : Twins i s₁ s₂ t₁ t₂) (f : CanModule → Run CanModule α) :
    (t₁.onSlot i f).Alike (Twins i s₁ s₂) (t₂.onSlot i f) := by
  cases hm : t₁.slot? i with
  | none =>
    rw [State.onSlot, State.onSlot, ← h.slot, hm]
    exact .fault _ h
  | some m =>
    rw [State.onSlot_of hm, State.onSlot_of (h.slot ▸ hm)]
    cases f m with
    | ok a m' => exact .ok a (h.setSlot m')
    | fault r m' => exact .fault r (h.setSlot m')

/-! ## Two steps -/

/-- Both steps have a next state, and `R` relates the two. -/
def NextAlike (R : State → State → Prop) (o₁ o₂ : Host.Outcome State Fault Refusal) : Prop :=
  ∃ t₁ t₂, o₁ = .next t₁ ∧ o₂ = .next t₂ ∧ R t₁ t₂

theorem Run.Alike.finish {α : Type} {x₁ x₂ : Run State α}
    (h : x₁.Alike (Twins i s₁ s₂) x₂) : NextAlike (Twins i s₁ s₂) x₁.finish x₂.finish := by
  cases h with
  | ok a h => exact ⟨_, _, rfl, rfl, h⟩
  | fault r h => exact ⟨_, _, rfl, rfl, h.raise r⟩

theorem Twins.reply (h : Twins i s₁ s₂ t₁ t₂) (r : Response) :
    NextAlike (Twins i s₁ s₂) (t₁.reply r) (t₂.reply r) :=
  ⟨_, _, rfl, rfl, h.answer r⟩

/-- An operation on the Module, and an answer computed from its value. -/
theorem Twins.onSlot_answer {α : Type} (h : Twins i s₁ s₂ t₁ t₂)
    (f : CanModule → Run CanModule α) (g : α → Response) :
    NextAlike (Twins i s₁ s₂)
      ((t₁.onSlot i f).andThen fun a s => .ok () (s.answer (g a))).finish
      ((t₂.onSlot i f).andThen fun a s => .ok () (s.answer (g a))).finish :=
  ((h.onSlot f).andThen fun a _ _ hu => .ok () (hu.answer (g a))).finish

/-- A command on a handle finds the same Module in both runs, or answers InvalidHandle in both
(60_exceptions.md R402). -/
theorem Twins.withHandle {k₁ k₂ : CanModule → Host.Outcome State Fault Refusal}
    (h : Twins b.toNat s₁ s₂ t₁ t₂)
    (hk : ∀ m, NextAlike (Twins b.toNat s₁ s₂) (k₁ m) (k₂ m)) :
    NextAlike (Twins b.toNat s₁ s₂) (t₁.withHandle b k₁) (t₂.withHandle b k₂) := by
  have hclaimed : t₁.claimed? b = t₂.claimed? b := by
    simp only [State.claimed?, h.slot]
  cases hc : t₁.claimed? b with
  | none =>
    rw [State.withHandle_none hc, State.withHandle_none (hclaimed ▸ hc)]
    exact h.reply _
  | some m =>
    rw [State.withHandle_some hc, State.withHandle_some (hclaimed ▸ hc)]
    exact hk m

/-! ## The commands, run twice -/

theorem Twins.stopSequence (h : Twins i s₁ s₂ t₁ t₂) (m : CanModule) :
    Twins i s₁ s₂ (stopSequence i m t₁) (stopSequence i m t₂) :=
  ((h.request _).request _).setSlot _

theorem Twins.stopResult (h : Twins i s₁ s₂ t₁ t₂) (m : CanModule) :
    stopResult m t₁ = stopResult m t₂ := by
  simp only [Machine.stopResult, h.nextAnswer, (h.request (.deactivate m.cfg.periph)).nextAnswer]

theorem Twins.execFree (h : Twins b.toNat s₁ s₂ t₁ t₂) :
    NextAlike (Twins b.toNat s₁ s₂) (execFree b t₁) (execFree b t₂) := by
  refine h.withHandle fun m => ?_
  rw [h.params, h.stopResult m]
  split
  · exact ((h.stopSequence m).setSlot _).reply _
  · exact (h.setSlot _).reply _

theorem Twins.execStop (h : Twins b.toNat s₁ s₂ t₁ t₂) :
    NextAlike (Twins b.toNat s₁ s₂) (execStop b t₁) (execStop b t₂) := by
  refine h.withHandle fun m => ?_
  rw [h.stopResult m]
  split
  · exact (h.stopSequence m).reply _
  · exact h.reply _

theorem Twins.execAddFilter {fifo : BitVec 1} {id mask : CanId} {ide : Bool}
    (h : Twins b.toNat s₁ s₂ t₁ t₂) :
    NextAlike (Twins b.toNat s₁ s₂) (execAddFilter b fifo id ide mask t₁)
      (execAddFilter b fifo id ide mask t₂) := by
  refine h.withHandle fun m => ?_
  rw [h.params]
  split
  · exact h.reply _
  · split
    · exact h.reply _
    · exact h.onSlot_answer _ _

theorem Twins.programFilters (h : Twins i s₁ s₂ t₁ t₂) (m : CanModule) (n k : Nat) :
    (programFilters m n k t₁).Alike (Twins i s₁ s₂) (programFilters m n k t₂) := by
  induction n generalizing k t₁ t₂ with
  | zero => exact .ok _ h
  | succ n ih =>
    unfold Machine.programFilters
    rw [h.params, h.nextAnswer]
    split
    · exact .fault _ h
    · split
      · exact ih (h.request _) _
      · exact .ok _ (h.request _)

theorem Twins.startPeripheral (h : Twins i s₁ s₂ t₁ t₂) (m : CanModule) :
    (startPeripheral m t₁).Alike (Twins i s₁ s₂) (startPeripheral m t₂) := by
  have hstart := h.request (.start m.cfg.periph m.cfg.loopback m.cfg.silent m.cfg.autoRetx)
  have hactivate := hstart.request (.activate m.cfg.periph)
  unfold Machine.startPeripheral
  simp only [h.nextAnswer, hstart.nextAnswer]
  split
  · exact .ok _ hstart
  · split
    · exact .ok _ (hactivate.request _)
    · exact .ok _ hactivate

theorem Twins.startSequence (h : Twins i s₁ s₂ t₁ t₂) (m : CanModule) :
    (startSequence m t₁).Alike (Twins i s₁ s₂) (startSequence m t₂) := by
  refine (h.programFilters m _ _).andThen fun ok u₁ u₂ hu => ?_
  split
  · exact hu.startPeripheral m
  · exact .ok _ hu

theorem Twins.execStart (h : Twins b.toNat s₁ s₂ t₁ t₂) :
    NextAlike (Twins b.toNat s₁ s₂) (execStart b t₁) (execStart b t₂) := by
  refine h.withHandle fun m => ?_
  split
  · exact h.reply _
  · refine ((h.startSequence m).andThen fun ok u₁ u₂ hu => ?_).finish
    split
    · exact .ok _ ((hu.setSlot _).setNctx _)
    · exact .ok _ (hu.answer _)

theorem Twins.transmitQueued (h : Twins b.toNat s₁ s₂ t₁ t₂) (m : CanModule) (msg : Message)
    (w : Word) (prio : BitVec 3) :
    (transmitQueued b m msg w prio t₁).Alike (Twins b.toNat s₁ s₂)
      (transmitQueued b m msg w prio t₂) := by
  unfold Machine.transmitQueued
  rw [h.params]
  refine (h.onSlot _).andThen fun r u₁ u₂ hu => ?_
  split
  · exact .ok _ (hu.answer _)
  · split
    · exact .ok _ (hu.setNctx _)
    · exact .ok _ (hu.answer _)

theorem Twins.execTransmit {prio : BitVec 3} {w ts : Word} {id : CanId} {ide rtr : Bool}
    {len : BitVec 4} {data : BitVec 64} (h : Twins b.toNat s₁ s₂ t₁ t₂) :
    NextAlike (Twins b.toNat s₁ s₂) (execTransmit b prio w id ide rtr len data ts t₁)
      (execTransmit b prio w id ide rtr len data ts t₂) := by
  refine h.withHandle fun m => ?_
  rw [h.params]
  split
  · exact (h.transmitQueued m _ w prio).finish
  · exact h.reply _

theorem Twins.execAbortTx {w : Word} (h : Twins b.toNat s₁ s₂ t₁ t₂) :
    NextAlike (Twins b.toNat s₁ s₂) (execAbortTx b w t₁) (execAbortTx b w t₂) := by
  refine h.withHandle fun m => ?_
  rw [h.params]
  exact h.onSlot_answer _ _

theorem Twins.execRxRead (h : Twins b.toNat s₁ s₂ t₁ t₂) :
    NextAlike (Twins b.toNat s₁ s₂) (execRxRead b t₁) (execRxRead b t₂) := by
  refine h.withHandle fun m => ?_
  rw [h.params]
  refine ((h.onSlot _).andThen fun o _ _ hu => ?_).finish
  cases o with
  | none => exact .ok _ (hu.answer _)
  | some msg => exact .ok _ (hu.answer _)

/-- GET_BUS_STATE and GET_ERROR_COUNTERS: one request, and an answer computed from the driver's
(43_module.md R296, R298). -/
theorem Twins.requestReply (h : Twins i s₁ s₂ t₁ t₂) (r : DrvRequest) (f : DrvAnswer → Response) :
    NextAlike (Twins i s₁ s₂) ((t₁.request r).reply (f t₁.nextAnswer))
      ((t₂.request r).reply (f t₂.nextAnswer)) := by
  rw [h.nextAnswer]
  exact (h.request r).reply _

/-- The meaning of a command, run twice. -/
theorem Twins.exec {x : Instr} (hx : handleOf x = some b) (h : Twins b.toNat s₁ s₂ t₁ t₂) :
    NextAlike (Twins b.toNat s₁ s₂) (exec x t₁) (exec x t₂) := by
  cases x with
  | allocate p lb sil artx led => cases hx
  | free c => cases hx; exact h.execFree
  | addFilter c fifo id ide mask => cases hx; exact h.execAddFilter
  | start c => cases hx; exact h.execStart
  | stop c => cases hx; exact h.execStop
  | registerCb c kind en => cases hx; exact h.withHandle fun m => (h.setSlot _).reply _
  | transmit c prio txid id ide rtr len data ts => cases hx; exact h.execTransmit
  | abortTx c txid => cases hx; exact h.execAbortTx
  | getOccupancy c =>
    cases hx
    refine h.withHandle fun m => ?_
    rw [h.params]
    exact h.reply _
  | rxRead c => cases hx; exact h.execRxRead
  | getBusState c => cases hx; exact h.withHandle fun m => h.requestReply _ busStateResponse
  | getErrorCounters c =>
    cases hx
    exact h.withHandle fun m => h.requestReply _ errorCountersResponse
  | getStats c => cases hx; exact h.withHandle fun m => h.reply _
  | evtRxPending p fifo => cases hx
  | evtTxComplete p mb => cases hx
  | evtError p => cases hx

/-- Settles O58: the two runs start alike, and each operation of a command keeps them so. -/
theorem commandsReadOnlyTheirModule : Obligations.CommandsReadOnlyTheirModule := by
  intro s₁ s₂ t₁ t₂ x b hx hparams hslot hnctx hfault hans hdrawn h₁ h₂
  have hstart : Twins b.toNat s₁ s₂ s₁ s₂ :=
    ⟨hparams, hslot, hnctx, hfault, hans, hdrawn, .refl _ _, .refl _ _, .refl _ _⟩
  obtain ⟨u₁, u₂, hu₁, hu₂, hend⟩ := hstart.exec hx
  cases h₁.symm.trans hu₁
  cases h₂.symm.trans hu₂
  obtain ⟨rs, hrs₁, hrs₂⟩ := hend.rsp
  obtain ⟨ns, hns₁, hns₂⟩ := hend.ntf
  obtain ⟨ds, hds₁, hds₂⟩ := hend.drvLog
  exact ⟨hend.slot, hend.nctx, hend.fault, hend.drvAns, hend.drawn,
    rs, ns, ds, hrs₁, hrs₂, hns₁, hns₂, hds₁, hds₂⟩

end Sys2Proof.Machine

/-! A field of a 32-bit word as the word under a mask: what the encoder puts back and what the
checks of R119 and R121 test (30_encoding.md R112 to R120). -/

namespace Sys2Proof

/-! ## Reading a placed field back -/

section placed

variable {n m lo b : Nat} (v : BitVec n)

@[simp] theorem extractLsb'_place (h : lo + n ≤ 32) : (place v lo).extractLsb' lo n = v := by
  apply BitVec.eq_of_getLsbD_eq
  intro k hk
  have h32 : lo + k < 32 := by omega
  simp [hk, h32]

@[simp] theorem extractLsb'_place_below (h : b + m ≤ lo) : (place v lo).extractLsb' b m = 0 := by
  apply BitVec.eq_of_getLsbD_eq
  intro k hk
  have hlo : ¬ lo ≤ b + k := by omega
  simp [hlo]

@[simp] theorem extractLsb'_place_above (h : lo + n ≤ b) : (place v lo).extractLsb' b m = 0 := by
  apply BitVec.eq_of_getLsbD_eq
  intro k hk
  have hn : n ≤ b + k - lo := by omega
  simp [BitVec.getLsbD_of_ge v _ hn]

end placed

/-! ## Masks -/

/-- The mask of the `n` bits from bit `lo`. -/
def fieldMask (lo n : Nat) : Word := place (BitVec.allOnes n) lo

theorem extractLsb'_one (w : Word) (lo : Nat) :
    w.extractLsb' lo 1 = BitVec.ofBool (w.getLsbD lo) := by
  apply BitVec.eq_of_getLsbD_eq
  intro i hi
  simp [Nat.lt_one_iff.mp hi]

theorem place_extractLsb' (w : Word) (lo n : Nat) :
    place (w.extractLsb' lo n) lo = w &&& fieldMask lo n := by
  apply BitVec.eq_of_getLsbD_eq
  intro i hi
  by_cases hlo : lo ≤ i
  · by_cases hn : i - lo < n <;> simp [fieldMask, hi, hlo, hn, Nat.add_sub_cancel' hlo]
  · simp [fieldMask, hlo]

theorem flagBit_getLsbD (w : Word) (lo : Nat) :
    flagBit (w.getLsbD lo) lo = w &&& fieldMask lo 1 := by
  rw [flagBit, ← extractLsb'_one, place_extractLsb']

theorem and_fieldMask_eq_zero {w : Word} {lo n : Nat} :
    w &&& fieldMask lo n = 0 ↔ w.extractLsb' lo n = 0 := by
  rw [← place_extractLsb']
  constructor
  · intro h
    apply BitVec.eq_of_getLsbD_eq
    intro k hk
    by_cases h32 : lo + k < 32
    · simpa [h32, hk] using congrArg (·.getLsbD (lo + k)) h
    · simp [hk, BitVec.getLsbD_of_ge w (lo + k) (by omega)]
  · intro h
    simp [h, place]

theorem and_bitMask_eq_zero {w : Word} {lo : Nat} :
    w &&& fieldMask lo 1 = 0 ↔ w.getLsbD lo = false := by
  rw [and_fieldMask_eq_zero, extractLsb'_one]
  cases w.getLsbD lo <;> decide

theorem and_or_eq_zero {w a b : Word} : w &&& (a ||| b) = 0 ↔ w &&& a = 0 ∧ w &&& b = 0 := by
  rw [BitVec.and_or_distrib_left]
  exact BitVec.or_eq_zero_iff

/-- Two masks that cover the word, the second over bits that are zero: the first gives the word. -/
theorem and_eq_self_of_cover {w a b : Word} (hab : a ||| b = BitVec.allOnes 32) (hb : w &&& b = 0) :
    w &&& a = w := by
  calc w &&& a = w &&& (a ||| b) := by simp [BitVec.and_or_distrib_left, hb]
    _ = w := by rw [hab, BitVec.and_allOnes]

/-! ## Command words (R112) -/

section command

variable {w : Word}

theorem cmdReserved_eq_zero : cmdReserved w = 0 ↔ w &&& fieldMask 20 12 = 0 :=
  and_fieldMask_eq_zero.symm

theorem enableField_eq_false : enableField w = false ↔ w &&& fieldMask 19 1 = 0 :=
  and_bitMask_eq_zero.symm

theorem argField_eq_zero : argField w = 0 ↔ w &&& fieldMask 16 3 = 0 := and_fieldMask_eq_zero.symm

theorem unitField_eq_zero : unitField w = 0 ↔ w &&& fieldMask 8 8 = 0 := and_fieldMask_eq_zero.symm

/-- Bits 18:17, which ADD_FILTER keeps zero beside its FIFO bit. -/
theorem argField_high_eq_zero : (argField w).extractLsb' 1 2 = 0 ↔ w &&& fieldMask 17 2 = 0 := by
  have h : (argField w).extractLsb' 1 2 = w.extractLsb' 17 2 := by
    apply BitVec.eq_of_getLsbD_eq
    intro i hi
    interval_cases i <;> simp [argField]
  rw [and_fieldMask_eq_zero, h]

/-- Bit 18, which REGISTER_CB keeps zero beside its KIND. -/
theorem argField_top_eq_false : (argField w).getLsbD 2 = false ↔ w &&& fieldMask 18 1 = 0 := by
  rw [and_bitMask_eq_zero]
  simp [argField]

/-- ADD_FILTER's `A` is its FIFO bit when the bits above it are zero. -/
theorem argField_low_one (a : BitVec 3) (h : a.extractLsb' 1 2 = 0) :
    (a.extractLsb' 0 1).setWidth 3 = a := by
  revert a
  decide

/-- REGISTER_CB's `A` is its KIND when the bit above it is zero. -/
theorem argField_low_two (a : BitVec 3) (h : a.getLsbD 2 = false) :
    (a.extractLsb' 0 2).setWidth 3 = a := by
  revert a
  decide

end command

/-! ## Event words (R120) -/

section event

variable {w : Word}

theorem evtReserved_eq_zero : evtReserved w = 0 ↔ w &&& 0xFF000000 = 0 :=
  and_fieldMask_eq_zero.symm

/-- An event word with no reserved bit set is the word of its fields. -/
theorem evtWord_fields (hr : evtReserved w = 0) :
    evtWord (opField w) (unitField w) (subField w) = w := by
  simp only [evtWord, opField, unitField, subField, place_extractLsb', ← BitVec.and_or_distrib_left]
  exact and_eq_self_of_cover (b := 0xFF000000) (by decide) (evtReserved_eq_zero.mp hr)

/-- `SUB` is 0 or 1 when its other bits are zero, and then its low bit is all of it. -/
theorem subField_high_eq_zero (b : Byte) : b.extractLsb' 1 7 = 0 ↔ b.toNat ≤ 1 := by
  have hzero : (0 : BitVec 7).toNat = 0 := rfl
  rw [← BitVec.toNat_inj, BitVec.extractLsb'_toNat, Nat.shiftRight_eq_div_pow, hzero]
  have := b.isLt
  omega

theorem subField_low (b : Byte) (h : b.extractLsb' 1 7 = 0) :
    (b.extractLsb' 0 1).setWidth 8 = b := by
  rw [subField_high_eq_zero] at h
  apply BitVec.eq_of_toNat_eq
  rw [BitVec.toNat_setWidth, BitVec.extractLsb'_toNat, Nat.shiftRight_zero]
  omega

end event

/-! ## Operand words (R114 to R117) -/

section operand

variable {w : Word}

theorem midWord_fields (hr : w.getLsbD 31 = false) :
    midWord (idField w) (ideField w) (rtrField w) = w := by
  simp only [midWord, idField, ideField, rtrField, place_extractLsb', flagBit_getLsbD,
    ← BitVec.and_or_distrib_left]
  exact and_eq_self_of_cover (b := fieldMask 31 1) (by decide) (and_bitMask_eq_zero.mpr hr)

theorem mctlWord_fields (hr : w.extractLsb' 4 28 = 0) : mctlWord (lenField w) = w := by
  rw [mctlWord, lenField, place_extractLsb']
  exact and_eq_self_of_cover (b := fieldMask 4 28) (by decide) (and_fieldMask_eq_zero.mpr hr)

theorem fidWord_fields (hr : w.extractLsb' 30 2 = 0) :
    place (idField w) 0 ||| flagBit (ideField w) 29 = w := by
  simp only [idField, ideField, place_extractLsb', flagBit_getLsbD, ← BitVec.and_or_distrib_left]
  exact and_eq_self_of_cover (b := fieldMask 30 2) (by decide) (and_fieldMask_eq_zero.mpr hr)

theorem fmaskWord_fields (hr : w.extractLsb' 29 3 = 0) : place (idField w) 0 = w := by
  rw [idField, place_extractLsb']
  exact and_eq_self_of_cover (b := fieldMask 29 3) (by decide) (and_fieldMask_eq_zero.mpr hr)

/-- The word of ALLOCATE's CFG, as the encoder builds it (30_encoding.md R117). -/
def cfgWord (p : Byte) (lb sil artx led : Bool) : Word :=
  place p 0 ||| flagBit lb 8 ||| flagBit sil 9 ||| flagBit artx 10 ||| flagBit led 11

theorem encode_allocate (p : Byte) (lb sil artx led : Bool) :
    encode (.allocate p lb sil artx led) =
      .command { CmdRecord.ofWord (cmdWord 0x01 0 0 false) with
        cfg := cfgWord p lb sil artx led } :=
  rfl

theorem cfgWord_fields (hr : w.extractLsb' 12 20 = 0) :
    cfgWord (w.extractLsb' 0 8) (w.getLsbD 8) (w.getLsbD 9) (w.getLsbD 10) (w.getLsbD 11) = w := by
  simp only [cfgWord, place_extractLsb', flagBit_getLsbD, ← BitVec.and_or_distrib_left]
  exact and_eq_self_of_cover (b := fieldMask 12 20) (by decide) (and_fieldMask_eq_zero.mpr hr)

end operand

/-! ## What the encoder's words read as -/

/-- ADD_FILTER's FIFO bit, in `A`. -/
@[simp] theorem fifo_inArg (f : BitVec 1) :
    (f.setWidth 3).extractLsb' 0 1 = f ∧ (f.setWidth 3).extractLsb' 1 2 = 0 := by
  revert f
  decide

/-- EVT_RX_PENDING's FIFO bit, in `SUB`. -/
@[simp] theorem fifo_inSub (f : BitVec 1) :
    (f.setWidth 8).extractLsb' 0 1 = f ∧ (f.setWidth 8).extractLsb' 1 7 = 0 := by
  revert f
  decide

/-- REGISTER_CB's KIND, in `A`. -/
@[simp] theorem kind_inArg (k : CbKind) :
    (k.code.setWidth 3).extractLsb' 0 2 = k.code ∧ (k.code.setWidth 3).getLsbD 2 = false := by
  cases k <;> decide

/-- FID without its `RTR` is MID's layout (30_encoding.md R114, R116). -/
theorem fidWord_eq_midWord (id : CanId) (ide : Bool) :
    place id 0 ||| flagBit ide 29 = midWord id ide false := by
  simp [midWord, flagBit, place]

@[simp] theorem midWord_extract (id : CanId) (ide : Bool) :
    (midWord id ide false).extractLsb' 30 2 = 0 := by
  rw [← fidWord_eq_midWord]
  simp [flagBit, BitVec.extractLsb'_or]

@[simp] theorem idField_place (id : CanId) : idField (place id 0) = id :=
  extractLsb'_place id (by decide)

@[simp] theorem cfgWord_periph (p : Byte) (lb sil artx led : Bool) :
    (cfgWord p lb sil artx led).extractLsb' 0 8 = p := by
  simp [cfgWord, flagBit, BitVec.extractLsb'_or]

@[simp] theorem cfgWord_reserved (p : Byte) (lb sil artx led : Bool) :
    (cfgWord p lb sil artx led).extractLsb' 12 20 = 0 := by
  simp [cfgWord, flagBit, BitVec.extractLsb'_or]

@[simp] theorem cfgWord_flags (p : Byte) (lb sil artx led : Bool) :
    (cfgWord p lb sil artx led).getLsbD 8 = lb ∧ (cfgWord p lb sil artx led).getLsbD 9 = sil ∧
    (cfgWord p lb sil artx led).getLsbD 10 = artx ∧
    (cfgWord p lb sil artx led).getLsbD 11 = led := by
  simp [cfgWord]

end Sys2Proof

/-! The decoder against the encoder (30_encoding.md R112 to R122). -/

namespace Sys2Proof

variable {c : CmdRecord} {i : Instr} {op h : Byte} {mk : Byte → Instr}

/-! ## The rows of the opcode table -/

/-- The commands with a handle and no other operand, by opcode (30_encoding.md R118). -/
inductive HandleRow : Byte → (Byte → Instr) → Prop
  | free : HandleRow 0x02 .free
  | start : HandleRow 0x04 .start
  | stop : HandleRow 0x05 .stop
  | getOccupancy : HandleRow 0x12 .getOccupancy
  | rxRead : HandleRow 0x20 .rxRead
  | getBusState : HandleRow 0x30 .getBusState
  | getErrorCounters : HandleRow 0x31 .getErrorCounters
  | getStats : HandleRow 0x32 .getStats

/-- What the decoder answers for a command record with no reserved bit set, by its opcode
(30_encoding.md R118). -/
inductive CommandRow (c : CmdRecord) : Except Reject Instr → Prop
  | allocate (hop : opField c.cmd = 0x01) : CommandRow c (decodeAllocate c)
  | addFilter (hop : opField c.cmd = 0x03) : CommandRow c (decodeAddFilter c)
  | registerCb (hop : opField c.cmd = 0x06) : CommandRow c (decodeRegisterCb c)
  | transmit (hop : opField c.cmd = 0x10) : CommandRow c (decodeTransmit c)
  | abortTx (hop : opField c.cmd = 0x11) : CommandRow c (decodeAbortTx c)
  | handleOnly {mk : Byte → Instr} (hrow : HandleRow (opField c.cmd) mk) :
      CommandRow c (decodeHandleOnly c mk)
  | unassigned (hop : Machine.opAssigned (opField c.cmd) = false) :
      CommandRow c (.error .unassignedOpcode)

theorem CommandRow.ite {P : Prop} [Decidable P] {a b : Except Reject Instr}
    (ha : P → CommandRow c a) (hb : ¬ P → CommandRow c b) : CommandRow c (if P then a else b) := by
  split
  · next hp => exact ha hp
  · next hp => exact hb hp

theorem CommandRow.ofHandleRow (hrow : HandleRow op mk) (hop : opField c.cmd = op) :
    CommandRow c (decodeHandleOnly c mk) := .handleOnly (hop ▸ hrow)

theorem decodeCommand_of_reserved (hr : cmdReserved c.cmd ≠ 0) :
    decodeCommand c = .error .commandBits := if_pos (bne_iff_ne.mpr hr)

theorem decodeCommand_row (hr : cmdReserved c.cmd = 0) : CommandRow c (decodeCommand c) := by
  unfold decodeCommand
  rw [if_neg (by simp [hr])]
  exact .ite .allocate fun h01 => .ite (.ofHandleRow .free) fun h02 =>
    .ite .addFilter fun h03 => .ite (.ofHandleRow .start) fun h04 =>
    .ite (.ofHandleRow .stop) fun h05 => .ite .registerCb fun h06 =>
    .ite .transmit fun h10 => .ite .abortTx fun h11 =>
    .ite (.ofHandleRow .getOccupancy) fun h12 => .ite (.ofHandleRow .rxRead) fun h20 =>
    .ite (.ofHandleRow .getBusState) fun h30 => .ite (.ofHandleRow .getErrorCounters) fun h31 =>
    .ite (.ofHandleRow .getStats) fun h32 => .unassigned (by
      simpa [Machine.opAssigned] using
        ⟨h01, h02, h03, h04, h05, h06, h10, h11, h12, h20, h30, h31, h32⟩)

/-! ## What each row accepts -/

/-- A check that rejects, and what is decoded past it. -/
theorem check_eq_ok {P : Prop} [Decidable P] {e : Reject} {x : Except Reject Instr} :
    (if P then .error e else x) = .ok i ↔ ¬ P ∧ x = .ok i := by
  split <;> simp [*]

theorem plainArgs_iff : plainArgs c = true ↔ argField c.cmd = 0 ∧ enableField c.cmd = false := by
  simp [plainArgs]

theorem decodeHandleOnly_eq_ok :
    decodeHandleOnly c mk = .ok i ↔
      (argField c.cmd = 0 ∧ enableField c.cmd = false) ∧ mk (unitField c.cmd) = i := by
  rw [← plainArgs_iff]
  unfold decodeHandleOnly
  split <;> simp [*]

theorem decodeAbortTx_eq_ok :
    decodeAbortTx c = .ok i ↔
      (argField c.cmd = 0 ∧ enableField c.cmd = false) ∧
        .abortTx (unitField c.cmd) c.txid = i := by
  rw [← plainArgs_iff]
  unfold decodeAbortTx
  split <;> simp [*]

theorem decodeAllocate_eq_ok :
    decodeAllocate c = .ok i ↔
      ((argField c.cmd = 0 ∧ enableField c.cmd = false) ∧ unitField c.cmd = 0) ∧
      c.cfg.extractLsb' 12 20 = 0 ∧
      .allocate (c.cfg.extractLsb' 0 8) (c.cfg.getLsbD 8) (c.cfg.getLsbD 9) (c.cfg.getLsbD 10)
        (c.cfg.getLsbD 11) = i := by
  rw [decodeAllocate, check_eq_ok, check_eq_ok, ← plainArgs_iff]
  simp

theorem decodeAddFilter_eq_ok :
    decodeAddFilter c = .ok i ↔
      ((argField c.cmd).extractLsb' 1 2 = 0 ∧ enableField c.cmd = false) ∧
      (c.fid.extractLsb' 30 2 = 0 ∧ c.fmask.extractLsb' 29 3 = 0) ∧
      .addFilter (unitField c.cmd) ((argField c.cmd).extractLsb' 0 1) (idField c.fid)
        (ideField c.fid) (idField c.fmask) = i := by
  simp [decodeAddFilter, check_eq_ok]

theorem decodeRegisterCb_eq_ok :
    decodeRegisterCb c = .ok i ↔
      (argField c.cmd).getLsbD 2 = false ∧
      .registerCb (unitField c.cmd) (CbKind.ofCode ((argField c.cmd).extractLsb' 0 2))
        (enableField c.cmd) = i := by
  simp [decodeRegisterCb, check_eq_ok]

theorem decodeTransmit_eq_ok :
    decodeTransmit c = .ok i ↔
      enableField c.cmd = false ∧
      (c.mid.getLsbD 31 = false ∧ c.mctl.extractLsb' 4 28 = 0) ∧
      .transmit (unitField c.cmd) (argField c.cmd) c.txid (idField c.mid) (ideField c.mid)
        (rtrField c.mid) (lenField c.mctl) c.data c.ts = i := by
  simp [decodeTransmit, check_eq_ok]

/-! ## Decoding an encoded instruction -/

@[simp] theorem handleCmd_cmd : (handleCmd op h).cmd = cmdWord op h 0 false := rfl

@[simp] theorem ofWord_cmd (w : Word) : (CmdRecord.ofWord w).cmd = w := rfl

theorem decodeCommand_handleCmd (hrow : HandleRow op mk) (h : Byte) :
    decodeCommand (handleCmd op h) = .ok (mk h) := by
  have hok : decodeHandleOnly (handleCmd op h) mk = .ok (mk h) := by simp [decodeHandleOnly_eq_ok]
  cases hrow <;> simpa [decodeCommand] using hok

theorem decode_encode (i : Instr) : decode (encode i) = .ok i := by
  cases i with
  | allocate p lb sil artx led =>
    simp [encode_allocate, decode, decodeCommand, decodeAllocate_eq_ok,
      -BitVec.getLsbD_eq_getElem]
  | free h => exact decodeCommand_handleCmd .free h
  | addFilter h fifo id ide mask =>
    simp [encode, decode, decodeCommand, decodeAddFilter_eq_ok, fidWord_eq_midWord]
  | start h => exact decodeCommand_handleCmd .start h
  | stop h => exact decodeCommand_handleCmd .stop h
  | registerCb h kind en => simp [encode, decode, decodeCommand, decodeRegisterCb_eq_ok]
  | transmit h prio txid id ide rtr len data ts =>
    simp [encode, decode, decodeCommand, decodeTransmit_eq_ok,
      -BitVec.getLsbD_eq_getElem]
  | abortTx h txid => simp [encode, decode, decodeCommand, decodeAbortTx_eq_ok]
  | getOccupancy h => exact decodeCommand_handleCmd .getOccupancy h
  | rxRead h => exact decodeCommand_handleCmd .rxRead h
  | getBusState h => exact decodeCommand_handleCmd .getBusState h
  | getErrorCounters h => exact decodeCommand_handleCmd .getErrorCounters h
  | getStats h => exact decodeCommand_handleCmd .getStats h
  | evtRxPending p fifo => simp [encode, decode, decodeEvent]
  | evtTxComplete p m => simp [encode, decode, decodeEvent]
  | evtError p => simp [encode, decode, decodeEvent]

/-- Settles O1: by cases of the instruction, the decoder reads back each field where the encoder
put it. -/
theorem encodeThenDecode : Obligations.EncodeThenDecode := by
  intro i
  refine ⟨decode_encode i, fun p hw => ?_⟩
  simp [Machine.instrOf, decode_encode, hw]

/-! ## Encoding what was decoded -/

theorem HandleRow.encode (hrow : HandleRow op mk) (h : Byte) :
    encode (mk h) = .command (handleCmd op h) := by
  cases hrow <;> rfl

theorem HandleRow.usedFields (hrow : HandleRow (opField c.cmd) mk) :
    Machine.usedFields c = .ofWord c.cmd := by
  generalize hop : opField c.cmd = op at hrow
  cases hrow <;> simp [Machine.usedFields, CmdRecord.ofWord, hop]

theorem encode_of_decodeCommand (h : decodeCommand c = .ok i) :
    encode i = .command (Machine.usedFields c) := by
  by_cases hr : cmdReserved c.cmd = 0
  case neg =>
    rw [decodeCommand_of_reserved hr] at h
    cases h
  have hw := cmdWord_fields hr
  have hrow := decodeCommand_row hr
  generalize decodeCommand c = r at h hrow
  cases hrow with
  | allocate hop =>
    obtain ⟨⟨⟨ha, he⟩, hu⟩, hcfg, rfl⟩ := decodeAllocate_eq_ok.mp h
    rw [hop, hu, ha, he] at hw
    rw [encode_allocate, hw, cfgWord_fields hcfg]
    simp [Machine.usedFields, CmdRecord.ofWord, hop]
  | addFilter hop =>
    obtain ⟨⟨ha, he⟩, ⟨hid, hmask⟩, rfl⟩ := decodeAddFilter_eq_ok.mp h
    rw [hop, he] at hw
    simp only [encode]
    rw [argField_low_one _ ha, hw, fidWord_fields hid, fmaskWord_fields hmask]
    simp [Machine.usedFields, CmdRecord.ofWord, hop]
  | registerCb hop =>
    obtain ⟨ha, rfl⟩ := decodeRegisterCb_eq_ok.mp h
    rw [hop] at hw
    simp only [encode]
    rw [CbKind.code_ofCode, argField_low_two _ ha, hw]
    simp [Machine.usedFields, CmdRecord.ofWord, hop]
  | transmit hop =>
    obtain ⟨he, ⟨hmid, hmctl⟩, rfl⟩ := decodeTransmit_eq_ok.mp h
    rw [hop, he] at hw
    simp only [encode]
    rw [hw, midWord_fields hmid, mctlWord_fields hmctl]
    simp [Machine.usedFields, CmdRecord.ofWord, hop]
  | abortTx hop =>
    obtain ⟨⟨ha, he⟩, rfl⟩ := decodeAbortTx_eq_ok.mp h
    rw [hop, ha, he] at hw
    simp only [encode, handleCmd]
    rw [hw]
    simp [Machine.usedFields, CmdRecord.ofWord, hop]
  | handleOnly hrow =>
    obtain ⟨⟨ha, he⟩, rfl⟩ := decodeHandleOnly_eq_ok.mp h
    rw [ha, he] at hw
    rw [hrow.encode, hrow.usedFields, handleCmd, hw]
  | unassigned hop => cases h

/-! ## The events -/

theorem decodeEvent_eq_ok {w : Word} :
    decodeEvent w = .ok i ↔ evtReserved w = 0 ∧
      ((opField w = 0x81 ∧ (subField w).extractLsb' 1 7 = 0 ∧
          .evtRxPending (unitField w) ((subField w).extractLsb' 0 1) = i) ∨
        (opField w = 0x82 ∧ .evtTxComplete (unitField w) (subField w) = i) ∨
        (opField w = 0x83 ∧ subField w = 0 ∧ .evtError (unitField w) = i)) := by
  unfold decodeEvent
  split_ifs <;> simp_all

theorem encode_of_decodeEvent {w : Word} (h : decodeEvent w = .ok i) : encode i = .event w := by
  obtain ⟨hr, ⟨hop, hsub, rfl⟩ | ⟨hop, rfl⟩ | ⟨hop, hsub, rfl⟩⟩ := decodeEvent_eq_ok.mp h
  · rw [encode, subField_low _ hsub, ← hop, evtWord_fields hr]
  · rw [encode, ← hop, evtWord_fields hr]
  · rw [encode, ← hop, ← hsub, evtWord_fields hr]

/-- Settles O2: on each row of the opcode table a legal word is put together again from its
fields. -/
theorem decodeThenEncode : Obligations.DecodeThenEncode :=
  ⟨fun _ _ h => encode_of_decodeCommand h, fun _ _ h => encode_of_decodeEvent h⟩

end Sys2Proof

/-! The words R119 and R121 call illegal are those no instruction is read from, and what the block
does with one (30_encoding.md). -/

namespace Sys2Proof

open Machine

variable {c : CmdRecord} {i : Instr} {p : Params} {w : Word} {x : PortInput} {op : Byte}

/-! ## The instruction of a presented word -/

theorem instrOf_of_decode (hd : decode x = .ok i) (hw : i.wellFormed p = true) :
    instrOf p x = some i := by
  simp [instrOf, hd, hw]

theorem instrOf_eq_none :
    instrOf p x = none ↔ ¬ ∃ i, decode x = .ok i ∧ i.wellFormed p = true := by
  constructor
  · rintro h ⟨i, hd, hw⟩
    rw [instrOf_of_decode hd hw] at h
    cases h
  · intro h
    cases hi : instrOf p x with
    | none => rfl
    | some i => exact absurd ⟨i, instrOf_eq_some hi⟩ h

/-! ## The must-be-zero bits of a command word, field by field (R112) -/

theorem mustBeZero_allocate : w &&& cmdMustBeZero 0x01 = 0 ↔
    cmdReserved w = 0 ∧ (argField w = 0 ∧ enableField w = false) ∧ unitField w = 0 := by
  have h : cmdMustBeZero 0x01 =
      fieldMask 20 12 ||| (fieldMask 16 3 ||| fieldMask 19 1 ||| fieldMask 8 8) := by decide
  rw [h, and_or_eq_zero, and_or_eq_zero, and_or_eq_zero, cmdReserved_eq_zero, argField_eq_zero,
    enableField_eq_false, unitField_eq_zero]

theorem mustBeZero_addFilter : w &&& cmdMustBeZero 0x03 = 0 ↔
    cmdReserved w = 0 ∧ (argField w).extractLsb' 1 2 = 0 ∧ enableField w = false := by
  have h : cmdMustBeZero 0x03 = fieldMask 20 12 ||| (fieldMask 17 2 ||| fieldMask 19 1) := by decide
  rw [h, and_or_eq_zero, and_or_eq_zero, cmdReserved_eq_zero, argField_high_eq_zero,
    enableField_eq_false]

theorem mustBeZero_registerCb : w &&& cmdMustBeZero 0x06 = 0 ↔
    cmdReserved w = 0 ∧ (argField w).getLsbD 2 = false := by
  have h : cmdMustBeZero 0x06 = fieldMask 20 12 ||| fieldMask 18 1 := by decide
  rw [h, and_or_eq_zero, cmdReserved_eq_zero, argField_top_eq_false]

theorem mustBeZero_transmit : w &&& cmdMustBeZero 0x10 = 0 ↔
    cmdReserved w = 0 ∧ enableField w = false := by
  have h : cmdMustBeZero 0x10 = fieldMask 20 12 ||| fieldMask 19 1 := by decide
  rw [h, and_or_eq_zero, cmdReserved_eq_zero, enableField_eq_false]

theorem mustBeZero_other (h01 : op ≠ 0x01) (h03 : op ≠ 0x03) (h06 : op ≠ 0x06) (h10 : op ≠ 0x10) :
    w &&& cmdMustBeZero op = 0 ↔
      cmdReserved w = 0 ∧ argField w = 0 ∧ enableField w = false := by
  have h : (0xFFFF0000 : Word) = fieldMask 20 12 ||| (fieldMask 16 3 ||| fieldMask 19 1) := by
    decide
  rw [cmdMustBeZero, if_neg h01, if_neg h03, if_neg h06, if_neg h10, h, and_or_eq_zero,
    and_or_eq_zero, cmdReserved_eq_zero, argField_eq_zero, enableField_eq_false]

/-- The reserved bits of `CMD` are among the must-be-zero bits of every opcode (R112). -/
theorem cmdReserved_of_mustBeZero (h : w &&& cmdMustBeZero op = 0) : cmdReserved w = 0 := by
  by_cases h01 : op = 0x01
  · exact (mustBeZero_allocate.mp (h01 ▸ h)).1
  by_cases h03 : op = 0x03
  · exact (mustBeZero_addFilter.mp (h03 ▸ h)).1
  by_cases h06 : op = 0x06
  · exact (mustBeZero_registerCb.mp (h06 ▸ h)).1
  by_cases h10 : op = 0x10
  · exact (mustBeZero_transmit.mp (h10 ▸ h)).1
  exact ((mustBeZero_other h01 h03 h06 h10).mp h).1

/-! ## The reserved bits of the operand words (R114 to R117) -/

theorem operandReserved_allocate (hop : opField c.cmd = 0x01) :
    operandReserved c = false ↔ c.cfg.extractLsb' 12 20 = 0 := by
  rw [operandReserved, if_pos hop, bne_eq_false_iff_eq, ← and_fieldMask_eq_zero]
  rfl

theorem operandReserved_addFilter (hop : opField c.cmd = 0x03) :
    operandReserved c = false ↔ c.fid.extractLsb' 30 2 = 0 ∧ c.fmask.extractLsb' 29 3 = 0 := by
  rw [operandReserved, if_neg (by simp [hop]), if_pos hop, Bool.or_eq_false_iff,
    bne_eq_false_iff_eq, bne_eq_false_iff_eq, ← and_fieldMask_eq_zero, ← and_fieldMask_eq_zero]
  rfl

theorem operandReserved_transmit (hop : opField c.cmd = 0x10) :
    operandReserved c = false ↔ c.mid.getLsbD 31 = false ∧ c.mctl.extractLsb' 4 28 = 0 := by
  rw [operandReserved, if_neg (by simp [hop]), if_neg (by simp [hop]), if_pos hop,
    Bool.or_eq_false_iff, bne_eq_false_iff_eq, bne_eq_false_iff_eq, ← and_bitMask_eq_zero,
    ← and_fieldMask_eq_zero]
  rfl

theorem operandReserved_other (h01 : opField c.cmd ≠ 0x01) (h03 : opField c.cmd ≠ 0x03)
    (h10 : opField c.cmd ≠ 0x10) : operandReserved c = false := by
  rw [operandReserved, if_neg h01, if_neg h03, if_neg h10]

/-! ## Illegal commands (R119) -/

/-- The opcode of a command with a handle and no other operand is assigned, and is none of those
with fields of their own. -/
theorem HandleRow.opcode {mk : Byte → Instr} (hrow : HandleRow op mk) :
    opAssigned op = true ∧ op ≠ 0x01 ∧ op ≠ 0x03 ∧ op ≠ 0x06 ∧ op ≠ 0x10 := by
  cases hrow <;> decide

/-- The command words that decode, by the checks of R119 that no parameter decides. -/
theorem exists_decodeCommand :
    (∃ i, decodeCommand c = .ok i) ↔ opAssigned (opField c.cmd) = true ∧
      c.cmd &&& cmdMustBeZero (opField c.cmd) = 0 ∧ operandReserved c = false := by
  by_cases hr : cmdReserved c.cmd = 0
  case neg =>
    rw [decodeCommand_of_reserved hr]
    simp only [reduceCtorEq, exists_false, false_iff]
    exact fun h => hr (cmdReserved_of_mustBeZero h.2.1)
  have hrow := decodeCommand_row hr
  generalize decodeCommand c = r at hrow ⊢
  cases hrow with
  | allocate hop =>
    rw [operandReserved_allocate hop, hop, mustBeZero_allocate]
    simp [decodeAllocate_eq_ok, hr, opAssigned]
  | addFilter hop =>
    rw [operandReserved_addFilter hop, hop, mustBeZero_addFilter]
    simp [decodeAddFilter_eq_ok, hr, opAssigned]
  | registerCb hop =>
    rw [operandReserved_other (by simp [hop]) (by simp [hop]) (by simp [hop]), hop,
      mustBeZero_registerCb]
    simp [decodeRegisterCb_eq_ok, hr, opAssigned]
  | transmit hop =>
    rw [operandReserved_transmit hop, hop, mustBeZero_transmit]
    simp [decodeTransmit_eq_ok, hr, opAssigned]
  | abortTx hop =>
    rw [operandReserved_other (by simp [hop]) (by simp [hop]) (by simp [hop]), hop,
      mustBeZero_other (by decide) (by decide) (by decide) (by decide)]
    simp [decodeAbortTx_eq_ok, hr, opAssigned]
  | handleOnly hrow =>
    obtain ⟨ha, h01, h03, h06, h10⟩ := hrow.opcode
    rw [operandReserved_other h01 h03 h10, mustBeZero_other h01 h03 h06 h10]
    simp [decodeHandleOnly_eq_ok, ha, hr]
  | unassigned hop => simp [hop]

/-- The instruction of a command word exists unless it is GET_STATS and there are no statistics
(R118). -/
theorem wellFormed_of_decodeCommand (h : decodeCommand c = .ok i) :
    i.wellFormed p = (!(opField c.cmd == 0x32) || p.statsEn) := by
  have he := encode_of_decodeCommand h
  have hcmd : (usedFields c).cmd = c.cmd := rfl
  rw [← hcmd]
  generalize usedFields c = d at he
  cases i <;> cases he <;> simp [Instr.wellFormed]

theorem illegalCommand_eq_true : illegalCommand p c = true ↔ instrOf p (.command c) = none := by
  have hlegal : (∃ i, decodeCommand c = .ok i ∧ i.wellFormed p = true) ↔
      (∃ i, decodeCommand c = .ok i) ∧ (!(opField c.cmd == 0x32) || p.statsEn) = true := by
    rw [← exists_and_right]
    exact exists_congr fun i => and_congr_right fun h => by rw [wellFormed_of_decodeCommand h]
  rw [instrOf_eq_none, decode, hlegal, exists_decodeCommand, ← Bool.not_eq_false,
    illegalCommand, Bool.or_eq_false_iff, Bool.or_eq_false_iff, Bool.or_eq_false_iff,
    bne_eq_false_iff_eq, Bool.not_eq_false', ← Bool.not_eq_true', Bool.not_and, Bool.not_not]
  tauto

theorem acceptCommand_of_illegal {s : State} (h : illegalCommand s.params c = true) :
    acceptCommand c s = .next (s.answer (illegalResponse c)) := by
  simp [acceptCommand, illegalCommand_eq_true.mp h, State.reply]

theorem illegalResponse_result (c : CmdRecord) : (illegalResponse c).result = .invalidParam := by
  unfold illegalResponse
  split <;> rfl

/-- Settles O4: R119's cases are the fields each row of the opcode table checks, and the answer is
all that accepting such a word changes. -/
theorem illegalCommandIsInvalidParam : Obligations.IllegalCommandIsInvalidParam :=
  ⟨fun _ _ => illegalCommand_eq_true, fun _ c h =>
    ⟨illegalResponse c, illegalResponse_result c, acceptCommand_of_illegal h⟩⟩

/-! ## Malformed events (R121) -/

/-- The event words an instruction is read from, row by row of the event table (R120). -/
theorem exists_decodeEvent :
    (∃ i, decodeEvent w = .ok i ∧ i.wellFormed p = true) ↔ evtReserved w = 0 ∧
      ((opField w = 0x81 ∧ (subField w).toNat ≤ 1) ∨
        (opField w = 0x82 ∧ (subField w).toNat < p.numMb) ∨
        (opField w = 0x83 ∧ subField w = 0)) := by
  simp only [← subField_high_eq_zero]
  constructor
  · rintro ⟨i, hd, hw⟩
    obtain ⟨hr, ⟨hop, hsub, rfl⟩ | ⟨hop, rfl⟩ | ⟨hop, hsub, rfl⟩⟩ := decodeEvent_eq_ok.mp hd
    · exact ⟨hr, .inl ⟨hop, hsub⟩⟩
    · exact ⟨hr, .inr (.inl ⟨hop, of_decide_eq_true hw⟩)⟩
    · exact ⟨hr, .inr (.inr ⟨hop, hsub⟩)⟩
  · rintro ⟨hr, ⟨hop, hsub⟩ | ⟨hop, hsub⟩ | ⟨hop, hsub⟩⟩
    · exact ⟨_, decodeEvent_eq_ok.mpr ⟨hr, .inl ⟨hop, hsub, rfl⟩⟩, rfl⟩
    · exact ⟨_, decodeEvent_eq_ok.mpr ⟨hr, .inr (.inl ⟨hop, rfl⟩)⟩, decide_eq_true hsub⟩
    · exact ⟨_, decodeEvent_eq_ok.mpr ⟨hr, .inr (.inr ⟨hop, hsub, rfl⟩)⟩, rfl⟩

theorem malformedEvent_eq_true : malformedEvent p w = true ↔ instrOf p (.event w) = none := by
  rw [instrOf_eq_none, decode, exists_decodeEvent, evtReserved_eq_zero]
  by_cases h81 : opField w = 0x81#8
  · simp [malformedEvent, h81, imp_iff_not_or]
  by_cases h82 : opField w = 0x82#8
  · simp [malformedEvent, h82, imp_iff_not_or]
  by_cases h83 : opField w = 0x83#8
  · simp [malformedEvent, h83, imp_iff_not_or]
  simp [malformedEvent, h81, h82, h83]

theorem handleEvent_of_malformed {s : State} (h : malformedEvent s.params w = true) :
    handleEvent w s = .next ((s.takeEvent w).raise .driverContract) := by
  simp [handleEvent, malformedEvent_eq_true.mp h]

/-- Settles O5: R121's cases are what the three rows of the event table check, and the fault record
and the event on the port are all that taking such a word changes. -/
theorem malformedEventFaults : Obligations.MalformedEventFaults :=
  ⟨fun _ _ => malformedEvent_eq_true, fun _ _ h =>
    ⟨_, handleEvent_of_malformed h, rfl, rfl, rfl, rfl, rfl⟩⟩

end Sys2Proof

/-! A step by what the environment presents (30_encoding.md R111, R119, R121), with a command in
progress or none. -/

namespace Sys2Proof.Machine

variable {s t : State} {c : CmdRecord} {w : Word} {rest : List Turn} {i : Instr}

/-! ## What a step runs -/

theorem State.popTurn_eq {x : Turn} (ht : s.turns = x :: rest) :
    s.popTurn = { s with turns := rest } := by
  rw [State.popTurn, ht, List.tail_cons]

/-- A command presented while the command port is free is accepted (30_encoding.md R111). -/
theorem step_of_command (hf : s.fault = none) (ht : s.turns = .present (.command c) :: rest)
    (hi : s.nctx.phase = .idle) :
    step s = atBoundary (acceptCommand c { s with turns := rest }) := by
  simp [step, runStep, hf, takeTurn, ht, hi, State.popTurn_eq ht]

/-- An event presented is handled, whatever the normal context is doing (60_exceptions.md R410). -/
theorem step_of_event (hf : s.fault = none) (ht : s.turns = .present (.event w) :: rest) :
    step s = atBoundary (handleEvent w { s with turns := rest }) := by
  simp [step, runStep, hf, takeTurn, ht, State.popTurn_eq ht]

/-- A command presented while another is in progress leaves the step to that one
(30_encoding.md R111). -/
theorem step_of_command_busy (hf : s.fault = none) (ht : s.turns = .present (.command c) :: rest)
    (hi : s.nctx.phase ≠ .idle) : step s = atBoundary (normalStep s) := by
  simp [step, runStep, hf, takeTurn, ht, hi]

/-- A step that reaches a boundary ends there, checked; where the assertions hold the check changes
nothing. -/
theorem atBoundary_next {o : Host.Outcome State Fault Refusal} (h : o = .next t) :
    atBoundary o = .next t.checkBoundary ∧ (t.boundaryOk = true → atBoundary o = .next t) := by
  subst h
  exact ⟨rfl, fun hb => by rw [atBoundary, State.checkBoundary_of_ok hb]⟩

/-- Settles O6: a command word that decodes and exists is the instruction that accepting it runs. -/
theorem stepRunsTheCommand : Obligations.StepRunsTheCommand := by
  intro s c rest i hf ht hp hd hw
  have hinstr : instrOf ({ s with turns := rest } : State).params (.command c) = some i :=
    instrOf_of_decode hd hw
  have hstep : step s = atBoundary (exec i { s with turns := rest }) := by
    rw [step_of_command hf ht hp, acceptCommand, hinstr]
  exact ⟨hstep, fun t h => hstep ▸ atBoundary_next h⟩

/-! ## Illegal input at a step -/

theorem illegalResponse_eq (c : CmdRecord) :
    illegalResponse c = if opField c.cmd = 0x01 then Response.noHandle .invalidParam
      else Response.ofResult .invalidParam := by
  simp only [illegalResponse, isAllocateOp, beq_iff_eq]

/-- Settles O8: the answer to an illegal command leaves what the boundary check reads as it was;
after a malformed event the check finds a fault recorded already. -/
theorem stepMeetsIllegalInput : Obligations.StepMeetsIllegalInput := by
  constructor
  · intro s c rest hf hb ht hp hill
    have haccept := acceptCommand_of_illegal (s := { s with turns := rest }) hill
    rw [step_of_command hf ht hp, (atBoundary_next haccept).2 hb, illegalResponse_eq]
    rfl
  · intro s w rest hf ht hmal
    have htake := handleEvent_of_malformed (s := { s with turns := rest }) hmal
    rw [step_of_event hf ht, (atBoundary_next htake).1]
    rfl

/-! ## A command that waits -/

theorem Run.andThen_turns {α β : Type} {x : Run State α} {f : α → State → Run State β}
    (hx : x.state.turns = s.turns) (hf : ∀ a v, (f a v).state.turns = v.turns) :
    (x.andThen f).state.turns = s.turns := by
  cases x with
  | ok a v => exact (hf a v).trans hx
  | fault r v => exact hx

theorem State.onSlot_turns {α : Type} (s : State) (j : Nat) (f : CanModule → Run CanModule α) :
    (s.onSlot j f).state.turns = s.turns := by
  unfold State.onSlot
  split
  · rfl
  · split <;> rfl

theorem submissionAttempted_turns (s : State) : (submissionAttempted s).turns = s.turns := by
  unfold submissionAttempted
  split <;> rfl

theorem phaseQuery_turns (s : State) : (phaseQuery s).state.turns = s.turns := by
  unfold phaseQuery
  split
  · rfl
  · refine Run.andThen_turns ?_ fun n v => ?_
    · unfold drvFreeMb
      split <;> rfl
    · split <;> rfl

theorem phaseDeq_turns (s : State) : (phaseDeq s).state.turns = s.turns :=
  Run.andThen_turns (State.onSlot_turns _ _ _) fun e v => by cases e <;> rfl

theorem submitEntry_turns (j : Nat) (m : CanModule) (en : Entry) (s : State) :
    (submitEntry j m en s).state.turns = s.turns := by
  unfold submitEntry
  simp only
  split
  · exact State.onSlot_turns _ _ _
  · exact State.emit_turns _ _ _

theorem phaseAdd_turns (s : State) : (phaseAdd s).state.turns = s.turns := by
  unfold phaseAdd
  split
  · rfl
  · refine Run.andThen_turns ?_ fun _ _ => rfl
    unfold addTx
    split
    · rfl
    · split
      · rfl
      · exact submitEntry_turns _ _ _ _

theorem phaseFree_turns (s : State) : (phaseFree s).state.turns = s.turns := by
  unfold phaseFree
  split
  · rfl
  · exact Run.andThen_turns (State.onSlot_turns _ _ _) fun _ v => submissionAttempted_turns _

theorem Run.finish_turns {α : Type} {x : Run State α} (hx : x.state.turns = s.turns) :
    ∃ t, x.finish = .next t ∧ t.turns = s.turns := by
  cases x <;> exact ⟨_, rfl, hx⟩

/-- The normal context always makes its step, and uses up no turn. -/
theorem normalStep_turns (s : State) : ∃ t, normalStep s = .next t ∧ t.turns = s.turns := by
  unfold normalStep
  split
  · exact ⟨s, rfl, rfl⟩
  · exact Run.finish_turns (phaseQuery_turns s)
  · exact Run.finish_turns (phaseDeq_turns s)
  · exact Run.finish_turns (phaseAdd_turns s)
  · exact Run.finish_turns (phaseFree_turns s)

/-- Settles O9: the step is the normal context's, which leaves the command first of the turns. -/
theorem commandWaitsWhileBusy : Obligations.CommandWaitsWhileBusy := by
  intro s c rest hf ht hp
  obtain ⟨t, hn, htt⟩ := normalStep_turns s
  refine ⟨t, hn, ?_, ?_⟩
  · rw [step_of_command_busy hf ht hp, (atBoundary_next hn).1]
  · rw [State.checkBoundary_turns, htt, ht]

end Sys2Proof.Machine

/-! The words of the ports, and words the spec writes out (30_encoding.md R131, R140). -/

namespace Sys2Proof.Machine

section response

variable (r : Response)

theorem Response.word_result : r.word.extractLsb' 0 8 = r.result.code := by
  simp [Response.word, flagBit, BitVec.extractLsb'_or]

theorem Response.word_rhandle : r.word.extractLsb' 8 8 = r.rhandle := by
  simp [Response.word, flagBit, BitVec.extractLsb'_or]

theorem Response.word_flag : r.word.getLsbD 16 = r.flag := by
  simp [Response.word]

theorem Response.word_bus : r.word.extractLsb' 17 2 = r.bus := by
  simp [Response.word, flagBit, BitVec.extractLsb'_or]

theorem Response.word_zero : r.word.extractLsb' 19 13 = 0 := by
  simp [Response.word, flagBit, BitVec.extractLsb'_or]

end response

section notification

variable (n : Notification)

theorem Notification.word_kind : n.word.extractLsb' 0 3 = n.body.kindCode := by
  simp [Notification.word, BitVec.extractLsb'_or]

theorem Notification.word_zero_low : n.word.extractLsb' 3 5 = 0 := by
  simp [Notification.word, BitVec.extractLsb'_or]

theorem Notification.word_handle : n.word.extractLsb' 8 8 = n.handle := by
  simp [Notification.word, BitVec.extractLsb'_or]

theorem Notification.word_zero_high : n.word.extractLsb' 16 16 = 0 := by
  simp [Notification.word, BitVec.extractLsb'_or]

end notification

/-- Settles O60: each field is read off the bits of the word it was placed at. -/
theorem portWordsHaveTheirFields : Obligations.PortWordsHaveTheirFields :=
  ⟨fun r => ⟨r.word_result, r.word_rhandle, r.word_flag, r.word_bus, r.word_zero⟩,
    fun n => ⟨n.word_kind, n.word_zero_low, n.word_handle, n.word_zero_high⟩⟩

/-- Settles O3: nine fixed words, each decoded by evaluation. -/
theorem specWordsDecode : Obligations.SpecWordsDecode := by
  unfold Obligations.SpecWordsDecode
  decide

end Sys2Proof.Machine

/-! The queues of a Module level by level, and Modules whose stored messages need not be legal
(10_state.md R37 to R41). -/

namespace Sys2Proof.Machine

variable {p : Params} {m m' : CanModule} {held : Option Nat} {out : List Nat}

/-! ## The levels of a Module -/

theorem CanModule.level_eq {l : Nat} {q : PrioQueue} (h : m.pq[l]? = some q) :
    m.level p l = q.occupied p := by
  simp [CanModule.level, h]

theorem CanModule.level_length {l : Nat} {q : PrioQueue} (h : m.pq[l]? = some q) :
    (m.level p l).length = q.count := by
  simp [CanModule.level_eq h]

/-- Writing one queue writes one level. -/
theorem CanModule.level_set {l : Nat} {q q' : PrioQueue} (h : m.pq[l]? = some q)
    (hset : m'.pq = m.pq.set l q') :
    m'.level p l = q'.occupied p ∧ ∀ k, k ≠ l → m'.level p k = m.level p k := by
  have hl := (List.getElem?_eq_some_iff.mp h).1
  refine ⟨CanModule.level_eq (by rw [hset, List.getElem?_set_self hl]), fun k hk => ?_⟩
  rw [CanModule.level, CanModule.level, hset, List.getElem?_set_ne (Ne.symm hk)]

/-- The queued Entries are those of the levels in turn. -/
theorem CanModule.queued_eq_levels (h : m.pq.length = p.numPrio) :
    m.queued p = (List.range p.numPrio).flatMap (m.level p) := by
  rw [CanModule.queued, List.flatMap_def, List.flatMap_def]
  congr 1
  refine List.ext_getElem (by simp [h]) fun l hl _ => ?_
  rw [List.length_map] at hl
  simp [CanModule.level_eq (List.getElem?_eq_getElem hl)]

theorem CanModule.mem_queued_of_mem_level {l : Nat} (hl : l < m.pq.length) {e : Nat}
    (he : e ∈ m.level p l) : e ∈ m.queued p := by
  have hq := List.getElem?_eq_getElem hl
  exact CanModule.mem_queued.mpr ⟨l, _, hq, CanModule.level_eq hq ▸ he⟩

/-- The Entries queued before those of level `k` are of the levels below it. -/
theorem CanModule.exists_level_below {k e : Nat}
    (he : e ∈ (m.pq.take k).flatMap fun q => q.occupied p) : ∃ j < k, e ∈ m.level p j := by
  obtain ⟨q, hq, he⟩ := List.mem_flatMap.mp he
  obtain ⟨j, hj⟩ := List.mem_iff_getElem?.mp hq
  rw [List.getElem?_take, Option.ite_none_right_eq_some] at hj
  exact ⟨j, hj.1, CanModule.level_eq hj.2 ▸ he⟩

/-- The bitmap says which levels hold an Entry (10_state.md R39). -/
theorem QueuesSound.getLsbD_eq (h : QueuesSound p out m) {k : Nat} (hk : k < p.numPrio) :
    m.bitmap.getLsbD k = !(m.level p k).isEmpty := by
  obtain ⟨q, hq⟩ := h.exists_level hk
  rw [h.bit k q hq, ← CanModule.level_length hq]
  cases m.level p k <;> simp

/-! ## How many Entries are in use -/

/-- The Entries in use are those queued and those out of the queues (10_state.md R41), and `used`
counts them (R40 (f)). -/
theorem QueuesSound.used_eq (h : QueuesSound p out m) : m.used = (m.queued p ++ out).length := by
  have hperm : ((List.range m.pool.length).filter fun e => (liveEntry? p m e).isSome).Perm
      (m.queued p ++ out) := by
    refine (List.perm_ext_iff_of_nodup (List.nodup_range.filter _) h.nodup).mpr fun e => ?_
    rw [List.mem_filter, List.mem_range, ← h.live e, and_iff_right_iff_imp,
      Option.isSome_iff_exists]
    rintro ⟨en, hen⟩
    exact h.poolLen ▸ (liveEntry?_eq_some.mp hen).1
  have hlive : ∀ e ∈ List.range m.pool.length,
      (m.pool.getD e .zero).inUse = (liveEntry? p m e).isSome := fun e he => by
    have hlt := List.mem_range.mp he
    rw [Bool.eq_iff_iff, Option.isSome_iff_exists]
    simp [liveEntry?_eq_some, List.getD, List.getElem?_eq_getElem hlt, h.poolLen ▸ hlt]
  have hpool : m.pool = (List.range m.pool.length).map fun e => m.pool.getD e .zero :=
    List.ext_getElem (by simp) fun e he _ => by simp [he]
  rw [h.used, ← hperm.length_eq, inUseCount]
  conv_lhs => rw [hpool]
  rw [List.filter_map, List.length_map]
  exact congrArg List.length (List.filter_congr hlive)

/-- Queues hold no more than their capacity. -/
theorem length_flatMap_occupied_le {qs : List PrioQueue} (h : ∀ q ∈ qs, q.count ≤ p.qcap) :
    (qs.flatMap fun q => q.occupied p).length ≤ qs.length * p.qcap := by
  rw [List.length_flatMap]
  have := List.sum_le_card_nsmul (qs.map fun q => (q.occupied p).length) p.qcap (by simpa using h)
  simpa using this

/-- When every Entry is in use and none is out of the queues, every level is full: the queues
together hold as many Entries as the pool (00_scope.md R6). -/
theorem QueuesSound.level_full (h : QueuesSound p [] m) (hpool : ∀ en ∈ m.pool, en.inUse = true)
    {l : Nat} {q : PrioQueue} (hq : m.pq[l]? = some q) : q.count = p.qcap := by
  have hused : (m.queued p).length = p.numPrio * p.qcap := by
    rw [p.numPrio_mul_qcap, ← h.poolLen, ← List.filter_eq_self.mpr hpool]
    simpa [h.used, inUseCount] using h.used_eq.symm
  have hcount : ∀ x ∈ m.pq, x.count ≤ p.qcap := fun x hx => by
    obtain ⟨k, hk⟩ := List.mem_iff_getElem?.mp hx
    exact (h.queue k x hk).count
  have hbelow := length_flatMap_occupied_le (p := p) (qs := m.pq.take l) fun x hx =>
    hcount x (List.mem_of_mem_take hx)
  have habove := length_flatMap_occupied_le (p := p) (qs := m.pq.drop (l + 1)) fun x hx =>
    hcount x (List.mem_of_mem_drop hx)
  have hl := h.level_lt hq
  have hn : p.numPrio * p.qcap = l * p.qcap + p.qcap + (p.numPrio - (l + 1)) * p.qcap := by
    rw [← Nat.succ_mul, ← Nat.add_mul]
    congr 1
    omega
  have hq' := (h.queue l q hq).count
  rw [CanModule.queued_split hq, hn] at hused
  simp only [List.length_append, List.length_take, List.length_drop, h.pqLen,
    PrioQueue.occupied_length, Nat.min_eq_left hl.le] at hused hbelow habove
  omega

/-! ## What the queues do not depend on -/

theorem Message.zero_legal : Message.zero.legal = true := by decide

/-- A Module with the messages of its pool cleared. No queue primitive reads a stored message, so
its queues are in order whenever those of the Module are, also where a stored message is not
legal. -/
def CanModule.cleared (m : CanModule) : CanModule :=
  { m with pool := m.pool.map fun en => { en with msg := .zero } }

theorem liveEntry?_cleared (e : Nat) :
    liveEntry? p m.cleared e = (liveEntry? p m e).map fun en => { en with msg := .zero } := by
  unfold liveEntry? readAt CanModule.cleared
  split_ifs
  · cases h : m.pool[e]? with
    | none => simp [h]
    | some en => cases hu : en.inUse <;> simp [h, hu]
  · rfl

theorem ownedByLevel_cleared (l : Nat) : ownedByLevel p m.cleared l = ownedByLevel p m l := by
  funext e
  rw [ownedByLevel, ownedByLevel, liveEntry?_cleared]
  cases liveEntry? p m e <;> rfl

theorem queuesOk_cleared : queuesOk p m.cleared = queuesOk p m := by
  have hcount : inUseCount m.cleared.pool = inUseCount m.pool := by
    simp [inUseCount, CanModule.cleared, List.filter_map, Function.comp_def]
  unfold queuesOk levelOk
  simp only [hcount, ownedByLevel_cleared]
  rfl

theorem ownershipOk_cleared : ownershipOk p held m.cleared = ownershipOk p held m := by
  unfold ownershipOk
  simp only [liveEntry?_cleared, Option.isSome_map]
  rfl

/-- A Module that passes the checks on its queues is in order but for its messages. -/
theorem CanModule.queuesSound_of_queuesGood (h : m.queuesGood p held = true) :
    QueuesSound p held.toList m.cleared := by
  simp only [CanModule.queuesGood, CanModule.rangesOk, Bool.and_eq_true, CanModule.shapeOk_iff,
    decide_eq_true_eq, List.all_eq_true, entryFits] at h
  obtain ⟨⟨⟨⟨hpool, hpq, hlen, -⟩, ⟨⟨⟨⟨⟨hused, hcur⟩, hbits⟩, -⟩, -⟩, -⟩, -⟩, hqs⟩, hown⟩ := h
  exact queuesSound_iff.mpr ⟨⟨by simpa [CanModule.cleared] using hpool, hpq, hlen⟩,
    fun q hq => ⟨(hcur q hq).1.1, (hcur q hq).1.2, (hcur q hq).2⟩, hused, hbits,
    by simp [CanModule.cleared, Message.zero_legal],
    queuesOk_cleared.trans hqs, ownershipOk_cleared.trans hown⟩

/-- An Entry that is queued, or out of the queues and not released, is in use. -/
theorem QueuesSound.exists_live (h : QueuesSound p out m.cleared) {e : Nat}
    (he : e ∈ m.queued p ++ out) : ∃ en, liveEntry? p m e = some en := by
  have := (h.live e).mpr he
  rwa [liveEntry?_cleared, Option.isSome_map, Option.isSome_iff_exists] at this

theorem QueuesSound.pool_length (h : QueuesSound p out m.cleared) : m.pool.length = p.poolCap := by
  simpa [CanModule.cleared] using h.poolLen

end Sys2Proof.Machine

/-! What `enqueue`, `dequeue_highest` and `remove_by_tx_id` do to the queues of a Module in order
(40_priority_queue.md R160 to R169). -/

namespace Sys2Proof.Machine

variable {p : Params} {m m' : CanModule} {out : List Nat} {msg : Message} {t : Word}
  {l : BitVec 3}

/-! ## enqueue -/

/-- A Module with `en` written to free Entry `e` and counted in use. -/
def CanModule.filled (m : CanModule) (e : Nat) (en : Entry) : CanModule :=
  { m with pool := m.pool.set e en, used := m.used + 1 }

/-- A Module with Entry index `e` last in queue `q` of level `l` (40_priority_queue.md R163). -/
def pushLevel (p : Params) (l e : Nat) (q : PrioQueue) (m : CanModule) : CanModule :=
  { m with
    pq := m.pq.set l { q with
      slot := q.slot.set q.tail e
      tail := (q.tail + 1) % p.qcap
      count := q.count + 1 }
    bitmap := setBit m.bitmap l }

theorem pqPush_eq_pushLevel {k e : Nat} {q : PrioQueue} (hk : k < p.numPrio)
    (hq : m.pq[k]? = some q) (ht : q.tail < p.qcap) :
    pqPush p k e m = .ok () (pushLevel p k e q m) :=
  pqPush_eq_ok.mpr ⟨q, hk, hq, ht, rfl⟩

/-- The Entry that `alloc_entry` takes is the lowest free one (40_priority_queue.md R161). -/
theorem allocEntry_lowest {e : Nat} {m₁ : CanModule} (h : allocEntry p m = some (e, m₁)) :
    e < p.poolCap ∧ (∃ en, m.pool[e]? = some en ∧ en.inUse = false) ∧
    ∀ j < e, ∃ en : Entry, m.pool[j]? = some en ∧ en.inUse = true := by
  obtain ⟨hlt, ⟨en, hget, hfree⟩, hlow, -⟩ := allocEntry_eq_some h
  refine ⟨hlt, ⟨en, hget, hfree⟩, fun j hj => ?_⟩
  have hj' := List.getElem?_eq_getElem (hj.trans (List.getElem?_eq_some_iff.mp hget).1)
  exact ⟨_, hj', hlow j hj _ hj'⟩

/-- Without a free Entry, the whole pool is in use (40_priority_queue.md R161). -/
theorem inUse_of_allocEntry_none (hlen : m.pool.length = p.poolCap) (h : allocEntry p m = none) :
    ∀ en ∈ m.pool, en.inUse = true := fun en hen => by
  obtain ⟨i, hi⟩ := List.mem_iff_getElem?.mp hen
  exact allocEntry_eq_none.mp h i (hlen ▸ (List.getElem?_eq_some_iff.mp hi).1) en hi

/-- The message operands replace all that the Entry taken held (40_priority_queue.md R164). -/
theorem fillEntry_of_allocEntry {e : Nat} {m₁ : CanModule} (h : allocEntry p m = some (e, m₁)) :
    fillEntry e msg t l m₁ = m.filled e ⟨true, msg, t, l⟩ := by
  obtain ⟨-, ⟨en, hget, -⟩, -, rfl⟩ := allocEntry_eq_some h
  have he := (List.getElem?_eq_some_iff.mp hget).1
  simp [fillEntry, CanModule.filled, List.modify_eq_set_getElem?, he]

/-- `enqueue` with a free Entry: a full level releases it again, any other level takes it last
(40_priority_queue.md R164, R168). -/
theorem enqueue_of_allocEntry {e : Nat} {m₁ : CanModule} {q : PrioQueue}
    (ha : allocEntry p m = some (e, m₁)) (hl : l.toNat < p.numPrio) (hq : m.pq[l.toNat]? = some q)
    (ht : q.tail < p.qcap) :
    enqueue p msg t l m =
      if q.count = p.qcap then .ok .txQueueFull { m with pool := m.pool.set e ⟨false, msg, t, l⟩ }
      else .ok .ok (pushLevel p l.toNat e q (m.filled e ⟨true, msg, t, l⟩)) := by
  obtain ⟨hlt, ⟨en, hget, -⟩, -⟩ := allocEntry_lowest ha
  have he := (List.getElem?_eq_some_iff.mp hget).1
  have hread : readAt (m.filled e ⟨true, msg, t, l⟩).pq p.numPrio l.toNat = some q :=
    readAt_eq_some.mpr ⟨hl, hq⟩
  have hlive : liveEntry? p (m.filled e ⟨true, msg, t, l⟩) e = some ⟨true, msg, t, l⟩ :=
    liveEntry?_eq_some.mpr ⟨hlt, by simp [CanModule.filled, he], rfl⟩
  simp only [enqueue, ha, fillEntry_of_allocEntry ha, hread]
  split_ifs
  · rw [freeEntry_eq_ok (u := ()).mpr ⟨_, hlive, rfl⟩]
    simp [CanModule.filled]
  · rw [pqPush_eq_pushLevel (m := m.filled e ⟨true, msg, t, l⟩) hl hq ht, Run.andThen_ok]

/-- Filling a free Entry leaves it out of the queues, which stay in order. -/
theorem QueuesSound.filled {e : Nat} {en : Entry} (h : QueuesSound p out m.cleared)
    (hget : m.pool[e]? = some en) (hfree : en.inUse = false) (hnot : e ∉ m.queued p ++ out) :
    QueuesSound p (e :: out) (m.filled e ⟨true, msg, t, l⟩).cleared := by
  have hget' : m.cleared.pool[e]? = some { en with msg := .zero } := by
    simp [CanModule.cleared, hget]
  rw [List.mem_append, not_or] at hnot
  have := h.setEntry (out' := e :: out) (u := m.used + 1) (en' := ⟨true, .zero, t, l⟩) hget' hnot.1
    Message.zero_legal (by simp [hfree, CanModule.cleared]) (by simp) (fun x hx => by simp [hx])
    (List.nodup_cons.mpr ⟨hnot.2, (List.nodup_append.mp h.nodup).2.1⟩)
  simpa [CanModule.cleared, CanModule.filled, List.map_set] using this

/-- Filling the Entry that `alloc_entry` takes and queueing it last at a level with room is what
R164 asks of an accepted enqueue. -/
theorem enqueued_pushLevel {e : Nat} {m₁ : CanModule} {q : PrioQueue}
    (h : QueuesSound p out m.cleared) (ha : allocEntry p m = some (e, m₁))
    (hq : m.pq[l.toNat]? = some q) (hc : q.count ≠ p.qcap) :
    Enqueued p m msg t l e (pushLevel p l.toNat e q (m.filled e ⟨true, msg, t, l⟩)) := by
  obtain ⟨-, ⟨en, hget, hfree⟩, hlow⟩ := allocEntry_lowest ha
  have hs := h.queue _ q hq
  have hl8 : l.toNat < 8 := (h.level_lt hq).trans_le p.numPrio_le
  obtain ⟨hlevel, hlevels⟩ := CanModule.level_set (p := p) hq
    (m' := pushLevel p l.toNat e q (m.filled e ⟨true, msg, t, l⟩)) rfl
  exact
    { free := ⟨en, hget, hfree⟩
      lowest := hlow
      entry := by simp [pushLevel, CanModule.filled, (List.getElem?_eq_some_iff.mp hget).1]
      pool := fun j hj => List.getElem?_set_ne (Ne.symm hj)
      used := rfl
      level := by
        rw [hlevel, CanModule.level_eq hq,
          occupied_push hs.length hs.tail (lt_of_le_of_ne hs.count hc)]
      levels := hlevels
      bit := by simp [pushLevel, getLsbD_setBit _ hl8]
      bits := fun k hk => by simp [pushLevel, CanModule.filled, getLsbD_setBit _ hl8, hk]
      rest := rfl }

/-- An accepted `enqueue`: the message is last at its level, in the lowest free Entry; one more
Entry is queued, and the queues stay in order (40_priority_queue.md R161, R163, R164). -/
theorem enqueue_accepted (h : QueuesSound p out m.cleared)
    (he : enqueue p msg t l m = .ok .ok m') :
    (∃ e, Enqueued p m msg t l e m' ∧ e ∉ m.queued p) ∧
      (m'.queued p).length = (m.queued p).length + 1 ∧ QueuesSound p out m'.cleared := by
  rcases enqueue_eq_ok he with ⟨hr, -⟩ | ⟨e, m₁, q, ha, hq, hl, ⟨-, hr, -⟩ | ⟨hc, -, -⟩⟩
  · cases hr
  · cases hr
  have hs := h.queue _ q hq
  rw [enqueue_of_allocEntry ha hl hq hs.tail_lt, if_neg hc, Run.ok.injEq] at he
  obtain ⟨-, rfl⟩ := he
  obtain ⟨hlt, ⟨en, hget, hfree⟩, -⟩ := allocEntry_lowest ha
  have hnot : e ∉ m.queued p ++ out := h.notMem_of_free
    (en := { en with msg := .zero }) (by simp [CanModule.cleared, hget]) hfree
  have hlive : liveEntry? p (m.filled e ⟨true, msg, t, l⟩).cleared e = some ⟨true, .zero, t, l⟩ :=
    liveEntry?_eq_some.mpr ⟨hlt, by
      simp [CanModule.cleared, CanModule.filled, (List.getElem?_eq_some_iff.mp hget).1], rfl⟩
  obtain ⟨m₂, hp, hsound, -⟩ := pqPush_sound (h.filled hget hfree hnot) hq hc hlive rfl
  rw [pqPush_eq_pushLevel (m := (m.filled e ⟨true, msg, t, l⟩).cleared) hl hq hs.tail_lt,
    Run.ok.injEq] at hp
  obtain ⟨-, rfl⟩ := hp
  refine ⟨⟨e, enqueued_pushLevel h ha hq hc, fun hin => hnot (List.mem_append_left _ hin)⟩, ?_,
    hsound⟩
  have hset : (pushLevel p l.toNat e q (m.filled e ⟨true, msg, t, l⟩)).queued p = _ :=
    CanModule.queued_set (m := m) (b := m.bitmap) hq
  rw [hset, CanModule.queued_split hq,
    occupied_push hs.length hs.tail (lt_of_le_of_ne hs.count hc)]
  simp only [List.length_append, List.length_singleton]
  omega

/-- `enqueue` at a level with room is accepted: an Entry is free, as otherwise every level would be
full (40_priority_queue.md R169). -/
theorem enqueue_of_room (h : QueuesSound p [] m.cleared) (hl : l.toNat < p.numPrio)
    (hroom : (m.level p l.toNat).length ≠ p.qcap) :
    ∃ m', enqueue p msg t l m = .ok .ok m' := by
  obtain ⟨q, hq⟩ : ∃ q, m.pq[l.toNat]? = some q := h.exists_level hl
  rw [CanModule.level_length hq] at hroom
  cases ha : allocEntry p m with
  | none =>
    have hpool : ∀ en ∈ m.cleared.pool, en.inUse = true := fun en hen => by
      obtain ⟨en₀, hen₀, rfl⟩ := List.mem_map.mp hen
      exact inUse_of_allocEntry_none h.pool_length ha en₀ hen₀
    exact absurd (h.level_full hpool hq) hroom
  | some x =>
    rw [enqueue_of_allocEntry ha hl hq (h.queue _ q hq).tail_lt, if_neg hroom]
    exact ⟨_, rfl⟩

/-- `enqueue` at a full level is refused (40_priority_queue.md R164, R168). -/
theorem enqueue_of_full (h : QueuesSound p out m.cleared) (hl : l.toNat < p.numPrio)
    (hfull : (m.level p l.toNat).length = p.qcap) :
    ∃ m', enqueue p msg t l m = .ok .txQueueFull m' ∧ EnqueueRefused m msg t l m' := by
  obtain ⟨q, hq⟩ : ∃ q, m.pq[l.toNat]? = some q := h.exists_level hl
  rw [CanModule.level_length hq] at hfull
  cases ha : allocEntry p m with
  | none =>
    exact ⟨m, by simp [enqueue, ha], .inl ⟨inUse_of_allocEntry_none h.pool_length ha, rfl⟩, rfl⟩
  | some x =>
    obtain ⟨e, m₁⟩ := x
    obtain ⟨-, hfree, hlow⟩ := allocEntry_lowest ha
    rw [enqueue_of_allocEntry ha hl hq (h.queue _ q hq).tail_lt, if_pos hfull]
    exact ⟨_, rfl, .inr ⟨e, hfree, hlow, rfl⟩, rfl⟩

/-- Settles O17: the queues of a Module in order bound its Entries in use, so a level with room
leaves an Entry free. -/
theorem enqueueAppendsOrRefuses : Obligations.EnqueueAppendsOrRefuses := by
  intro p m msg t l hm hl
  have h := CanModule.queuesSound_of_queuesGood hm
  refine ⟨enqueue_of_full h hl, fun hroom => ?_⟩
  obtain ⟨m', he⟩ := enqueue_of_room (msg := msg) (t := t) h hl hroom
  obtain ⟨⟨e, henq, -⟩, -⟩ := enqueue_accepted h he
  exact ⟨e, m', he, henq⟩

/-! ## dequeue_highest -/

theorem ffs_eq_none {b : BitVec 8} : ffs b = none ↔ ∀ k < 8, b.getLsbD k = false := by
  simp [ffs]

/-- A level whose bit is 0 is empty (10_state.md R39). -/
theorem QueuesSound.level_eq_nil (h : QueuesSound p out m) {k : Nat} (hk : k < p.numPrio)
    (hbit : m.bitmap.getLsbD k = false) : m.level p k = [] := by
  rw [h.getLsbD_eq hk] at hbit
  simpa using hbit

/-- The Entry at the head of the lowest non-empty level is the first of the queued ones. -/
theorem queued_popLevel {k : Nat} {q : PrioQueue} (hq : m.pq[k]? = some q) (hh : q.head < p.qcap)
    (hc : 0 < q.count) (hbelow : ∀ j < k, m.level p j = []) :
    m.queued p = q.slot.getD q.head 0 :: (popLevel p k q m).queued p := by
  have hnil : ((m.pq.take k).flatMap fun q => q.occupied p) = [] := by
    refine List.eq_nil_iff_forall_not_mem.mpr fun x hx => ?_
    obtain ⟨j, hj, hx⟩ := CanModule.exists_level_below hx
    rw [hbelow j hj] at hx
    cases hx
  have hset : (popLevel p k q m).queued p = _ := CanModule.queued_set (m := m) hq
  rw [hset, CanModule.queued_split hq, hnil, occupied_pop hh hc]
  rfl

/-- `dequeue_highest` on a Module in order: the oldest Entry of the lowest non-empty level, or NONE
when every level is empty; the queues stay in order (40_priority_queue.md R160, R165). -/
theorem dequeueHighest_takes (h : QueuesSound p out m.cleared) :
    (m.queued p = [] ∧ dequeueHighest p m = .ok none m) ∨
    ∃ e m', dequeueHighest p m = .ok (some e) m' ∧ Dequeued p m e m' ∧
      QueuesSound p (e :: out) m'.cleared := by
  obtain ⟨o, m₂, hd, hsound, -⟩ := dequeueHighest_sound h
  rcases dequeueHighest_eq_ok hd with
    ⟨hf, -, -⟩ | ⟨k, q, e, hf, hk, hq, hh, he, -, rfl, rfl⟩
  · replace hf : ffs m.bitmap = none := hf
    refine .inl ⟨?_, by simp only [dequeueHighest, hf]⟩
    rw [CanModule.queued_eq_levels (m := m) h.pqLen, List.flatMap_eq_nil_iff]
    intro k hk
    have hk := List.mem_range.mp hk
    exact h.level_eq_nil hk (ffs_eq_none.mp hf k (hk.trans_le p.numPrio_le))
  · replace hf : ffs m.bitmap = some k := hf
    replace hq : m.pq[k]? = some q := hq
    obtain ⟨-, hbit, hlow⟩ := ffs_eq_some.mp hf
    have hbelow : ∀ j < k, m.level p j = [] := fun j hj =>
      h.level_eq_nil (hj.trans hk) (hlow j hj)
    have hc : 0 < q.count := of_decide_eq_true ((h.bit k q hq).symm.trans hbit)
    have hhead : q.slot.getD q.head 0 = e := by simp [List.getD, he]
    have hqueued := queued_popLevel hq hh hc hbelow
    obtain ⟨hlevel, hlevels⟩ := CanModule.level_set (p := p) hq (m' := popLevel p k q m) rfl
    have hpop := occupied_pop hh hc
    rw [hhead] at hqueued hpop
    obtain ⟨en, hen⟩ := h.exists_live (e := e) (by simp [hqueued])
    have hlive : liveEntry? p (popLevel p k q m) e = some en := hen
    refine .inr ⟨e, popLevel p k q m, ?_, ⟨⟨en, (liveEntry?_eq_some.mp hen).2⟩, hqueued,
      ⟨k, hbelow, ?_, hlevels⟩, fun j hj => hsound.getLsbD_eq hj, rfl⟩, hsound⟩
    · simp only [dequeueHighest, hf, readAt_of_lt hk, hq, readAt_of_lt hh, he, hlive]
    · rw [hlevel, CanModule.level_eq hq, hpop]

/-- Settles O18: the lowest set bit of the bitmap names the lowest non-empty level. -/
theorem dequeueTakesHighest : Obligations.DequeueTakesHighest := by
  intro p m held hm
  rcases dequeueHighest_takes (CanModule.queuesSound_of_queuesGood hm) with
    ⟨hnil, hnone⟩ | ⟨e, m', hd, hdeq, -⟩
  · exact ⟨fun _ => hnone, fun hne => absurd hnil hne⟩
  · refine ⟨fun hnil => ?_, fun _ => ⟨e, m', hd, hdeq⟩⟩
    rw [hdeq.queued] at hnil
    cases hnil

/-! ## remove_by_tx_id -/

/-- What a scan of queue `q` from position `i` on finds: no Entry that carries `t`, or the first
that does (40_priority_queue.md R166). -/
theorem scanQueue_first {k : Nat} {q : PrioQueue} (hs : q.Sound p)
    (hlive : ∀ e ∈ q.occupied p, ∃ en, liveEntry? p m e = some en) {i n : Nat}
    (hn : i + n = q.count) :
    (scanQueue p m t k q n i = .absent ∧ ∀ e ∈ (q.occupied p).drop i, ¬ m.carries t e) ∨
    ∃ a e b, scanQueue p m t k q n i = .found k (i + a.length) e ∧
      (q.occupied p).drop i = a ++ e :: b ∧ (∀ x ∈ a, ¬ m.carries t x) ∧ m.carries t e := by
  induction n generalizing i with
  | zero =>
    rw [List.drop_of_length_le (by rw [PrioQueue.occupied_length]; omega)]
    exact .inl ⟨rfl, by simp⟩
  | succ n ih =>
    have hi : i < (q.occupied p).length := by rw [PrioQueue.occupied_length]; omega
    have hdrop := List.drop_eq_getElem_cons hi
    obtain ⟨en, hen⟩ := hlive _ (List.getElem_mem hi)
    have hread := hs.readAt_slot (k := i) (by omega)
    rw [List.getElem?_eq_getElem hi] at hread
    obtain ⟨-, hget, -⟩ := liveEntry?_eq_some.mp hen
    have hcarries : m.carries t (q.occupied p)[i] ↔ en.txId = t := by
      simp [CanModule.carries, hget]
    simp only [scanQueue, hread, hen]
    split_ifs with ht
    · exact .inr ⟨[], _, _, by simp, hdrop, by simp, hcarries.mpr ht⟩
    · rcases ih (i := i + 1) (by omega) with ⟨hr, hno⟩ | ⟨a, e, b, hr, hab, hno, he⟩
      · rw [hdrop]
        exact .inl ⟨hr, List.forall_mem_cons.mpr ⟨mt hcarries.mp ht, hno⟩⟩
      · refine .inr ⟨(q.occupied p)[i] :: a, e, b, ?_, by rw [hdrop, hab]; rfl,
          List.forall_mem_cons.mpr ⟨mt hcarries.mp ht, hno⟩, he⟩
        rw [hr, List.length_cons, Nat.add_right_comm, Nat.add_assoc]

/-- What a scan of the levels from level `k` on finds: no Entry that carries `t`, or the first that
does, by level and within a level oldest first (40_priority_queue.md R166). -/
theorem scanLevels_first (h : QueuesSound p out m.cleared) {k n : Nat} (hn : k + n = p.numPrio) :
    (scanLevels p m t n k = .absent ∧
      ∀ j, k ≤ j → j < p.numPrio → ∀ e ∈ m.level p j, ¬ m.carries t e) ∨
    ∃ (i : Nat) (q : PrioQueue) (a : List Nat) (e : Nat) (b : List Nat),
      scanLevels p m t n k = .found i a.length e ∧ m.pq[i]? = some q ∧
      q.occupied p = a ++ e :: b ∧ (∀ x ∈ a, ¬ m.carries t x) ∧ m.carries t e ∧
      ∀ j, k ≤ j → j < i → ∀ x ∈ m.level p j, ¬ m.carries t x := by
  induction n generalizing k with
  | zero => exact .inl ⟨rfl, fun j _ _ => by omega⟩
  | succ n ih =>
    obtain ⟨q, hq⟩ : ∃ q, m.pq[k]? = some q := h.exists_level (by omega)
    have hlive : ∀ e ∈ q.occupied p, ∃ en, liveEntry? p m e = some en := fun e he =>
      h.exists_live (List.mem_append_left _ (CanModule.mem_queued.mpr ⟨k, q, hq, he⟩))
    simp only [scanLevels, readAt_of_lt (h.level_lt hq), hq]
    rcases scanQueue_first (t := t) (k := k) (h.queue k q hq) hlive (Nat.zero_add _) with
      ⟨hr, hno⟩ | ⟨a, e, b, hr, hab, hno, he⟩
    · rw [List.drop_zero, ← CanModule.level_eq hq] at hno
      rw [hr]
      have hfrom : ∀ j, k ≤ j → (∀ e ∈ m.level p j, ¬ m.carries t e) ∨ k + 1 ≤ j := fun j hj => by
        rcases Nat.eq_or_lt_of_le hj with rfl | hj
        · exact .inl hno
        · exact .inr hj
      rcases ih (k := k + 1) (by omega) with
        ⟨hr', hno'⟩ | ⟨i, q', a, e, b, hr', hq', hab, ha, he, hb⟩
      · exact .inl ⟨hr', fun j hj hlt => (hfrom j hj).elim id fun hj => hno' j hj hlt⟩
      · exact .inr ⟨i, q', a, e, b, hr', hq', hab, ha, he,
          fun j hj hlt => (hfrom j hj).elim id fun hj => hb j hj hlt⟩
    · rw [hr, Nat.zero_add]
      exact .inr ⟨k, q, a, e, b, rfl, hq, by simpa using hab, hno, he, fun j _ _ => by omega⟩

/-- Taking position `a.length` out of level `k` takes Entry `e` out of that level, and out of the
queued Entries, and keeps the order of the others (40_priority_queue.md R166). -/
theorem removeAt_splits {k e : Nat} {q : PrioQueue} {a b : List Nat} (hs : q.Sound p)
    (hq : m.pq[k]? = some q) (hab : q.occupied p = a ++ e :: b) :
    (removeAt p k a.length q m).level p k = a ++ b ∧
    (∀ j, j ≠ k → (removeAt p k a.length q m).level p j = m.level p j) ∧
    ∃ below above, (∀ x ∈ below, ∃ j < k, x ∈ m.level p j) ∧
      m.queued p = (below ++ a) ++ e :: (b ++ above) ∧
      (removeAt p k a.length q m).queued p = (below ++ a) ++ (b ++ above) := by
  have hlt : a.length < q.count := by
    rw [← PrioQueue.occupied_length p q, hab]
    simp
  have hocc := occupied_closeGap (tl := (q.tail + p.qcap - 1) % p.qcap) hs.length hs.count hlt
  rw [hab, List.eraseIdx_append_of_length_le le_rfl, Nat.sub_self, List.eraseIdx_cons_zero] at hocc
  obtain ⟨hlevel, hlevels⟩ := CanModule.level_set (p := p) hq
    (m' := removeAt p k a.length q m) rfl
  have hset : (removeAt p k a.length q m).queued p = _ := CanModule.queued_set (m := m) hq
  refine ⟨hlevel.trans hocc, hlevels, _, (m.pq.drop (k + 1)).flatMap fun q => q.occupied p,
    fun _ => CanModule.exists_level_below, ?_, ?_⟩
  · rw [CanModule.queued_split hq, hab]
    simp only [List.append_assoc, List.cons_append]
  · rw [hset, hocc]
    simp only [List.append_assoc]

/-- `remove_by_tx_id` on a Module in order: the first queued Entry that carries `t` is removed, or
there is none and nothing changes (40_priority_queue.md R166). -/
theorem removeByTxId_first (t : Word) (h : QueuesSound p out m.cleared) :
    ((∀ e ∈ m.queued p, ¬ m.carries t e) ∧ removeByTxId p t m = .ok false m) ∨
    ∃ e m', removeByTxId p t m = .ok true m' ∧ Removed p m t e m' := by
  rcases scanLevels_first (t := t) h (Nat.zero_add p.numPrio) with
    ⟨hr, hno⟩ | ⟨k, q, a, e, b, hr, hq, hab, ha, he, hbelow⟩
  · refine .inl ⟨fun e he => ?_, by simp only [removeByTxId, hr]⟩
    obtain ⟨k, q, hq, he⟩ := CanModule.mem_queued.mp he
    exact hno k (Nat.zero_le k) (h.level_lt hq) e (CanModule.level_eq hq ▸ he)
  · have hrem : QueuesSound p (e :: out) (removeAt p k a.length q m).cleared :=
      removeAt_sound h hq (by simp [hab])
    obtain ⟨en, hen⟩ := hrem.exists_live (e := e) (by simp)
    obtain ⟨-, hget, huse⟩ := liveEntry?_eq_some.mp hen
    obtain ⟨hlevel, hlevels, below, above, hmem, hqueued, hqueued'⟩ :=
      removeAt_splits (h.queue k q hq) hq hab
    have hused : 0 < m.used := by
      have : m.used = (m.queued p ++ out).length := h.used_eq
      rw [this, hqueued]
      simp
    refine .inr ⟨e, { removeAt p k a.length q m with
      pool := m.pool.set e { en with inUse := false }, used := m.used - 1 }, ?_,
      ⟨_, _, hqueued, fun x hx => ?_, he, hqueued'⟩,
      ⟨k, a, b, (CanModule.level_eq hq).trans hab, hlevel, hlevels⟩, ⟨en, hget, huse, rfl⟩, ?_,
      fun j hj => hrem.getLsbD_eq hj, rfl⟩
    · simp only [removeByTxId, hr, readAt_of_lt (h.level_lt hq), hq]
      rw [freeEntry_eq_ok (u := ()).mpr ⟨en, hen, rfl⟩, Run.andThen_ok]
      rfl
    · rcases List.mem_append.mp hx with hx | hx
      · obtain ⟨j, hj, hx⟩ := hmem x hx
        exact hbelow j (Nat.zero_le j) hj x hx
      · exact ha x hx
    · exact Nat.sub_add_cancel hused

/-- Settles O19: the scan meets the queued Entries in their order, and stops at the first match. -/
theorem removeTakesFirstMatch : Obligations.RemoveTakesFirstMatch := by
  intro p m held t hm
  rcases removeByTxId_first t (CanModule.queuesSound_of_queuesGood hm) with
    ⟨hno, hr⟩ | ⟨e, m', hr, hrem⟩
  · exact ⟨fun _ => hr, fun ⟨e, he, hc⟩ => absurd hc (hno e he)⟩
  · refine ⟨fun hno => ?_, fun _ => ⟨e, m', hr, hrem⟩⟩
    obtain ⟨a, b, hqueued, -, hc, -⟩ := hrem.first
    exact absurd hc (hno e (by simp [hqueued]))

end Sys2Proof.Machine

/-! A run of enqueues and then of dequeues (40_priority_queue.md R167). -/

namespace Sys2Proof.Machine

variable {p : Params} {m m' : CanModule} {out : List Nat}

/-- The pool Entries that level `k` of a Module names, oldest first. -/
def CanModule.contents (p : Params) (m : CanModule) (k : Nat) : List (Option Entry) :=
  (m.level p k).map fun e => m.pool[e]?

/-- What an accepted enqueue of `x` leaves in the Entry it takes (40_priority_queue.md R164). -/
def queuedEntry (x : Message × Word × BitVec 3) : Option Entry := some ⟨true, x.1, x.2.1, x.2.2⟩

/-- An enqueue appends its message to what its level holds, and leaves what the others hold. -/
theorem Enqueued.contents {x : Message × Word × BitVec 3} {e : Nat}
    (h : Enqueued p m x.1 x.2.1 x.2.2 e m') (hlen : m.pq.length = p.numPrio)
    (he : e ∉ m.queued p) {k : Nat} (hk : k < p.numPrio) :
    m'.contents p k = m.contents p k ++ ([x].filter fun x => x.2.2.toNat == k).map queuedEntry := by
  have hold : (m.level p k).map (fun e => m'.pool[e]?) = m.contents p k := by
    refine List.map_congr_left fun e' he' => h.pool e' fun hee => he ?_
    exact CanModule.mem_queued_of_mem_level (hlen ▸ hk) (hee ▸ he')
  by_cases hx : x.2.2.toNat = k
  · subst hx
    rw [CanModule.contents, h.level, List.map_append, hold]
    simp [h.entry, queuedEntry]
  · rw [CanModule.contents, h.levels k (Ne.symm hx), hold]
    simp [hx]

/-- Accepted enqueues, one after another: each level holds its messages in arrival order, after what
it held before. -/
theorem each_enqueue_contents {xs : List (Message × Word × BitVec 3)}
    (h : QueuesSound p out m.cleared)
    (hrun : Run.each (fun x => enqueue p x.1 x.2.1 x.2.2) xs m = .ok (xs.map fun _ => .ok) m') :
    QueuesSound p out m'.cleared ∧ (m'.queued p).length = (m.queued p).length + xs.length ∧
    ∀ k < p.numPrio, m'.contents p k
      = m.contents p k ++ (xs.filter fun x => x.2.2.toNat == k).map queuedEntry := by
  induction xs generalizing m with
  | nil =>
    cases hrun
    exact ⟨h, rfl, fun k _ => by simp⟩
  | cons x xs ih =>
    obtain ⟨r, m₁, hx, hrun⟩ := Run.andThen_eq_ok.mp hrun
    obtain ⟨rs, m₂, hxs, hrun⟩ := Run.andThen_eq_ok.mp hrun
    simp only [List.map_cons, Run.ok.injEq, List.cons.injEq] at hrun
    obtain ⟨⟨rfl, rfl⟩, rfl⟩ := hrun
    obtain ⟨⟨e, henq, he⟩, hlen, h₁⟩ := enqueue_accepted h hx
    obtain ⟨h₂, hlen₂, hcontents⟩ := ih h₁ hxs
    refine ⟨h₂, by rw [hlen₂, hlen, List.length_cons]; omega, fun k hk => ?_⟩
    rw [hcontents k hk, henq.contents h.pqLen he hk, List.append_assoc, ← List.map_append,
      ← List.filter_append]
    rfl

/-- As many dequeues as Entries are queued take them all, in the order in which they are queued, and
leave the queues empty. -/
theorem each_dequeueHighest {α : Type} {xs : List α} (h : QueuesSound p out m.cleared)
    (hlen : xs.length = (m.queued p).length) :
    ∃ m', Run.each (fun _ => dequeueHighest p) xs m = .ok ((m.queued p).map some) m' ∧
      dequeueHighest p m' = .ok none m' := by
  induction xs generalizing m out with
  | nil =>
    have hnil : m.queued p = [] := List.length_eq_zero_iff.mp hlen.symm
    rcases dequeueHighest_takes h with ⟨-, hd⟩ | ⟨e, m', -, hdeq, -⟩
    · exact ⟨m, by rw [hnil]; rfl, hd⟩
    · rw [hdeq.queued] at hnil
      cases hnil
  | cons x xs ih =>
    rcases dequeueHighest_takes h with ⟨hnil, -⟩ | ⟨e, m₁, hd, hdeq, h₁⟩
    · rw [hnil] at hlen
      cases hlen
    · have hlen₁ : xs.length = (m₁.queued p).length := by
        rw [hdeq.queued] at hlen
        exact Nat.succ.inj hlen
      obtain ⟨m', hrun, hend⟩ := ih h₁ hlen₁
      refine ⟨m', ?_, hend⟩
      rw [hdeq.queued, Run.each, hd, Run.andThen_ok, hrun]
      rfl

/-- Settles O20: the enqueues leave at each level its messages in arrival order, and the dequeues
take the Entries queued, level by level. -/
theorem priorityThenFifoOrder : Obligations.PriorityThenFifoOrder := by
  intro p m m' xs hm hnil hrun
  have h := CanModule.queuesSound_of_queuesGood hm
  obtain ⟨h', hlen, hcontents⟩ := each_enqueue_contents h hrun
  obtain ⟨m'', hdrain, hend⟩ := each_dequeueHighest (xs := xs) h' (by rw [hlen, hnil]; simp)
  refine ⟨m'.queued p, m'', hdrain, ?_, hend⟩
  have hempty : ∀ k < p.numPrio, m.contents p k = [] := fun k hk => by
    rw [CanModule.contents, List.map_eq_nil_iff, List.eq_nil_iff_forall_not_mem]
    intro e he
    have hpq : m.pq.length = p.numPrio := h.pqLen
    have := CanModule.mem_queued_of_mem_level (hpq ▸ hk) he
    rw [hnil] at this
    cases this
  rw [CanModule.queued_eq_levels (m := m') h'.pqLen, drainOrder, List.map_flatMap, List.map_flatMap]
  refine List.flatMap_congr fun k hk => ?_
  have hk := List.mem_range.mp hk
  have := hcontents k hk
  rw [hempty k hk] at this
  exact this

end Sys2Proof.Machine

/-! The transmit commands on a Module in a good state (40_priority_queue.md R180 to R186). -/

namespace Sys2Proof.Machine

variable {s : State} {h : Byte} {m : CanModule}

/-! ## The Module a command works on -/

theorem Claimed.claimed? (hc : Claimed h m s) : s.claimed? h = some m :=
  State.claimed?_eq_some.mpr ⟨hc.slot, hc.allocated⟩

/-- An allocated Module of a good state passes the checks on its queues, with the Entry that the
normal context holds of it, if any, taken out of them. -/
theorem State.Good.queuesGood (hg : s.Good) (hc : Claimed h m s) :
    m.queuesGood s.params (heldOf s.nctx h.toNat) = true := by
  obtain ⟨hok, hslot⟩ := CanModule.sound_iff.mp (hg.sound hc.slot)
  obtain ⟨hqueues, hown, -⟩ := slotOk_iff.mp hslot
  simp only [CanModule.ok, Bool.and_eq_true] at hok
  obtain ⟨⟨⟨hshape, hranges⟩, -⟩, -⟩ := hok
  simp [CanModule.queuesGood, hshape, hranges, hqueues hc.allocated, hown]

theorem State.Good.queuesGood_idle (hg : s.Good) (hi : s.nctx.phase = .idle) (hc : Claimed h m s) :
    m.queuesGood s.params none = true :=
  heldOf_idle hi h.toNat ▸ hg.queuesGood hc

/-- A slot written and the command answered, and nothing else of the block. -/
theorem OnlySlot.setSlot_answer (s : State) (i : Nat) (m : CanModule) (r : Response) :
    OnlySlot i s ((s.setSlot i m).answer r) :=
  (OnlySlot.setSlot s i m).trans (SameBlock.onlySlot ⟨rfl, rfl, rfl, rfl, rfl⟩)

/-! ## TRANSMIT -/

section transmit

variable {prio : BitVec 3} {txid ts : Word} {id : CanId} {ide rtr : Bool} {len : BitVec 4}
  {data : BitVec 64}

/-- A standard identifier above 0x7FF (30_encoding.md R114). -/
theorem stdOverflow_iff : stdOverflow ide id = true ↔ ide = false ∧ 0x7FF < id.toNat := by
  have hhigh : id.extractLsb' 11 18 = 0 ↔ id.toNat ≤ 0x7FF := by
    rw [← BitVec.toNat_inj, BitVec.extractLsb'_toNat, Nat.shiftRight_eq_div_pow]
    have := id.isLt
    simp
    omega
  rw [stdOverflow, Bool.and_eq_true, bne_iff_ne, ne_eq, hhigh, not_le, Bool.not_eq_true']

/-- The operand check of TRANSMIT (40_priority_queue.md R181). -/
theorem messageOk_iff {p : Params} :
    messageOk p prio id ide len = true ↔ LegalMessage p prio id ide len := by
  have hid : stdOverflow ide id = false ↔ (ide = false → id.toNat ≤ 0x7FF) := by
    rw [← Bool.not_eq_true, stdOverflow_iff, not_and, not_lt]
  simp only [messageOk, Bool.and_eq_true, decide_eq_true_eq, Bool.not_eq_true', hid]
  exact ⟨fun ⟨⟨hp, hl⟩, hi⟩ => ⟨hp, hl, hi⟩, fun ⟨hp, hl, hi⟩ => ⟨⟨hp, hl⟩, hi⟩⟩

/-- TRANSMIT with illegal operands (40_priority_queue.md R181). -/
theorem exec_transmit_illegal (hc : Claimed h m s) (hm : ¬ LegalMessage s.params prio id ide len) :
    exec (.transmit h prio txid id ide rtr len data ts) s
      = .next (s.answer (.ofResult .invalidParam)) := by
  rw [← messageOk_iff] at hm
  simp only [exec, execTransmit, State.withHandle_some hc.claimed?, if_neg hm, State.reply]

/-- TRANSMIT with legal operands, by what `enqueue` answers (40_priority_queue.md R180). -/
theorem exec_transmit_legal {r : ResultCode} {m' : CanModule} (hc : Claimed h m s)
    (hm : LegalMessage s.params prio id ide len)
    (he : enqueue s.params (txMessage id ide rtr len data ts) txid prio m = .ok r m') :
    exec (.transmit h prio txid id ide rtr len data ts) s = .next
      (if r = .txQueueFull then (s.setSlot h.toNat m').answer (.ofResult .txQueueFull)
      else if m.started then { s.setSlot h.toNat m' with nctx := .submission opTransmit h false }
      else (s.setSlot h.toNat m').answer (.ofResult .ok)) := by
  rw [← messageOk_iff] at hm
  simp only [exec, execTransmit, State.withHandle_some hc.claimed?, if_pos hm, transmitQueued,
    State.onSlot_of hc.slot, he, Run.andThen_ok]
  split_ifs <;> rfl

end transmit

/-- Settles O33: in a good idle state the Module's queues are in order with no Entry held, so
`enqueue` accepts the message. -/
theorem transmitQueues : Obligations.TransmitQueues := by
  intro s h prio txid id ide rtr len data ts m hg hi hc hm hroom
  obtain ⟨e, m', he, henq⟩ := (enqueueAppendsOrRefuses s.params m
    (txMessage id ide rtr len data ts) txid prio (hg.queuesGood_idle hi hc) hm.prio).2 hroom.ne
  have hexec := exec_transmit_legal hc hm he
  rw [if_neg (by decide)] at hexec
  refine ⟨e, m', _, hexec, ?_⟩
  cases hs : m.started with
  | false =>
    exact ⟨State.slot?_setSlot_self hc.slot, henq, ⟨rfl, rfl, rfl, rfl⟩, rfl,
      fun _ => ⟨.setSlot_answer s _ m' _, rfl⟩, nofun⟩
  | true =>
    exact ⟨State.slot?_setSlot_self hc.slot, henq, ⟨rfl, rfl, rfl, rfl⟩, rfl, nofun,
      fun _ => ⟨.setSlot s _ m', rfl, rfl⟩⟩

/-- Settles O34: the operand check comes first, and a full level refuses the message. -/
theorem transmitRefusals : Obligations.TransmitRefusals := by
  intro s h prio txid id ide rtr len data ts m hc
  refine ⟨fun hbad => exec_transmit_illegal hc fun ⟨hprio, hlen, hid⟩ => ?_,
    fun hg hi hm hfull => ?_⟩
  · rcases hbad with hbad | hbad | ⟨hide, hbad⟩
    · omega
    · omega
    · have := hid hide
      omega
  · obtain ⟨m', he, href⟩ := (enqueueAppendsOrRefuses s.params m
      (txMessage id ide rtr len data ts) txid prio (hg.queuesGood_idle hi hc) hm.prio).1 hfull
    exact ⟨m', _, exec_transmit_legal hc hm he, .setSlot_answer s _ m' _,
      State.slot?_setSlot_self hc.slot, href, ⟨rfl, rfl, rfl, rfl⟩, rfl, rfl⟩

/-! ## ABORT_TX and GET_OCCUPANCY -/

/-- ABORT_TX, by what `remove_by_tx_id` answers (40_priority_queue.md R184). -/
theorem exec_abortTx {txid : Word} {found : Bool} {m' : CanModule} (hc : Claimed h m s)
    (hr : removeByTxId s.params txid m = .ok found m') :
    exec (.abortTx h txid) s = .next
      ((s.setSlot h.toNat m').answer { Response.ofResult .ok with flag := found }) := by
  simp only [exec, execAbortTx, State.withHandle_some hc.claimed?, State.onSlot_of hc.slot, hr,
    Run.andThen_ok, Run.finish_ok]

/-- Settles O35: `remove_by_tx_id` writes only the queues and the pool, and its answer is FLAG. -/
theorem abortTxRemovesQueued : Obligations.AbortTxRemovesQueued := by
  intro s h txid m hg hc
  obtain ⟨habsent, hfound⟩ := removeTakesFirstMatch s.params m _ txid (hg.queuesGood hc)
  refine ⟨fun hno => ?_, fun hex => ?_⟩
  · rw [exec_abortTx hc (habsent hno), State.setSlot_same hc.slot]
    rfl
  · obtain ⟨e, m', hr, hrem⟩ := hfound hex
    exact ⟨e, m', _, exec_abortTx hc hr, .setSlot_answer s _ m' _, State.slot?_setSlot_self hc.slot,
      hrem, (congrArg CanModule.mb hrem.rest :), ⟨rfl, rfl, rfl, rfl⟩, rfl, rfl⟩

/-- Settles O36: in a good idle state no Entry is held, so the Entries in use are those queued. -/
theorem getOccupancyCountsQueued : Obligations.GetOccupancyCountsQueued := by
  intro s h m hc
  refine ⟨?_, fun hg hi => ?_⟩
  · simp only [exec, execGetOccupancy, State.withHandle_some hc.claimed?]
    rfl
  · rw [(hg.sound_idle hi hc.slot).queues.used_eq, List.append_nil]

end Sys2Proof.Machine

/-! The RX ring as the list of its unread Messages (10_state.md R42 to R45, 41_rx_ring.md R210 to
R217), and RX_READ. -/

namespace Sys2Proof.Machine

variable {p : Params} {r : RxRing} {m : CanModule}

/-! ## A ring with its cursors in range -/

/-- What `CanModule.ringGood` checks of a ring, as plain facts; the stored Messages may be any. -/
structure RxRing.InRange (p : Params) (r : RxRing) : Prop where
  length    : r.slot.length = p.rxDepth
  widx      : r.widx < 2 * p.rxDepth
  ridx      : r.ridx < 2 * p.rxDepth
  occupancy : r.occupancy p ≤ p.rxDepth

theorem CanModule.ringGood_iff : m.ringGood p = true ↔ m.rx.InRange p := by
  simp only [CanModule.ringGood, ringOk, Bool.and_eq_true, beq_iff_eq, decide_eq_true_eq, and_assoc]
  exact ⟨fun ⟨hlen, hw, hr, hocc⟩ => ⟨hlen, hw, hr, hocc⟩,
    fun ⟨hlen, hw, hr, hocc⟩ => ⟨hlen, hw, hr, hocc⟩⟩

/-- The producer cursor is the consumer cursor advanced by the occupancy (10_state.md R43). -/
theorem RxRing.InRange.ridx_add_occupancy (h : r.InRange p) :
    (r.ridx + r.occupancy p) % (2 * p.rxDepth) = r.widx := by
  have hr := h.ridx
  rw [RxRing.occupancy, Nat.mod_eq_of_lt hr, Nat.add_mod_mod,
    show r.ridx + (r.widx + (2 * p.rxDepth - r.ridx)) = r.widx + 2 * p.rxDepth by omega,
    Nat.add_mod_right, Nat.mod_eq_of_lt h.widx]

/-- The occupancy is the only offset below `2*RX_DEPTH` from the consumer to the producer cursor. -/
theorem RxRing.occupancy_eq_of_add {n : Nat} (hw : r.widx < 2 * p.rxDepth)
    (hr : r.ridx < 2 * p.rxDepth) (hn : n < 2 * p.rxDepth)
    (h : (r.ridx + n) % (2 * p.rxDepth) = r.widx) : r.occupancy p = n := by
  rw [RxRing.occupancy_eq hw hr]
  rcases lt_or_ge (r.ridx + n) (2 * p.rxDepth) with hlt | hge
  · rw [Nat.mod_eq_of_lt hlt] at h
    rw [if_pos (by omega)]
    omega
  · rw [Nat.mod_eq_sub_mod hge, Nat.mod_eq_of_lt (by omega)] at h
    rw [if_neg (by omega)]
    omega

/-- The slot of the producer cursor comes after those of the unread Messages. -/
theorem RxRing.InRange.widx_mod (h : r.InRange p) :
    r.widx % p.rxDepth = (r.ridx + r.occupancy p) % p.rxDepth := by
  rw [← h.ridx_add_occupancy, Nat.mod_mul_left_mod]

/-! ## What a push and a pop make of a ring -/

/-- The ring after a push that finds room (41_rx_ring.md R210). -/
def RxRing.pushed (p : Params) (msg : Message) (r : RxRing) : RxRing :=
  { r with
    slot := r.slot.set (r.widx % p.rxDepth) msg
    widx := (r.widx + 1) % (2 * p.rxDepth) }

/-- The ring after a pop that finds a Message (41_rx_ring.md R213). -/
def RxRing.popped (p : Params) (r : RxRing) : RxRing :=
  { r with ridx := (r.ridx + 1) % (2 * p.rxDepth) }

theorem RxRing.InRange.pushed_occupancy {msg : Message} (h : r.InRange p)
    (hroom : r.occupancy p < p.rxDepth) : (r.pushed p msg).occupancy p = r.occupancy p + 1 := by
  refine RxRing.occupancy_eq_of_add (Nat.mod_lt _ (by omega)) h.ridx (by omega) ?_
  rw [RxRing.pushed, ← Nat.add_assoc, ← Nat.mod_add_mod, h.ridx_add_occupancy]

theorem RxRing.InRange.popped_occupancy (h : r.InRange p) (hne : r.occupancy p ≠ 0) :
    (r.popped p).occupancy p = r.occupancy p - 1 := by
  have hocc := h.occupancy
  refine RxRing.occupancy_eq_of_add h.widx (Nat.mod_lt _ (by omega)) (by omega) ?_
  rw [RxRing.popped, Nat.mod_add_mod,
    show r.ridx + 1 + (r.occupancy p - 1) = r.ridx + r.occupancy p by omega, h.ridx_add_occupancy]

theorem RxRing.InRange.pushed {msg : Message} (h : r.InRange p)
    (hroom : r.occupancy p < p.rxDepth) : (r.pushed p msg).InRange p where
  length := by simpa [RxRing.pushed] using h.length
  widx := Nat.mod_lt _ (by omega)
  ridx := h.ridx
  occupancy := by
    rw [h.pushed_occupancy hroom]
    omega

theorem RxRing.InRange.popped (h : r.InRange p) (hne : r.occupancy p ≠ 0) :
    (r.popped p).InRange p where
  length := h.length
  widx := h.widx
  ridx := Nat.mod_lt _ (Nat.mul_pos two_pos p.rxDepth_pos)
  occupancy := by
    have hocc := h.occupancy
    rw [h.popped_occupancy hne]
    omega

/-! ## The unread Messages -/

@[simp] theorem RxRing.unread_length : (r.unread p).length = r.occupancy p := by
  simp [RxRing.unread]

theorem RxRing.unread_eq_nil : r.unread p = [] ↔ r.occupancy p = 0 := by
  rw [← List.length_eq_zero_iff, RxRing.unread_length]

/-- A push writes the slot after the unread Messages and leaves theirs. -/
theorem RxRing.InRange.unread_pushed {msg : Message} (h : r.InRange p)
    (hroom : r.occupancy p < p.rxDepth) : (r.pushed p msg).unread p = r.unread p ++ [msg] := by
  rw [RxRing.unread, h.pushed_occupancy hroom, List.range_succ, List.map_append]
  simp only [RxRing.pushed, h.widx_mod]
  congr 1
  · refine List.map_congr_left fun k hk => ?_
    have hk := List.mem_range.mp hk
    have hne : (r.ridx + r.occupancy p) % p.rxDepth ≠ (r.ridx + k) % p.rxDepth := fun he =>
      hk.ne (offset_inj hroom (by omega) he).symm
    simp [List.getD, List.getElem?_set_ne hne]
  · have hpos : (r.ridx + r.occupancy p) % p.rxDepth < r.slot.length := by
      rw [h.length]
      exact Nat.mod_lt _ p.rxDepth_pos
    simp [List.getD, hpos]

/-- A pop advances the consumer cursor past the oldest unread Message. -/
theorem RxRing.InRange.unread_popped (h : r.InRange p) (hne : r.occupancy p ≠ 0) :
    r.unread p = r.slot.getD (r.ridx % p.rxDepth) .zero :: (r.popped p).unread p := by
  rw [RxRing.unread, RxRing.unread, h.popped_occupancy hne]
  obtain ⟨n, hn⟩ := Nat.exists_eq_succ_of_ne_zero hne
  rw [hn, List.range_succ_eq_map, List.map_cons, List.map_map]
  refine congrArg₂ _ rfl (List.map_congr_left fun k _ => ?_)
  have hpos : (r.ridx + (k + 1)) % p.rxDepth
      = ((r.ridx + 1) % (2 * p.rxDepth) + k) % p.rxDepth := by
    rw [← Nat.mod_add_mod ((r.ridx + 1) % _), Nat.mod_mul_left_mod, Nat.mod_add_mod,
      Nat.add_right_comm, Nat.add_assoc]
  exact congrArg (r.slot.getD · .zero) hpos

/-! ## rx_push and rx_pop -/

/-- The slot a cursor names exists (20_memory.md R81). -/
theorem RxRing.InRange.readAt_slot (h : r.InRange p) (i : Nat) :
    readAt r.slot p.rxDepth (i % p.rxDepth) = some (r.slot.getD (i % p.rxDepth) .zero) := by
  have hi := Nat.mod_lt i p.rxDepth_pos
  rw [readAt_of_lt hi, List.getElem?_eq_getElem (h.length.symm ▸ hi),
    List.getD_eq_getElem _ _ (h.length.symm ▸ hi)]

theorem rxPush_of_full {msg : Message} (hfull : m.rx.occupancy p = p.rxDepth) :
    rxPush p msg m = .ok .dropped { m with rx := { m.rx with overrun := m.rx.overrun + 1 } } :=
  if_pos hfull

theorem rxPush_of_room {msg : Message} (h : m.rx.InRange p) (hroom : m.rx.occupancy p < p.rxDepth) :
    rxPush p msg m = .ok .pushed { m with rx := m.rx.pushed p msg } := by
  rw [rxPush, if_neg hroom.ne, h.readAt_slot]
  rfl

theorem rxPop_of_nil (hnil : m.rx.unread p = []) : rxPop p m = .ok none m :=
  if_pos (RxRing.unread_eq_nil.mp hnil)

/-- A pop of a ring with unread Messages takes the oldest (41_rx_ring.md R213). -/
theorem rxPop_of_cons {x : Message} {xs : List Message} (h : m.rx.InRange p)
    (hcons : m.rx.unread p = x :: xs) :
    rxPop p m = .ok (some x) { m with rx := m.rx.popped p } ∧
      (m.rx.popped p).unread p = xs ∧ (m.rx.popped p).InRange p := by
  have hne : m.rx.occupancy p ≠ 0 := fun h0 => by
    rw [RxRing.unread_eq_nil.mpr h0] at hcons
    cases hcons
  obtain ⟨rfl, rfl⟩ := List.cons.inj ((h.unread_popped hne).symm.trans hcons)
  refine ⟨?_, rfl, h.popped hne⟩
  rw [rxPop, if_neg hne, h.readAt_slot]
  rfl

/-- Settles O21: a push writes the slot after the unread Messages unless they fill the ring, and a
pop moves the consumer cursor past the first of them. -/
theorem ringIsBoundedFifo : Obligations.RingIsBoundedFifo := by
  intro p m msg hm
  have h := CanModule.ringGood_iff.mp hm
  refine ⟨fun hfull => rxPush_of_full (RxRing.unread_length ▸ hfull), fun hne => ?_, rxPop_of_nil,
    fun x xs hcons => ?_⟩
  · have hroom := lt_of_le_of_ne h.occupancy (RxRing.unread_length ▸ hne)
    exact ⟨_, rxPush_of_room h hroom, h.unread_pushed hroom, rfl, rfl⟩
  · obtain ⟨hpop, hxs, -⟩ := rxPop_of_cons h hcons
    exact ⟨_, hpop, hxs⟩

/-! ## Runs of pushes and of pops -/

/-- One run after another is the run of both lists. -/
theorem Run.each_append {σ α β : Type} {f : α → σ → Run σ β} {xs ys : List α} {bs cs : List β}
    {s t u : σ} (hxs : Run.each f xs s = .ok bs t) (hys : Run.each f ys t = .ok cs u) :
    Run.each f (xs ++ ys) s = .ok (bs ++ cs) u := by
  induction xs generalizing s bs with
  | nil =>
    cases hxs
    exact hys
  | cons x xs ih =>
    obtain ⟨b, s₁, hx, hxs⟩ := Run.andThen_eq_ok.mp hxs
    obtain ⟨bs', s₂, hxs, he⟩ := Run.andThen_eq_ok.mp hxs
    cases he
    rw [List.cons_append, Run.each, hx, Run.andThen_ok, ih hxs, Run.andThen_ok]
    rfl

/-- Pushes that all find room append their Messages in order and count no overrun. -/
theorem each_rxPush {xs : List Message} (h : m.rx.InRange p)
    (hroom : (m.rx.unread p).length + xs.length ≤ p.rxDepth) :
    ∃ r, Run.each (fun x => rxPush p x) xs m = .ok (xs.map fun _ => .pushed) { m with rx := r } ∧
      r.InRange p ∧ r.unread p = m.rx.unread p ++ xs ∧ r.overrun = m.rx.overrun := by
  induction xs generalizing m with
  | nil => exact ⟨m.rx, rfl, h, (List.append_nil _).symm, rfl⟩
  | cons x xs ih =>
    simp only [RxRing.unread_length, List.length_cons] at hroom
    have hlt : m.rx.occupancy p < p.rxDepth := by omega
    obtain ⟨r, hrun, hr, hunread, hover⟩ := ih (m := { m with rx := m.rx.pushed p x })
      (h.pushed hlt) (by rw [RxRing.unread_length, h.pushed_occupancy hlt]; omega)
    refine ⟨r, ?_, hr, ?_, hover⟩
    · rw [Run.each, rxPush_of_room h hlt, Run.andThen_ok, hrun]
      rfl
    · rw [hunread, h.unread_pushed hlt, List.append_assoc]
      rfl

/-- As many pops as Messages are unread return them, oldest first, and count no overrun. -/
theorem each_rxPop {xs : List Message} (h : m.rx.InRange p) (hunread : m.rx.unread p = xs) :
    ∃ r, Run.each (fun _ => rxPop p) xs m = .ok (xs.map some) { m with rx := r } ∧
      r.overrun = m.rx.overrun := by
  induction xs generalizing m with
  | nil => exact ⟨m.rx, rfl, rfl⟩
  | cons x xs ih =>
    obtain ⟨hpop, hxs, hr⟩ := rxPop_of_cons h hunread
    obtain ⟨r, hrun, hover⟩ := ih (m := { m with rx := m.rx.popped p }) hr hxs
    refine ⟨r, ?_, hover⟩
    rw [Run.each, hpop, Run.andThen_ok, hrun]
    rfl

/-- Settles O22: the pushes up to the capacity append, the pops take from the front, and one push
more finds the ring full. -/
theorem ringRoundTrip : Obligations.RingRoundTrip := by
  intro p m xs hm hnil
  have h := CanModule.ringGood_iff.mp hm
  have pushes : ∀ ys : List Message, ys.length ≤ p.rxDepth → ∃ r,
      Run.each (fun x => rxPush p x) ys m = .ok (ys.map fun _ => .pushed) { m with rx := r } ∧
      r.InRange p ∧ r.unread p = ys ∧ r.overrun = m.rx.overrun := fun ys hys => by
    simpa [hnil] using each_rxPush (xs := ys) h (by simpa [hnil] using hys)
  refine ⟨fun hfits => ?_, fun hmore => ?_⟩
  · obtain ⟨r, hpush, hr, hunread, hover⟩ := pushes xs hfits
    obtain ⟨r', hpop, hover'⟩ := each_rxPop (m := { m with rx := r }) hr hunread
    exact ⟨_, _, hpush, hover, hpop, hover'.trans hover⟩
  · obtain rfl | ⟨ys, y, rfl⟩ := List.eq_nil_or_concat' xs
    · cases hmore
    · have hys : ys.length = p.rxDepth := by simpa using hmore
      obtain ⟨r, hpush, -, hunread, hover⟩ := pushes ys hys.le
      have hfull : r.occupancy p = p.rxDepth := by rw [← RxRing.unread_length, hunread, hys]
      refine ⟨{ m with rx := { r with overrun := r.overrun + 1 } }, ?_, congrArg (· + 1) hover, ?_⟩
      · rw [← hys, ← List.map_const']
        refine Run.each_append hpush ?_
        rw [Run.each, rxPush_of_full (m := { m with rx := r }) hfull]
        rfl
      · rw [List.take_left' hys]
        exact hunread

/-! ## RX_READ -/

/-- What RX_READ answers to what `rx_pop` takes, with the occupancy before it (41_rx_ring.md R215). -/
def rxReadAnswer (occ : Nat) : Option Message → Response
  | none => .ofResult .ok
  | some msg => rxReadResponse occ msg

/-- RX_READ, by what `rx_pop` takes (41_rx_ring.md R215). -/
theorem exec_rxRead {s : State} {h : Byte} {o : Option Message} {m' : CanModule}
    (hc : Claimed h m s) (hpop : rxPop s.params m = .ok o m') :
    exec (.rxRead h) s = .next
      ((s.setSlot h.toNat m').answer (rxReadAnswer (m.rx.occupancy s.params) o)) := by
  simp only [exec, execRxRead, State.withHandle_some hc.claimed?, State.onSlot_of hc.slot, hpop,
    Run.andThen_ok]
  cases o with
  | none => rfl
  | some msg => rfl

/-- Settles O37: RX_READ is one `rx_pop`, which writes only the consumer cursor. -/
theorem rxReadTakesOldest : Obligations.RxReadTakesOldest := by
  intro s h m hc hm
  refine ⟨fun hnil => ?_, fun x xs hcons => ?_⟩
  · rw [exec_rxRead hc (rxPop_of_nil hnil), State.setSlot_same hc.slot]
    rfl
  · obtain ⟨hpop, hxs, -⟩ := rxPop_of_cons (CanModule.ringGood_iff.mp hm) hcons
    have hocc : m.rx.occupancy s.params = xs.length + 1 := by
      rw [← RxRing.unread_length, hcons, List.length_cons]
    refine ⟨_, _, exec_rxRead hc hpop, .setSlot_answer s _ _ _, State.slot?_setSlot_self hc.slot,
      hxs, ⟨rfl, rfl, rfl, rfl⟩, rfl, ?_⟩
    rw [hocc]
    rfl

end Sys2Proof.Machine

/-! The phases of a submission in the normal context, each as one step of it
(42_mailbox_tracker.md R231 to R235). -/

namespace Sys2Proof.Machine

variable {s t u : State} {i e : Nat} {m m' : CanModule} {en : Entry}

/-! ## The step a phase names -/

theorem normalStep_of_subQuery (hp : s.nctx.phase = .subQuery) :
    normalStep s = (phaseQuery s).finish := by
  simp only [normalStep, hp]

theorem normalStep_of_subDeq (hp : s.nctx.phase = .subDeq) :
    normalStep s = (phaseDeq s).finish := by
  simp only [normalStep, hp]

theorem normalStep_of_subAdd (hp : s.nctx.phase = .subAdd) :
    normalStep s = (phaseAdd s).finish := by
  simp only [normalStep, hp]

theorem normalStep_of_subFree (hp : s.nctx.phase = .subFree) :
    normalStep s = (phaseFree s).finish := by
  simp only [normalStep, hp]

/-! ## The command in progress -/

/-- A command in progress has only OK to answer (10_state.md R55). -/
theorem State.Good.pend_ok (hg : s.Good) (hp : s.nctx.phase ≠ .idle) : s.nctx.pend = .ok :=
  (State.busyOk_iff.mp (State.busyOk_of_nctxOk hg.nctx hp)).2.1

/-- The Entry held between the dequeue and the release is in use (10_state.md R41). -/
theorem State.Good.liveEntry?_held (hg : s.Good)
    (hp : s.nctx.phase = .subAdd ∨ s.nctx.phase = .subFree) (hm : s.slot? s.nctx.h.toNat = some m)
    (he : s.nctx.held = some e) (hen : m.pool[e]? = some en) :
    liveEntry? s.params m e = some en := by
  have hsound := hg.sound hm
  rw [heldOf_add_or_free hp, if_pos rfl, he] at hsound
  obtain ⟨en', hlive⟩ := hsound.queues.isSome_of_mem (e := e) (by simp)
  obtain ⟨-, hget, -⟩ := liveEntry?_eq_some.mp hlive
  rwa [Option.some.inj (hen.symm.trans hget)]

theorem State.complete_of_pend_ok (h : s.nctx.pend = .ok) :
    s.complete = (s.setPhase .idle).answer (.ofResult .ok) := by
  rw [State.complete, h]

/-! ## What a step of the normal context leaves -/

/-- Which requests were made is read off the driver port's log and its coming answers only. -/
theorem Requested.of_ports {rs : List DrvRequest} (h : Requested rs s t)
    (hlog : u.drvLog = t.drvLog) (hans : u.drvAns = t.drvAns) (hdrawn : u.drawn = t.drawn) :
    Requested rs s u :=
  ⟨hlog.trans h.log, hans.trans h.ans, hdrawn.trans h.drawn⟩

/-- A slot written, and besides it nothing but `nctx` and the ports. -/
theorem OnlySlot.of_set (m : CanModule) (hp : t.params = s.params)
    (hm : t.modules = s.modules.set i m) (hf : t.fault = s.fault) (ht : t.turns = s.turns) :
    OnlySlot i s { t with nctx := s.nctx } :=
  (OnlySlot.setSlot s i m).trans (SameBlock.onlySlot ⟨hp, hm, rfl, hf, ht⟩)

/-! ## SUB_QUERY -/

theorem phaseQuery_of_slot (hm : s.slot? s.nctx.h.toNat = some m) :
    phaseQuery s = (drvFreeMb m.cfg.periph s).andThen fun n s =>
      if n = 0 then .ok () s.complete else .ok () (s.setPhase .subDeq) := by
  simp only [phaseQuery, hm, submissionNothing]

theorem phaseQuery_of_count_zero (hm : s.slot? s.nctx.h.toNat = some m)
    (h0 : s.nextAnswer.count = 0) :
    phaseQuery s = .ok () (s.request (.freeMb m.cfg.periph)).complete := by
  rw [phaseQuery_of_slot hm, drvFreeMb_eq_ok.mpr ⟨by omega, h0.symm, rfl⟩, Run.andThen_ok,
    if_pos rfl]

theorem phaseQuery_of_count_pos (hm : s.slot? s.nctx.h.toNat = some m)
    (h0 : 0 < s.nextAnswer.count) (hle : s.nextAnswer.count ≤ s.params.numMb) :
    phaseQuery s = .ok () ((s.request (.freeMb m.cfg.periph)).setPhase .subDeq) := by
  rw [phaseQuery_of_slot hm, drvFreeMb_eq_ok.mpr ⟨hle, rfl, rfl⟩, Run.andThen_ok, if_neg h0.ne']

theorem phaseQuery_of_count_excess (hm : s.slot? s.nctx.h.toNat = some m)
    (hgt : s.params.numMb < s.nextAnswer.count) :
    phaseQuery s = .fault .driverContract (s.request (.freeMb m.cfg.periph)) := by
  rw [phaseQuery_of_slot hm, drvFreeMb_eq_fault.mpr ⟨hgt, rfl, rfl⟩, Run.andThen_fault]

/-- Settles O49, by the three ranges of the count the driver answers. -/
theorem queryPhaseAsksFreeCount : Obligations.QueryPhaseAsksFreeCount := by
  intro s m hg hp hc
  have hreq := Requested.one (s := s) (.freeMb m.cfg.periph)
  rw [normalStep_of_subQuery hp, State.answerAt_zero]
  rcases Nat.eq_zero_or_pos s.nextAnswer.count with h0 | h0
  · have hpend : (s.request (.freeMb m.cfg.periph)).nctx.pend = .ok := hg.pend_ok (by simp [hp])
    rw [phaseQuery_of_count_zero hc.slot h0, State.complete_of_pend_ok hpend]
    refine ⟨_, rfl, rfl, rfl, rfl, rfl, hreq.of_ports rfl rfl rfl,
      fun _ => ⟨rfl, rfl, rfl⟩, ?_, ?_⟩ <;> omega
  · rcases Nat.lt_or_ge s.params.numMb s.nextAnswer.count with hgt | hle
    · rw [phaseQuery_of_count_excess hc.slot hgt]
      refine ⟨_, rfl, rfl, rfl, rfl, rfl, hreq.of_ports rfl rfl rfl, ?_, ?_,
        fun _ => ⟨rfl, rfl, rfl⟩⟩ <;> omega
    · rw [phaseQuery_of_count_pos hc.slot h0 hle]
      refine ⟨_, rfl, rfl, rfl, rfl, rfl, hreq.of_ports rfl rfl rfl, ?_,
        fun _ _ => ⟨rfl, rfl, rfl⟩, ?_⟩ <;> omega

/-! ## SUB_DEQ -/

theorem phaseDeq_of_none (hm : s.slot? s.nctx.h.toNat = some m)
    (hd : dequeueHighest s.params m = .ok none m) : phaseDeq s = .ok () s.complete := by
  simp only [phaseDeq, State.onSlot_of hm, hd, Run.andThen_ok, submissionNothing,
    State.setSlot_same hm]

theorem phaseDeq_of_some (hm : s.slot? s.nctx.h.toNat = some m)
    (hd : dequeueHighest s.params m = .ok (some e) m') :
    phaseDeq s =
      .ok () (((s.setSlot s.nctx.h.toNat m').setHeld (some e)).setPhase .subAdd) := by
  simp only [phaseDeq, State.onSlot_of hm, hd, Run.andThen_ok]

/-- Settles O50: no Entry is held at SUB_DEQ, so `dequeue_highest` works on queues in order. -/
theorem dequeuePhaseHoldsHighest : Obligations.DequeuePhaseHoldsHighest := by
  intro s m hg hp hc
  obtain ⟨hempty, hqueued⟩ := dequeueTakesHighest s.params m _ (hg.queuesGood hc)
  rw [normalStep_of_subDeq hp]
  refine ⟨fun hnil => ?_, fun hne => ?_⟩
  · rw [phaseDeq_of_none hc.slot (hempty hnil),
      State.complete_of_pend_ok (hg.pend_ok (by simp [hp]))]
    rfl
  · obtain ⟨e, m', hd, hdeq⟩ := hqueued hne
    rw [phaseDeq_of_some hc.slot hd]
    exact ⟨e, m', _, rfl, hdeq, State.slot?_setSlot_self hc.slot, .of_set m' rfl rfl rfl rfl, rfl,
      ⟨rfl, rfl, rfl, rfl⟩, rfl, rfl⟩

/-! ## SUB_ADD -/

/-- The add request of an Entry, its answer drawn (42_mailbox_tracker.md R230). -/
def State.requestAdd (s : State) (m : CanModule) (en : Entry) : State :=
  s.request (.addTx m.cfg.periph (txHeader en.msg) en.msg.data)

/-- A notification changes no part of the Module table, `nctx` or the fault record. -/
theorem SameBlock.emit (h : SameBlock s t) (i : Nat) (b : NtfBody) :
    SameBlock s (t.emit i b) := by
  obtain ⟨hp, hm, hn, hf, ht⟩ := h
  constructor <;> simpa

theorem submitEntry_of_rejected (hok : s.nextAnswer.ok = false) :
    submitEntry i m en s = .ok () ((s.requestAdd m en).emit i (.err .driverError en.txId)) := by
  simp only [submitEntry, hok, Bool.false_eq_true, if_false, State.requestAdd]

theorem submitEntry_of_accepted (hm : s.slot? i = some m) (hok : s.nextAnswer.ok = true)
    (hmb : s.nextAnswer.mb < s.params.numMb) :
    submitEntry i m en s = .ok () (((s.requestAdd m en).noteSubmitted en.txId).setSlot i
      { m with mb := m.mb.set s.nextAnswer.mb ⟨true, en.txId⟩ }) := by
  have hslot : ((s.requestAdd m en).noteSubmitted en.txId).slot? i = some m := hm
  simp only [submitEntry, hok, if_true]
  exact State.onSlot_eq_ok.mpr ⟨m, _, hslot, recordMb_eq_ok.mpr ⟨hmb, rfl⟩, rfl⟩

theorem recordMb_of_ge {p : Params} {k : Nat} {w : Word} (h : p.numMb ≤ k) :
    recordMb p k w m = .fault .driverContract m :=
  if_neg (Nat.not_lt.mpr h)

theorem submitEntry_of_mailbox_excess (hm : s.slot? i = some m) (hok : s.nextAnswer.ok = true)
    (hmb : s.params.numMb ≤ s.nextAnswer.mb) :
    submitEntry i m en s = .fault .driverContract ((s.requestAdd m en).noteSubmitted en.txId) := by
  have hslot : ((s.requestAdd m en).noteSubmitted en.txId).slot? i = some m := hm
  simp only [submitEntry, hok, if_true]
  exact State.onSlot_eq_fault.mpr
    (.inr ⟨m, m, hslot, recordMb_of_ge hmb, (State.setSlot_same hslot).symm⟩)

theorem phaseAdd_of_live (hm : s.slot? s.nctx.h.toNat = some m) (he : s.nctx.held = some e)
    (hlive : liveEntry? s.params m e = some en) :
    phaseAdd s = (submitEntry s.nctx.h.toNat m en s).andThen fun _ s =>
      .ok () (s.setPhase .subFree) := by
  simp only [phaseAdd, he, addTx, hm, hlive]

/-- `emit` on a Module, as the records it adds (00_scope.md R17, 10_state.md R50). -/
theorem State.emit_ntf {b : NtfBody} {k : CbKind} (hm : s.slot? i = some m)
    (hk : b.slot = some k) : (s.emit i b).ntf = s.ntf ++ noteIf (m.cbEn.get k) i b := by
  cases hen : m.cbEn.get k with
  | false => rw [s.emit_of_disabled hm hk hen, noteIf, if_neg (by decide), List.append_nil]
  | true => rw [s.emit_of_enabled hm hk hen, State.append_ntf, noteIf, if_pos rfl]

/-- Settles O51, by what the driver answers to the add request: it refuses the Entry, or it
reports a mailbox in or out of range. -/
theorem addPhaseSubmitsHeld : Obligations.AddPhaseSubmitsHeld := by
  intro s m e en hg hp hc he hen
  have hreq := Requested.one (s := s) (.addTx m.cfg.periph (txHeader en.msg) en.msg.data)
  rw [normalStep_of_subAdd hp, State.answerAt_zero,
    phaseAdd_of_live hc.slot he (hg.liveEntry?_held (.inl hp) hc.slot he hen)]
  cases hok : s.nextAnswer.ok with
  | false =>
    have hemit := State.emit_ntf (s := s.requestAdd m en) (b := .err .driverError en.txId)
      (k := .err) hc.slot rfl
    have hsame : SameBlock s
        ((s.requestAdd m en).emit s.nctx.h.toNat (.err .driverError en.txId)) :=
      ((SameBlock.refl s).request _).emit _ _
    rw [submitEntry_of_rejected hok]
    exact ⟨_, rfl, State.emit_rsp _ _ _,
      hreq.of_ports (State.emit_drvLog _ _ _) (State.emit_drvAns _ _ _) (State.emit_drawn _ _ _),
      nofun,
      fun _ => ⟨⟨hsame.params, hsame.modules, rfl, hsame.fault, hsame.turns⟩,
        congrArg (fun n : Nctx => { n with phase := .subFree }) hsame.nctx, hemit⟩, nofun⟩
  | true =>
    rcases Nat.lt_or_ge s.nextAnswer.mb s.params.numMb with hmb | hmb
    · rw [submitEntry_of_accepted hc.slot hok hmb]
      refine ⟨_, rfl, rfl, hreq.of_ports rfl rfl rfl,
        fun _ _ => ⟨.of_set _ rfl rfl rfl rfl, State.slot?_setSlot_self hc.slot, rfl, rfl⟩,
        nofun, ?_⟩
      omega
    · rw [submitEntry_of_mailbox_excess hc.slot hok hmb]
      refine ⟨_, rfl, rfl, hreq.of_ports rfl rfl rfl, ?_, nofun, fun _ _ => ⟨rfl, rfl⟩⟩
      omega

/-! ## SUB_FREE -/

/-- Entry `e`, whose fields are `en`, released (40_priority_queue.md R162). -/
def CanModule.release (m : CanModule) (e : Nat) (en : Entry) : CanModule :=
  { m with pool := m.pool.set e { en with inUse := false }, used := m.used - 1 }

/-- The held Entry of the command in progress released, and held no more (42_mailbox_tracker.md
R231). -/
def State.releaseHeld (s : State) (m : CanModule) (e : Nat) (en : Entry) : State :=
  (s.setSlot s.nctx.h.toNat (m.release e en)).setHeld none

theorem phaseFree_of_live (hm : s.slot? s.nctx.h.toNat = some m) (he : s.nctx.held = some e)
    (hlive : liveEntry? s.params m e = some en) :
    phaseFree s = .ok () (submissionAttempted (s.releaseHeld m e en)) := by
  have hfree : freeEntry s.params e m = .ok () (m.release e en) :=
    freeEntry_eq_ok.mpr ⟨en, hlive, rfl⟩
  simp only [phaseFree, he, State.onSlot_of hm, hfree, Run.andThen_ok, State.releaseHeld]

theorem submissionAttempted_of_drain (hd : s.nctx.drain = true) :
    submissionAttempted s = { s with nctx := Nctx.submission opStart s.nctx.h true } := by
  simp only [submissionAttempted, hd, if_true]

theorem submissionAttempted_of_not_drain (hd : s.nctx.drain = false) :
    submissionAttempted s = s.complete := by
  simp only [submissionAttempted, hd, Bool.false_eq_true, if_false]

/-- Settles O52, by the drain bit: TRANSMIT's attempt is over, START's loop goes on. -/
theorem freePhaseReleasesHeld : Obligations.FreePhaseReleasesHeld := by
  intro s m e en hg hp hc he hen
  have hlive := hg.liveEntry?_held (.inr hp) hc.slot he hen
  have hslot : (s.releaseHeld m e en).slot? s.nctx.h.toNat = some (m.release e en) :=
    State.slot?_setSlot_self hc.slot
  rw [normalStep_of_subFree hp, phaseFree_of_live hc.slot he hlive]
  cases hd : s.nctx.drain with
  | false =>
    have hpend : (s.releaseHeld m e en).nctx.pend = .ok := hg.pend_ok (by simp [hp])
    rw [submissionAttempted_of_not_drain (s := s.releaseHeld m e en) hd,
      State.complete_of_pend_ok hpend]
    exact ⟨_, rfl, .of_set _ rfl rfl rfl rfl, hslot, ⟨rfl, rfl, rfl, rfl⟩, rfl, rfl,
      fun _ => ⟨rfl, rfl⟩, nofun⟩
  | true =>
    rw [submissionAttempted_of_drain (s := s.releaseHeld m e en) hd]
    exact ⟨_, rfl, .of_set _ rfl rfl rfl rfl, hslot, ⟨rfl, rfl, rfl, rfl⟩, rfl, rfl, nofun,
      fun _ => ⟨rfl, rfl⟩⟩

end Sys2Proof.Machine

/-! Driver requests one after another (00_scope.md R18). -/

namespace Sys2Proof.Machine

variable {s t u : State} {rs rs' : List DrvRequest}

/-! ## Two parts of a step -/

/-- After a list of requests the coming answers are those after theirs. -/
theorem Requested.answerAt (h : Requested rs s t) (hp : t.params = s.params) (k : Nat) :
    t.answerAt k = s.answerAt (rs.length + k) := by
  simp only [State.answerAt, h.ans, hp, h.drawn, List.getElem?_drop, Nat.add_assoc]

theorem Requested.append (h : Requested rs s t) (hp : t.params = s.params)
    (h' : Requested rs' t u) : Requested (rs ++ rs') s u where
  log := by
    simp only [h'.log, h.log, h.answerAt hp, List.mapIdx_append, List.append_assoc,
      Nat.add_comm rs.length]
  ans := by rw [h'.ans, h.ans, List.drop_drop, List.length_append]
  drawn := by rw [h'.drawn, h.drawn, List.length_append, Nat.add_assoc]

/-- An answer given changes no part of the Module table, `nctx` or the fault record. -/
theorem SameBlock.answer (h : SameBlock s t) (r : Response) : SameBlock s (t.answer r) :=
  ⟨h.params, h.modules, h.nctx, h.fault, h.turns⟩

/-! ## A list of requests -/

/-- The state after driver requests made one after another. -/
def State.requests (s : State) (rs : List DrvRequest) : State := rs.foldl State.request s

theorem State.requests_cons (s : State) (r : DrvRequest) (rs : List DrvRequest) :
    s.requests (r :: rs) = (s.request r).requests rs := rfl

theorem State.requests_append (s : State) (rs rs' : List DrvRequest) :
    s.requests (rs ++ rs') = (s.requests rs).requests rs' :=
  List.foldl_append

theorem State.requested_requests (s : State) (rs : List DrvRequest) :
    Requested rs s (s.requests rs) := by
  induction rs generalizing s with
  | nil => exact ⟨by simp [State.requests], rfl, rfl⟩
  | cons r rs ih => exact (Requested.one r).append rfl (ih _)

theorem State.sameBlock_requests (s : State) (rs : List DrvRequest) :
    SameBlock s (s.requests rs) := by
  induction rs generalizing s with
  | nil => exact .refl s
  | cons r rs ih => exact ((SameBlock.refl s).request r).trans (ih _)

@[simp] theorem State.requests_params (s : State) (rs : List DrvRequest) :
    (s.requests rs).params = s.params := (s.sameBlock_requests rs).params

@[simp] theorem State.requests_rsp (s : State) (rs : List DrvRequest) :
    (s.requests rs).rsp = s.rsp := by
  induction rs generalizing s with
  | nil => rfl
  | cons r rs ih => exact ih _

@[simp] theorem State.requests_ntf (s : State) (rs : List DrvRequest) :
    (s.requests rs).ntf = s.ntf := by
  induction rs generalizing s with
  | nil => rfl
  | cons r rs ih => exact ih _

theorem State.nextAnswer_requests (s : State) (rs : List DrvRequest) :
    (s.requests rs).nextAnswer = s.answerAt rs.length :=
  (s.requested_requests rs).nextAnswer (s.requests_params rs)

end Sys2Proof.Machine

/-! START: its driver requests up to the first that fails (43_module.md R280 to R282). -/

namespace Sys2Proof.Machine

variable {s u : State} {h : Byte} {m : CanModule} {n k j : Nat}

/-! ## Programming the staged filters -/

/-- The requests that program staged filters `k`, `k+1`, … (`n` of them) into the banks of the same
numbers (43_module.md R281). -/
def filterRequests (m : CanModule) (n k : Nat) : List DrvRequest :=
  ((m.flt.drop k).take n).mapIdx fun j f => .configFilter m.cfg.periph (k + j) f

theorem filterRequests_succ {f : RxFilter} (hf : m.flt[k]? = some f) :
    filterRequests m (n + 1) k = .configFilter m.cfg.periph k f :: filterRequests m n (k + 1) := by
  obtain ⟨hk, rfl⟩ := List.getElem?_eq_some_iff.mp hf
  simp only [filterRequests, List.drop_eq_getElem_cons hk, List.take_succ_cons, List.mapIdx_cons,
    Nat.add_zero, Nat.add_assoc, Nat.add_comm 1]

theorem filterRequests_length (hl : m.fltCount ≤ m.flt.length) :
    (filterRequests m m.fltCount 0).length = m.fltCount := by
  simp only [filterRequests, List.length_mapIdx, List.length_take, List.length_drop]
  omega

/-- START's requests are those of the filters, and after them start and activate. -/
theorem startRequests_eq (m : CanModule) :
    startRequests m = filterRequests m m.fltCount 0 ++
      [.start m.cfg.periph m.cfg.loopback m.cfg.silent m.cfg.autoRetx, .activate m.cfg.periph] := by
  simp only [startRequests, filterRequests, List.drop_zero, Nat.zero_add]

theorem programFilters_succ {f : RxFilter} (hk : k < s.params.maxFilters)
    (hf : m.flt[k]? = some f) :
    programFilters m (n + 1) k s =
      if s.nextAnswer.ok then
        programFilters m n (k + 1) (s.request (.configFilter m.cfg.periph k f))
      else .ok false (s.request (.configFilter m.cfg.periph k f)) := by
  simp only [programFilters, readAt_of_lt hk, hf]

/-- The filters are all programmed when no request fails. -/
theorem programFilters_of_ok (hk : k + n ≤ s.params.maxFilters) (hl : k + n ≤ m.flt.length)
    (hok : ∀ j < n, (s.answerAt j).ok = true) :
    programFilters m n k s = .ok true (s.requests (filterRequests m n k)) := by
  induction n generalizing k s with
  | zero => simp [programFilters, filterRequests, State.requests]
  | succ n ih =>
    have hf := List.getElem?_eq_getElem (show k < m.flt.length by omega)
    have h0 : s.nextAnswer.ok = true := s.answerAt_zero ▸ hok 0 n.succ_pos
    rw [programFilters_succ (by omega) hf, if_pos h0, filterRequests_succ hf, State.requests_cons]
    refine ih (show _ ≤ s.params.maxFilters by omega) (by omega) fun j hj => ?_
    rw [State.answerAt_request]
    exact hok (j + 1) (Nat.succ_lt_succ hj)

/-- Programming stops at the first request that fails. -/
theorem programFilters_of_failure (hk : k + n ≤ s.params.maxFilters) (hl : k + n ≤ m.flt.length)
    (hj : j < n) (hok : ∀ i < j, (s.answerAt i).ok = true) (hfail : (s.answerAt j).ok = false) :
    programFilters m n k s = .ok false (s.requests ((filterRequests m n k).take (j + 1))) := by
  induction n generalizing k s j with
  | zero => omega
  | succ n ih =>
    have hf := List.getElem?_eq_getElem (show k < m.flt.length by omega)
    rw [programFilters_succ (by omega) hf, filterRequests_succ hf, List.take_succ_cons,
      State.requests_cons, ← State.answerAt_zero]
    cases j with
    | zero =>
      rw [hfail]
      rfl
    | succ j =>
      rw [if_pos (hok 0 j.succ_pos)]
      refine ih (show _ ≤ s.params.maxFilters by omega) (by omega) (by omega) (fun i hi => ?_) ?_
      · rw [State.answerAt_request]
        exact hok (i + 1) (Nat.succ_lt_succ hi)
      · rw [State.answerAt_request]
        exact hfail

/-! ## The whole sequence -/

/-- START's sequence after filters that were all programmed. -/
theorem startSequence_of_filters (hc : m.fltCount ≤ s.params.maxFilters)
    (hl : m.fltCount ≤ m.flt.length) (hok : ∀ j < m.fltCount, (s.answerAt j).ok = true) :
    startSequence m s = startPeripheral m (s.requests (filterRequests m m.fltCount 0)) := by
  rw [startSequence, programFilters_of_ok (by omega) (by omega) hok]
  rfl

/-- The answers to start and activate are the two after those to the filters. -/
theorem nextAnswer_after_filters (hl : m.fltCount ≤ m.flt.length) :
    (s.requests (filterRequests m m.fltCount 0)).nextAnswer = s.answerAt m.fltCount ∧
    ∀ r, ((s.requests (filterRequests m m.fltCount 0)).request r).nextAnswer
      = s.answerAt (m.fltCount + 1) := by
  have hlen := filterRequests_length hl
  refine ⟨by rw [State.nextAnswer_requests, hlen], fun r => ?_⟩
  rw [State.nextAnswer_request, (s.requested_requests _).answerAt (s.requests_params _), hlen]

theorem startSequence_of_ok (hc : m.fltCount ≤ s.params.maxFilters)
    (hl : m.fltCount ≤ m.flt.length) (hok : ∀ k < m.fltCount + 2, (s.answerAt k).ok = true) :
    startSequence m s = .ok true (s.requests (startRequests m)) := by
  obtain ⟨hstart, hact⟩ := nextAnswer_after_filters (s := s) hl
  rw [startSequence_of_filters hc hl fun j hj => hok j (by omega), startRequests_eq,
    State.requests_append]
  simp only [startPeripheral, hstart, hact, hok m.fltCount (by omega),
    hok (m.fltCount + 1) (by omega)]
  rfl

/-- START's requests when request `k` is the first that fails: those up to it, and the compensating
stop after a failed activate (43_module.md R281, R282). -/
def failedRequests (m : CanModule) (k : Nat) : List DrvRequest :=
  (startRequests m).take (k + 1) ++ if k = m.fltCount + 1 then [.stop m.cfg.periph] else []

theorem failedRequests_of_filter (hl : m.fltCount ≤ m.flt.length) (hk : k < m.fltCount) :
    failedRequests m k = (filterRequests m m.fltCount 0).take (k + 1) := by
  have hlen := filterRequests_length hl
  rw [failedRequests, if_neg (by omega), List.append_nil, startRequests_eq,
    List.take_append_of_le_length (by omega)]

theorem failedRequests_of_start (hl : m.fltCount ≤ m.flt.length) :
    failedRequests m m.fltCount = filterRequests m m.fltCount 0 ++
      [.start m.cfg.periph m.cfg.loopback m.cfg.silent m.cfg.autoRetx] := by
  have hlen := filterRequests_length hl
  rw [failedRequests, if_neg (by omega), List.append_nil, startRequests_eq,
    List.take_append, List.take_of_length_le (by omega), hlen, Nat.add_sub_cancel_left,
    List.take_one, List.head?_cons, Option.toList_some]

theorem failedRequests_of_activate (hl : m.fltCount ≤ m.flt.length) :
    failedRequests m (m.fltCount + 1) = filterRequests m m.fltCount 0 ++
      [.start m.cfg.periph m.cfg.loopback m.cfg.silent m.cfg.autoRetx, .activate m.cfg.periph,
        .stop m.cfg.periph] := by
  have hlen := filterRequests_length hl
  rw [failedRequests, if_pos rfl, startRequests_eq, List.take_of_length_le (by simp [hlen]),
    List.append_assoc]
  rfl

/-- START's sequence stops at the first request that fails (43_module.md R281, R282). -/
theorem startSequence_of_failure (hc : m.fltCount ≤ s.params.maxFilters)
    (hl : m.fltCount ≤ m.flt.length) (hk : k < m.fltCount + 2)
    (hok : ∀ j < k, (s.answerAt j).ok = true) (hfail : (s.answerAt k).ok = false) :
    startSequence m s = .ok false (s.requests (failedRequests m k)) := by
  obtain ⟨hstart, hact⟩ := nextAnswer_after_filters (s := s) hl
  rcases Nat.lt_trichotomy k m.fltCount with hlt | rfl | hgt
  · rw [startSequence, programFilters_of_failure (by omega) (by omega) hlt hok hfail,
      failedRequests_of_filter hl hlt]
    rfl
  · rw [startSequence_of_filters hc hl hok, failedRequests_of_start hl, State.requests_append]
    simp only [startPeripheral, hstart, hfail]
    rfl
  · obtain rfl : k = m.fltCount + 1 := by omega
    rw [startSequence_of_filters hc hl fun j hj => hok j (by omega),
      failedRequests_of_activate hl, State.requests_append]
    simp only [startPeripheral, hstart, hact, hok m.fltCount (by omega), hfail]
    rfl

/-! ## The command -/

theorem exec_start_started (hc : Claimed h m s) (hs : m.started = true) :
    exec (.start h) s = .next (s.answer (.ofResult .alreadyStarted)) := by
  simp only [exec, execStart, State.withHandle_some hc.claimed?, if_pos hs, State.reply]

/-- START of a stopped Module, by what its driver sequence answers (43_module.md R280). -/
theorem exec_start_stopped {ok : Bool} (hc : Claimed h m s) (hs : m.started = false)
    (hseq : startSequence m s = .ok ok u) :
    exec (.start h) s = .next
      (bif ok then
        { u.setSlot h.toNat { m with started := true } with nctx := .submission opStart h true }
      else u.answer (.ofResult .driverError)) := by
  simp only [exec, execStart, State.withHandle_some hc.claimed?, hs, Bool.false_eq_true, if_false,
    hseq, Run.andThen_ok]
  cases ok <;> rfl

/-- Settles O30: with every request answered ok the sequence makes all of START's requests. -/
theorem startProgramsAndStarts : Obligations.StartProgramsAndStarts := by
  intro s h m hc hs hcount hl hok
  have hsame := s.sameBlock_requests (startRequests m)
  have hslot : (s.requests (startRequests m)).slot? h.toNat = some m :=
    (hsame.slot? _).trans hc.slot
  have hmodules :
      ((s.requests (startRequests m)).setSlot h.toNat { m with started := true }).modules
        = s.modules.set h.toNat { m with started := true } := by
    rw [State.setSlot_modules, hsame.modules]
  exact ⟨_, exec_start_stopped hc hs (startSequence_of_ok hcount hl hok),
    .of_set _ hsame.params hmodules hsame.fault hsame.turns,
    State.slot?_setSlot_self hslot, rfl, (s.requested_requests _).of_ports rfl rfl rfl,
    s.requests_ntf _, s.requests_rsp _⟩

/-- Settles O31: the sequence stops at the first request that fails, and only the driver ports and
the answer tell of it. -/
theorem startFailureLeavesStopped : Obligations.StartFailureLeavesStopped := by
  intro s h m hc
  refine ⟨exec_start_started hc, fun k hs hcount hl hk hok hfail => ?_⟩
  exact ⟨_, exec_start_stopped hc hs (startSequence_of_failure hcount hl hk hok hfail),
    (s.sameBlock_requests (failedRequests m k)).answer _,
    (s.requested_requests (failedRequests m k)).of_ports rfl rfl rfl, s.requests_ntf _,
    congrArg (· ++ _) (s.requests_rsp (failedRequests m k))⟩

end Sys2Proof.Machine

/-! ALLOCATE, STOP, FREE, ADD_FILTER and REGISTER_CB (43_module.md sections 2 to 5). -/

namespace Sys2Proof.Machine

variable {s : State} {h periph : Byte} {m : CanModule}

/-! ## What the slots of the table hold -/

/-- The slots that ALLOCATE looks through are those of the table. -/
theorem State.mem_table_iff : m ∈ s.modules.take s.params.nInst ↔ ∃ j, s.slot? j = some m := by
  simp only [List.mem_iff_getElem?, List.getElem?_take, Option.ite_none_right_eq_some,
    State.slot?_eq_some]

theorem State.periphClaimed_iff :
    s.periphClaimed periph = true ↔
      ∃ j m, s.slot? j = some m ∧ m.allocated = true ∧ m.cfg.periph = periph := by
  simp only [State.periphClaimed, List.any_eq_true, State.mem_table_iff, Bool.and_eq_true,
    beq_iff_eq]
  exact ⟨fun ⟨m, ⟨j, hm⟩, ha⟩ => ⟨j, m, hm, ha⟩, fun ⟨j, m, hm, ha⟩ => ⟨m, ⟨j, hm⟩, ha⟩⟩

theorem State.lowestFree?_eq_none_iff :
    s.lowestFree? = none ↔ ∀ j m, s.slot? j = some m → m.allocated = true := by
  simp only [State.lowestFree?, List.findIdx?_eq_none_iff, State.mem_table_iff, Bool.not_eq_false',
    forall_exists_index]
  exact forall_comm

/-- Below the lowest unallocated slot every slot is allocated. -/
theorem State.lowestFree?_below {i j : Nat} (hi : s.lowestFree? = some i) (hj : j < i) :
    ∃ m, s.slot? j = some m ∧ m.allocated = true := by
  obtain ⟨hlt, -, hbelow⟩ := List.findIdx?_eq_some_iff_getElem.mp hi
  simp only [List.length_take, Nat.lt_min] at hlt
  have hget := List.getElem?_eq_getElem (show j < s.modules.length by omega)
  exact ⟨_, State.slot?_eq_some.mpr ⟨by omega, hget⟩, by simpa using hbelow j hj⟩

/-- With a peripheral of the block unclaimed not every slot is allocated: distinct slots have
claimed distinct peripherals, of which there are as many as slots (43_module.md R261 (c)). -/
theorem State.Good.exists_lowestFree (hg : s.Good) (hp : periph.toNat < s.params.nInst)
    (hun : ∀ j m, s.slot? j = some m → m.allocated = true → m.cfg.periph ≠ periph) :
    ∃ i, s.lowestFree? = some i := by
  refine Option.ne_none_iff_exists'.mp fun hnone => ?_
  have hslot : ∀ m ∈ s.modules, ∃ j, s.slot? j = some m := fun m hm =>
    State.mem_table_iff.mp (by rwa [← hg.table, List.take_length])
  have hall : ∀ m ∈ s.modules, m.allocated = true := fun m hm =>
    (hslot m hm).elim fun j hj => State.lowestFree?_eq_none_iff.mp hnone j m hj
  have hclaims : s.claimedPeriphs = s.modules.map fun m => m.cfg.periph := by
    rw [State.claimedPeriphs, List.filter_eq_self.mpr hall]
  have hnodup : ((periph :: s.claimedPeriphs).map BitVec.toNat).Nodup := by
    refine (List.nodup_cons.mpr ⟨fun hmem => ?_, hg.periphs⟩).map fun _ _ => BitVec.eq_of_toNat_eq
    obtain ⟨m, hm, hper⟩ := List.mem_map.mp (hclaims ▸ hmem)
    obtain ⟨j, hj⟩ := hslot m hm
    exact hun j m hj (hall m hm) hper
  have hsub : (periph :: s.claimedPeriphs).map BitVec.toNat ⊆ List.range s.params.nInst := by
    rw [hclaims]
    intro x hx
    obtain ⟨b, hb, rfl⟩ := List.mem_map.mp hx
    rw [List.mem_range]
    rcases List.mem_cons.mp hb with rfl | hb
    · exact hp
    · obtain ⟨m, hm, rfl⟩ := List.mem_map.mp hb
      obtain ⟨j, hj⟩ := hslot m hm
      rcases CanModule.lifecycleOk_iff.mp (hg.sound hj).lifecycle with ⟨-, hlt⟩ | ⟨hfree, -⟩
      · exact hlt
      · exact absurd (hall m hm) (by simp [hfree])
  have hle := (hnodup.subperm hsub).length_le
  simp only [hclaims, List.length_map, List.length_cons, hg.table, List.length_range] at hle
  omega

/-! ## ALLOCATE -/

/-- Settles O24: the unclaimed peripheral leaves a slot free, and ALLOCATE writes the lowest. -/
theorem allocateClaimsLowestSlot : Obligations.AllocateClaimsLowestSlot := by
  intro s periph lb sil artx led hg hp hun
  obtain ⟨i, hi⟩ := hg.exists_lowestFree hp hun
  obtain ⟨m, hm, ha⟩ := State.lowestFree?_unallocated hi
  have hfree : s.periphClaimed periph = false := by
    rw [← Bool.not_eq_true, State.periphClaimed_iff]
    exact fun ⟨j, m, hm, ha, hper⟩ => hun j m hm ha hper
  have hexec : exec (.allocate periph lb sil artx led) s = .next
      ((s.setSlot i (claimedModule s.params ⟨periph, lb, sil, artx, led⟩)).answer
        { Response.ofResult .ok with rhandle := BitVec.ofNat 8 i }) := by
    simp only [exec, execAllocate, if_neg (Nat.not_le.mpr hp), hfree, hi, Bool.false_eq_true,
      if_false, State.reply]
  exact ⟨i, _, hexec, ⟨m, hm, ha⟩, fun j => State.lowestFree?_below hi,
    State.slot?_setSlot_self hm, .setSlot_answer s i _ _, ⟨rfl, rfl, rfl, rfl⟩, rfl, rfl⟩

/-- Settles O25: the selector's range is checked first, then its claim, then the table. -/
theorem allocateRefusals : Obligations.AllocateRefusals := by
  intro s periph lb sil artx led
  refine ⟨fun hp => ?_, fun hp hbusy => ?_⟩
  · simp only [exec, execAllocate, if_pos hp]
    rfl
  · simp only [exec, execAllocate, if_neg (Nat.not_le.mpr hp)]
    split
    · rfl
    · next hfree =>
      have hfull := hbusy.resolve_left fun hclaim => hfree (State.periphClaimed_iff.mpr hclaim)
      rw [State.lowestFree?_eq_none_iff.mpr hfull]
      rfl

/-! ## STOP and FREE -/

theorem stopResult_eq (m : CanModule) (s : State) :
    stopResult m s =
      if (s.answerAt 0).ok = true ∧ (s.answerAt 1).ok = true then .ok else .driverError := by
  simp only [stopResult, State.nextAnswer_request, State.answerAt_zero, Bool.and_eq_true]

theorem exec_stop_started (hc : Claimed h m s) (hs : m.started = true) :
    exec (.stop h) s =
      .next ((stopSequence h.toNat m s).answer (.ofResult (stopResult m s))) := by
  simp only [exec, execStop, State.withHandle_some hc.claimed?, if_pos hs, State.reply]

theorem exec_free_started (hc : Claimed h m s) (hs : m.started = true) :
    exec (.free h) s = .next (((stopSequence h.toNat m s).setSlot h.toNat (.zero s.params)).answer
      (.ofResult (stopResult m s))) := by
  simp only [exec, execFree, State.withHandle_some hc.claimed?, if_pos hs, State.reply]

theorem exec_free_stopped (hc : Claimed h m s) (hs : m.started = false) :
    exec (.free h) s =
      .next ((s.setSlot h.toNat (.zero s.params)).answer (.ofResult .ok)) := by
  simp only [exec, execFree, State.withHandle_some hc.claimed?, hs, Bool.false_eq_true, if_false,
    State.reply]

theorem stopSequence_slot? (hm : s.slot? h.toNat = some m) :
    (stopSequence h.toNat m s).slot? h.toNat = some { m with started := false } := by
  have hreq : ((s.request (.deactivate m.cfg.periph)).request (.stop m.cfg.periph)).slot? h.toNat
      = some m := hm
  exact State.slot?_setSlot_self hreq

/-- Settles O26: whether the Module was stopped first or not, the last write is the zero slot. -/
theorem freeReleasesTheSlot : Obligations.FreeReleasesTheSlot := by
  intro s h m hc
  cases hs : m.started with
  | false =>
    exact ⟨_, exec_free_stopped hc hs, .setSlot_answer s _ _ _, State.slot?_setSlot_self hc.slot,
      rfl, fun _ => ⟨⟨rfl, rfl, rfl, rfl⟩, rfl⟩, nofun⟩
  | true =>
    refine ⟨_, exec_free_started hc hs,
      (stopSequence_onlySlot h.toNat m).trans (.setSlot_answer _ _ _ _),
      State.slot?_setSlot_self (stopSequence_slot? hc.slot), rfl, nofun,
      fun _ => ⟨(stopSequence_requested h.toNat m).of_ports rfl rfl rfl, ?_⟩⟩
    rw [← stopResult_eq m s]
    rfl

/-- Settles O27: the stop sequence writes only `started`. -/
theorem stopClearsStarted : Obligations.StopClearsStarted := by
  intro s h m hc
  refine ⟨fun hs => ⟨_, exec_stop_started hc hs,
    (stopSequence_onlySlot h.toNat m).trans (SameBlock.refl _ |>.answer _).onlySlot,
    stopSequence_slot? hc.slot, rfl,
    (stopSequence_requested h.toNat m).of_ports rfl rfl rfl, ?_⟩, fun hs => ?_⟩
  · rw [← stopResult_eq m s]
    rfl
  · simp only [exec, execStop, State.withHandle_some hc.claimed?, hs]
    rfl

/-! ## ADD_FILTER -/

section addFilter

variable {fifo : BitVec 1} {id mask : CanId} {ide : Bool}

/-- The operand check of ADD_FILTER (43_module.md R276). -/
theorem filterOk_iff :
    filterOk id ide mask = true ↔ (ide = false → id.toNat ≤ 0x7FF ∧ mask.toNat ≤ 0x7FF) := by
  simp only [filterOk, Bool.and_eq_true, Bool.not_eq_true', ← Bool.not_eq_true, stdOverflow_iff,
    not_and, not_lt, imp_and]

/-- ADD_FILTER of a legal filter on a stopped Module, by what staging it answers
(43_module.md R275). -/
theorem exec_addFilter_stopped {r : ResultCode} {m' : CanModule} (hc : Claimed h m s)
    (hok : ide = false → id.toNat ≤ 0x7FF ∧ mask.toNat ≤ 0x7FF) (hs : m.started = false)
    (hstage : stageFilter s.params ⟨id, mask, ide, fifo⟩ m = .ok r m') :
    exec (.addFilter h fifo id ide mask) s =
      .next ((s.setSlot h.toNat m').answer (.ofResult r)) := by
  simp only [exec, execAddFilter, State.withHandle_some hc.claimed?, filterOk_iff.mpr hok, hs,
    State.onSlot_of hc.slot, hstage]
  rfl

theorem stageFilter_of_full {p : Params} (f : RxFilter) (hfull : m.fltCount = p.maxFilters) :
    stageFilter p f m = .ok .filterFull m := by
  rw [stageFilter, if_pos hfull]

theorem stageFilter_of_room {p : Params} (f : RxFilter) (hroom : m.fltCount < p.maxFilters)
    (hlen : m.flt.length = p.maxFilters) :
    stageFilter p f m =
      .ok .ok { m with flt := m.flt.set m.fltCount f, fltCount := m.fltCount + 1 } := by
  have hget := List.getElem?_eq_getElem (hlen ▸ hroom : m.fltCount < m.flt.length)
  simp only [stageFilter, if_neg hroom.ne, readAt_of_lt hroom, hget]

end addFilter

/-- Settles O28: a list with room takes the filter at its count. -/
theorem addFilterStages : Obligations.AddFilterStages := by
  intro s h fifo id ide mask m hc hok hs hroom hlen
  exact ⟨_, exec_addFilter_stopped hc hok hs (stageFilter_of_room _ hroom hlen),
    .setSlot_answer s _ _ _, State.slot?_setSlot_self hc.slot, ⟨rfl, rfl, rfl, rfl⟩, rfl, rfl⟩

/-- Settles O29: the operand check comes before the Module's state, and that before the list. -/
theorem addFilterRefusals : Obligations.AddFilterRefusals := by
  intro s h fifo id ide mask m hc
  refine ⟨fun ⟨hide, hbad⟩ => ?_, fun hok hs => ?_, fun hok hs hfull => ?_⟩
  · have hno : filterOk id ide mask = false := by
      rw [← Bool.not_eq_true, filterOk_iff]
      intro hok
      have := hok hide
      omega
    simp only [exec, execAddFilter, State.withHandle_some hc.claimed?, hno]
    rfl
  · simp only [exec, execAddFilter, State.withHandle_some hc.claimed?, filterOk_iff.mpr hok, hs]
    rfl
  · rw [exec_addFilter_stopped hc hok hs (stageFilter_of_full _ hfull),
      State.setSlot_same hc.slot]
    rfl

/-! ## REGISTER_CB -/

theorem CbEnables.get_set (e : CbEnables) (kind k : CbKind) (en : Bool) :
    (e.set kind en).get k = if k = kind then en else e.get k := by
  cases kind <;> cases k <;> rfl

/-- Settles O32: of the four enables only the one of the kind is written. -/
theorem registerCbWritesOneEnable : Obligations.RegisterCbWritesOneEnable := by
  intro s h kind en m hc
  have hexec : exec (.registerCb h kind en) s = .next
      ((s.setSlot h.toNat { m with cbEn := m.cbEn.set kind en }).answer (.ofResult .ok)) := by
    simp only [exec, execRegisterCb, State.withHandle_some hc.claimed?, State.reply]
  exact ⟨_, m.cbEn.set kind en, hexec, .setSlot_answer s _ _ _, State.slot?_setSlot_self hc.slot,
    by rw [CbEnables.get_set, if_pos rfl], fun k hk => by rw [CbEnables.get_set, if_neg hk],
    ⟨rfl, rfl, rfl, rfl⟩, rfl, rfl⟩

end Sys2Proof.Machine

/-! GET_BUS_STATE, GET_ERROR_COUNTERS and GET_STATS (43_module.md section 6). -/

namespace Sys2Proof.Machine

variable {s : State} {h : Byte} {m : CanModule}

theorem exec_getBusState (hc : Claimed h m s) :
    exec (.getBusState h) s =
      .next ((s.request (.busRegs m.cfg.periph)).answer (busStateResponse s.nextAnswer)) := by
  simp only [exec, execGetBusState, State.withHandle_some hc.claimed?, State.reply]

theorem exec_getErrorCounters (hc : Claimed h m s) :
    exec (.getErrorCounters h) s =
      .next ((s.request (.busRegs m.cfg.periph)).answer (errorCountersResponse s.nextAnswer)) := by
  simp only [exec, execGetErrorCounters, State.withHandle_some hc.claimed?, State.reply]

/-- Bus-off is reported before error-passive (43_module.md R297). -/
theorem busState_code (boff epv : Bool) :
    (busState boff epv).code = if boff = true then 2 else if epv = true then 1 else 0 := by
  cases boff <;> cases epv <;> rfl

/-- The two error counters in one word, `{rec, tec}` (43_module.md R298). -/
theorem place_counters (txErr rxErr : Byte) :
    place txErr 0 ||| place rxErr 8 = (rxErr ++ txErr).setWidth 32 := by
  refine BitVec.eq_of_getLsbD_eq fun i hi => ?_
  simp only [BitVec.getLsbD_or, getLsbD_place, BitVec.getLsbD_setWidth, BitVec.getLsbD_append, hi]
  rcases Nat.lt_or_ge i 8 with h8 | h8
  · simp [h8]
  · simp [h8, Nat.not_lt.mpr h8]

/-- Settles O38: each command makes one request and answers by what it is told. -/
theorem busReadsAskTheDriver : Obligations.BusReadsAskTheDriver := by
  intro s h m hc
  have hreq := Requested.one (s := s) (.busRegs m.cfg.periph)
  have hsame := (SameBlock.refl s).request (.busRegs m.cfg.periph)
  rw [State.answerAt_zero]
  refine ⟨⟨_, exec_getBusState hc, hsame.answer _, hreq.of_ports rfl rfl rfl, rfl, ?_⟩,
    ⟨_, exec_getErrorCounters hc, hsame.answer _, hreq.of_ports rfl rfl rfl, rfl, ?_⟩⟩
  · rw [State.answer_rsp, State.request_rsp, busStateResponse, busState_code]
  · rw [State.answer_rsp, State.request_rsp, errorCountersResponse, place_counters]

/-- Settles O39: GET_STATS of a claimed Module is its answer and no more. -/
theorem getStatsAnswersCounters : Obligations.GetStatsAnswersCounters := by
  intro s h m hc
  simp only [exec, execGetStats, State.withHandle_some hc.claimed?]
  rfl

end Sys2Proof.Machine

/-! A submission in the normal context that nothing else interleaves with
(42_mailbox_tracker.md R231, 43_module.md R283). -/

namespace Sys2Proof.Machine

variable {s t u : State} {e : Nat} {m m' : CanModule} {en : Entry}

/-! ## A block left alone -/

/-- A good block with no fault and nothing presented to it: its steps are those of the normal
context (log 3). -/
structure State.Alone (s : State) : Prop where
  good  : s.Good
  fault : s.fault = none
  turns : s.turns = []

/-- One step of a block left alone, which stays so. -/
structure State.StepsTo (s t : State) : Prop where
  step  : Sys2Proof.core.step s = .next t
  alone : t.Alone

theorem State.Alone.stepsTo (h : s.Alone) (hn : normalStep s = .next t)
    (hf : t.fault = s.fault) (ht : t.turns = s.turns) : s.StepsTo t := by
  have hfault : t.fault = none := hf.trans h.fault
  have hgood : t.Good := by
    simpa [State.Inv, hfault] using (normalStep_keeps h.good h.fault hn).1
  have hstep : step s = atBoundary (normalStep s) := by
    simp only [step, runStep, h.fault, takeTurn, h.turns]
  exact ⟨hstep.trans ((atBoundary_next hn).2 hgood.boundary), hgood, hfault, ht.trans h.turns⟩

theorem State.StepsTo.run_succ (h : s.StepsTo t) (n : Nat) :
    Host.Core.run Sys2Proof.core (n + 1) s = Host.Core.run Sys2Proof.core n t := by
  simp only [Host.Core.run, h.step]

/-- The Module of the command in progress is claimed (10_state.md R55). -/
theorem State.Good.claimed_nctx (hg : s.Good) (hp : s.nctx.phase ≠ .idle)
    (hm : s.slot? s.nctx.h.toNat = some m) : Claimed s.nctx.h m s := by
  obtain ⟨⟨m₀, hm₀, ha, -⟩, -⟩ := State.busyOk_iff.mp (State.busyOk_of_nctxOk hg.nctx hp)
  exact ⟨hm, Option.some.inj (hm₀.symm.trans hm) ▸ ha⟩

/-! ## The phases of a block left alone -/

/-- SUB_QUERY with no mailbox free: the command answers. -/
theorem State.Alone.query_none (h : s.Alone) (hp : s.nctx.phase = .subQuery)
    (hm : s.slot? s.nctx.h.toNat = some m) (h0 : s.nextAnswer.count = 0) :
    s.StepsTo (s.request (.freeMb m.cfg.periph)).complete :=
  h.stepsTo (by rw [normalStep_of_subQuery hp, phaseQuery_of_count_zero hm h0, Run.finish_ok])
    rfl rfl

theorem State.Alone.query_some (h : s.Alone) (hp : s.nctx.phase = .subQuery)
    (hm : s.slot? s.nctx.h.toNat = some m) (h0 : 0 < s.nextAnswer.count)
    (hle : s.nextAnswer.count ≤ s.params.numMb) :
    s.StepsTo ((s.request (.freeMb m.cfg.periph)).setPhase .subDeq) :=
  h.stepsTo (by rw [normalStep_of_subQuery hp, phaseQuery_of_count_pos hm h0 hle, Run.finish_ok])
    rfl rfl

/-- SUB_DEQ with nothing queued: the command answers. -/
theorem State.Alone.deq_none (h : s.Alone) (hp : s.nctx.phase = .subDeq)
    (hm : s.slot? s.nctx.h.toNat = some m) (hq : m.queued s.params = []) :
    s.StepsTo s.complete := by
  have hc := h.good.claimed_nctx (by simp [hp]) hm
  have hd := (dequeueTakesHighest s.params m _ (h.good.queuesGood hc)).1 hq
  exact h.stepsTo (by rw [normalStep_of_subDeq hp, phaseDeq_of_none hm hd, Run.finish_ok]) rfl rfl

theorem State.Alone.deq_some (h : s.Alone) (hp : s.nctx.phase = .subDeq)
    (hm : s.slot? s.nctx.h.toNat = some m) (hq : m.queued s.params ≠ []) :
    ∃ e m', Dequeued s.params m e m' ∧
      s.StepsTo (((s.setSlot s.nctx.h.toNat m').setHeld (some e)).setPhase .subAdd) := by
  have hc := h.good.claimed_nctx (by simp [hp]) hm
  obtain ⟨e, m', hd, hdeq⟩ := (dequeueTakesHighest s.params m _ (h.good.queuesGood hc)).2 hq
  exact ⟨e, m', hdeq, h.stepsTo
    (by rw [normalStep_of_subDeq hp, phaseDeq_of_some hm hd, Run.finish_ok]) rfl rfl⟩

/-- SUB_ADD with the Entry refused: it is reported, and the submission goes on. -/
theorem State.Alone.add_rejected (h : s.Alone) (hp : s.nctx.phase = .subAdd)
    (hm : s.slot? s.nctx.h.toNat = some m) (he : s.nctx.held = some e)
    (hen : m.pool[e]? = some en) (hok : s.nextAnswer.ok = false) :
    s.StepsTo (((s.requestAdd m en).emit s.nctx.h.toNat (.err .driverError en.txId)).setPhase
      .subFree) := by
  have hlive := h.good.liveEntry?_held (.inl hp) hm he hen
  refine h.stepsTo ?_ (State.emit_fault _ _ _) (State.emit_turns _ _ _)
  rw [normalStep_of_subAdd hp, phaseAdd_of_live hm he hlive, submitEntry_of_rejected hok,
    Run.andThen_ok, Run.finish_ok]

theorem State.Alone.add_accepted (h : s.Alone) (hp : s.nctx.phase = .subAdd)
    (hm : s.slot? s.nctx.h.toNat = some m) (he : s.nctx.held = some e)
    (hen : m.pool[e]? = some en) (hok : s.nextAnswer.ok = true)
    (hmb : s.nextAnswer.mb < s.params.numMb) :
    s.StepsTo ((((s.requestAdd m en).noteSubmitted en.txId).setSlot s.nctx.h.toNat
      { m with mb := m.mb.set s.nextAnswer.mb ⟨true, en.txId⟩ }).setPhase .subFree) := by
  have hlive := h.good.liveEntry?_held (.inl hp) hm he hen
  refine h.stepsTo ?_ rfl rfl
  rw [normalStep_of_subAdd hp, phaseAdd_of_live hm he hlive, submitEntry_of_accepted hm hok hmb,
    Run.andThen_ok, Run.finish_ok]

/-- SUB_FREE of TRANSMIT: the command answers. -/
theorem State.Alone.free_transmit (h : s.Alone) (hp : s.nctx.phase = .subFree)
    (hm : s.slot? s.nctx.h.toNat = some m) (he : s.nctx.held = some e)
    (hen : m.pool[e]? = some en) (hd : s.nctx.drain = false) :
    s.StepsTo (s.releaseHeld m e en).complete := by
  have hlive := h.good.liveEntry?_held (.inr hp) hm he hen
  refine h.stepsTo ?_ rfl rfl
  rw [normalStep_of_subFree hp, phaseFree_of_live hm he hlive, Run.finish_ok,
    submissionAttempted_of_not_drain (s := s.releaseHeld m e en) hd]

/-- SUB_FREE of START: the next iteration of its drain loop begins. -/
theorem State.Alone.free_start (h : s.Alone) (hp : s.nctx.phase = .subFree)
    (hm : s.slot? s.nctx.h.toNat = some m) (he : s.nctx.held = some e)
    (hen : m.pool[e]? = some en) (hd : s.nctx.drain = true) :
    s.StepsTo { s.releaseHeld m e en with nctx := Nctx.submission opStart s.nctx.h true } := by
  have hlive := h.good.liveEntry?_held (.inr hp) hm he hen
  refine h.stepsTo ?_ rfl rfl
  rw [normalStep_of_subFree hp, phaseFree_of_live hm he hlive, Run.finish_ok,
    submissionAttempted_of_drain (s := s.releaseHeld m e en) hd]
  rfl

/-- From `s` to `t` the command in progress has answered OK, and the normal context is idle. -/
structure State.Answered (s t : State) : Prop where
  fault : t.fault = none
  idle  : t.nctx.phase = .idle
  rsp   : t.rsp = s.rsp ++ [Response.ofResult .ok]

theorem State.StepsTo.answered_of_complete (h : t.StepsTo u.complete) (hpend : u.nctx.pend = .ok)
    (hr : u.rsp = s.rsp) : s.Answered u.complete where
  fault := h.alone.fault
  idle := rfl
  rsp := by rw [State.complete_of_pend_ok hpend, State.answer_rsp, State.setPhase_rsp, hr]

/-- The Entry held between the dequeue and the release is one of those in use. -/
theorem State.Good.held_in_use (hg : s.Good)
    (hp : s.nctx.phase = .subAdd ∨ s.nctx.phase = .subFree)
    (hm : s.slot? s.nctx.h.toNat = some m) :
    ∃ e en, s.nctx.held = some e ∧ m.pool[e]? = some en ∧ 0 < m.used := by
  obtain ⟨⟨e, he⟩, -⟩ := State.heldNamed_of_add_or_free (State.heldNamed_of_nctxOk hg.nctx) hp
  have hsound := hg.sound hm
  rw [heldOf_add_or_free hp, if_pos rfl, he] at hsound
  obtain ⟨en, hlive⟩ := hsound.queues.isSome_of_mem (e := e) (by simp)
  have hused : m.used = (m.queued s.params ++ [e]).length := hsound.queues.used_eq
  exact ⟨e, en, he, (liveEntry?_eq_some.mp hlive).2.1, by simp [hused]⟩

end Sys2Proof.Machine

/-! A submission left alone ends (43_module.md R283, 10_state.md R56). -/

namespace Sys2Proof.Machine

variable {s t u : State} {e : Nat} {m m' : CanModule} {en : Entry}

/-! ## A lawful driver -/

theorem State.lawful_congr (hp : t.params = s.params) (ha : t.drvAns = s.drvAns)
    (ht : t.turns = s.turns) : t.lawful = s.lawful := by
  simp only [State.lawful, hp, ha, ht]

theorem State.lawful_request (h : s.lawful = true) (r : DrvRequest) :
    (s.request r).lawful = true := by
  simp only [State.lawful, Bool.and_eq_true, List.all_eq_true] at h ⊢
  exact ⟨fun a ha => h.1 a (List.mem_of_mem_tail ha), h.2⟩

/-- A lawful driver answers a count, and a mailbox, in range (60_exceptions.md R425). -/
theorem State.nextAnswer_in_range (h : s.lawful = true) :
    s.nextAnswer.mb < s.params.numMb ∧ s.nextAnswer.count ≤ s.params.numMb := by
  have hok := State.nextAnswer_ok h
  simp only [answerOk, Bool.and_eq_true, decide_eq_true_eq] at hok
  obtain ⟨⟨hmb, hcount⟩, -⟩ := hok
  exact ⟨hmb, hcount⟩

/-! ## The steps a submission has left -/

/-- A bound on the steps from a phase to the answer, with `used` Entries in use: four for each of
them, and the last query and dequeue. -/
def Phase.stepsLeft (used : Nat) : Phase → Nat
  | .subQuery => 4 * used + 2
  | .subDeq => 4 * used + 1
  | .subAdd => 4 * used
  | .subFree => 4 * used - 1
  | .idle => 0

/-- The bound for the command in progress and its Module. -/
def State.stepsLeft (s : State) : Nat :=
  match s.slot? s.nctx.h.toNat with
  | some m => s.nctx.phase.stepsLeft m.used
  | none => 0

theorem State.stepsLeft_eq (hm : s.slot? s.nctx.h.toNat = some m) :
    s.stepsLeft = s.nctx.phase.stepsLeft m.used := by
  rw [State.stepsLeft, hm]

/-- A step of a command in progress under a lawful driver: the bound falls, and the command has
answered OK and is over, or it has not answered. -/
structure State.Progresses (s t : State) : Prop where
  steps   : s.StepsTo t
  lawful  : t.lawful = true
  bound   : t.stepsLeft < s.stepsLeft
  outcome : s.Answered t ∨ (t.nctx.phase ≠ .idle ∧ t.rsp = s.rsp)

theorem State.stepsLeft_complete (s : State) : s.complete.stepsLeft = 0 := by
  unfold State.stepsLeft
  split <;> rfl

/-- A step that ends the command progresses. -/
theorem State.Progresses.of_complete (hs : s.StepsTo u.complete) (hl : u.lawful = true)
    (hleft : 0 < s.stepsLeft) (hpend : u.nctx.pend = .ok) (hr : u.rsp = s.rsp) :
    s.Progresses u.complete where
  steps := hs
  lawful := hl
  bound := u.stepsLeft_complete.trans_lt hleft
  outcome := .inl (hs.answered_of_complete hpend hr)

/-- A step to another phase of the command progresses. -/
theorem State.Progresses.of_phase (hs : s.StepsTo t) (hl : t.lawful = true)
    (hm : s.slot? s.nctx.h.toNat = some m) (hm' : t.slot? t.nctx.h.toNat = some m')
    (hleft : t.nctx.phase.stepsLeft m'.used < s.nctx.phase.stepsLeft m.used)
    (hp : t.nctx.phase ≠ .idle) (hr : t.rsp = s.rsp) : s.Progresses t where
  steps := hs
  lawful := hl
  bound := by rwa [State.stepsLeft_eq hm, State.stepsLeft_eq hm']
  outcome := .inr ⟨hp, hr⟩

theorem State.Alone.progresses_of_query (h : s.Alone) (hl : s.lawful = true)
    (hp : s.nctx.phase = .subQuery) (hm : s.slot? s.nctx.h.toNat = some m) :
    ∃ t, s.Progresses t := by
  have hl' := State.lawful_request hl (.freeMb m.cfg.periph)
  obtain ⟨-, hle⟩ := State.nextAnswer_in_range hl
  have hpend := h.good.pend_ok (by simp [hp])
  rcases Nat.eq_zero_or_pos s.nextAnswer.count with h0 | h0
  · exact ⟨_, .of_complete (h.query_none hp hm h0) hl'
      (by simp [State.stepsLeft_eq hm, hp, Phase.stepsLeft]) hpend rfl⟩
  · exact ⟨_, .of_phase (h.query_some hp hm h0 hle) hl' hm hm (by simp [hp, Phase.stepsLeft])
      nofun rfl⟩

theorem State.Alone.progresses_of_deq (h : s.Alone) (hl : s.lawful = true)
    (hp : s.nctx.phase = .subDeq) (hm : s.slot? s.nctx.h.toNat = some m) :
    ∃ t, s.Progresses t := by
  by_cases hq : m.queued s.params = []
  · exact ⟨_, .of_complete (h.deq_none hp hm hq) hl
      (by simp [State.stepsLeft_eq hm, hp, Phase.stepsLeft]) (h.good.pend_ok (by simp [hp])) rfl⟩
  · obtain ⟨e, m', hdeq, hs⟩ := h.deq_some hp hm hq
    have hused : m'.used = m.used := (congrArg CanModule.used hdeq.rest :)
    exact ⟨_, .of_phase hs hl hm (State.slot?_setSlot_self hm)
      (by simp [hp, Phase.stepsLeft, hused]) nofun rfl⟩

theorem State.Alone.progresses_of_add (h : s.Alone) (hl : s.lawful = true)
    (hp : s.nctx.phase = .subAdd) (hm : s.slot? s.nctx.h.toNat = some m) :
    ∃ t, s.Progresses t := by
  obtain ⟨e, en, he, hen, hused⟩ := h.good.held_in_use (.inl hp) hm
  have hl' : (s.requestAdd m en).lawful = true := State.lawful_request hl _
  have hleft : Phase.subFree.stepsLeft m.used < s.nctx.phase.stepsLeft m.used := by
    simp only [hp, Phase.stepsLeft]
    omega
  cases hok : s.nextAnswer.ok with
  | true =>
    exact ⟨_, .of_phase (h.add_accepted hp hm he hen hok (State.nextAnswer_in_range hl).1) hl' hm
      (State.slot?_setSlot_self hm) hleft nofun rfl⟩
  | false =>
    have hslot : ((s.requestAdd m en).emit s.nctx.h.toNat (.err .driverError en.txId)).slot?
        s.nctx.h.toNat = some m := (State.slot?_emit ..).trans hm
    refine ⟨_, .of_phase (h.add_rejected hp hm he hen hok) ?_ hm (m' := m) ?_ hleft nofun
      (State.emit_rsp ..)⟩
    · exact (State.lawful_congr (State.emit_params ..) (State.emit_drvAns ..)
        (State.emit_turns ..)).trans hl'
    · rw [State.setPhase_nctx, State.emit_nctx]
      exact hslot

theorem State.Alone.progresses_of_free (h : s.Alone) (hl : s.lawful = true)
    (hp : s.nctx.phase = .subFree) (hm : s.slot? s.nctx.h.toNat = some m) :
    ∃ t, s.Progresses t := by
  obtain ⟨e, en, he, hen, hused⟩ := h.good.held_in_use (.inr hp) hm
  cases hd : s.nctx.drain with
  | false =>
    refine ⟨_, .of_complete (h.free_transmit hp hm he hen hd) hl ?_
      (h.good.pend_ok (by simp [hp])) rfl⟩
    simp only [State.stepsLeft_eq hm, hp, Phase.stepsLeft]
    omega
  | true =>
    refine ⟨_, .of_phase (h.free_start hp hm he hen hd) hl hm (State.slot?_setSlot_self hm) ?_
      nofun rfl⟩
    simp only [hp, Nctx.submission, CanModule.release, Phase.stepsLeft]
    omega

/-- Every step of a command in progress brings its answer nearer (43_module.md R283). -/
theorem State.Alone.progresses (h : s.Alone) (hl : s.lawful = true) (hp : s.nctx.phase ≠ .idle) :
    ∃ t, s.Progresses t := by
  obtain ⟨⟨m, hm, -⟩, -⟩ := State.busyOk_iff.mp (State.busyOk_of_nctxOk h.good.nctx hp)
  cases hph : s.nctx.phase with
  | idle => exact absurd hph hp
  | subQuery => exact h.progresses_of_query hl hph hm
  | subDeq => exact h.progresses_of_deq hl hph hm
  | subAdd => exact h.progresses_of_add hl hph hm
  | subFree => exact h.progresses_of_free hl hph hm

/-- A command in progress answers OK once within the bound, by induction on it. -/
theorem State.Alone.answers (h : s.Alone) (hl : s.lawful = true) (hp : s.nctx.phase ≠ .idle) :
    ∃ n t, n ≤ s.stepsLeft ∧ Host.Core.run Sys2Proof.core n s = .next t ∧ s.Answered t := by
  induction hk : s.stepsLeft using Nat.strongRecOn generalizing s with
  | ind k ih =>
    obtain ⟨t, ht⟩ := h.progresses hl hp
    have hlt := hk ▸ ht.bound
    rcases ht.outcome with hans | ⟨hbusy, hr⟩
    · exact ⟨1, t, by omega, ht.steps.run_succ 0, hans⟩
    · obtain ⟨n, u, hn, hrun, hfault, hidle, hans⟩ :=
        ih t.stepsLeft hlt ht.steps.alone ht.lawful hbusy rfl
      exact ⟨n + 1, u, by omega, (ht.steps.run_succ n).trans hrun, hfault, hidle, hr ▸ hans⟩

/-- Settles O53: the bound of a phase is at most that of SUB_QUERY. -/
theorem submissionTerminates : Obligations.SubmissionTerminates := by
  intro s m hg hf hl ht hp hc
  obtain ⟨n, t, hn, hrun, hans⟩ := State.Alone.answers ⟨hg, hf, ht⟩ hl hp
  have hbound : s.nctx.phase.stepsLeft m.used ≤ 4 * m.used + 2 := by
    cases s.nctx.phase <;> simp only [Phase.stepsLeft] <;> omega
  rw [State.stepsLeft_eq hc.slot] at hn
  exact ⟨n, t, hn.trans hbound, hrun, hans.fault, hans.idle, hans.rsp⟩

end Sys2Proof.Machine

/-! START's drain loop, left alone, with a driver that accepts each message (43_module.md R283). -/

namespace Sys2Proof.Machine

variable {s t u : State} {e f n : Nat} {es : List Nat} {m m' m'' : CanModule} {en : Entry}

/-! ## One iteration -/

/-- The two requests that submit Entry `e` of a Module; none when there is no such Entry. -/
def submitRequests (m : CanModule) (e : Nat) : List DrvRequest :=
  match m.pool[e]? with
  | some en => [.freeMb m.cfg.periph,
      .addTx m.cfg.periph ⟨en.msg.id, en.msg.ide, en.msg.rtr, en.msg.len⟩ en.msg.data]
  | none => []

theorem submitRequests_of_some (hen : m.pool[e]? = some en) :
    submitRequests m e = [.freeMb m.cfg.periph,
      .addTx m.cfg.periph (txHeader en.msg) en.msg.data] := by
  rw [submitRequests, hen]
  rfl

theorem submitRequests_length (hen : ∃ en, m.pool[e]? = some en) :
    (submitRequests m e).length = 2 := by
  obtain ⟨en, hen⟩ := hen
  rw [submitRequests_of_some hen]
  rfl

theorem submitRequests_congr (hp : m'.pool[e]? = m.pool[e]?) (hc : m'.cfg = m.cfg) :
    submitRequests m' e = submitRequests m e := by
  rw [submitRequests, submitRequests, hp, hc]

/-- The drain loop of START at the beginning of an iteration, left alone, on Module `m`. -/
structure State.Draining (s : State) (m : CanModule) : Prop where
  alone : s.Alone
  nctx  : s.nctx = Nctx.submission opStart s.nctx.h true
  slot  : s.slot? s.nctx.h.toNat = some m

theorem State.Draining.phase (h : s.Draining m) : s.nctx.phase = .subQuery := by
  rw [h.nctx]
  rfl

/-- An iteration of the drain loop that has submitted Entry `e`, the first of the queues: it makes
the two requests of the submission and leaves the Entries after `e` queued as they are. -/
structure State.Drained (s : State) (m : CanModule) (e : Nat) (t : State) (m' : CanModule) :
    Prop where
  draining : t.Draining m'
  run      : ∀ n, Host.Core.run Sys2Proof.core (n + 4) s = Host.Core.run Sys2Proof.core n t
  handle   : t.nctx.h = s.nctx.h
  params   : t.params = s.params
  rsp      : t.rsp = s.rsp
  queued   : m.queued s.params = e :: m'.queued s.params
  live     : ∃ en, m.pool[e]? = some en
  requests : Requested (submitRequests m e) s t
  cfg      : m'.cfg = m.cfg
  later    : ∀ x ∈ m'.queued s.params, submitRequests m' x = submitRequests m x

/-- One iteration, by its four phases: the driver has a mailbox free, the queues have an Entry, the
driver accepts it, and it is released. -/
theorem State.Draining.iterate (h : s.Draining m) (hq : m.queued s.params ≠ [])
    (h0 : 0 < (s.answerAt 0).count) (hle : (s.answerAt 0).count ≤ s.params.numMb)
    (hok : (s.answerAt 1).ok = true) (hmb : (s.answerAt 1).mb < s.params.numMb) :
    ∃ e t m', s.Drained m e t m' := by
  rw [State.answerAt_zero] at h0 hle
  rw [← State.nextAnswer_request s (.freeMb m.cfg.periph)] at hok hmb
  have hdrain : s.nctx.drain = true := by rw [h.nctx]; rfl
  have hquery := h.alone.query_some h.phase h.slot h0 hle
  obtain ⟨e, m₁, hdeq, hdeqStep⟩ := hquery.alone.deq_some rfl h.slot hq
  obtain ⟨en, hen, -⟩ := hdeq.live
  have hpool : m₁.pool = m.pool := (congrArg CanModule.pool hdeq.rest :)
  have hcfg : m₁.cfg = m.cfg := (congrArg CanModule.cfg hdeq.rest :)
  have hen₁ : m₁.pool[e]? = some en := hpool ▸ hen
  have hadd := hdeqStep.alone.add_accepted rfl (State.slot?_setSlot_self h.slot) rfl hen₁ hok hmb
  have hslot₃ := State.slot?_setSlot_self (m := { m₁ with
      mb := m₁.mb.set (s.request (.freeMb m.cfg.periph)).nextAnswer.mb ⟨true, en.txId⟩ })
    (State.slot?_setSlot_self (m := m₁) h.slot)
  have hfree := hadd.alone.free_start rfl hslot₃ rfl hen₁ hdrain
  have hreq : Requested (submitRequests m e) s ((s.request (.freeMb m.cfg.periph)).request
      (.addTx m₁.cfg.periph (txHeader en.msg) en.msg.data)) := by
    rw [submitRequests_of_some hen, ← hcfg]
    exact (Requested.one _).trans (State.nextAnswer_request s _)
  have hnodup : (e :: m₁.queued s.params).Nodup :=
    hdeq.queued ▸ (h.alone.good.sound h.slot).queues.nodup.of_append_left
  refine ⟨e, _, _, ⟨hfree.alone, rfl, State.slot?_setSlot_self hslot₃⟩, fun n => ?_, rfl, rfl, rfl,
    hdeq.queued, ⟨en, hen⟩, hreq.of_ports rfl rfl rfl, hcfg,
    fun x hx => submitRequests_congr ?_ hcfg⟩
  · rw [hquery.run_succ, hdeqStep.run_succ, hadd.run_succ, hfree.run_succ]
  · have hne : e ≠ x := fun heq => (List.nodup_cons.mp hnodup).1 (heq ▸ hx)
    exact (List.getElem?_set_ne hne).trans (by rw [hpool])

/-! ## The end of the loop -/

/-- The drain loop of START over: from `s` it has submitted the first `n` queued Entries of `m`, and
answered OK. -/
structure State.Drains (s : State) (m : CanModule) (n : Nat) (t : State) : Prop where
  answered : s.Answered t
  slot     : ∃ m', t.slot? s.nctx.h.toNat = some m' ∧
    m'.queued s.params = (m.queued s.params).drop n
  requests : Requested (((m.queued s.params).take n).flatMap (submitRequests m) ++
    [.freeMb m.cfg.periph]) s t

/-- The loop ends with no mailbox free. -/
theorem State.Draining.ends_full (h : s.Draining m) (h0 : (s.answerAt 0).count = 0) :
    ∃ k t, Host.Core.run Sys2Proof.core k s = .next t ∧ s.Drains m 0 t := by
  rw [State.answerAt_zero] at h0
  have hstep := h.alone.query_none h.phase h.slot h0
  exact ⟨1, _, hstep.run_succ 0,
    hstep.answered_of_complete (h.alone.good.pend_ok (by simp [h.phase])) rfl,
    ⟨m, h.slot, rfl⟩, (Requested.one _).of_ports rfl rfl rfl⟩

/-- The loop ends with the queues empty. -/
theorem State.Draining.ends_empty (h : s.Draining m) (hq : m.queued s.params = [])
    (h0 : 0 < (s.answerAt 0).count) (hle : (s.answerAt 0).count ≤ s.params.numMb) :
    ∃ k t, Host.Core.run Sys2Proof.core k s = .next t ∧ s.Drains m 0 t := by
  rw [State.answerAt_zero] at h0 hle
  have hquery := h.alone.query_some h.phase h.slot h0 hle
  have hdeq := hquery.alone.deq_none rfl h.slot hq
  exact ⟨2, _, (hquery.run_succ 1).trans (hdeq.run_succ 0),
    hdeq.answered_of_complete (h.alone.good.pend_ok (by simp [h.phase])) rfl,
    ⟨m, h.slot, rfl⟩, (Requested.one _).of_ports rfl rfl rfl⟩

/-- An iteration, and the rest of the loop after it. -/
theorem State.Drained.drains (h : s.Drained m e t m') (hu : t.Drains m' n u) :
    s.Drains m (n + 1) u := by
  obtain ⟨⟨hfault, hidle, hrsp⟩, ⟨m'', hslot, hqueued⟩, hreq⟩ := hu
  rw [h.handle] at hslot
  rw [h.params] at hqueued hreq
  have hlater : ((m'.queued s.params).take n).flatMap (submitRequests m')
      = ((m'.queued s.params).take n).flatMap (submitRequests m) :=
    List.flatMap_congr fun x hx => h.later x (List.mem_of_mem_take hx)
  refine ⟨⟨hfault, hidle, h.rsp ▸ hrsp⟩, ⟨m'', hslot, ?_⟩, ?_⟩
  · rw [hqueued, h.queued, List.drop_succ_cons]
  · rw [h.queued, List.take_succ_cons, List.flatMap_cons, List.append_assoc, ← hlater, ← h.cfg]
    exact h.requests.append h.params hreq

/-- The loop submits as many Entries as there are free mailboxes and queued Entries, by induction on
their number. -/
theorem State.Draining.drains (h : s.Draining m) (hf : f ≤ s.params.numMb)
    (hn : n = min f (m.queued s.params).length)
    (hcount : ∀ k ≤ n, (s.answerAt (2 * k)).count = f - k)
    (hadd : ∀ k < n, (s.answerAt (2 * k + 1)).ok = true ∧
      (s.answerAt (2 * k + 1)).mb < s.params.numMb) :
    ∃ k t, Host.Core.run Sys2Proof.core k s = .next t ∧ s.Drains m n t := by
  induction n generalizing s m f with
  | zero =>
    have h0 : (s.answerAt 0).count = f := hcount 0 le_rfl
    rcases Nat.eq_zero_or_pos f with rfl | hpos
    · exact h.ends_full h0
    · have hq : m.queued s.params = [] := List.length_eq_zero_iff.mp (by omega)
      exact h.ends_empty hq (by omega) (by omega)
  | succ n ih =>
    have hq : m.queued s.params ≠ [] := fun hnil => by simp [hnil] at hn
    have h0 : (s.answerAt 0).count = f := hcount 0 (by omega)
    obtain ⟨hok, hmb⟩ := hadd 0 n.succ_pos
    obtain ⟨e, t, m', hd⟩ := h.iterate hq (by omega) (by omega) hok hmb
    have hlen : (m.queued s.params).length = (m'.queued s.params).length + 1 := by
      rw [hd.queued, List.length_cons]
    have hans : ∀ k, t.answerAt k = s.answerAt (k + 2) := fun k => by
      rw [hd.requests.answerAt hd.params, submitRequests_length hd.live, Nat.add_comm]
    obtain ⟨k, u, hrun, hu⟩ := ih hd.draining (f := f - 1) (by rw [hd.params]; omega)
      (by rw [hd.params]; omega)
      (fun k hk => by
        rw [hans, show 2 * k + 2 = 2 * (k + 1) by omega, hcount (k + 1) (by omega)]
        omega)
      (fun k hk => by
        rw [hans, hd.params, show 2 * k + 1 + 2 = 2 * (k + 1) + 1 by omega]
        exact hadd (k + 1) (by omega))
    exact ⟨k + 4, u, (hd.run k).trans hrun, hd.drains hu⟩

/-- Settles O54: the queues lose their first Entry with each iteration, and the driver's count falls
by one, until either is at its end. -/
theorem startDrainsHighestFirst : Obligations.StartDrainsHighestFirst := by
  intro s m f n hg hf ht hn hc hle hmin hcount hadd
  have hdraining : s.Draining m := ⟨⟨hg, hf, ht⟩, hn, hc.slot⟩
  obtain ⟨k, t, hrun, ⟨hfault, hidle, hrsp⟩, ⟨m', hslot, hqueued⟩, hreq⟩ :=
    hdraining.drains hle hmin hcount hadd
  exact ⟨k, t, m', hrun, hfault, hidle, hrsp, hslot, hqueued, hreq⟩

end Sys2Proof.Machine

/-! Events that the block takes: the step they run in, the Module they resolve to, and what a
handler has done so far on that Module (44_interrupt_dispatch.md). -/

namespace Sys2Proof.Machine

variable {s t u : State} {i : Nat} {p : Byte} {m m' : CanModule} {rs : List DrvRequest}
  {ns : List Notification}

/-! ## The step of an event -/

/-- Settles O7: an event word that decodes and exists is the instruction that handling it runs. -/
theorem stepRunsTheEvent : Obligations.StepRunsTheEvent := by
  intro s w rest i hf ht hd hw
  have hinstr : instrOf ({ s with turns := rest } : State).params (.event w) = some i :=
    instrOf_of_decode hd hw
  have hstep : step s
      = atBoundary (exec i { s with turns := rest, drvLog := s.drvLog ++ [.event w] }) := by
    rw [step_of_event hf ht, handleEvent, hinstr]
    rfl
  exact ⟨hstep, fun t h => hstep ▸ atBoundary_next h⟩

/-! ## The Module an event resolves to -/

theorem exec_event_of_unresolved {x : Instr} (hx : eventPeriph x = some p)
    (hr : s.resolve p = none) : exec x s = .next s := by
  cases x with
  | evtRxPending q fifo => cases hx; exact State.withEvent_none hr
  | evtTxComplete q mb => cases hx; exact State.withEvent_none hr
  | evtError q => cases hx; exact State.withEvent_none hr
  | _ => cases hx

/-- Settles O40: a Module that the event resolved to would be started on its peripheral. -/
theorem unresolvedEventIsIgnored : Obligations.UnresolvedEventIsIgnored := by
  intro s x p hx hnone
  refine exec_event_of_unresolved hx (Option.eq_none_iff_forall_ne_some.mpr fun i hi => ?_)
  obtain ⟨m, hm, hon⟩ := State.resolve_eq_some hi
  exact hnone i m hm hon

/-- In a good state no second Module has the peripheral, so the event resolves to this one
(10_state.md R54, 44_interrupt_dispatch.md R350). -/
theorem StartedOn.resolve (ho : StartedOn p i m s) (hg : s.Good) : s.resolve p = some i := by
  cases hr : s.resolve p with
  | none =>
    exact absurd ⟨ho.allocated, ho.started, ho.periph⟩ (State.resolve_eq_none hr i m ho.slot)
  | some j =>
    obtain ⟨m', hm', ha', -, hp'⟩ := State.resolve_eq_some hr
    by_contra hne
    have hji : j ≠ i := fun h => hne (h ▸ rfl)
    exact hg.periph_ne ho.slot ho.allocated j m' hji hm' ha' (hp'.trans ho.periph.symm)

theorem StartedOn.withEvent (ho : StartedOn p i m s) (hg : s.Good) (k : Nat → Run State Unit) :
    s.withEvent p k = (k i).finish :=
  State.withEvent_some (ho.resolve hg)

/-! ## What a handler has done so far -/

/-- A handler that began in `s` has come to `t`: of the block only slot `i` may differ, which holds
`m`, and on the ports there are the requests `rs` with their answers and the notifications `ns`. -/
structure Handled (s : State) (i : Nat) (rs : List DrvRequest) (ns : List Notification)
    (m : CanModule) (t : State) : Prop where
  only      : OnlySlot i s t
  slot      : t.slot? i = some m
  requested : Requested rs s t
  rsp       : t.rsp = s.rsp
  ntf       : t.ntf = s.ntf ++ ns

theorem Handled.initial (hm : s.slot? i = some m) : Handled s i [] [] m s where
  only := (SameBlock.refl s).onlySlot
  slot := hm
  requested := s.requested_requests []
  rsp := rfl
  ntf := (List.append_nil _).symm

/-- The driver's next answer is the one after those of the requests made. -/
theorem Handled.nextAnswer (h : Handled s i rs ns m t) : t.nextAnswer = s.answerAt rs.length :=
  h.requested.nextAnswer h.only.params

theorem Handled.request (h : Handled s i rs ns m t) (r : DrvRequest) :
    Handled s i (rs ++ [r]) ns m (t.request r) where
  only := h.only.trans ((SameBlock.refl t).request r).onlySlot
  slot := h.slot
  requested := h.requested.append h.only.params (.one r)
  rsp := h.rsp
  ntf := h.ntf

theorem Handled.noteSubmitted (h : Handled s i rs ns m t) (w : Word) :
    Handled s i rs ns m (t.noteSubmitted w) where
  only := h.only.trans (SameBlock.onlySlot ⟨rfl, rfl, rfl, rfl, rfl⟩)
  slot := h.slot
  requested := h.requested.of_ports rfl rfl rfl
  rsp := h.rsp
  ntf := h.ntf

theorem Handled.setSlot (h : Handled s i rs ns m t) (m' : CanModule) :
    Handled s i rs ns m' (t.setSlot i m') where
  only := h.only.trans (.setSlot t i m')
  slot := State.slot?_setSlot_self h.slot
  requested := h.requested.of_ports rfl rfl rfl
  rsp := h.rsp
  ntf := h.ntf

theorem Handled.emit {b : NtfBody} {k : CbKind} (h : Handled s i rs ns m t)
    (hk : b.slot = some k) :
    Handled s i rs (ns ++ noteIf (m.cbEn.get k) i b) m (t.emit i b) where
  only := h.only.trans ((SameBlock.refl t).emit i b).onlySlot
  slot := (State.slot?_emit t i b i).trans h.slot
  requested := h.requested.of_ports (State.emit_drvLog _ _ _) (State.emit_drvAns _ _ _)
    (State.emit_drawn _ _ _)
  rsp := (State.emit_rsp _ _ _).trans h.rsp
  ntf := by rw [State.emit_ntf h.slot hk, h.ntf, List.append_assoc]

/-- The activity indicator, which no callback enable gates (30_encoding.md R141, R143). -/
theorem Handled.emitAct (h : Handled s i rs ns m t) :
    Handled s i rs (ns ++ noteIf m.cfg.rxLedEn i .act) m
      (if m.cfg.rxLedEn then t.emitAct i else t) := by
  cases hled : m.cfg.rxLedEn with
  | false => simpa [noteIf] using h
  | true =>
    exact ⟨h.only.trans (SameBlock.onlySlot ⟨rfl, rfl, rfl, rfl, rfl⟩), h.slot,
      h.requested.of_ports rfl rfl rfl, h.rsp,
      (congrArg (· ++ [_]) h.ntf).trans (List.append_assoc ..)⟩

/-- An operation on the Module that completes. -/
theorem Handled.onSlot {α : Type} {a : α} {f : CanModule → Run CanModule α}
    (h : Handled s i rs ns m t) (hf : f m = .ok a m') :
    ∃ u, t.onSlot i f = .ok a u ∧ Handled s i rs ns m' u :=
  ⟨_, State.onSlot_eq_ok.mpr ⟨m, m', h.slot, hf, rfl⟩, h.setSlot m'⟩

/-- A Module with one counted in its statistics, when the build has them (10_state.md R52). -/
def CanModule.counted (p : Params) (f : Stats → Stats) (m : CanModule) : CanModule :=
  { m with stat := if p.statsEn = true then f m.stat else m.stat }

theorem countStat_eq (p : Params) (f : Stats → Stats) (m : CanModule) :
    countStat p f m = .ok () (m.counted p f) := by
  cases hs : p.statsEn <;> simp [countStat, CanModule.counted, hs]

theorem Handled.count (h : Handled s i rs ns m t) (f : Stats → Stats) :
    ∃ u, t.onSlot i (countStat t.params f) = .ok () u ∧
      Handled s i rs ns (m.counted s.params f) u := by
  rw [h.only.params]
  exact h.onSlot (countStat_eq s.params f m)

end Sys2Proof.Machine

/-! EVT_RX_PENDING and EVT_ERROR (44_interrupt_dispatch.md R320 to R324, R340 to R343). -/

namespace Sys2Proof.Machine

variable {s t : State} {i : Nat} {p : Byte} {m : CanModule} {rs : List DrvRequest}
  {ns : List Notification} {msg : Message} {fifo : BitVec 1}

/-! ## A frame received -/

theorem Handled.indicate (h : Handled s i rs ns m t) :
    ∃ u, indicate i t = .ok () u ∧
      Handled s i rs (ns ++ noteIf m.cfg.rxLedEn i .act) m u :=
  ⟨_, by simp only [Machine.indicate, h.slot], h.emitAct⟩

/-- A frame with a legal header is counted and indicated before it is delivered
(44_interrupt_dispatch.md R320 to R323). -/
theorem Handled.receive {a : DrvAnswer} (h : Handled s i rs ns m t) (ha : rxHeaderOk a.hdr = true) :
    ∃ u, receive i a t = deliver i (parseFrame a.hdr a.data) u ∧
      Handled s i rs (ns ++ noteIf m.cfg.rxLedEn i .act) (m.counted s.params Stats.bumpRx) u := by
  obtain ⟨v, hcount, hv⟩ := h.count Stats.bumpRx
  obtain ⟨u, hind, hu⟩ := hv.indicate
  exact ⟨u, by simp only [Machine.receive, ha, if_true, hcount, hind, Run.andThen_ok], hu⟩

theorem Handled.deliver_passthrough (h : Handled s i rs ns m t)
    (hmode : s.params.rxMode = .passthrough) :
    ∃ u, deliver i msg t = .ok () u ∧
      Handled s i rs (ns ++ noteIf m.cbEn.rx i (rxNotification msg)) m u :=
  ⟨_, by simp only [deliver, h.only.params, hmode], h.emit (k := .rx) rfl⟩

/-- A ring with room takes the Message (41_rx_ring.md R210). -/
theorem Handled.deliver_room (h : Handled s i rs ns m t) (hmode : s.params.rxMode = .buffered)
    (hring : m.rx.InRange s.params) (hroom : m.rx.occupancy s.params < s.params.rxDepth) :
    ∃ u, deliver i msg t = .ok () u ∧
      Handled s i rs ns { m with rx := m.rx.pushed s.params msg } u := by
  obtain ⟨u, hpush, hu⟩ := h.onSlot (rxPush_of_room (msg := msg) hring hroom)
  exact ⟨u, by simp only [deliver, h.only.params, hmode, hpush, Run.andThen_ok], hu⟩

/-- A full ring drops the Message, counts it and reports it (41_rx_ring.md R210, R211). -/
theorem Handled.deliver_full (h : Handled s i rs ns m t) (hmode : s.params.rxMode = .buffered)
    (hfull : m.rx.occupancy s.params = s.params.rxDepth) :
    ∃ u, deliver i msg t = .ok () u ∧
      Handled s i rs (ns ++ noteIf m.cbEn.err i (.err .rxOverrun 0))
        { m with rx := { m.rx with overrun := m.rx.overrun + 1 } } u := by
  obtain ⟨u, hpush, hu⟩ := h.onSlot (rxPush_of_full (msg := msg) hfull)
  exact ⟨_, by simp only [deliver, h.only.params, hmode, hpush, Run.andThen_ok],
    hu.emit (k := .err) rfl⟩

/-! ## EVT_RX_PENDING -/

/-- The contract's clause on an RX header (60_exceptions.md R424). -/
theorem LegalHeader.rxHeaderOk {h : RxHeader} (hl : LegalHeader h) : rxHeaderOk h = true := by
  have hid : stdOverflow h.ide h.id ≠ true := fun hover => by
    obtain ⟨hide, hgt⟩ := stdOverflow_iff.mp hover
    exact absurd (hl.id hide) (Nat.not_le.mpr hgt)
  simp [Machine.rxHeaderOk, hl.len, hid]

/-- A pull that brings a legal frame: one request, and the frame counted and indicated before its
delivery (44_interrupt_dispatch.md R320 to R323). -/
theorem StartedOn.receives (ho : StartedOn p i m s) (hg : s.Good) (fifo : BitVec 1)
    (hok : (s.answerAt 0).ok = true) (hhdr : LegalHeader (s.answerAt 0).hdr) :
    ∃ u, exec (.evtRxPending p fifo) s
        = (deliver i (parseFrame (s.answerAt 0).hdr (s.answerAt 0).data) u).finish ∧
      Handled s i [.getRx p fifo] (noteIf m.cfg.rxLedEn i .act)
        (m.counted s.params Stats.bumpRx) u := by
  rw [State.answerAt_zero] at hok hhdr ⊢
  obtain ⟨u, hrec, hu⟩ :=
    ((Handled.initial ho.slot).request (.getRx p fifo)).receive hhdr.rxHeaderOk
  exact ⟨u, by simp only [exec, execEvtRxPending, ho.withEvent hg, hok, if_true, hrec], hu⟩

theorem RingSound.inRange {ps : Params} {r : RxRing} (h : RingSound ps r) : r.InRange ps :=
  ⟨h.length, h.widx, h.ridx, h.occupancy⟩

/-- Settles O41: after the pull, the count and the indicator, the ring takes the Message or is
full. -/
theorem rxPendingBuffers : Obligations.RxPendingBuffers := by
  intro s p fifo i m hg ho hmode hok hhdr
  obtain ⟨u, hexec, hu⟩ := ho.receives hg fifo hok hhdr
  have hring : m.rx.InRange s.params := (hg.sound ho.slot).ring.inRange
  rw [hexec, RxRing.unread_length]
  rcases hring.occupancy.lt_or_eq with hroom | hfull
  · obtain ⟨t, hdel, ht⟩ := hu.deliver_room hmode hring hroom
    rw [hdel]
    exact ⟨t, _, rfl, ht.only, ht.slot, ht.requested, ht.rsp,
      fun _ => ⟨hring.unread_pushed hroom, rfl, rfl, ht.ntf⟩, fun hfull => absurd hfull hroom.ne⟩
  · obtain ⟨t, hdel, ht⟩ := hu.deliver_full hmode hfull
    rw [hdel]
    exact ⟨t, _, rfl, ht.only, ht.slot, ht.requested, ht.rsp, fun hne => absurd hfull hne,
      fun _ => ⟨rfl, ht.ntf.trans (List.append_assoc ..).symm⟩⟩

/-- Settles O42: after the pull, the count and the indicator, the frame leaves as a notification. -/
theorem rxPendingPassesThrough : Obligations.RxPendingPassesThrough := by
  intro s p fifo i m hg ho hmode hok hhdr
  obtain ⟨u, hexec, hu⟩ := ho.receives hg fifo hok hhdr
  obtain ⟨t, hdel, ht⟩ := hu.deliver_passthrough hmode
  rw [hexec, hdel]
  exact ⟨t, rfl, ht.only, ht.slot, ht.requested, ht.rsp,
    ht.ntf.trans (List.append_assoc ..).symm⟩

/-- Settles O43: the failed pull is one request, and its report writes no slot. -/
theorem rxPullFailureIsReported : Obligations.RxPullFailureIsReported := by
  intro s p fifo i m hg ho hok
  have ht := ((Handled.initial ho.slot).request (.getRx p fifo)).emit
    (b := .err .driverError 0) (k := .err) rfl
  have hexec : exec (.evtRxPending p fifo) s
      = .next ((s.request (.getRx p fifo)).emit i (.err .driverError 0)) := by
    rw [State.answerAt_zero] at hok
    simp only [exec, execEvtRxPending, ho.withEvent hg, hok, Bool.false_eq_true, if_false,
      Run.finish_ok]
  exact ⟨_, hexec, ((SameBlock.refl s).request _).emit _ _, ht.requested, ht.rsp, ht.ntf⟩

/-! ## EVT_ERROR -/

/-- The notifications of an error code, by its class (44_interrupt_dispatch.md R342, R343). -/
theorem Handled.reportError (h : Handled s i rs ns m t) (c : Word) :
    Handled s i rs (ns ++
      (if c.getLsbD 0 = true then
        noteIf m.cbEn.bus i (.bus .busOff) ++ noteIf m.cbEn.err i (.err .busOff 0)
      else if c.getLsbD 1 = true then
        noteIf m.cbEn.bus i (.bus .passive) ++ noteIf m.cbEn.err i (.err .busPassive 0)
      else noteIf m.cbEn.err i (.err .driverError 0))) m (reportError i c t) := by
  have htransition (b : BusState) (k : ErrKind) : Handled s i rs
      (ns ++ (noteIf m.cbEn.bus i (.bus b) ++ noteIf m.cbEn.err i (.err k 0))) m
      ((t.emit i (.bus b)).emit i (.err k 0)) := by
    rw [← List.append_assoc]
    exact (h.emit (k := .bus) rfl).emit (k := .err) rfl
  unfold Machine.reportError errorTransition errorKind
  by_cases hboff : c.getLsbD 0 = true
  · simp only [hboff, if_true]
    exact htransition _ _
  · by_cases hepv : c.getLsbD 1 = true
    · simp only [hboff, hepv, if_true]
      exact htransition _ _
    · simp only [hboff, hepv]
      exact h.emit (k := .err) rfl

/-- Settles O46: one request for the code, the count, and the notifications of the code's class. -/
theorem errorEventClassifies : Obligations.ErrorEventClassifies := by
  intro s p i m hg ho
  obtain ⟨u, hcount, hu⟩ :=
    ((Handled.initial ho.slot).request (.errorCode p)).count Stats.bumpErr
  have ht := hu.reportError (s.answerAt 0).code
  have hexec : exec (.evtError p) s = .next (reportError i (s.answerAt 0).code u) := by
    simp only [exec, execEvtError, ho.withEvent hg, State.answerAt_zero]
    rw [State.request_params] at hcount
    rw [hcount, Run.andThen_ok, Run.finish_ok]
  exact ⟨_, hexec, ht.only, ht.slot, ht.requested, ht.rsp, ht.ntf⟩

end Sys2Proof.Machine

/-! EVT_TX_COMPLETE: the clear and the report of the completion, and the submission after it
(44_interrupt_dispatch.md R330 to R334, 42_mailbox_tracker.md R230 to R236). -/

namespace Sys2Proof.Machine

variable {s t : State} {i e : Nat} {p mb : Byte} {m m' : CanModule} {was : Mailbox} {en : Entry}
  {rs : List DrvRequest} {ns : List Notification}

/-! ## The completion -/

/-- A Module with tracker slot `k`, which held `was`, cleared, and counted when it was active
(42_mailbox_tracker.md R236, 44_interrupt_dispatch.md R331). -/
def CanModule.completed (ps : Params) (k : Nat) (was : Mailbox) (m : CanModule) : CanModule :=
  { m with
    mb := m.mb.set k ⟨false, 0⟩
    stat := if ps.statsEn = true ∧ was.active = true then m.stat.bumpTx else m.stat }

/-- The count and the notification of an active mailbox, and nothing of a spurious one
(44_interrupt_dispatch.md R331, R332). -/
theorem Handled.reportCompletion (h : Handled s i rs ns m t) (was : Mailbox) :
    ∃ u, reportCompletion i was t = .ok () u ∧
      Handled s i rs (ns ++ noteIf (was.active && m.cbEn.txc) i (.txc was.txId))
        (if was.active = true then m.counted s.params Stats.bumpTx else m) u := by
  cases hact : was.active with
  | false => exact ⟨t, by simp [Machine.reportCompletion, hact], by simpa [noteIf] using h⟩
  | true =>
    obtain ⟨u, hcount, hu⟩ := h.count Stats.bumpTx
    exact ⟨_, by simp only [Machine.reportCompletion, hact, if_true, hcount, Run.andThen_ok],
      hu.emit (k := .txc) rfl⟩

/-- EVT_TX_COMPLETE clears and reports, and what is left of it is one submission
(44_interrupt_dispatch.md R330). -/
theorem StartedOn.completes (ho : StartedOn p i m s) (hg : s.Good)
    (hwas : m.mb[mb.toNat]? = some was) :
    ∃ u, exec (.evtTxComplete p mb) s = (submitNextIsr i u).finish ∧
      Handled s i [] (noteIf (was.active && m.cbEn.txc) i (.txc was.txId))
        (m.completed s.params mb.toNat was) u := by
  have hmb : mb.toNat < s.params.numMb := by
    rw [← (hg.sound ho.slot).mbLen]
    exact (List.getElem?_eq_some_iff.mp hwas).1
  obtain ⟨v, hclear, hv⟩ :=
    (Handled.initial ho.slot).onSlot (completeMb_eq_ok.mpr ⟨hmb, hwas, rfl⟩)
  obtain ⟨u, hreport, hu⟩ := hv.reportCompletion was
  refine ⟨u, ?_, ?_⟩
  · simp only [exec, execEvtTxComplete, ho.withEvent hg, hclear, hreport, Run.andThen_ok]
    cases submitNextIsr i u <;> rfl
  · cases hact : was.active <;>
      simpa [CanModule.completed, CanModule.counted, hact] using hu

/-! ## The submission after it -/

theorem Handled.drvFreeMb (h : Handled s i rs ns m t)
    (hle : (s.answerAt rs.length).count ≤ s.params.numMb) :
    drvFreeMb m.cfg.periph t
      = .ok (s.answerAt rs.length).count (t.request (.freeMb m.cfg.periph)) := by
  rw [← h.nextAnswer, ← h.only.params] at hle
  rw [← h.nextAnswer]
  exact drvFreeMb_eq_ok.mpr ⟨hle, rfl, rfl⟩

/-- No mailbox free, or nothing queued: one request and no more (42_mailbox_tracker.md R230). -/
theorem Handled.submits_nothing (h : Handled s i rs ns m t)
    (hle : (s.answerAt rs.length).count ≤ s.params.numMb)
    (hnone : (s.answerAt rs.length).count = 0 ∨ dequeueHighest s.params m = .ok none m) :
    ∃ u, submitNextIsr i t = .ok .nothing u ∧
      Handled s i (rs ++ [.freeMb m.cfg.periph]) ns m u := by
  have hreq := h.request (.freeMb m.cfg.periph)
  by_cases h0 : (s.answerAt rs.length).count = 0
  · exact ⟨_, by simp only [submitNextIsr, h.slot, h.drvFreeMb hle, Run.andThen_ok, h0, if_true],
      hreq⟩
  · obtain ⟨u, hdeq, hu⟩ := hreq.onSlot (hnone.resolve_left h0)
    rw [← hreq.only.params] at hdeq
    exact ⟨u, by
      simp only [submitNextIsr, h.slot, h.drvFreeMb hle, Run.andThen_ok, h0, if_false, hdeq], hu⟩

/-- A Module with what the driver answered to the add request of a message with `tx_id` `w`: the
mailbox it reports recorded, or nothing (42_mailbox_tracker.md R233, R235). -/
def CanModule.answered (a : DrvAnswer) (w : Word) (m : CanModule) : CanModule :=
  { m with mb := if a.ok = true then m.mb.set a.mb ⟨true, w⟩ else m.mb }

theorem CanModule.answered_of_accepted {a : DrvAnswer} {w : Word} (hok : a.ok = true) :
    m.answered a w = { m with mb := m.mb.set a.mb ⟨true, w⟩ } := by
  rw [CanModule.answered, if_pos hok]

theorem CanModule.answered_of_rejected {a : DrvAnswer} {w : Word} (hok : a.ok = false) :
    m.answered a w = m := by
  rw [CanModule.answered, if_neg (by simp [hok])]

/-- The add request of an Entry in use, its mailbox recorded or its rejection reported
(42_mailbox_tracker.md R232, R233, R235). -/
theorem Handled.addTx (h : Handled s i rs ns m t) (hlive : liveEntry? s.params m e = some en)
    (hmb : (s.answerAt rs.length).ok = true → (s.answerAt rs.length).mb < s.params.numMb) :
    ∃ u, addTx i e t = .ok () u ∧
      Handled s i (rs ++ [.addTx m.cfg.periph (txHeader en.msg) en.msg.data])
        (ns ++ noteIf (!(s.answerAt rs.length).ok && m.cbEn.err) i (.err .driverError en.txId))
        (m.answered (s.answerAt rs.length) en.txId) u := by
  rw [← h.nextAnswer] at hmb ⊢
  rw [← h.only.params] at hmb hlive
  have hreq : Handled s i (rs ++ [.addTx m.cfg.periph (txHeader en.msg) en.msg.data]) ns m
      (t.requestAdd m en) := h.request _
  have hadd : Machine.addTx i e t = submitEntry i m en t := by
    simp only [Machine.addTx, h.slot, hlive]
  cases hok : t.nextAnswer.ok with
  | false =>
    rw [CanModule.answered_of_rejected hok]
    exact ⟨_, hadd.trans (submitEntry_of_rejected hok), hreq.emit (k := .err) rfl⟩
  | true =>
    rw [CanModule.answered_of_accepted hok]
    refine ⟨_, hadd.trans (submitEntry_of_accepted h.slot hok (hmb hok)), ?_⟩
    simpa [noteIf] using (hreq.noteSubmitted en.txId).setSlot _

theorem Handled.freeEntry (h : Handled s i rs ns m t)
    (hlive : liveEntry? s.params m e = some en) :
    ∃ u, t.onSlot i (freeEntry t.params e) = .ok () u ∧
      Handled s i rs ns (m.release e en) u := by
  rw [h.only.params]
  exact h.onSlot (freeEntry_eq_ok.mpr ⟨en, hlive, rfl⟩)

/-- A mailbox free and an Entry queued: the Entry is taken out, handed to the driver and released
(42_mailbox_tracker.md R230, R234). -/
theorem Handled.submits_next (h : Handled s i rs ns m t)
    (hpos : 0 < (s.answerAt rs.length).count)
    (hle : (s.answerAt rs.length).count ≤ s.params.numMb)
    (htake : dequeueHighest s.params m = .ok (some e) m') (hdeq : Dequeued s.params m e m')
    (hlive : liveEntry? s.params m' e = some en)
    (hmb : (s.answerAt (rs.length + 1)).ok = true →
      (s.answerAt (rs.length + 1)).mb < s.params.numMb) :
    ∃ u, submitNextIsr i t = .ok .attempted u ∧
      Handled s i (rs ++ [.freeMb m.cfg.periph] ++
          [.addTx m.cfg.periph (txHeader en.msg) en.msg.data])
        (ns ++ noteIf (!(s.answerAt (rs.length + 1)).ok && m.cbEn.err) i
          (.err .driverError en.txId))
        ((m'.answered (s.answerAt (rs.length + 1)) en.txId).release e en) u := by
  have hcfg : m'.cfg = m.cfg := (congrArg CanModule.cfg hdeq.rest :)
  have hcb : m'.cbEn = m.cbEn := (congrArg CanModule.cbEn hdeq.rest :)
  have hreq := h.request (.freeMb m.cfg.periph)
  have hlen : (rs ++ [DrvRequest.freeMb m.cfg.periph]).length = rs.length + 1 := by simp
  obtain ⟨v, hv, hhv⟩ := hreq.onSlot htake
  rw [← hreq.only.params] at hv
  obtain ⟨w, hadd, hw⟩ := hhv.addTx hlive (hlen ▸ hmb)
  rw [hlen, hcfg, hcb] at hw
  obtain ⟨u, hfree, hu⟩ := hw.freeEntry (e := e) (en := en) hlive
  exact ⟨u, by
    simp only [submitNextIsr, h.slot, h.drvFreeMb hle, hpos.ne', if_false, hv, hadd, hfree,
      Run.andThen_ok], hu⟩

/-! ## The queues across the completion -/

/-- The clear and the count leave the queues and the pool in order. -/
theorem StartedOn.completed_queuesSound (ho : StartedOn p i m s) (hg : s.Good) (k : Nat)
    (was : Mailbox) :
    ∃ out, QueuesSound s.params out (m.completed s.params k was).cleared := by
  have hslot : s.slot? (BitVec.ofNat 8 i).toNat = some m :=
    (State.toNat_ofNat_of_slot? ho.slot).symm ▸ ho.slot
  have hsound := CanModule.queuesSound_of_queuesGood (hg.queuesGood ⟨hslot, ho.allocated⟩)
  exact ⟨_, hsound.congr rfl rfl rfl rfl⟩

/-- What `dequeue_highest` takes of a completed Module it takes of the Module. -/
theorem Dequeued.of_completed {ps : Params} {k : Nat}
    (h : Dequeued ps (m.completed ps k was) e m') :
    Dequeued ps m e { m' with mb := m.mb, stat := m.stat } where
  live := h.live
  queued := h.queued
  level := h.level
  bits := h.bits
  rest := (congrArg (fun x : CanModule => { x with mb := m.mb, stat := m.stat }) h.rest :)

/-- Settles O44: after the clear and the report, the submission ends at its first question or at the
empty queues. -/
theorem txCompleteClearsAndNotifies : Obligations.TxCompleteClearsAndNotifies := by
  intro s p mb i m was hg ho hwas hle hnone
  obtain ⟨u, hexec, hu⟩ := ho.completes hg hwas
  obtain ⟨out, hsound⟩ := ho.completed_queuesSound hg mb.toNat was
  obtain ⟨t, hsub, ht⟩ := hu.submits_nothing hle (hnone.imp_right fun hnil => by
    rcases dequeueHighest_takes hsound with ⟨-, hdeq⟩ | ⟨e, m', -, hdeq, -⟩
    · exact hdeq
    · cases hnil.symm.trans hdeq.of_completed.queued)
  rw [hexec, hsub, ← ho.periph]
  exact ⟨t, rfl, ht.only, ht.slot, ht.requested, ht.rsp, ht.ntf⟩

/-- Settles O45: after the clear and the report, the first queued Entry is taken, submitted and
released. -/
theorem txCompleteSubmitsNext : Obligations.TxCompleteSubmitsNext := by
  intro s p mb i m was e en hg ho hwas hpos hle hhead hen hmb
  obtain ⟨u, hexec, hu⟩ := ho.completes hg hwas
  obtain ⟨out, hsound⟩ := ho.completed_queuesSound hg mb.toNat was
  rcases dequeueHighest_takes hsound with ⟨hnil, -⟩ | ⟨e', m', htake, hdeq, hsound'⟩
  · cases (congrArg List.head? hnil).symm.trans hhead
  · obtain rfl : e' = e := by
      rw [hdeq.of_completed.queued] at hhead
      exact Option.some.inj hhead
    have hpool : m'.pool = m.pool := (congrArg CanModule.pool hdeq.rest :)
    have hlive : liveEntry? s.params m' e' = some en := by
      obtain ⟨en', hen'⟩ := hsound'.exists_live (e := e') (by simp)
      obtain ⟨-, hget, -⟩ := liveEntry?_eq_some.mp hen'
      rw [hpool, hen] at hget
      rwa [Option.some.inj hget]
    obtain ⟨t, hsub, ht⟩ := hu.submits_next hpos hle htake hdeq hlive hmb
    have hused : m'.used = m.used := (congrArg CanModule.used hdeq.rest :)
    have hmb' : m'.mb = m.mb.set mb.toNat ⟨false, 0⟩ := (congrArg CanModule.mb hdeq.rest :)
    have hstat : m'.stat = if s.params.statsEn = true ∧ was.active = true then
        { m.stat with tx := m.stat.tx + 1 } else m.stat := (congrArg CanModule.stat hdeq.rest :)
    refine ⟨t, { m' with mb := m.mb, stat := m.stat }, by rw [hexec, hsub, Run.finish_ok], ht.only,
      hdeq.of_completed, ?_, ho.periph ▸ ht.requested, ht.rsp, ?_⟩
    · rw [ht.slot, CanModule.release, CanModule.answered, hpool, hused, hmb', hstat]
      rfl
    · rw [ht.ntf, List.append_assoc]
      rfl

end Sys2Proof.Machine

/-! What the parts of a step leave of every Module slot, read off by a projection of the slot
(44_interrupt_dispatch.md R352). -/

namespace Sys2Proof.Machine

variable {κ : Type} {keep : CanModule → κ} {s t u : State} {i : Nat} {b : Byte}
  {m m' : CanModule}

/-! ## Slots that keep a part -/

/-- Every slot of `t` has in the part that `keep` reads what it had in `s`. -/
def SlotsKeep (keep : CanModule → κ) (s t : State) : Prop :=
  ∀ j, (t.slot? j).map keep = (s.slot? j).map keep

theorem SlotsKeep.refl (s : State) : SlotsKeep keep s s := fun _ => rfl

theorem SlotsKeep.same (h : SlotsKeep keep s t) (hp : u.params = t.params)
    (hm : u.modules = t.modules) : SlotsKeep keep s u := fun j => by
  rw [State.slot?_congr hp hm, h j]

theorem SlotsKeep.request (h : SlotsKeep keep s t) (r : DrvRequest) :
    SlotsKeep keep s (t.request r) :=
  h.same rfl rfl

theorem SlotsKeep.setSlot (h : SlotsKeep keep s t) (hm : t.slot? i = some m)
    (hk : keep m' = keep m) : SlotsKeep keep s (t.setSlot i m') := fun j => by
  rw [← h j]
  by_cases hj : j = i
  · rw [hj, State.slot?_setSlot_self hm, hm, Option.map_some, Option.map_some, hk]
  · rw [State.slot?_setSlot_ne hj]

/-- A slot of the state before is one of the state after, with that part as it was. -/
theorem SlotsKeep.after (h : SlotsKeep keep s t) {j : Nat} (hm : s.slot? j = some m) :
    ∃ m', t.slot? j = some m' ∧ keep m' = keep m := by
  simpa [hm] using h j

theorem SlotsKeep.before (h : SlotsKeep keep s t) {j : Nat} (hm : t.slot? j = some m') :
    ∃ m, s.slot? j = some m ∧ keep m' = keep m := by
  obtain ⟨m, hs, hk⟩ := SlotsKeep.after (fun j => (h j).symm) hm
  exact ⟨m, hs, hk.symm⟩

/-- An operation on a Module, whether or not it faults, leaves the part that `keep` reads. -/
def Leaves {α : Type} (keep : CanModule → κ) (f : CanModule → Run CanModule α) : Prop :=
  ∀ m, keep (f m).state = keep m

theorem SlotsKeep.onSlot {α : Type} {f : CanModule → Run CanModule α} (h : SlotsKeep keep s t)
    (hf : Leaves keep f) : SlotsKeep keep s (t.onSlot i f).state := by
  cases hm : t.slot? i with
  | none => simpa [State.onSlot, hm, Run.state] using h
  | some m =>
    rw [State.onSlot_state hm]
    exact h.setSlot hm (hf m)

theorem SlotsKeep.of_finish {α : Type} {x : Run State α} (hx : SlotsKeep keep s x.state)
    (h : x.finish = .next t) : SlotsKeep keep s t := by
  obtain ⟨-, hp, hm⟩ := Run.finish_state h
  exact hx.same hp hm

/-! ## What a handler may write besides the slots -/

/-- From `s` to `t` a handler has left `nctx`, answered no command, and left of every slot the part
that `keep` reads (44_interrupt_dispatch.md R352). -/
structure HandlerKeeps (keep : CanModule → κ) (s t : State) : Prop where
  nctx   : t.nctx = s.nctx
  params : t.params = s.params
  rsp    : t.rsp = s.rsp
  turns  : t.turns = s.turns
  slots  : SlotsKeep keep s t

theorem HandlerKeeps.refl (s : State) : HandlerKeeps keep s s := ⟨rfl, rfl, rfl, rfl, .refl s⟩

/-- A part of a handler that writes no slot and answers no command. -/
theorem HandlerKeeps.same (h : HandlerKeeps keep s t) (hb : SameBlock t u) (hr : u.rsp = t.rsp) :
    HandlerKeeps keep s u where
  nctx := hb.nctx.trans h.nctx
  params := hb.params.trans h.params
  rsp := hr.trans h.rsp
  turns := hb.turns.trans h.turns
  slots := h.slots.same hb.params hb.modules

theorem HandlerKeeps.request (h : HandlerKeeps keep s t) (r : DrvRequest) :
    HandlerKeeps keep s (t.request r) :=
  h.same ((SameBlock.refl t).request r) rfl

theorem HandlerKeeps.noteSubmitted (h : HandlerKeeps keep s t) (w : Word) :
    HandlerKeeps keep s (t.noteSubmitted w) :=
  h.same ⟨rfl, rfl, rfl, rfl, rfl⟩ rfl

theorem HandlerKeeps.emit (h : HandlerKeeps keep s t) (i : Nat) (n : NtfBody) :
    HandlerKeeps keep s (t.emit i n) :=
  h.same ((SameBlock.refl t).emit i n) (State.emit_rsp t i n)

theorem HandlerKeeps.onSlot {α : Type} {f : CanModule → Run CanModule α}
    (h : HandlerKeeps keep s t) (hf : Leaves keep f) :
    HandlerKeeps keep s (t.onSlot i f).state := by
  have hslots := h.slots.onSlot (i := i) hf
  cases hm : t.slot? i with
  | none => simpa [State.onSlot, hm, Run.state] using h
  | some m =>
    rw [State.onSlot_state hm] at hslots ⊢
    exact ⟨h.nctx, h.params, h.rsp, h.turns, hslots⟩

theorem HandlerKeeps.of_finish {α : Type} {x : Run State α} (hx : HandlerKeeps keep s x.state)
    (h : x.finish = .next t) : HandlerKeeps keep s t := by
  rcases Run.finish_eq_next.mp h with ⟨a, rfl⟩ | ⟨r, u, rfl, rfl⟩
  · exact hx
  · exact ⟨hx.nctx, hx.params, hx.rsp, hx.turns, hx.slots.same rfl rfl⟩

theorem HandlerKeeps.withEvent {k : Nat → Run State Unit}
    (hk : ∀ i, HandlerKeeps keep s (k i).state) (h : s.withEvent b k = .next t) :
    HandlerKeeps keep s t := by
  cases hr : s.resolve b with
  | none =>
    rw [State.withEvent_none hr] at h
    cases h
    exact .refl s
  | some i =>
    rw [State.withEvent_some hr] at h
    exact (hk i).of_finish h

/-! ## Operations that write only the queues and the pool -/

variable (ps : Params)

theorem OnlyQueues.andThen {α β : Type} {x : Run CanModule α}
    {f : α → CanModule → Run CanModule β} (hx : OnlyQueues m x.state)
    (hf : ∀ a m', OnlyQueues m' (f a m').state) : OnlyQueues m (x.andThen f).state :=
  Run.state_andThen (P := OnlyQueues m) hx fun a m' h => h.trans (hf a m')

theorem freeEntry_onlyQueues (e : Nat) (m : CanModule) :
    OnlyQueues m (freeEntry ps e m).state := by
  unfold freeEntry
  split <;> rfl

theorem pqPush_onlyQueues (l e : Nat) (m : CanModule) : OnlyQueues m (pqPush ps l e m).state := by
  unfold pqPush
  split
  · rfl
  · split <;> rfl

theorem enqueue_onlyQueues (msg : Message) (w : Word) (l : BitVec 3) (m : CanModule) :
    OnlyQueues m (enqueue ps msg w l m).state := by
  unfold enqueue
  split
  · rfl
  · next e m₁ ha =>
    obtain ⟨-, -, -, rfl⟩ := allocEntry_eq_some ha
    have hfill : OnlyQueues m (fillEntry e msg w l { m with
      pool := m.pool.modify e fun en => { en with inUse := true }, used := m.used + 1 }) := rfl
    simp only
    split
    · exact hfill
    · split
      · exact hfill.trans (.andThen (freeEntry_onlyQueues ps e _) fun _ _ => rfl)
      · exact hfill.trans (.andThen (pqPush_onlyQueues ps l.toNat e _) fun _ _ => rfl)

theorem dequeueHighest_onlyQueues (m : CanModule) :
    OnlyQueues m (dequeueHighest ps m).state := by
  unfold dequeueHighest
  split
  · rfl
  · split
    · rfl
    · split
      · rfl
      · split <;> rfl

theorem removeByTxId_onlyQueues (w : Word) (m : CanModule) :
    OnlyQueues m (removeByTxId ps w m).state := by
  unfold removeByTxId
  split
  · rfl
  · rfl
  · next l k e _ =>
    split
    · rfl
    · next q _ =>
      have hrm : OnlyQueues m (removeAt ps l k q m) := rfl
      exact hrm.trans (.andThen (freeEntry_onlyQueues ps e _) fun _ _ => rfl)

/-! ## Submission -/

/-- A part of a Module that no submission writes: it lies outside the queues, the pool and the
tracker. -/
structure OutsideSubmission (keep : CanModule → κ) : Prop where
  queues  : ∀ {m m' : CanModule}, OnlyQueues m m' → keep m' = keep m
  tracker : ∀ (m : CanModule) (mb : List Mailbox), keep { m with mb := mb } = keep m

theorem OutsideSubmission.recordMb (hk : OutsideSubmission keep) (k : Nat) (w : Word) :
    Leaves keep (recordMb ps k w) := fun m => by
  unfold Machine.recordMb
  split
  · exact hk.tracker m _
  · rfl

theorem OutsideSubmission.completeMb (hk : OutsideSubmission keep) (k : Nat) :
    Leaves keep (completeMb ps k) := fun m => by
  unfold Machine.completeMb
  split
  · rfl
  · exact hk.tracker m _

theorem HandlerKeeps.drvFreeMb (h : HandlerKeeps keep s t) (b : Byte) :
    HandlerKeeps keep s (drvFreeMb b t).state := by
  unfold Machine.drvFreeMb
  split <;> exact h.request _

theorem HandlerKeeps.submitEntry (hk : OutsideSubmission keep) (h : HandlerKeeps keep s t)
    (m : CanModule) (en : Entry) : HandlerKeeps keep s (submitEntry i m en t).state := by
  have hr := h.request (.addTx m.cfg.periph (txHeader en.msg) en.msg.data)
  unfold Machine.submitEntry
  simp only
  split
  · exact (hr.noteSubmitted en.txId).onSlot (hk.recordMb _ _ _)
  · exact hr.emit i _

theorem HandlerKeeps.addTx (hk : OutsideSubmission keep) (h : HandlerKeeps keep s t) (e : Nat) :
    HandlerKeeps keep s (addTx i e t).state := by
  unfold Machine.addTx
  split
  · exact h
  · split
    · exact h
    · exact h.submitEntry hk _ _

/-- One submission in the interrupt context (42_mailbox_tracker.md R230). -/
theorem HandlerKeeps.submitNextIsr (hk : OutsideSubmission keep) (h : HandlerKeeps keep s t) :
    HandlerKeeps keep s (submitNextIsr i t).state := by
  unfold Machine.submitNextIsr
  split
  · exact h
  · refine Run.state_andThen (h.drvFreeMb _) fun n u hu => ?_
    split
    · exact hu
    · refine Run.state_andThen
        (hu.onSlot fun m => hk.queues (dequeueHighest_onlyQueues _ m)) fun o v hv => ?_
      cases o with
      | none => exact hv
      | some e =>
        refine Run.state_andThen (hv.addTx hk e) fun _ x hx => ?_
        exact Run.state_andThen (hx.onSlot fun m => hk.queues (freeEntry_onlyQueues _ e m))
          fun _ _ hy => hy

end Sys2Proof.Machine

/-! What each event handler writes (44_interrupt_dispatch.md R352). -/

namespace Sys2Proof.Machine

variable {κ : Type} {keep : CanModule → κ} {s t : State} {i : Nat} {b mb : Byte}
  {fifo : BitVec 1} {m m' : CanModule}

/-! ## What each handler leaves of a slot -/

/-- A Module with what EVT_RX_PENDING may write of it blanked: the ring but its consumer cursor, and
`stat.rx`. -/
def CanModule.besidesRx (m : CanModule) : CanModule :=
  { m with
    rx := { m.rx with slot := [], widx := 0, overrun := 0 }
    stat := { m.stat with rx := 0 } }

/-- A Module with what EVT_TX_COMPLETE may write of it blanked: the tracker, the queues, the pool
and `stat.tx`. -/
def CanModule.besidesTx (m : CanModule) : CanModule :=
  { m with
    mb := []
    pq := []
    bitmap := 0
    pool := []
    used := 0
    stat := { m.stat with tx := 0 } }

/-- A Module with what EVT_ERROR may write of it blanked: `stat.err`. -/
def CanModule.besidesErr (m : CanModule) : CanModule := { m with stat := { m.stat with err := 0 } }

theorem CanModule.eq_of_besidesRx (h : m'.besidesRx = m.besidesRx) :
    { m' with
      rx := { m'.rx with slot := m.rx.slot, widx := m.rx.widx, overrun := m.rx.overrun }
      stat := { m'.stat with rx := m.stat.rx } } = m :=
  (congrArg (fun x : CanModule => { x with
    rx := { x.rx with slot := m.rx.slot, widx := m.rx.widx, overrun := m.rx.overrun }
    stat := { x.stat with rx := m.stat.rx } }) h :)

theorem CanModule.eq_of_besidesTx (h : m'.besidesTx = m.besidesTx) :
    { m' with
      mb := m.mb
      pq := m.pq
      bitmap := m.bitmap
      pool := m.pool
      used := m.used
      stat := { m'.stat with tx := m.stat.tx } } = m :=
  (congrArg (fun x : CanModule => { x with
    mb := m.mb
    pq := m.pq
    bitmap := m.bitmap
    pool := m.pool
    used := m.used
    stat := { x.stat with tx := m.stat.tx } }) h :)

theorem CanModule.eq_of_besidesErr (h : m'.besidesErr = m.besidesErr) :
    { m' with stat := { m'.stat with err := m.stat.err } } = m :=
  (congrArg (fun x : CanModule => { x with stat := { x.stat with err := m.stat.err } }) h :)

theorem besidesTx_outsideSubmission : OutsideSubmission CanModule.besidesTx where
  queues := fun h => (congrArg CanModule.besidesTx h :)
  tracker := fun _ _ => rfl

/-- A count leaves what is left of the statistics without the counter it raises. -/
theorem countStat_leaves {p : Params} {f : Stats → Stats}
    (hk : ∀ m : CanModule, keep { m with stat := f m.stat } = keep m) :
    Leaves keep (countStat p f) := fun m => by
  unfold countStat
  split
  · exact hk m
  · rfl

theorem rxPush_leaves_besidesRx (p : Params) (msg : Message) :
    Leaves CanModule.besidesRx (rxPush p msg) := fun m => by
  unfold rxPush
  split
  · rfl
  · split <;> rfl

/-! ## The handlers -/

theorem HandlerKeeps.indicate (h : HandlerKeeps keep s t) :
    HandlerKeeps keep s (indicate i t).state := by
  unfold Machine.indicate
  split
  · exact h
  · rw [Run.state_ok]
    split
    · exact h.same ⟨rfl, rfl, rfl, rfl, rfl⟩ rfl
    · exact h

theorem HandlerKeeps.deliver (h : HandlerKeeps CanModule.besidesRx s t) (msg : Message) :
    HandlerKeeps CanModule.besidesRx s (deliver i msg t).state := by
  unfold Machine.deliver
  split
  · exact h.emit i _
  · refine Run.state_andThen (h.onSlot (rxPush_leaves_besidesRx _ msg)) fun r u hu => ?_
    cases r with
    | pushed => exact hu
    | dropped => exact hu.emit i _

theorem HandlerKeeps.receive (h : HandlerKeeps CanModule.besidesRx s t) (a : DrvAnswer) :
    HandlerKeeps CanModule.besidesRx s (receive i a t).state := by
  unfold Machine.receive
  split
  · refine Run.state_andThen (h.onSlot (countStat_leaves fun _ => rfl)) fun _ u hu => ?_
    exact Run.state_andThen hu.indicate fun _ v hv => hv.deliver _
  · exact h

theorem HandlerKeeps.reportCompletion (h : HandlerKeeps CanModule.besidesTx s t) (was : Mailbox) :
    HandlerKeeps CanModule.besidesTx s (reportCompletion i was t).state := by
  unfold Machine.reportCompletion
  split
  · exact Run.state_andThen (h.onSlot (countStat_leaves fun _ => rfl)) fun _ u hu => hu.emit i _
  · exact h

theorem HandlerKeeps.reportError (h : HandlerKeeps keep s t) (c : Word) :
    HandlerKeeps keep s (reportError i c t) := by
  unfold Machine.reportError
  split
  · exact (h.emit i _).emit i _
  · exact h.emit i _

theorem exec_evtRxPending_keeps (h : exec (.evtRxPending b fifo) s = .next t) :
    HandlerKeeps CanModule.besidesRx s t := by
  refine HandlerKeeps.withEvent (fun i => ?_) h
  have hr : HandlerKeeps CanModule.besidesRx s (s.request (.getRx b fifo)) :=
    (HandlerKeeps.refl s).request _
  split
  · exact hr.receive _
  · exact hr.emit i _

theorem exec_evtTxComplete_keeps (h : exec (.evtTxComplete b mb) s = .next t) :
    HandlerKeeps CanModule.besidesTx s t := by
  refine HandlerKeeps.withEvent (fun i => ?_) h
  refine Run.state_andThen ((HandlerKeeps.refl s).onSlot
    (besidesTx_outsideSubmission.completeMb _ _)) fun was u hu => ?_
  refine Run.state_andThen (hu.reportCompletion was) fun _ v hv => ?_
  exact Run.state_andThen (hv.submitNextIsr besidesTx_outsideSubmission) fun _ _ hw => hw

theorem exec_evtError_keeps (h : exec (.evtError b) s = .next t) :
    HandlerKeeps CanModule.besidesErr s t := by
  refine HandlerKeeps.withEvent (fun i => ?_) h
  refine Run.state_andThen (((HandlerKeeps.refl s).request _).onSlot
    (countStat_leaves fun _ => rfl)) fun _ u hu => ?_
  exact hu.reportError _

/-- What a handler leaves, as a relation `R` of each slot before and after it. -/
theorem HandlerKeeps.touches {R : CanModule → CanModule → Prop} (h : HandlerKeeps keep s t)
    (hR : ∀ m m', keep m' = keep m → R m m') :
    t.nctx = s.nctx ∧ t.params = s.params ∧ t.rsp = s.rsp ∧ t.turns = s.turns ∧
      ∀ j m', t.slot? j = some m' → ∃ m, s.slot? j = some m ∧ R m m' := by
  refine ⟨h.nctx, h.params, h.rsp, h.turns, fun j m' hm' => ?_⟩
  obtain ⟨m, hm, heq⟩ := h.slots.before hm'
  exact ⟨m, hm, hR m m' heq⟩

/-- Settles O56: each part of a handler leaves of every slot what the handler may not write. -/
theorem handlersTouchOnlyTheirState : Obligations.HandlersTouchOnlyTheirState := by
  intro s t x p hx h
  cases x with
  | evtRxPending q fifo =>
    cases hx
    exact (exec_evtRxPending_keeps h).touches fun m m' heq =>
      ⟨fun _ => CanModule.eq_of_besidesRx heq, nofun, nofun⟩
  | evtTxComplete q mb =>
    cases hx
    exact (exec_evtTxComplete_keeps h).touches fun m m' heq =>
      ⟨nofun, fun _ => CanModule.eq_of_besidesTx heq, nofun⟩
  | evtError q =>
    cases hx
    exact (exec_evtError_keeps h).touches fun m m' heq =>
      ⟨nofun, nofun, fun _ => CanModule.eq_of_besidesErr heq⟩
  | _ => cases hx

end Sys2Proof.Machine

/-! What changes the statistics counters, and what does not (44_interrupt_dispatch.md R331, R332,
R341). -/

namespace Sys2Proof.Machine

variable {κ : Type} {keep : CanModule → κ} {s t u : State} {i : Nat} {b : Byte} {m m' : CanModule}

theorem stat_outsideSubmission : OutsideSubmission CanModule.stat where
  queues := fun h => (congrArg CanModule.stat h :)
  tracker := fun _ _ => rfl

/-! ## The phases of a submission in the normal context -/

theorem phaseQuery_slotsKeep (s : State) : SlotsKeep keep s (phaseQuery s).state := by
  unfold phaseQuery
  split
  · exact .refl s
  · refine Run.state_andThen ((HandlerKeeps.refl s).drvFreeMb _).slots fun n u hu => ?_
    split <;> exact hu.same rfl rfl

theorem phaseDeq_slotsKeep (hk : OutsideSubmission keep) (s : State) :
    SlotsKeep keep s (phaseDeq s).state := by
  refine Run.state_andThen ((SlotsKeep.refl s).onSlot fun m =>
    hk.queues (dequeueHighest_onlyQueues _ m)) fun o u hu => ?_
  cases o <;> exact hu.same rfl rfl

theorem phaseAdd_slotsKeep (hk : OutsideSubmission keep) (s : State) :
    SlotsKeep keep s (phaseAdd s).state := by
  unfold phaseAdd
  split
  · exact .refl s
  · exact Run.state_andThen ((HandlerKeeps.refl s).addTx hk _).slots fun _ u hu => hu.same rfl rfl

theorem phaseFree_slotsKeep (hk : OutsideSubmission keep) (s : State) :
    SlotsKeep keep s (phaseFree s).state := by
  unfold phaseFree
  split
  · exact .refl s
  · next e _ =>
    refine Run.state_andThen ((SlotsKeep.refl s).onSlot fun m =>
      hk.queues (freeEntry_onlyQueues _ e m)) fun _ u hu => ?_
    rw [Run.state_ok, submissionAttempted]
    split <;> exact hu.same rfl rfl

/-- No step of the normal context inside a command writes a part outside the submission. -/
theorem normalStep_slotsKeep (hk : OutsideSubmission keep) (h : normalStep s = .next t) :
    SlotsKeep keep s t := by
  unfold normalStep at h
  split at h
  · cases h
    exact .refl s
  · exact (phaseQuery_slotsKeep s).of_finish h
  · exact (phaseDeq_slotsKeep hk s).of_finish h
  · exact (phaseAdd_slotsKeep hk s).of_finish h
  · exact (phaseFree_slotsKeep hk s).of_finish h

/-! ## The commands -/

theorem SlotsKeep.of_reply {r : Response} (hu : SlotsKeep keep s u) (h : u.reply r = .next t) :
    SlotsKeep keep s t := by
  cases h
  exact hu.same rfl rfl

theorem SlotsKeep.withHandle {k : CanModule → Host.Outcome State Fault Refusal}
    (hk : ∀ m, s.slot? b.toNat = some m → k m = .next t → SlotsKeep keep s t)
    (h : s.withHandle b k = .next t) : SlotsKeep keep s t := by
  cases hc : s.claimed? b with
  | none =>
    rw [State.withHandle_none hc] at h
    exact (SlotsKeep.refl s).of_reply h
  | some m =>
    rw [State.withHandle_some hc] at h
    exact hk m (State.claimed?_eq_some.mp hc).1 h

/-- A command that runs an operation on its Module and then changes no slot. -/
theorem SlotsKeep.onSlot_finish {α : Type} {f : CanModule → Run CanModule α}
    {g : α → State → Run State Unit} (hf : Leaves keep f)
    (hg : ∀ a v, SlotsKeep keep s v → SlotsKeep keep s (g a v).state)
    (h : ((s.onSlot i f).andThen g).finish = .next t) : SlotsKeep keep s t :=
  .of_finish (Run.state_andThen ((SlotsKeep.refl s).onSlot hf) hg) h

theorem rxPop_leaves_stat (p : Params) : Leaves CanModule.stat (rxPop p) := fun m => by
  unfold rxPop
  split
  · rfl
  · split <;> rfl

theorem stageFilter_leaves_stat (p : Params) (f : RxFilter) :
    Leaves CanModule.stat (stageFilter p f) := fun m => by
  unfold stageFilter
  split
  · rfl
  · split <;> rfl

theorem execStart_slotsKeep_stat (h : execStart b s = .next t) :
    SlotsKeep CanModule.stat s t := by
  refine SlotsKeep.withHandle (fun m hm h => ?_) h
  split at h
  · exact (SlotsKeep.refl s).of_reply h
  · obtain ⟨hp, hmod⟩ := startSequence_modules m s
    refine .of_finish ?_ h
    cases hseq : startSequence m s with
    | fault r v =>
      rw [hseq] at hp hmod
      exact (SlotsKeep.refl s).same hp hmod
    | ok ok v =>
      rw [hseq] at hp hmod
      have hv : SlotsKeep CanModule.stat s v := (SlotsKeep.refl s).same hp hmod
      rw [Run.andThen_ok]
      split
      · have hset : SlotsKeep CanModule.stat s (v.setSlot b.toNat { m with started := true }) :=
          hv.setSlot ((State.slot?_congr hp hmod _).trans hm) rfl
        exact hset.same rfl rfl
      · exact hv.same rfl rfl

/-- A command on a handle counts nothing; FREE, which clears the slot, is set apart. -/
theorem exec_slotsKeep_stat {x : Instr} (hx : handleOf x = some b) (hfree : x ≠ .free b)
    (h : exec x s = .next t) : SlotsKeep CanModule.stat s t := by
  cases x with
  | allocate p lb sil artx led => cases hx
  | free c => cases hx; exact absurd rfl hfree
  | addFilter c fifo id ide mask =>
    refine SlotsKeep.withHandle (fun m _ h => ?_) h
    split at h
    · exact (SlotsKeep.refl s).of_reply h
    · split at h
      · exact (SlotsKeep.refl s).of_reply h
      · exact .onSlot_finish (stageFilter_leaves_stat _ _) (fun _ _ hv => hv.same rfl rfl) h
  | start c => exact execStart_slotsKeep_stat h
  | stop c =>
    refine SlotsKeep.withHandle (fun m hm h => ?_) h
    split at h
    · have hstop : SlotsKeep CanModule.stat s (stopSequence c.toNat m s) :=
        (((SlotsKeep.refl s).request _).request _).setSlot hm rfl
      exact hstop.of_reply h
    · exact (SlotsKeep.refl s).of_reply h
  | registerCb c kind en =>
    refine SlotsKeep.withHandle (fun m hm h => ?_) h
    have hset : SlotsKeep CanModule.stat s (s.setSlot c.toNat
        { m with cbEn := m.cbEn.set kind en }) := (SlotsKeep.refl s).setSlot hm rfl
    exact hset.of_reply h
  | transmit c prio txid id ide rtr len data ts =>
    refine SlotsKeep.withHandle (fun m _ h => ?_) h
    split at h
    · refine .onSlot_finish (fun m => stat_outsideSubmission.queues (enqueue_onlyQueues _ _ _ _ m))
        (fun r v hv => ?_) h
      split
      · exact hv.same rfl rfl
      · split <;> exact hv.same rfl rfl
    · exact (SlotsKeep.refl s).of_reply h
  | abortTx c txid =>
    exact SlotsKeep.withHandle (fun _ _ h => .onSlot_finish
      (fun m => stat_outsideSubmission.queues (removeByTxId_onlyQueues _ _ m))
      (fun _ _ hv => hv.same rfl rfl) h) h
  | getOccupancy c => exact SlotsKeep.withHandle (fun _ _ h => (SlotsKeep.refl s).of_reply h) h
  | rxRead c =>
    refine SlotsKeep.withHandle (fun m _ h =>
      .onSlot_finish (rxPop_leaves_stat _) (fun o v hv => ?_) h) h
    cases o <;> exact hv.same rfl rfl
  | getBusState c =>
    exact SlotsKeep.withHandle (fun _ _ h => ((SlotsKeep.refl s).request _).of_reply h) h
  | getErrorCounters c =>
    exact SlotsKeep.withHandle (fun _ _ h => ((SlotsKeep.refl s).request _).of_reply h) h
  | getStats c => exact SlotsKeep.withHandle (fun _ _ h => (SlotsKeep.refl s).of_reply h) h
  | evtRxPending p fifo => cases hx
  | evtTxComplete p mb => cases hx
  | evtError p => cases hx

/-! ## The events -/

/-- EVT_TX_COMPLETE counts by the tracker slot alone: the submission after it, whatever the driver
answers, counts nothing (44_interrupt_dispatch.md R331, R332). -/
theorem StartedOn.counts_completion {p mb : Byte} {was : Mailbox} (ho : StartedOn p i m s)
    (hg : s.Good) (hwas : m.mb[mb.toNat]? = some was) :
    ∃ t m', exec (.evtTxComplete p mb) s = .next t ∧ t.slot? i = some m' ∧
      m'.stat = (m.completed s.params mb.toNat was).stat := by
  obtain ⟨u, hexec, hu⟩ := ho.completes hg hwas
  obtain ⟨t, ht⟩ := Run.finish_next (submitNextIsr i u)
  have hkeeps : HandlerKeeps CanModule.stat u t :=
    ((HandlerKeeps.refl u).submitNextIsr stat_outsideSubmission).of_finish ht
  obtain ⟨m', hm', hstat⟩ := hkeeps.slots.after hu.slot
  exact ⟨t, m', hexec.trans ht, hm', hstat⟩

/-- Settles O47: the two counts are those of the handlers; EVT_RX_PENDING, the commands and the
phases of a submission leave the counters. -/
theorem statisticsCountTheirEvents : Obligations.StatisticsCountTheirEvents := by
  refine ⟨fun s p mb i m was hg hen ho hwas => ?_, fun s p i m hg hen ho => ?_,
    fun s p fifo i m hg ho => ?_,
    fun s t x b hx hfree h j m hm => (exec_slotsKeep_stat hx hfree h).after hm,
    fun s t h j m hm => (normalStep_slotsKeep stat_outsideSubmission h).after hm⟩
  · obtain ⟨t, m', hexec, hm', hstat⟩ := ho.counts_completion hg hwas
    refine ⟨t, m', hexec, hm', hstat.trans ?_⟩
    cases hact : was.active <;> simp [CanModule.completed, hen, hact, Stats.bumpTx]
  · obtain ⟨t, hexec, -, hslot, -⟩ := errorEventClassifies s p i m hg ho
    exact ⟨t, _, hexec, hslot, if_pos hen⟩
  · obtain ⟨t, hexec⟩ : ∃ t, exec (.evtRxPending p fifo) s = .next t := by
      simp only [exec, execEvtRxPending, ho.withEvent hg]
      exact Run.finish_next _
    obtain ⟨m', hm', hkeep⟩ := (exec_evtRxPending_keeps hexec).slots.after ho.slot
    exact ⟨t, m', hexec, hm', (congrArg (fun x : CanModule => x.stat.tx) hkeep :),
      (congrArg (fun x : CanModule => x.stat.err) hkeep :)⟩

end Sys2Proof.Machine

/-! A lawful environment is never blamed: no part of a step records the fault DriverContract, and
what the step leaves of the environment's coming choices is lawful (60_exceptions.md R430; log 2). -/

namespace Sys2Proof.Machine

variable {s t : State} {i : Nat} {p : Params}

/-! ## A block whose environment keeps the driver contract -/

/-- The environment's coming choices are lawful, and it has not been found to break its contract. A
fault of the block's own is not excluded: that no good state has one is `step_keeps`. -/
structure State.Blameless (s : State) : Prop where
  lawful : s.lawful = true
  fault  : s.fault ≠ some .driverContract

/-- Whether a block is blameless is read off the build, the environment's choices and the fault
record. -/
theorem State.Blameless.same (h : s.Blameless) (hp : t.params = s.params)
    (ha : t.drvAns = s.drvAns) (ht : t.turns = s.turns) (hf : t.fault = s.fault) : t.Blameless :=
  ⟨(State.lawful_congr hp ha ht).trans h.lawful, hf ▸ h.fault⟩

theorem State.Blameless.request (h : s.Blameless) (r : DrvRequest) : (s.request r).Blameless :=
  ⟨State.lawful_request h.lawful r, h.fault⟩

theorem State.Blameless.emit (h : s.Blameless) (i : Nat) (b : NtfBody) :
    (s.emit i b).Blameless :=
  h.same (by simp) (by simp) (by simp) (by simp)

theorem State.Blameless.setSlot (h : s.Blameless) (i : Nat) (m : CanModule) :
    (s.setSlot i m).Blameless :=
  h.same rfl rfl rfl rfl

theorem State.Blameless.answer (h : s.Blameless) (r : Response) : (s.answer r).Blameless :=
  h.same rfl rfl rfl rfl

theorem State.Blameless.noteSubmitted (h : s.Blameless) (w : Word) :
    (s.noteSubmitted w).Blameless :=
  h.same rfl rfl rfl rfl

theorem State.Blameless.complete (h : s.Blameless) : s.complete.Blameless := h.same rfl rfl rfl rfl

/-- A fault of the block's own is no blame of its environment. -/
theorem State.Blameless.raise (h : s.Blameless) : (s.raise .invariantBroken).Blameless :=
  ⟨(State.lawful_congr rfl rfl rfl).trans h.lawful, by simp⟩

/-- The invariant leaves no fault but DriverContract, and that is a blame. -/
theorem State.Blameless.good_of_inv (h : s.Blameless) (hi : s.Inv) : s.Good ∧ s.fault = none := by
  cases hf : s.fault with
  | none => exact ⟨by simpa [State.Inv, hf] using hi, rfl⟩
  | some r =>
    have hr : r = .driverContract := by simpa [State.Inv, hf] using hi
    exact absurd (hr ▸ hf) h.fault

/-- A lawful answer's header is legal (60_exceptions.md R424). -/
theorem State.nextAnswer_hdr_ok (h : s.lawful = true) : rxHeaderOk s.nextAnswer.hdr = true := by
  have hok := State.nextAnswer_ok h
  rw [answerOk, Bool.and_eq_true] at hok
  exact hok.2

/-! ## Operations on a Module -/

/-- A fault in an operation on a Module is one of the block's own: a failed check of its state, not
of an answer (20_memory.md R81). -/
def Run.Internal {α : Type} (x : Run CanModule α) : Prop :=
  match x with
  | .ok _ _ => True
  | .fault r _ => r = .invariantBroken

theorem Run.Internal.andThen {α β : Type} {x : Run CanModule α}
    {f : α → CanModule → Run CanModule β} (hx : x.Internal) (hf : ∀ a m, (f a m).Internal) :
    (x.andThen f).Internal := by
  cases x with
  | ok a m => exact hf a m
  | fault r m => exact hx

theorem freeEntry_internal (e : Nat) (m : CanModule) : (freeEntry p e m).Internal := by
  unfold freeEntry
  split
  · rfl
  · trivial

theorem pqPush_internal (l e : Nat) (m : CanModule) : (pqPush p l e m).Internal := by
  unfold pqPush
  split
  · rfl
  · split
    · trivial
    · rfl

theorem enqueue_internal (msg : Message) (w : Word) (l : BitVec 3) (m : CanModule) :
    (enqueue p msg w l m).Internal := by
  unfold enqueue
  split
  · trivial
  · simp only
    split
    · rfl
    · split
      · exact (freeEntry_internal _ _).andThen fun _ _ => trivial
      · exact (pqPush_internal _ _ _).andThen fun _ _ => trivial

theorem dequeueHighest_internal (m : CanModule) : (dequeueHighest p m).Internal := by
  unfold dequeueHighest
  split
  · trivial
  · split
    · rfl
    · split
      · rfl
      · split
        · rfl
        · trivial

theorem removeByTxId_internal (w : Word) (m : CanModule) : (removeByTxId p w m).Internal := by
  unfold removeByTxId
  split
  · trivial
  · rfl
  · split
    · rfl
    · exact (freeEntry_internal _ _).andThen fun _ _ => trivial

theorem rxPush_internal (msg : Message) (m : CanModule) : (rxPush p msg m).Internal := by
  unfold rxPush
  split
  · trivial
  · split
    · rfl
    · trivial

theorem rxPop_internal (m : CanModule) : (rxPop p m).Internal := by
  unfold rxPop
  split
  · trivial
  · split
    · rfl
    · trivial

theorem completeMb_internal (k : Nat) (m : CanModule) : (completeMb p k m).Internal := by
  unfold completeMb
  split
  · rfl
  · trivial

theorem stageFilter_internal (f : RxFilter) (m : CanModule) : (stageFilter p f m).Internal := by
  unfold stageFilter
  split
  · trivial
  · split
    · rfl
    · trivial

/-- The one operation on a Module that checks an answer, on a mailbox in range
(42_mailbox_tracker.md R233). -/
theorem recordMb_internal {k : Nat} (w : Word) (hk : k < p.numMb) (m : CanModule) :
    (recordMb p k w m).Internal := by
  rw [recordMb, if_pos hk]
  trivial

/-! ## Parts of steps -/

/-- A part of a step leaves a blameless block, and a fault it meets is one of the block's own. -/
def Run.Blameless {α : Type} (x : Run State α) : Prop :=
  match x with
  | .ok _ t => t.Blameless
  | .fault r t => r = .invariantBroken ∧ t.Blameless

theorem Run.Blameless.andThen {α β : Type} {x : Run State α} {f : α → State → Run State β}
    (hx : x.Blameless) (hf : ∀ a t, t.Blameless → (f a t).Blameless) :
    (x.andThen f).Blameless := by
  cases x with
  | ok a t => exact hf a t hx
  | fault r t => exact hx

theorem State.Blameless.onSlot {α : Type} {f : CanModule → Run CanModule α} (h : s.Blameless)
    (i : Nat) (hf : ∀ m, (f m).Internal) : (s.onSlot i f).Blameless := by
  cases hm : s.slot? i with
  | none => simpa [State.onSlot, hm, Run.Blameless] using h
  | some m =>
    have hfm := hf m
    rw [State.onSlot_of hm]
    cases hx : f m with
    | ok a m' => exact h.setSlot i m'
    | fault r m' =>
      rw [hx] at hfm
      exact ⟨hfm, h.setSlot i m'⟩

/-- A lawful driver's count is in range (60_exceptions.md R425). -/
theorem State.Blameless.drvFreeMb (h : s.Blameless) (b : Byte) : (drvFreeMb b s).Blameless := by
  have hcount := (State.nextAnswer_in_range h.lawful).2
  rw [drvFreeMb_eq_ok.mpr ⟨hcount, rfl, rfl⟩]
  exact h.request _

/-- A lawful driver's mailbox is in range (60_exceptions.md R425). -/
theorem State.Blameless.submitEntry (h : s.Blameless) (i : Nat) (m : CanModule) (en : Entry) :
    (submitEntry i m en s).Blameless := by
  have hmb := (State.nextAnswer_in_range h.lawful).1
  have hreq := h.request (.addTx m.cfg.periph (txHeader en.msg) en.msg.data)
  unfold Machine.submitEntry
  simp only
  split
  · exact (hreq.noteSubmitted en.txId).onSlot i (recordMb_internal en.txId hmb)
  · exact hreq.emit _ _

theorem State.Blameless.addTx (h : s.Blameless) (i e : Nat) : (addTx i e s).Blameless := by
  unfold Machine.addTx
  split
  · exact ⟨rfl, h⟩
  · split
    · exact ⟨rfl, h⟩
    · exact h.submitEntry _ _ _

theorem State.Blameless.submitNextIsr (h : s.Blameless) (i : Nat) :
    (submitNextIsr i s).Blameless := by
  unfold Machine.submitNextIsr
  split
  · exact ⟨rfl, h⟩
  · refine (h.drvFreeMb _).andThen fun n u hu => ?_
    split
    · exact hu
    · refine (hu.onSlot i dequeueHighest_internal).andThen fun o v hv => ?_
      cases o with
      | none => exact hv
      | some e =>
        refine (hv.addTx i e).andThen fun _ w hw => ?_
        exact (hw.onSlot i (freeEntry_internal e)).andThen fun _ x hx => hx

/-! ## Whole steps -/

/-- A step is made, and the block it leaves is blameless. -/
def EndsBlameless (o : Host.Outcome State Fault Refusal) : Prop := ∃ t, o = .next t ∧ t.Blameless

theorem Run.Blameless.finish {α : Type} {x : Run State α} (hx : x.Blameless) :
    EndsBlameless x.finish := by
  cases x with
  | ok a t => exact ⟨t, rfl, hx⟩
  | fault r t =>
    obtain ⟨rfl, ht⟩ := hx
    exact ⟨_, rfl, ht.raise⟩

theorem State.Blameless.reply (h : s.Blameless) (r : Response) : EndsBlameless (s.reply r) :=
  ⟨_, rfl, h.answer r⟩

theorem State.Blameless.withHandle {k : CanModule → Host.Outcome State Fault Refusal}
    (h : s.Blameless) (b : Byte) (hk : ∀ m, EndsBlameless (k m)) :
    EndsBlameless (s.withHandle b k) := by
  cases hc : s.claimed? b with
  | none => exact State.withHandle_none hc ▸ h.reply _
  | some m => exact State.withHandle_some hc ▸ hk m

theorem State.Blameless.withEvent {k : Nat → Run State Unit} (h : s.Blameless) (b : Byte)
    (hk : ∀ i, (k i).Blameless) : EndsBlameless (s.withEvent b k) := by
  cases hr : s.resolve b with
  | none => exact State.withEvent_none hr ▸ ⟨s, rfl, h⟩
  | some i => exact State.withEvent_some hr ▸ (hk i).finish

/-- A command that runs an operation on its Module and then answers, or begins a submission. -/
theorem State.Blameless.onSlot_finish {α : Type} {f : CanModule → Run CanModule α}
    {g : α → State → Run State Unit} (h : s.Blameless) (i : Nat) (hf : ∀ m, (f m).Internal)
    (hg : ∀ a t, t.Blameless → (g a t).Blameless) :
    EndsBlameless ((s.onSlot i f).andThen g).finish :=
  ((h.onSlot i hf).andThen hg).finish

end Sys2Proof.Machine

/-! A lawful environment, instruction by instruction and step by step (60_exceptions.md R430). -/

namespace Sys2Proof.Machine

variable {s t : State} {b : Byte}

/-! ## The phases of a submission in the normal context -/

theorem State.Blameless.submissionAttempted (h : s.Blameless) :
    (submissionAttempted s).Blameless := by
  unfold Machine.submissionAttempted
  split
  · exact h.same rfl rfl rfl rfl
  · exact h.complete

theorem phaseQuery_blameless (h : s.Blameless) : (phaseQuery s).Blameless := by
  unfold phaseQuery
  split
  · exact ⟨rfl, h⟩
  · refine (h.drvFreeMb _).andThen fun n t ht => ?_
    split
    · exact ht.complete
    · exact ht.same rfl rfl rfl rfl

theorem phaseDeq_blameless (h : s.Blameless) : (phaseDeq s).Blameless := by
  refine (h.onSlot _ dequeueHighest_internal).andThen fun o t ht => ?_
  cases o with
  | none => exact ht.complete
  | some e => exact ht.same rfl rfl rfl rfl

theorem phaseAdd_blameless (h : s.Blameless) : (phaseAdd s).Blameless := by
  unfold phaseAdd
  split
  · exact ⟨rfl, h⟩
  · exact (h.addTx _ _).andThen fun _ t ht => ht.same rfl rfl rfl rfl

theorem phaseFree_blameless (h : s.Blameless) : (phaseFree s).Blameless := by
  unfold phaseFree
  split
  · exact ⟨rfl, h⟩
  · refine (h.onSlot _ (freeEntry_internal _)).andThen fun _ t ht => ?_
    exact State.Blameless.submissionAttempted (ht.same rfl rfl rfl rfl)

theorem normalStep_blameless (h : s.Blameless) : EndsBlameless (normalStep s) := by
  unfold normalStep
  split
  · exact ⟨s, rfl, h⟩
  · exact (phaseQuery_blameless h).finish
  · exact (phaseDeq_blameless h).finish
  · exact (phaseAdd_blameless h).finish
  · exact (phaseFree_blameless h).finish

/-! ## The commands -/

theorem execAllocate_blameless {lb sil artx led : Bool} (h : s.Blameless) :
    EndsBlameless (execAllocate b lb sil artx led s) := by
  unfold execAllocate
  split
  · exact h.reply _
  · split
    · exact h.reply _
    · split
      · exact h.reply _
      · exact (h.setSlot _ _).reply _

theorem State.Blameless.stopSequence (h : s.Blameless) (i : Nat) (m : CanModule) :
    (stopSequence i m s).Blameless :=
  ((h.request _).request _).setSlot _ _

theorem execFree_blameless (h : s.Blameless) : EndsBlameless (execFree b s) := by
  refine h.withHandle b fun m => ?_
  split
  · exact ((h.stopSequence _ _).setSlot _ _).reply _
  · exact (h.setSlot _ _).reply _

theorem execStop_blameless (h : s.Blameless) : EndsBlameless (execStop b s) := by
  refine h.withHandle b fun m => ?_
  split
  · exact (h.stopSequence _ _).reply _
  · exact h.reply _

theorem execAddFilter_blameless {fifo : BitVec 1} {id mask : CanId} {ide : Bool}
    (h : s.Blameless) : EndsBlameless (execAddFilter b fifo id ide mask s) := by
  refine h.withHandle b fun m => ?_
  split
  · exact h.reply _
  · split
    · exact h.reply _
    · exact h.onSlot_finish _ (stageFilter_internal _) fun _ t ht => ht.answer _

theorem programFilters_blameless (m : CanModule) (n k : Nat) (h : s.Blameless) :
    (programFilters m n k s).Blameless := by
  induction n generalizing k s with
  | zero => exact h
  | succ n ih =>
    unfold programFilters
    split
    · exact ⟨rfl, h⟩
    · split
      · exact ih _ (h.request _)
      · exact h.request _

theorem startPeripheral_blameless (m : CanModule) (h : s.Blameless) :
    (startPeripheral m s).Blameless := by
  unfold startPeripheral
  simp only
  split
  · exact h.request _
  · split
    · exact ((h.request _).request _).request _
    · exact (h.request _).request _

theorem startSequence_blameless (m : CanModule) (h : s.Blameless) :
    (startSequence m s).Blameless := by
  refine (programFilters_blameless m _ _ h).andThen fun ok t ht => ?_
  split
  · exact startPeripheral_blameless m ht
  · exact ht

theorem execStart_blameless (h : s.Blameless) : EndsBlameless (execStart b s) := by
  refine h.withHandle b fun m => ?_
  split
  · exact h.reply _
  · refine ((startSequence_blameless m h).andThen fun ok t ht => ?_).finish
    split
    · exact ht.same rfl rfl rfl rfl
    · exact ht.answer _

theorem execTransmit_blameless {prio : BitVec 3} {w ts : Word} {id : CanId} {ide rtr : Bool}
    {len : BitVec 4} {data : BitVec 64} (h : s.Blameless) :
    EndsBlameless (execTransmit b prio w id ide rtr len data ts s) := by
  refine h.withHandle b fun m => ?_
  split
  · refine h.onSlot_finish _ (enqueue_internal _ _ _) fun r t ht => ?_
    split
    · exact ht.answer _
    · split
      · exact ht.same rfl rfl rfl rfl
      · exact ht.answer _
  · exact h.reply _

theorem execRxRead_blameless (h : s.Blameless) : EndsBlameless (execRxRead b s) := by
  refine h.withHandle b fun m => h.onSlot_finish _ rxPop_internal fun o t ht => ?_
  cases o with
  | none => exact ht.answer _
  | some msg => exact ht.answer _

/-! ## The event handlers -/

theorem State.Blameless.count (h : s.Blameless) (i : Nat) (f : Stats → Stats) :
    (s.onSlot i (countStat s.params f)).Blameless :=
  h.onSlot i fun _ => trivial

theorem State.Blameless.indicate (h : s.Blameless) (i : Nat) : (indicate i s).Blameless := by
  unfold Machine.indicate
  split
  · exact ⟨rfl, h⟩
  · next m _ =>
    cases hled : m.cfg.rxLedEn with
    | false => exact h
    | true => exact h.same rfl rfl rfl rfl

theorem State.Blameless.deliver (h : s.Blameless) (i : Nat) (msg : Message) :
    (deliver i msg s).Blameless := by
  unfold Machine.deliver
  split
  · exact h.emit _ _
  · refine (h.onSlot i (rxPush_internal msg)).andThen fun r t ht => ?_
    cases r with
    | pushed => exact ht
    | dropped => exact ht.emit _ _

theorem State.Blameless.receive {a : DrvAnswer} (h : s.Blameless) (i : Nat)
    (ha : rxHeaderOk a.hdr = true) : (receive i a s).Blameless := by
  rw [Machine.receive, if_pos ha]
  refine (h.count i _).andThen fun _ t ht => ?_
  exact (ht.indicate i).andThen fun _ u hu => hu.deliver i _

theorem State.Blameless.reportCompletion (h : s.Blameless) (i : Nat) (was : Mailbox) :
    (reportCompletion i was s).Blameless := by
  unfold Machine.reportCompletion
  split
  · exact (h.count i _).andThen fun _ t ht => ht.emit _ _
  · exact h

theorem State.Blameless.reportError (h : s.Blameless) (i : Nat) (c : Word) :
    (reportError i c s).Blameless := by
  unfold Machine.reportError
  split
  · exact (h.emit _ _).emit _ _
  · exact h.emit _ _

theorem execEvtRxPending_blameless {fifo : BitVec 1} (h : s.Blameless) :
    EndsBlameless (execEvtRxPending b fifo s) := by
  refine h.withEvent b fun i => ?_
  split
  · exact (h.request _).receive i (State.nextAnswer_hdr_ok h.lawful)
  · exact (h.request _).emit _ _

theorem execEvtTxComplete_blameless {mb : Byte} (h : s.Blameless) :
    EndsBlameless (execEvtTxComplete b mb s) := by
  refine h.withEvent b fun i => ?_
  refine (h.onSlot i (completeMb_internal _)).andThen fun was t ht => ?_
  refine (ht.reportCompletion i was).andThen fun _ u hu => ?_
  exact (hu.submitNextIsr i).andThen fun _ v hv => hv

theorem execEvtError_blameless (h : s.Blameless) : EndsBlameless (execEvtError b s) := by
  refine h.withEvent b fun i => ?_
  exact ((h.request (.errorCode b)).count i _).andThen fun _ t ht => ht.reportError i _

/-! ## Every instruction, and the environment's turn -/

theorem exec_blameless (x : Instr) (h : s.Blameless) : EndsBlameless (exec x s) := by
  cases x with
  | allocate p lb sil artx led => exact execAllocate_blameless h
  | free c => exact execFree_blameless h
  | addFilter c fifo id ide mask => exact execAddFilter_blameless h
  | start c => exact execStart_blameless h
  | stop c => exact execStop_blameless h
  | registerCb c kind en => exact h.withHandle c fun m => (h.setSlot _ _).reply _
  | transmit c prio txid id ide rtr len data ts => exact execTransmit_blameless h
  | abortTx c txid =>
    exact h.withHandle c fun m =>
      h.onSlot_finish _ (removeByTxId_internal txid) fun _ t ht => ht.answer _
  | getOccupancy c => exact h.withHandle c fun m => h.reply _
  | rxRead c => exact execRxRead_blameless h
  | getBusState c => exact h.withHandle c fun m => (h.request _).reply _
  | getErrorCounters c => exact h.withHandle c fun m => (h.request _).reply _
  | getStats c => exact h.withHandle c fun m => h.reply _
  | evtRxPending p fifo => exact execEvtRxPending_blameless h
  | evtTxComplete p mb => exact execEvtTxComplete_blameless h
  | evtError p => exact execEvtError_blameless h

theorem State.Blameless.popTurn (h : s.Blameless) : s.popTurn.Blameless := by
  obtain ⟨hans, hturns⟩ := Bool.and_eq_true_iff.mp h.lawful
  refine ⟨Bool.and_eq_true_iff.mpr ⟨hans, List.all_eq_true.mpr fun x hx => ?_⟩, h.fault⟩
  exact List.all_eq_true.mp hturns x (List.mem_of_mem_tail hx)

theorem acceptCommand_blameless (c : CmdRecord) (h : s.Blameless) :
    EndsBlameless (acceptCommand c s) := by
  unfold acceptCommand
  split
  · exact exec_blameless _ h
  · exact h.reply _

/-- An event word that is an instruction does not fault at decode (30_encoding.md R121). -/
theorem handleEvent_blameless {w : Word} (h : s.Blameless)
    (hw : (instrOf s.params (.event w)).isSome = true) : EndsBlameless (handleEvent w s) := by
  obtain ⟨x, hx⟩ := Option.isSome_iff_exists.mp hw
  rw [handleEvent, hx]
  exact exec_blameless x (h.same rfl rfl rfl rfl)

/-- No event word that a lawful environment presents is malformed (30_encoding.md R121). -/
theorem State.Blameless.head_event {w : Word} {rest : List Turn} (h : s.Blameless)
    (ht : s.turns = .present (.event w) :: rest) :
    (instrOf s.params (.event w)).isSome = true := by
  obtain ⟨-, hturns⟩ := Bool.and_eq_true_iff.mp h.lawful
  exact List.all_eq_true.mp hturns (.present (.event w)) (by simp [ht])

theorem takeTurn_blameless (h : s.Blameless) : EndsBlameless (takeTurn s) := by
  unfold takeTurn
  split
  · exact normalStep_blameless h
  · exact normalStep_blameless h.popTurn
  · next ht => exact handleEvent_blameless h.popTurn (h.head_event ht)
  · split
    · exact acceptCommand_blameless _ h.popTurn
    · exact normalStep_blameless h

/-! ## Runs -/

/-- A good block with no fault in a lawful environment makes its step and is one again: the
environment is not to blame for a fault, and the invariant leaves no other. -/
theorem step_lawful (hg : s.Good) (hf : s.fault = none) (hl : s.lawful = true) :
    ∃ t, Sys2Proof.core.step s = .next t ∧ t.Good ∧ t.fault = none ∧ t.lawful = true := by
  obtain ⟨t, ht, hb⟩ := takeTurn_blameless (s := s) ⟨hl, by simp [hf]⟩
  obtain ⟨hinv, -⟩ := takeTurn_keeps hg hf ht
  obtain ⟨hgood, hfault⟩ := hb.good_of_inv hinv
  have hstep : step s = atBoundary (takeTurn s) := by simp only [step, runStep, hf]
  exact ⟨t, hstep.trans ((atBoundary_next ht).2 hgood.boundary), hgood, hfault, hb.lawful⟩

/-- Settles O15, by induction on the number of steps. -/
theorem lawfulRunsNeverFault : Obligations.LawfulRunsNeverFault := by
  intro s hg hf hl n
  induction n generalizing s with
  | zero => exact ⟨s, rfl, hf, hg⟩
  | succ n ih =>
    obtain ⟨t, hstep, hg', hf', hl'⟩ := step_lawful hg hf hl
    obtain ⟨u, hrun, hu⟩ := ih t hg' hf' hl'
    exact ⟨u, by simp only [Host.Core.run, hstep, hrun], hu⟩

end Sys2Proof.Machine

/-! A command on a handle that names no allocated Module (60_exceptions.md R402, 30_encoding.md
R133). -/

namespace Sys2Proof.Machine

variable {s : State} {h : Byte}

theorem State.claimed?_eq_none :
    s.claimed? h = none ↔ ∀ m, s.slot? h.toNat = some m → m.allocated = false := by
  simp only [Option.eq_none_iff_forall_ne_some, ne_eq, State.claimed?_eq_some, not_and,
    Bool.not_eq_true]

/-- A handle out of range, or of a free slot, is no Module's (60_exceptions.md R402, check 2). -/
theorem State.claimed?_of_bad
    (hbad : s.params.nInst ≤ h.toNat ∨ ∃ m, s.slot? h.toNat = some m ∧ m.allocated = false) :
    s.claimed? h = none := by
  refine State.claimed?_eq_none.mpr fun m hm => ?_
  rcases hbad with hout | ⟨m', hm', hfree⟩
  · exact absurd (State.slot?_eq_some.mp hm).1 (Nat.not_lt.mpr hout)
  · rwa [Option.some.inj (hm.symm.trans hm')]

/-- The handle check of every command comes before all else it does. -/
theorem exec_of_unclaimed {x : Instr} (hx : handleOf x = some h) (hc : s.claimed? h = none) :
    exec x s = .next (s.answer (.ofResult .invalidHandle)) := by
  cases x with
  | allocate p lb sil artx led => cases hx
  | evtRxPending p fifo => cases hx
  | evtTxComplete p mb => cases hx
  | evtError p => cases hx
  | _ => cases hx; exact State.withHandle_none hc

/-- Settles O23: no Module is claimed, so every command answers before it reads its other
operands. -/
theorem badHandleIsInvalidHandle : Obligations.BadHandleIsInvalidHandle :=
  fun _ _ _ hx hbad => exec_of_unclaimed hx (State.claimed?_of_bad hbad)

end Sys2Proof.Machine

/-! The driver answers that break the contract inside a handler (60_exceptions.md R424, R425,
R430). -/

namespace Sys2Proof.Machine

variable {s t : State} {i : Nat} {p mb : Byte} {m m' : CanModule} {rs : List DrvRequest}
  {ns : List Notification}

/-! ## EVT_RX_PENDING -/

/-- A header outside the contract's clause (60_exceptions.md R424). -/
theorem rxHeaderOk_of_breach {h : RxHeader}
    (hb : 8 < h.len.toNat ∨ (h.ide = false ∧ 0x7FF < h.id.toNat)) : rxHeaderOk h = false := by
  rcases hb with hlen | hid
  · simp [rxHeaderOk, Nat.not_le.mpr hlen]
  · simp [rxHeaderOk, stdOverflow_iff.mpr hid]

/-- A pull that brings an illegal header faults before anything is counted
(44_interrupt_dispatch.md R321). -/
theorem StartedOn.receives_breach (ho : StartedOn p i m s) (hg : s.Good) (fifo : BitVec 1)
    (hok : s.nextAnswer.ok = true) (hhdr : rxHeaderOk s.nextAnswer.hdr = false) :
    exec (.evtRxPending p fifo) s = .next ((s.request (.getRx p fifo)).raise .driverContract) := by
  simp only [exec, execEvtRxPending, ho.withEvent hg, hok, if_true, receive, hhdr,
    Bool.false_eq_true, if_false, Run.finish_fault]

/-! ## EVT_TX_COMPLETE -/

/-- A good state's tracker has a slot for every mailbox, so EVT_TX_COMPLETE comes to its submission
with the queues still in order (44_interrupt_dispatch.md R330). -/
theorem StartedOn.reaches_submission (ho : StartedOn p i m s) (hg : s.Good)
    (hmb : mb.toNat < s.params.numMb) :
    ∃ was u ns, exec (.evtTxComplete p mb) s = (submitNextIsr i u).finish ∧
      Handled s i [] ns (m.completed s.params mb.toNat was) u := by
  have hlt : mb.toNat < m.mb.length := (hg.sound ho.slot).mbLen.symm ▸ hmb
  obtain ⟨u, hexec, hu⟩ := ho.completes hg (List.getElem?_eq_getElem hlt)
  exact ⟨_, u, _, hexec, hu⟩

/-- A free count above `NUM_MB` ends the submission at its first question (60_exceptions.md R425). -/
theorem Handled.submission_count_breach (h : Handled s i rs ns m t)
    (hgt : s.params.numMb < (s.answerAt rs.length).count) :
    submitNextIsr i t = .fault .driverContract (t.request (.freeMb m.cfg.periph)) := by
  rw [← h.nextAnswer, ← h.only.params] at hgt
  simp only [submitNextIsr, h.slot, drvFreeMb_eq_fault.mpr ⟨hgt, rfl, rfl⟩, Run.andThen_fault]

/-- A reported mailbox at or above `NUM_MB` ends the submission at the tracker record
(42_mailbox_tracker.md R233). -/
theorem Handled.addTx_breach {e : Nat} {en : Entry} (h : Handled s i rs ns m t)
    (hlive : liveEntry? s.params m e = some en) (hok : (s.answerAt rs.length).ok = true)
    (hmb : s.params.numMb ≤ (s.answerAt rs.length).mb) :
    Machine.addTx i e t = .fault .driverContract ((t.requestAdd m en).noteSubmitted en.txId) := by
  rw [← h.nextAnswer] at hok hmb
  rw [← h.only.params] at hmb hlive
  simp only [Machine.addTx, h.slot, hlive, submitEntry_of_mailbox_excess h.slot hok hmb]

/-- The breach of the reported mailbox, from the first question of the submission on. -/
theorem Handled.submission_mailbox_breach {e : Nat} {en : Entry} (h : Handled s i rs ns m t)
    (hpos : 0 < (s.answerAt rs.length).count)
    (hle : (s.answerAt rs.length).count ≤ s.params.numMb)
    (htake : dequeueHighest s.params m = .ok (some e) m')
    (hlive : liveEntry? s.params m' e = some en)
    (hok : (s.answerAt (rs.length + 1)).ok = true)
    (hmb : s.params.numMb ≤ (s.answerAt (rs.length + 1)).mb) :
    ∃ u, submitNextIsr i t = .fault .driverContract u := by
  have hreq := h.request (.freeMb m.cfg.periph)
  have hlen : (rs ++ [DrvRequest.freeMb m.cfg.periph]).length = rs.length + 1 := by simp
  obtain ⟨v, hdeq, hv⟩ := hreq.onSlot htake
  rw [← hreq.only.params] at hdeq
  have hadd := hv.addTx_breach hlive (hlen ▸ hok) (hlen ▸ hmb)
  exact ⟨(v.requestAdd m' en).noteSubmitted en.txId, by
    simp only [submitNextIsr, h.slot, h.drvFreeMb hle, hpos.ne', if_false, hdeq, hadd,
      Run.andThen_ok, Run.andThen_fault]⟩

/-- Settles O48: the header is refused at the parse, the count at the first question of the
submission, and the mailbox after an Entry has been taken from the queues. -/
theorem contractBreachFaults : Obligations.ContractBreachFaults := by
  intro s p i m hg ho
  refine ⟨fun fifo hok hbreach => ?_, fun mb hmb hgt => ?_,
    fun mb hmb hpos hle hqueued hok hbreach => ?_⟩
  · rw [State.answerAt_zero] at hok hbreach
    exact ⟨_, ho.receives_breach hg fifo hok (rxHeaderOk_of_breach hbreach), rfl⟩
  · obtain ⟨was, u, ns, hexec, hu⟩ := ho.reaches_submission hg hmb
    rw [hexec, hu.submission_count_breach hgt]
    exact ⟨_, rfl, rfl⟩
  · obtain ⟨was, u, ns, hexec, hu⟩ := ho.reaches_submission hg hmb
    obtain ⟨out, hsound⟩ := ho.completed_queuesSound hg mb.toNat was
    rcases dequeueHighest_takes hsound with ⟨hnil, -⟩ | ⟨e, m', htake, -, hsound'⟩
    · exact absurd hnil hqueued
    · obtain ⟨en, hlive⟩ := hsound'.exists_live (e := e) (by simp)
      obtain ⟨v, hsub⟩ := hu.submission_mailbox_breach hpos hle htake hlive hok hbreach
      rw [hexec, hsub]
      exact ⟨_, rfl, rfl⟩

end Sys2Proof.Machine

/-! Power-on reset, and the block that waits after it (70_reset_and_hazards.md R450, R451, R482). -/

namespace Sys2Proof.Machine

variable {s : State} {p : Params} {i : Nat} {m : CanModule}

/-! ## A block that waits -/

/-- With nothing presented and no command in progress the step is the idle one (log 16). -/
theorem step_of_idle (hf : s.fault = none) (ht : s.turns = []) (hp : s.nctx.phase = .idle)
    (hb : s.boundaryOk = true) : step s = .next s := by
  have hidle : takeTurn s = .next s := by simp only [takeTurn, ht, normalStep, hp]
  have hstep : step s = atBoundary (takeTurn s) := by simp only [step, runStep, hf]
  exact hstep.trans ((atBoundary_next hidle).2 hb)

/-- A state that a step leaves as it is, is left so by any number of steps. -/
theorem run_of_step_self (h : step s = .next s) (n : Nat) :
    Host.Core.run Sys2Proof.core n s = .next s := by
  induction n with
  | zero => rfl
  | succ n ih =>
    have hs : Sys2Proof.core.step s = .next s := h
    simp only [Host.Core.run, hs, ih]

/-- Settles O10: the one idle step changes nothing, so no number of them does. -/
theorem idleBlockWaits : Obligations.IdleBlockWaits :=
  fun _ hf ht hp hb => run_of_step_self (step_of_idle hf ht hp hb)

/-! ## The state after power-on reset -/

/-- After reset every slot of the table is the zero slot (70_reset_and_hazards.md R450). -/
theorem State.resetWith_slot?_eq_some :
    (State.resetWith p).slot? i = some m ↔ i < p.nInst ∧ m = CanModule.zero p := by
  simp only [State.slot?_eq_some, State.resetWith, List.getElem?_replicate]
  constructor
  · rintro ⟨hi, hm⟩
    rw [if_pos hi] at hm
    exact ⟨hi, (Option.some.inj hm).symm⟩
  · rintro ⟨hi, rfl⟩
    exact ⟨hi, if_pos hi⟩

/-- Settles O12: every slot is the zero slot, whose fields are those written out. -/
theorem resetLeavesZero : Obligations.ResetLeavesZero := by
  refine fun p => ⟨fun h => ?_, fun h m hm => ?_, rfl, rfl, rfl, rfl⟩
  · simp only [State.resetWith_slot?_eq_some, exists_and_left, exists_eq, and_true]
  · obtain ⟨-, rfl⟩ := State.resetWith_slot?_eq_some.mp hm
    exact ⟨rfl, rfl, rfl, rfl, rfl, rfl, rfl, rfl, rfl, rfl, rfl, rfl, rfl⟩

/-! ## The invariants at reset -/

/-- No peripheral is claimed after reset (10_state.md R54). -/
theorem State.resetWith_unallocated (hm : m ∈ (State.resetWith p).modules) :
    m.allocated = false := by
  rw [List.eq_of_mem_replicate hm]
  rfl

/-- The state after reset is good: each slot is the zero slot, and no Entry is held. -/
theorem State.resetWith_good (p : Params) : (State.resetWith p).Good := by
  have htable : (State.resetWith p).modules.length = p.nInst := List.length_replicate
  have hslots : ∀ i m, (State.resetWith p).slot? i = some m → m.Sound p [] := fun i m hm => by
    obtain ⟨-, rfl⟩ := State.resetWith_slot?_eq_some.mp hm
    exact CanModule.zero_sound p
  have hperiphs : (State.resetWith p).claimedPeriphs.Nodup :=
    (State.claimedPeriphs_nodup_iff htable).mpr fun i j m m' _ hm _ ha _ => by
      simp [State.resetWith_unallocated (State.mem_of_slot? hm)] at ha
  exact State.good_iff.mpr ⟨htable, hslots, hperiphs, rfl⟩

/-- With no history every peripheral is inactive, and no Module claims one (10_state.md R47). -/
theorem State.resetWith_trackerInv (p : Params) : (State.resetWith p).TrackerInv where
  recorded := rfl
  tracked := fun q v hv => by
    obtain rfl : PeriphView.initial p = v := Option.some.inj hv
    refine ⟨fun m hm ha => ?_, fun _ => rfl⟩
    simp [State.resetWith_unallocated hm] at ha

/-- Settles O13: the base case of both invariants, for every configuration. -/
theorem resetMeetsInvariants : Obligations.ResetMeetsInvariants :=
  ⟨fun p => ⟨State.resetWith_good p, State.resetWith_trackerInv p⟩,
    State.resetWith_good Params.reference⟩

end Sys2Proof.Machine
